-- ==== Sys2Proof/Word.lean ====
section
/-! DEFINITION. The word types of the machine: bytes, halfwords, 32-bit words and register numbers (R10, R50, R152). -/

namespace Sys2Proof

/-- The unit of addressing (R100). -/
abbrev Byte := BitVec 8

/-- The unit of instruction fetch (R103, R140). -/
abbrev Half := BitVec 16

/-- A register value or an address: `XLEN` is 32 (R5, R50, R100). -/
abbrev Word := BitVec 32

/-- A 4-bit register number, R0 to R15 (R152). -/
abbrev RegNum := BitVec 4

/-- A 3-bit register number, R0 to R7, the low registers (R51, R152). -/
abbrev LowReg := BitVec 3

/-- An exception number: the width of `IPSR[5:0]` (R66, R505). -/
abbrev ExcNum := BitVec 6

end Sys2Proof
end

