-- ==== Sys2Proof/Config.lean ====
section
/-! DEFINITION. What an implementation fixes (the parameters of R5, as plain data that every state carries and no step
changes) and the free values the spec leaves open (R34, D8, D15), which have no body. -/

namespace Sys2Proof

/-- The three kinds of access the platform is asked about (R5, R108). -/
inductive AccessKind where
  | read
  | write
  | fetch
deriving DecidableEq, Repr

/-- One region of the platform's address map: a row of the parameter `Admits` (R5, R108, D3). It covers the byte
addresses from `base` to `base + size - 1`. -/
structure Region where
  base : Nat
  size : Nat
  canRead : Bool
  canWrite : Bool
  canFetch : Bool
  /-- Only privileged accesses are admitted (R108 'an unprivileged mode: forbidden regions', R530). -/
  privOnly : Bool
deriving DecidableEq, Repr

/-- A range of byte addresses that holds program text (R109, R125). -/
structure TextRange where
  base : Nat
  size : Nat
deriving DecidableEq, Repr

/-- What happens after an exception is raised: the parameter `TrapEntry` (R5, R510, D4). -/
inductive TrapEntry where
  /-- The run ends with the exception raised (R510, D4). -/
  | terminal
  /-- The exception is entered as the architecture does (R511, R522). -/
  | architecture
deriving DecidableEq, Repr

/-- The implementation parameters of R5 that a rule uses. -/
structure Config where
  /-- `DATA_BIG_ENDIAN`: the byte order of data accesses (R102, D1). -/
  bigEndian : Bool
  /-- `DEBUG_HALT`: BKPT halts into debug (R503, D16). -/
  debugHalt : Bool
  /-- `HAS_UNPRIV`: the unprivileged extension, CONTROL bit 0 (R66, R530). -/
  hasUnpriv : Bool
  /-- `TrapEntry`: what raising an exception does (R510, R511, D4). -/
  trapEntry : TrapEntry
  /-- The restriction of D20 and D21: MRS and MSR refuse what would leave the model of one stack pointer (R320, R330). -/
  singleStack : Bool
  /-- `VectorTable`: the address of the vector table (R80, R505). -/
  vectorTable : Word
  /-- The priority level (two bits: priority 0, 64, 128 or 192) of an exception of configurable priority; one that is
  not listed has level 0 (R505). -/
  levels : List (ExcNum × BitVec 2)
  /-- `Admits`: an access is admitted when one region covers it and permits it (R108, D3). -/
  regions : List Region
  /-- The bytes the launch marks as program text; a store into them is refused (R125, D14). -/
  text : List TextRange
deriving DecidableEq, Repr

/-- FREE VALUE. The `n`-th UNKNOWN word of a run (R34, D8): the word STM stores for a base register that is in its list
and not lowest (R370), and what R111 leaves with no defined value. -/
opaque Config.freeWord : Nat → Word

/-- FREE VALUE. The `n`-th choice a hint makes between retiring and suspending (R423, R424, D15): `true` suspends. -/
opaque Config.hintSuspends : Nat → Bool

end Sys2Proof
end

