-- ==== Sys2Proof/Machine/Platform.lean ====
section
/-! DEFINITION. The platform the machine has at reset: the defaults of R5, and an address map where the spec leaves the
map open (D3). Every state carries its own platform, so a claim about all states holds for every platform. -/

namespace Sys2Proof.Machine

/-- DESIGN CHOICE (notes/assumptions/5.md): at reset every address is plain storage that admits every access, but for the
system control space 0xE000E000 to 0xE000EFFF, which is outside `Admits` (R112, D3, D22). -/
def defaultRegions : List Region :=
  [{ base := 0, size := 0xE000E000, canRead := true, canWrite := true, canFetch := true, privOnly := false },
   { base := 0xE000F000, size := 0x1FFF1000, canRead := true, canWrite := true, canFetch := true, privOnly := false }]

/-- The defaults of R5: little-endian data (D1), no debug halt (D16), no unprivileged extension (D20), the vector table at
0x00000000 (R80), every priority level 0, no byte marked as program text, the terminal outcome of a raised exception (D4),
and one stack pointer (D20, D21). -/
def defaultConfig : Config :=
  { bigEndian := false, debugHalt := false, hasUnpriv := false, trapEntry := .terminal,
    singleStack := true, vectorTable := 0#32, levels := [],
    regions := defaultRegions, text := [] }

/-- The platform layer that wants handlers, which R510 lets replace `TrapEntry` by R511: exceptions are entered, and all else
is as in the defaults. PRESUMED (notes/assumptions/1.md): reset is on this platform. -/
def architectureConfig : Config := { defaultConfig with trapEntry := .architecture }

end Sys2Proof.Machine
end

