-- ==== Sys2Proof/Machine/State.lean ====
section
/-! DEFINITION. The state of the machine as plain data (10_state.md), why a step can stop, and the state after reset. -/

namespace Sys2Proof.Machine

/-- The two execution modes (R530). -/
inductive Mode where
  | thread
  | handler
deriving DecidableEq, Repr

/-- The flags N, Z, C, V (R61). -/
structure Apsr where
  n : Bool
  z : Bool
  c : Bool
  v : Bool
deriving DecidableEq, Repr

/-- The fields of CONTROL: bit 1 `SPSEL` and bit 0 `nPRIV` (R66, R530). -/
structure Control where
  spSel : Bool
  nPriv : Bool
deriving DecidableEq, Repr

/-- Why a HardFault was raised: the cause tags of R501 with their payloads. -/
inductive HardFaultCause where
  /-- An access of `n` bytes whose address is no multiple of `n` (R104). -/
  | align (addr : Word) (n : Nat)
  /-- A data access the platform does not admit (R108). -/
  | bus (addr : Word) (n : Nat) (kind : AccessKind)
  /-- A fetch of a halfword the platform does not admit (R109). -/
  | fetch (addr : Word)
  /-- An instruction about to execute with `T = 0` (R60). -/
  | state (ia : Word)
  /-- BKPT without debug halt (R503). -/
  | breakpoint (ia : Word) (imm8 : BitVec 8)
  /-- UDF or an unallocated encoding (R504). -/
  | undefined (ia : Word)
  /-- SVC when SVCall cannot be taken (R502). -/
  | svcEscalated (ia : Word)
deriving DecidableEq, Repr

/-- Whether the processor executes instructions, and if not, what it is in. -/
inductive RunState where
  | running
  /-- `WaitForEvent()` (R423, R535). -/
  | waitingForEvent
  /-- `WaitForInterrupt()` (R424, R535). -/
  | waitingForInterrupt
  /-- The debug halt of BKPT with `DEBUG_HALT` (R503, R534); `imm8` is the operand of the BKPT at `pc`. -/
  | halted (imm8 : BitVec 8)
  /-- The Lockup state (R522). -/
  | lockup
  /-- The outcome `Faulted(E, info, state)` of a raised exception where `TrapEntry` is terminal: its number and its return
  address (R510, R512). -/
  | raised (e : ExcNum) (ret : Word)
deriving DecidableEq, Repr

/-- Memory: the bytes that differ from what an unlisted address reads as, addresses rising (R70, R100). -/
abbrev Memory := List Host.Cell

/-- The bytes that stores have changed and that a fetch is not yet bound to see (R122, R123, R125, R612). -/
structure Modified where
  /-- The addresses stored to since the last DSB. -/
  stored : List Nat
  /-- The addresses stored to before the last DSB and not followed by an ISB since. -/
  drained : List Nat
deriving DecidableEq, Repr

/-- The whole state of the machine. -/
structure State where
  /-- R0 to R12 (R50). -/
  regs : Vector Word 13
  /-- The main stack pointer (R54, R66, R530). -/
  msp : Word
  /-- The process stack pointer (R54, R66, R530). -/
  psp : Word
  /-- R14, the link register (R55). -/
  lr : Word
  /-- The address of the next instruction to execute (R57). -/
  pc : Word
  /-- The flags (R61). -/
  apsr : Apsr
  /-- EPSR.T: 1 is Thumb state (R60). -/
  t : Bool
  /-- The number of the exception being handled, 0 in Thread mode (R66, R505). -/
  ipsr : ExcNum
  /-- Thread or Handler mode (R530). -/
  mode : Mode
  /-- PRIMASK.PM (R67). -/
  primask : Bool
  /-- CONTROL (R66). -/
  control : Control
  /-- The event register (R68). -/
  event : Bool
  /-- The pending asynchronous exceptions, in no order; nothing inside the machine adds one (R69, R506). -/
  pending : List ExcNum
  /-- Executing, waiting, halted or locked up (R423, R424, R503, R522). -/
  run : RunState
  /-- Memory (R70). -/
  mem : Memory
  /-- MODEL'S OWN FIELD: the bytes stored to without a DSB and then an ISB, which may not be fetched (R125, R612). -/
  modified : Modified
  /-- The platform: the parameters of R5, which no step changes. -/
  cfg : Config
  /-- MODEL'S OWN FIELD: the payload of the last HardFault raised, which no instruction can read (R501). -/
  lastFault : Option HardFaultCause
  /-- MODEL'S OWN FIELD: how many free values the run has drawn (D8, D15). -/
  freeIdx : Nat
deriving DecidableEq, Repr

/-- Why the machine takes no further step although the state is legal. Each is a stuck state the spec describes, and safe:
the model stops where hardware goes no further without something from outside the core. -/
inductive Fault where
  /-- Raised by `step` in a wait that no pending exception or event ends: the outcome `Waiting` (R423, R424, R535).
  Safe. -/
  | waiting
  /-- Raised by `step` after a debug halt: the outcome `halted` (R503, R534). Safe. -/
  | debugHalted
  /-- Raised by `step` in Lockup, which only reset, NMI or a debugger ends (R522). Safe. -/
  | lockup
  /-- Raised by `step` after an exception where `TrapEntry` is terminal (R510). Safe. -/
  | exceptionRaised
deriving DecidableEq, Repr

/-- Why a step has no meaning in the model. Each is safe: the model stops, so no claim can be proved from it. -/
inductive Refusal where
  /-- An instruction without a meaning yet; raised by `exec` alone. -/
  | notModelled (mnemonic : String)
  /-- Field values the spec makes UNPREDICTABLE; raised by the meanings of ADD (register) T2, BLX, BX, CMP (register) T2,
  LDM, STM, PUSH, POP, MRS and MSR (R34, R164, R320, R330, D7). -/
  | unpredictable
  /-- A should-be bit with the other value; raised by the meanings of BLX, BX, CPS, DMB, DSB, ISB, MRS and MSR
  (R163, D9). -/
  | shouldBeBits
  /-- MRS or MSR with a `SYSm` the spec does not allocate; raised by their meanings (R66, R320, R330). -/
  | reservedSysm (sysm : BitVec 8)
  /-- An access to PSP, or a write of CONTROL other than zero, where the platform has the restriction of D21; raised by the
  meanings of MRS and MSR (R320, R330, D21). -/
  | outsideSingleStack (sysm : BitVec 8)
  /-- A fetch of a byte that a store has changed and no DSB followed by an ISB has made visible; raised by the fetch
  (R125, R612). -/
  | unsynchronisedFetch (addr : Word)
  /-- An exception return value whose low four bits are UNPREDICTABLE; raised by the exception return of BX and POP
  (R520). -/
  | unpredictableReturn (value : Word)
  /-- A store that overlaps program text; raised by every store and by stacking (R125, D14). -/
  | storeToProgramText (addr : Word)
  /-- An unallocated hint; raised by `step` (R165, D15, C15). -/
  | unallocatedHint (hint : BitVec 4)
  /-- A 32-bit instruction whose second halfword would lie past 0xFFFFFFFF; raised by the fetch (R59, D19). -/
  | straddlesTop (addr : Word)
deriving DecidableEq, Repr

/-- The outcome of a step or of a meaning. -/
abbrev Result := Host.Outcome State Fault Refusal

/-- The machine right after reset (R80, R600). The spec's values: `T`, PRIMASK.PM, CONTROL, IPSR, Thread mode, LR, and SP
and pc as the words at `VectorTable` and `VectorTable + 4` of a memory that lists nothing. DESIGN CHOICE
(notes/assumptions/2.md): R0 to R12, PSP, the flags and the event register are zero. -/
def State.reset : State :=
  { regs := Vector.replicate 13 0#32
    msp := 0#32
    psp := 0#32
    lr := 0xFFFFFFFF#32
    pc := 0#32
    apsr := { n := false, z := false, c := false, v := false }
    t := true
    ipsr := 0#6
    mode := .thread
    primask := false
    control := { spSel := false, nPriv := false }
    event := false
    pending := []
    run := .running
    mem := []
    modified := { stored := [], drained := [] }
    cfg := architectureConfig
    lastFault := none
    freeIdx := 0 }

/-! The named updates of one component, each with its lemmas in Laws/State.lean. -/

def State.withRegs (s : State) (v : Vector Word 13) : State := { s with regs := v }
def State.withMsp (s : State) (v : Word) : State := { s with msp := v }
def State.withPsp (s : State) (v : Word) : State := { s with psp := v }
def State.withLr (s : State) (v : Word) : State := { s with lr := v }
def State.withPc (s : State) (v : Word) : State := { s with pc := v }
def State.withApsr (s : State) (v : Apsr) : State := { s with apsr := v }
def State.withT (s : State) (v : Bool) : State := { s with t := v }
def State.withPrimask (s : State) (v : Bool) : State := { s with primask := v }
def State.withControl (s : State) (v : Control) : State := { s with control := v }
def State.withEvent (s : State) (v : Bool) : State := { s with event := v }
def State.withRun (s : State) (v : RunState) : State := { s with run := v }
def State.withMem (s : State) (v : Memory) : State := { s with mem := v }
def State.withModified (s : State) (v : Modified) : State := { s with modified := v }
def State.withLastFault (s : State) (v : Option HardFaultCause) : State := { s with lastFault := v }
def State.withFreeIdx (s : State) (v : Nat) : State := { s with freeIdx := v }

end Sys2Proof.Machine
end

