-- ==== Sys2Proof/Syntax.lean ====
section
/-! DEFINITION. The instructions: one constructor for each of the 85 rows of spec/opcode_table.json, in the order of R144.
A field is the bits of the encoding that carry it; `sb` holds the should-be bits of an encoding that has them (R163),
most significant first, so that a word with wrong should-be bits is still that instruction and is declined by its
meaning (D9). -/

namespace Sys2Proof

/-- The condition of `B<c>` T1: the fourteen values of `cond` that R223 leaves it (R32). -/
inductive Cond where
  | eq | ne | cs | cc | mi | pl | vs | vc | hi | ls | ge | lt | gt | le
deriving DecidableEq, Repr

/-- The instructions of R144. -/
inductive Instr where
  /-- ADCS, R200. -/
  | adc (rdn rm : LowReg)
  /-- ADDS (immediate) T1, R201. -/
  | addImmT1 (rd rn : LowReg) (imm3 : BitVec 3)
  /-- ADDS (immediate) T2, R202. -/
  | addImmT2 (rdn : LowReg) (imm8 : BitVec 8)
  /-- ADDS (register) T1, R203. -/
  | addRegT1 (rd rn rm : LowReg)
  /-- ADD (register) T2, R204; `rdn` is `DN:Rdn`. -/
  | addRegT2 (rdn rm : RegNum)
  /-- ADD (SP plus immediate) T1, R205. -/
  | addSpImmT1 (rd : LowReg) (imm8 : BitVec 8)
  /-- ADD (SP plus immediate) T2, R206. -/
  | addSpImmT2 (imm7 : BitVec 7)
  /-- ADD (SP plus register) T1, R207; `rdm` is `DM:Rdm`. -/
  | addSpRegT1 (rdm : RegNum)
  /-- ADD (SP plus register) T2, R208. -/
  | addSpRegT2 (rm : RegNum)
  /-- ADR, R209. -/
  | adr (rd : LowReg) (imm8 : BitVec 8)
  /-- ANDS, R220. -/
  | andReg (rdn rm : LowReg)
  /-- ASRS (immediate), R221. -/
  | asrImm (rd rm : LowReg) (imm5 : BitVec 5)
  /-- ASRS (register), R222. -/
  | asrReg (rdn rm : LowReg)
  /-- B<c> T1, R223. -/
  | bT1 (cond : Cond) (imm8 : BitVec 8)
  /-- B T2, R224. -/
  | bT2 (imm11 : BitVec 11)
  /-- BICS, R225. -/
  | bic (rdn rm : LowReg)
  /-- BKPT, R226. -/
  | bkpt (imm8 : BitVec 8)
  /-- BL, R227. -/
  | bl (sbit : BitVec 1) (imm10 : BitVec 10) (j1 j2 : BitVec 1) (imm11 : BitVec 11)
  /-- BLX (register), R228; `sb` is `instr[2:0]`. -/
  | blx (rm : RegNum) (sb : BitVec 3)
  /-- BX, R229; `sb` is `instr[2:0]`. -/
  | bx (rm : RegNum) (sb : BitVec 3)
  /-- CMN, R250. -/
  | cmn (rn rm : LowReg)
  /-- CMP (immediate), R251. -/
  | cmpImm (rn : LowReg) (imm8 : BitVec 8)
  /-- CMP (register) T1, R252. -/
  | cmpRegT1 (rn rm : LowReg)
  /-- CMP (register) T2, R253; `rn` is `N:Rn`. -/
  | cmpRegT2 (rn rm : RegNum)
  /-- CPS, R258; `sb` is `instr[3:0]`. -/
  | cps (im : BitVec 1) (sb : BitVec 4)
  /-- DMB, R262; `sb` is `hw1[3:0] : hw2[13] : hw2[11:8]`. -/
  | dmb (option : BitVec 4) (sb : BitVec 9)
  /-- DSB, R263; `sb` is `hw1[3:0] : hw2[13] : hw2[11:8]`. -/
  | dsb (option : BitVec 4) (sb : BitVec 9)
  /-- EORS, R265. -/
  | eor (rdn rm : LowReg)
  /-- ISB, R267; `sb` is `hw1[3:0] : hw2[13] : hw2[11:8]`. -/
  | isb (option : BitVec 4) (sb : BitVec 9)
  /-- LDM, R280. -/
  | ldm (rn : LowReg) (registerList : BitVec 8)
  /-- LDR (immediate) T1, R281. -/
  | ldrImmT1 (rt rn : LowReg) (imm5 : BitVec 5)
  /-- LDR (immediate) T2, R282. -/
  | ldrImmT2 (rt : LowReg) (imm8 : BitVec 8)
  /-- LDR (literal), R283. -/
  | ldrLit (rt : LowReg) (imm8 : BitVec 8)
  /-- LDR (register), R284. -/
  | ldrReg (rt rn rm : LowReg)
  /-- LDRB (immediate), R285. -/
  | ldrbImm (rt rn : LowReg) (imm5 : BitVec 5)
  /-- LDRB (register), R286. -/
  | ldrbReg (rt rn rm : LowReg)
  /-- LDRH (immediate), R287. -/
  | ldrhImm (rt rn : LowReg) (imm5 : BitVec 5)
  /-- LDRH (register), R288. -/
  | ldrhReg (rt rn rm : LowReg)
  /-- LDRSB (register), R289. -/
  | ldrsb (rt rn rm : LowReg)
  /-- LDRSH (register), R290. -/
  | ldrsh (rt rn rm : LowReg)
  /-- LSLS (immediate), R310. -/
  | lslImm (rd rm : LowReg) (imm5 : BitVec 5)
  /-- LSLS (register), R311. -/
  | lslReg (rdn rm : LowReg)
  /-- LSRS (immediate), R312. -/
  | lsrImm (rd rm : LowReg) (imm5 : BitVec 5)
  /-- LSRS (register), R313. -/
  | lsrReg (rdn rm : LowReg)
  /-- MOVS (immediate), R314. -/
  | movImm (rd : LowReg) (imm8 : BitVec 8)
  /-- MOV (register) T1, R315; `rd` is `D:Rd`. -/
  | movRegT1 (rd rm : RegNum)
  /-- MOVS (register) T2, R316. -/
  | movRegT2 (rd rm : LowReg)
  /-- MRS, R320; `sb` is `hw1[4] : hw1[3:0] : hw2[13]`. -/
  | mrs (rd : RegNum) (sysm : BitVec 8) (sb : BitVec 6)
  /-- MSR (register), R330; `sb` is `hw1[4] : hw2[13] : hw2[11:8]`. -/
  | msr (rn : RegNum) (sysm : BitVec 8) (sb : BitVec 6)
  /-- MULS, R332. -/
  | mul (rdm rn : LowReg)
  /-- MVNS, R333. -/
  | mvn (rd rm : LowReg)
  /-- NOP, R335. -/
  | nop
  /-- ORRS, R340. -/
  | orr (rdn rm : LowReg)
  /-- POP, R341; `p` is the bit that selects the PC. -/
  | pop (p : BitVec 1) (registerList : BitVec 8)
  /-- PUSH, R342; `m` is the bit that selects LR. -/
  | push (m : BitVec 1) (registerList : BitVec 8)
  /-- REV, R343. -/
  | rev (rd rm : LowReg)
  /-- REV16, R344. -/
  | rev16 (rd rm : LowReg)
  /-- REVSH, R345. -/
  | revsh (rd rm : LowReg)
  /-- RORS (register), R346. -/
  | ror (rdn rm : LowReg)
  /-- RSBS (immediate), R347. -/
  | rsb (rd rn : LowReg)
  /-- SBCS, R348. -/
  | sbc (rdn rm : LowReg)
  /-- SEV, R349. -/
  | sev
  /-- STM, R370. -/
  | stm (rn : LowReg) (registerList : BitVec 8)
  /-- STR (immediate) T1, R371. -/
  | strImmT1 (rt rn : LowReg) (imm5 : BitVec 5)
  /-- STR (immediate) T2, R372. -/
  | strImmT2 (rt : LowReg) (imm8 : BitVec 8)
  /-- STR (register), R373. -/
  | strReg (rt rn rm : LowReg)
  /-- STRB (immediate), R374. -/
  | strbImm (rt rn : LowReg) (imm5 : BitVec 5)
  /-- STRB (register), R375. -/
  | strbReg (rt rn rm : LowReg)
  /-- STRH (immediate), R376. -/
  | strhImm (rt rn : LowReg) (imm5 : BitVec 5)
  /-- STRH (register), R377. -/
  | strhReg (rt rn rm : LowReg)
  /-- SUBS (immediate) T1, R390. -/
  | subImmT1 (rd rn : LowReg) (imm3 : BitVec 3)
  /-- SUBS (immediate) T2, R391. -/
  | subImmT2 (rdn : LowReg) (imm8 : BitVec 8)
  /-- SUBS (register), R392. -/
  | subReg (rd rn rm : LowReg)
  /-- SUB (SP minus immediate), R393. -/
  | subSpImm (imm7 : BitVec 7)
  /-- SVC, R394. -/
  | svc (imm8 : BitVec 8)
  /-- SXTB, R395. -/
  | sxtb (rd rm : LowReg)
  /-- SXTH, R396. -/
  | sxth (rd rm : LowReg)
  /-- TST, R397. -/
  | tst (rn rm : LowReg)
  /-- UDF T1, R398. -/
  | udfT1 (imm8 : BitVec 8)
  /-- UDF T2, R399. -/
  | udfT2 (imm4 : BitVec 4) (imm12 : BitVec 12)
  /-- UXTB, R400. -/
  | uxtb (rd rm : LowReg)
  /-- UXTH, R401. -/
  | uxth (rd rm : LowReg)
  /-- WFE, R423. -/
  | wfe
  /-- WFI, R424. -/
  | wfi
  /-- YIELD, R425. -/
  | yield
deriving DecidableEq, Repr

end Sys2Proof
end

