-- ==== Sys2Proof/Machine/Flags.lean ====
section
/-! DEFINITION. The arithmetic and shift primitives (R20 to R23), every flag assignment of R61 and R62, and the conditions
of R32. -/

namespace Sys2Proof.Machine

/-- What `AddWithCarry` returns (R20). -/
structure Sum where
  result : Word
  carry : Bool
  overflow : Bool
deriving DecidableEq, Repr

/-- `AddWithCarry(x, y, c)` (R20): the exact unsigned and signed sums, narrowed, and compared with what was narrowed. -/
def addWithCarry (x y : Word) (c : Bool) : Sum :=
  let usum : Nat := x.toNat + y.toNat + c.toNat
  let ssum : Int := x.toInt + y.toInt + (c.toNat : Int)
  let result : Word := BitVec.ofNat 32 usum
  { result := result, carry := result.toNat != usum, overflow := result.toInt != ssum }

/-- The shift types of R21. -/
inductive SRType where
  | lsl
  | lsr
  | asr
  | ror
deriving DecidableEq, Repr

/-- LSL of `Shift_C` for `n >= 1` (R21). -/
def lslC (v : Word) (n : Nat) : Word × Bool :=
  (if n ≥ 32 then 0#32 else v <<< n, if n > 32 then false else v.getLsbD (32 - n))

/-- LSR of `Shift_C` for `n >= 1` (R21). -/
def lsrC (v : Word) (n : Nat) : Word × Bool :=
  (if n ≥ 32 then 0#32 else v >>> n, if n > 32 then false else v.getLsbD (n - 1))

/-- ASR of `Shift_C` for `n >= 1` (R21). -/
def asrC (v : Word) (n : Nat) : Word × Bool :=
  (if n ≥ 32 then (if v.getLsbD 31 then 0xFFFFFFFF#32 else 0#32) else v.sshiftRight n,
   if n ≥ 32 then v.getLsbD 31 else v.getLsbD (n - 1))

/-- ROR of `Shift_C` for `n >= 1` (R21). -/
def rorC (v : Word) (n : Nat) : Word × Bool :=
  let result := (v >>> (n % 32)) ||| (v <<< (32 - n % 32))
  (result, result.getLsbD 31)

/-- `Shift_C(v, type, n, cin)`: the result and the carry-out (R21). -/
def shiftC (v : Word) (type : SRType) (n : Nat) (cin : Bool) : Word × Bool :=
  if n = 0 then (v, cin)
  else match type with
    | .lsl => lslC v n
    | .lsr => lsrC v n
    | .asr => asrC v n
    | .ror => rorC v n

/-- The amount `DecodeImmShift` gives LSR and ASR (immediate): 0 stands for 32 (R23, R150). -/
def immShiftRight (imm5 : BitVec 5) : Nat := if imm5 = 0#5 then 32 else imm5.toNat

/-- The amount of a shift by a register: its bottom byte (R222, R311, R313, R346). -/
def regShift (v : Word) : Nat := (v.setWidth 8).toNat

/-- N and Z from a result, C and V unchanged (R62). -/
def Apsr.nz (f : Apsr) (result : Word) : Apsr := { f with n := result.getLsbD 31, z := result == 0#32 }

/-- N, Z and C from a shift, V unchanged (R62). -/
def Apsr.nzc (f : Apsr) (result : Word) (carry : Bool) : Apsr :=
  { f with n := result.getLsbD 31, z := result == 0#32, c := carry }

/-- N, Z, C and V from a sum (R61, R62). -/
def nzcv (r : Sum) : Apsr := { n := r.result.getLsbD 31, z := r.result == 0#32, c := r.carry, v := r.overflow }

/-- The flags in bits 31 to 28, the others zero (R64). -/
def Apsr.toWord (f : Apsr) : Word :=
  BitVec.ofBool f.n ++ BitVec.ofBool f.z ++ BitVec.ofBool f.c ++ BitVec.ofBool f.v ++ 0#28

/-- The flags from bits 31 to 28 (R64). -/
def apsrOfWord (v : Word) : Apsr :=
  { n := v.getLsbD 31, z := v.getLsbD 30, c := v.getLsbD 29, v := v.getLsbD 28 }

/-- `CondHolds(cond)` (R32). -/
def condHolds (f : Apsr) : Cond → Bool
  | .eq => f.z
  | .ne => !f.z
  | .cs => f.c
  | .cc => !f.c
  | .mi => f.n
  | .pl => !f.n
  | .vs => f.v
  | .vc => !f.v
  | .hi => f.c && !f.z
  | .ls => !f.c || f.z
  | .ge => f.n == f.v
  | .lt => f.n != f.v
  | .gt => !f.z && f.n == f.v
  | .le => f.z || f.n != f.v

end Sys2Proof.Machine
end

