-- ==== Sys2Proof/Machine/Operands.lean ====
section
/-! DEFINITION. The operand forms: immediates (R150), register operands and register lists (R152), the special registers
`SYSm` selects (R66), and the alignments of addresses and register values (R15, R53, R58). -/

namespace Sys2Proof.Machine

/-- The register a 3-bit field selects (R152). -/
def lowReg (r : LowReg) : RegNum := r.setWidth 4

/-- `zext_32(imm)` (R150). -/
def imm32 {w : Nat} (imm : BitVec w) : Word := imm.setWidth 32

/-- `zext_32(imm:'00')` (R150). -/
def imm32x4 {w : Nat} (imm : BitVec w) : Word := (imm ++ 0#2).setWidth 32

/-- `zext_32(imm:'0')` (R150). -/
def imm32x2 {w : Nat} (imm : BitVec w) : Word := (imm ++ 0#1).setWidth 32

/-- The branch offset `sext_32(imm:'0')` of B (R150). -/
def branchOffset {w : Nat} (imm : BitVec w) : Word := (imm ++ 0#1).signExtend 32

/-- The branch offset of BL: `sext_32(S:I1:I2:imm10:imm11:'0')` with `I1 = NOT(J1 EOR S)` and `I2 = NOT(J2 EOR S)`
(R150, R227). -/
def blOffset (sbit : BitVec 1) (imm10 : BitVec 10) (j1 j2 : BitVec 1) (imm11 : BitVec 11) : Word :=
  (sbit ++ ~~~(j1 ^^^ sbit) ++ ~~~(j2 ^^^ sbit) ++ imm10 ++ imm11 ++ 0#1).signExtend 32

/-- `Align(v, 4)`, and the value a stack pointer holds after a write of `v`: bits 1 and 0 cleared (R15, R53). -/
def align4 (v : Word) : Word := v &&& 0xFFFFFFFC#32

/-- A branch target `v[31:1]:'0'` (R58). -/
def align2 (v : Word) : Word := v &&& 0xFFFFFFFE#32

/-- `v[31:1]:'1'`, a return address with bit 0 set (R55). -/
def withBit0 (v : Word) : Word := v ||| 1#32

/-- The registers R0 to R7 of a register list, rising (R110, R152). -/
def listRegs (l : BitVec 8) : List RegNum :=
  ([0#4, 1#4, 2#4, 3#4, 4#4, 5#4, 6#4, 7#4] : List RegNum).filter fun i => l.getLsbD i.toNat

/-- The registers PUSH stores: `'0':M:'000000':register_list` (R152). -/
def pushRegs (m : BitVec 1) (l : BitVec 8) : List RegNum := listRegs l ++ (if m = 1#1 then [14#4] else [])

/-- How many words POP loads: the bits of `P:'0000000':register_list` that are 1 (R15, R152). -/
def popCount (p : BitVec 1) (l : BitVec 8) : Nat := (listRegs l).length + p.toNat

/-- `4 * n` as an offset of addresses (R280, R341, R342, R370). -/
def wordsSize (n : Nat) : Word := BitVec.ofNat 32 (4 * n)

/-- The special-purpose registers of R66. -/
inductive SpecReg where
  | apsr
  | iapsr
  | eapsr
  | xpsr
  | ipsr
  | epsr
  | iepsr
  | msp
  | psp
  | primask
  | control
deriving DecidableEq, Repr

/-- The register a `SYSm` value selects (R66). -/
def specRegOf (sysm : BitVec 8) : Option SpecReg :=
  match sysm with
  | 0#8 => some .apsr
  | 1#8 => some .iapsr
  | 2#8 => some .eapsr
  | 3#8 => some .xpsr
  | 5#8 => some .ipsr
  | 6#8 => some .epsr
  | 7#8 => some .iepsr
  | 8#8 => some .msp
  | 9#8 => some .psp
  | 16#8 => some .primask
  | 20#8 => some .control
  | _ => none

/-- `REV` (R343). -/
def rev32 (v : Word) : Word :=
  v.extractLsb' 0 8 ++ v.extractLsb' 8 8 ++ v.extractLsb' 16 8 ++ v.extractLsb' 24 8

/-- `REV16` (R344). -/
def rev16Halves (v : Word) : Word :=
  v.extractLsb' 16 8 ++ v.extractLsb' 24 8 ++ v.extractLsb' 0 8 ++ v.extractLsb' 8 8

/-- `REVSH` (R345): `sext_32(v[7:0] : v[15:8])`. -/
def revSignedHalf (v : Word) : Word := (v.extractLsb' 0 8 ++ v.extractLsb' 8 8).signExtend 32

/-- `SignExtend(v[7:0], 32)` (R289, R395). -/
def sext8 (v : Word) : Word := (v.setWidth 8).signExtend 32

/-- `SignExtend(v[15:0], 32)` (R290, R396). -/
def sext16 (v : Word) : Word := (v.setWidth 16).signExtend 32

/-- `ZeroExtend(v[7:0], 32)` (R285, R400). -/
def zext8 (v : Word) : Word := (v.setWidth 8).setWidth 32

/-- `ZeroExtend(v[15:0], 32)` (R287, R401). -/
def zext16 (v : Word) : Word := (v.setWidth 16).setWidth 32

end Sys2Proof.Machine
end

