-- ==== Sys2Proof/Machine/Ops.lean ====
section
/-! DEFINITION. The named operations over memory and registers (R52 to R58, R102 to R111, R125), taking an exception and
returning from one (R502, R505, R507, R510 to R512, R520 to R522), and the special registers (R64 to R67, R320, R330). -/

namespace Sys2Proof.Machine

/-! ## Memory as bytes -/

/-- What a byte that memory does not list reads as. DESIGN CHOICE (notes/assumptions/4.md). -/
def unlistedByte : Byte := 0#8

/-- The byte at an address (R70, R100). -/
def Memory.read : Memory → Nat → Byte
  | [], _ => unlistedByte
  | (b, v) :: rest, a => if b = a then v else Memory.read rest a

/-- A byte put before the first listed address above it. -/
def Memory.place : Memory → Nat → Byte → Memory
  | [], a, v => [(a, v)]
  | (b, w) :: rest, a, v => if a < b then (a, v) :: (b, w) :: rest else (b, w) :: Memory.place rest a v

/-- Memory with the byte at an address replaced, in canonical form (R70). -/
def Memory.write (m : Memory) (a : Nat) (v : Byte) : Memory :=
  let others := m.filter fun c => c.1 != a
  if v = unlistedByte then others else Memory.place others a v

/-- Memory is in canonical form: addresses strictly rising and below 2^32, no byte equal to what an unlisted address
reads as. -/
abbrev Memory.wf (m : Memory) : Prop :=
  m.Pairwise (fun c d => c.1 < d.1) ∧ ∀ c ∈ m, c.2 ≠ unlistedByte ∧ c.1 < 2 ^ 32

/-- The `n` bytes from an address up. -/
def Memory.readBytes (m : Memory) (a : Nat) : Nat → List Byte
  | 0 => []
  | n + 1 => m.read a :: Memory.readBytes m (a + 1) n

/-- Memory with bytes stored from an address up. -/
def Memory.writeBytes (m : Memory) (a : Nat) : List Byte → Memory
  | [] => m
  | b :: bs => Memory.writeBytes (m.write a b) (a + 1) bs

/-- Memory with bytes stored from an address up, modulo 2^32 (R100). -/
def placeBytes (m : Memory) (a : Nat) : List Byte → Memory
  | [] => m
  | b :: bs => placeBytes (m.write (a % 2 ^ 32) b) (a + 1) bs

/-! ## Modified bytes (R122, R123, R125, R612) -/

/-- Whether the byte at an address was stored to without a DSB and then an ISB. -/
def Modified.has (m : Modified) (a : Nat) : Bool := m.stored.contains a || m.drained.contains a

/-- The byte at an address is stored to. -/
def Modified.noteByte (m : Modified) (a : Nat) : Modified :=
  if m.stored.contains a then m else { m with stored := a :: m.stored }

/-- `n` bytes from an address up, modulo 2^32, are stored to. -/
def Modified.note (m : Modified) (a : Nat) : Nat → Modified
  | 0 => m
  | n + 1 => (m.noteByte (a % 2 ^ 32)).note (a + 1) n

/-- DSB: every store before it is complete (R122). -/
def Modified.drain (m : Modified) : Modified :=
  { stored := [], drained := m.stored ++ m.drained.filter fun a => !m.stored.contains a }

/-- ISB: a later fetch sees what was complete before it (R123). -/
def Modified.flush (m : Modified) : Modified := { m with drained := [] }

/-- `n` bytes from an address up, modulo 2^32, may be fetched, for the host's placing of a word. -/
def Modified.forget (m : Modified) (a : Nat) : Nat → Modified
  | 0 => m
  | n + 1 => { stored := m.stored.filter (· != a % 2 ^ 32), drained := m.drained.filter (· != a % 2 ^ 32) : Modified }.forget
      (a + 1) n

/-! ## Byte order (R102) -/

/-- The value of bytes, least significant first: `b[0] + 256*b[1] + ...` (R106). -/
def valueOfBytes : List Byte → Word
  | [] => 0#32
  | b :: bs => (valueOfBytes bs <<< 8) ||| b.setWidth 32

/-- The low `n` bytes of a value, least significant first. -/
def bytesOfValue (v : Word) : Nat → List Byte
  | 0 => []
  | n + 1 => v.setWidth 8 :: bytesOfValue (v >>> 8) n

/-- Bytes from least significant first to memory order and back (R102, `DATA_BIG_ENDIAN`). -/
def dataOrder (bigEndian : Bool) (bs : List Byte) : List Byte := if bigEndian then bs.reverse else bs

/-- The access sizes: 1, 2 and 4 bytes and nothing else (R101). -/
inductive Size where
  | byte
  | half
  | word
deriving DecidableEq, Repr

/-- The bytes of an access (R101). -/
def Size.bytes : Size → Nat
  | .byte => 1
  | .half => 2
  | .word => 4

/-! ## The platform (R108) -/

/-- Whether a region permits a kind of access. -/
def permits (r : Region) : AccessKind → Bool
  | .read => r.canRead
  | .write => r.canWrite
  | .fetch => r.canFetch

/-- `CurrentModeIsPrivileged()`: Handler mode always is, Thread mode unless CONTROL.nPRIV is 1 (R530). -/
def State.privileged (s : State) : Bool := s.mode = .handler || !s.control.nPriv

/-- `Admits(addr, n, kind)` (R108, D3). -/
def State.admits (s : State) (addr : Word) (n : Nat) (kind : AccessKind) : Bool :=
  s.cfg.regions.any fun r =>
    decide (r.base ≤ addr.toNat) && decide (addr.toNat + n ≤ r.base + r.size) && permits r kind
      && (s.privileged || !r.privOnly)

/-- Whether an access overlaps program text (R125). -/
def State.overlapsText (s : State) (addr : Word) (n : Nat) : Bool :=
  s.cfg.text.any fun r => decide (r.base < addr.toNat + n) && decide (addr.toNat < r.base + r.size)

/-! ## The memory primitives (R106, R107) -/

/-- What an operation that accesses memory answers: a value, a HardFault to be raised, or a refusal. -/
inductive Access (α : Type) where
  | ok (a : α)
  | hardFault (c : HardFaultCause)
  | refused (r : Refusal)
deriving DecidableEq, Repr

/-- Sequencing: the first failing access reports (R508 point 5). -/
def Access.bind {α β : Type} (x : Access α) (f : α → Access β) : Access β :=
  match x with
  | .ok a => f a
  | .hardFault c => .hardFault c
  | .refused r => .refused r

/-- `MemRead(addr, n)`, its `8n`-bit value widened with zeros (R104, R106, R108). -/
def State.memRead (s : State) (addr : Word) (size : Size) : Access Word :=
  if addr.toNat % size.bytes ≠ 0 then .hardFault (.align addr size.bytes)
  else if s.admits addr size.bytes .read then
    .ok (valueOfBytes (dataOrder s.cfg.bigEndian (s.mem.readBytes addr.toNat size.bytes)))
  else .hardFault (.bus addr size.bytes .read)

/-- `MemWrite(addr, n, v)`: the low `n` bytes of `v` (R104, R107, R108); a store into program text is refused, and any other
leaves its bytes modified (R125). -/
def State.memWrite (s : State) (addr : Word) (size : Size) (v : Word) : Access State :=
  if addr.toNat % size.bytes ≠ 0 then .hardFault (.align addr size.bytes)
  else if s.overlapsText addr size.bytes then .refused (.storeToProgramText addr)
  else if s.admits addr size.bytes .write then
    .ok ((s.withMem (s.mem.writeBytes addr.toNat (dataOrder s.cfg.bigEndian (bytesOfValue v size.bytes)))).withModified
      (s.modified.note addr.toNat size.bytes))
  else .hardFault (.bus addr size.bytes .write)

/-- The words of a multi-register store, at consecutive word addresses in ascending order (R110). -/
def State.storeWords (s : State) (addr : Word) : List Word → Access State
  | [] => .ok s
  | v :: vs => (s.memWrite addr .word v).bind fun s' => s'.storeWords (addr + 4#32) vs

/-! ## Registers (R50 to R58) -/

/-- Whether the stack pointer in use is the process stack pointer (R530). -/
def State.usesPsp (s : State) : Bool := s.mode = .thread && s.control.spSel

/-- `SP`, the stack pointer in use (R53, R530). -/
def State.sp (s : State) : Word := if s.usesPsp then s.psp else s.msp

/-- A write of `SP`: bits 1 and 0 are cleared (R53, D18). -/
def State.setSp (s : State) (v : Word) : State :=
  if s.usesPsp then s.withPsp (align4 v) else s.withMsp (align4 v)

/-- `PCval`: what a read of the PC gives while the instruction at `pc` executes (R56). -/
def State.pcVal (s : State) : Word := s.pc + 4#32

/-- `x[i]` (R52, R53, R56). -/
def State.x (s : State) (i : RegNum) : Word :=
  if h : i.toNat < 13 then s.regs[i.toNat]
  else if i = 13#4 then s.sp
  else if i = 14#4 then s.lr
  else s.pcVal

/-- `x[i] <- v` (R52, R53); no instruction writes register 15 this way (R58), and `i = 15` writes nothing. -/
def State.setX (s : State) (i : RegNum) (v : Word) : State :=
  if h : i.toNat < 13 then s.withRegs (s.regs.set i.toNat v)
  else if i = 13#4 then s.setSp v
  else if i = 14#4 then s.withLr v
  else s

/-- The end of an instruction of `n` bytes that does not write the PC (R57). -/
def State.advance (s : State) (n : Word) : State := s.withPc (s.pc + n)

/-- `BranchWritePC` and `ALUWritePC`: `T` is unchanged (R58). -/
def State.branchTo (s : State) (a : Word) : State := s.withPc (align2 a)

/-- `BLXWritePC`, and `BXWritePC` where it is no exception return: bit 0 goes to `T` (R58). -/
def State.interworkTo (s : State) (a : Word) : State := (s.withT (a.getLsbD 0)).withPc (align2 a)

/-- The end of an instruction of 2 bytes whose destination is register `d`: a write of the PC is a branch (R58). -/
def State.writeOrBranch (s : State) (d : RegNum) (v : Word) : State :=
  if d = 15#4 then s.branchTo v else (s.setX d v).advance 2#32

/-! ## Free values (R34, D8) -/

/-- The next UNKNOWN word. -/
def State.freeWord (s : State) : Word := Config.freeWord s.freeIdx

/-- One free value has been drawn. -/
def State.drewFree (s : State) : State := s.withFreeIdx (s.freeIdx + 1)

/-- Registers with no defined value: each holds a free value (R111, D24). -/
def State.undefineRegs (s : State) : List RegNum → State
  | [] => s
  | i :: is => ((s.setX i s.freeWord).drewFree).undefineRegs is

/-- One memory word with no defined value, whatever the platform admits there: its four bytes, modulo 2^32, hold a free value
and are modified (R111, D24). -/
def State.undefineWord (s : State) (addr : Word) : State :=
  ((s.withMem (placeBytes s.mem addr.toNat (bytesOfValue s.freeWord 4))).withModified
    (s.modified.note addr.toNat 4)).drewFree

/-- Memory words with no defined value: each of `n` words from `addr` up (R111, D24). -/
def State.undefineWords (s : State) (addr : Word) : Nat → State
  | 0 => s
  | n + 1 => (s.undefineWord addr).undefineWords (addr + 4#32) n

/-! ## Exception numbers and priorities (R505, R507) -/

def excNmi : ExcNum := 2#6
def excHardFault : ExcNum := 3#6
def excSvCall : ExcNum := 11#6

/-- The level of an exception of configurable priority (R505). -/
def levelOf (levels : List (ExcNum × BitVec 2)) (e : ExcNum) : BitVec 2 :=
  match levels with
  | [] => 0#2
  | (f, l) :: rest => if f = e then l else levelOf rest e

/-- The priority of an exception; a lower number is a higher priority (R505). -/
def State.priority (s : State) (e : ExcNum) : Int :=
  if e = 1#6 then -3
  else if e = excNmi then -2
  else if e = excHardFault then -1
  else 64 * ((levelOf s.cfg.levels e).toNat : Int)

/-- The priority of what is executing, PRIMASK apart: that of the exception handled, and below every exception in Thread
mode (R502, R507, R522). -/
def State.basePriority (s : State) : Int := if s.mode = .handler then s.priority s.ipsr else 256

/-- The current execution priority: PRIMASK raises it to 0 (R67, R507). -/
def State.execPriority (s : State) : Int := if s.primask then min 0 s.basePriority else s.basePriority

/-- The asynchronous exceptions of R505 that can be pending. -/
def isAsynchronous (e : ExcNum) : Bool :=
  e = excNmi || e = 14#6 || e = 15#6 || (decide (16 ≤ e.toNat) && decide (e.toNat < 48))

/-- Whether `e` goes before `f`: higher priority, or the same and a lower number (R507). -/
def State.precedes (s : State) (e f : ExcNum) : Bool :=
  decide (s.priority e < s.priority f) || (decide (s.priority e = s.priority f) && decide (e.toNat < f.toNat))

/-- The first by priority among the asynchronous exceptions of a list (R507). DESIGN CHOICE (notes/assumptions/17.md): every
number in the list counts as enabled, since the spec has no enable register. -/
def State.firstOf (s : State) : List ExcNum → Option ExcNum
  | [] => none
  | e :: es =>
    match s.firstOf es with
    | none => if isAsynchronous e then some e else none
    | some f => if isAsynchronous e && s.precedes e f then some e else some f

/-- The first pending exception whose priority is higher than a given execution priority (R507). -/
def State.pendingAbove (s : State) (p : Int) : Option ExcNum :=
  match s.firstOf s.pending with
  | some e => if s.priority e < p then some e else none
  | none => none

/-- The pending exception that is taken before the next instruction, if there is one (R507). -/
def State.preempting (s : State) : Option ExcNum := s.pendingAbove s.execPriority

/-- Whether a pending exception ends a WFI: it would preempt if PRIMASK.PM were 0 (R424, R535). -/
def State.wakesInterrupt (s : State) : Bool := (s.pendingAbove s.basePriority).isSome

/-! ## Exception entry (R511) -/

/-- xPSR: flags in bits 31 to 28, `T` in bit 24, IPSR in bits 5 to 0, and in a frame `frameptralign` in bit 9 (R511). -/
def State.xpsrFrame (s : State) (frameptralign : Bool) : Word :=
  s.apsr.toWord ||| (if s.t then 0x01000000#32 else 0#32) ||| (if frameptralign then 0x200#32 else 0#32)
    ||| s.ipsr.setWidth 32

/-- `frameptr`: the frame of an exception taken now (R511). -/
def State.frameptr (s : State) : Word := (s.sp - 0x20#32) &&& 0xFFFFFFFB#32

/-- The eight words of the frame, lowest address first (R511). -/
def State.frameWords (s : State) (ret : Word) : List Word :=
  [s.x 0#4, s.x 1#4, s.x 2#4, s.x 3#4, s.x 12#4, s.lr, ret, s.xpsrFrame (s.sp.getLsbD 2)]

/-- EXC_RETURN, the value entry gives LR (R511). -/
def State.excReturn (s : State) : Word :=
  if s.mode = .handler then 0xFFFFFFF1#32 else if s.control.spSel then 0xFFFFFFFD#32 else 0xFFFFFFF9#32

/-- The state of entry to exception `e` once the frame is stored, before the vector is read (R511). DEDUCED
(notes/assumptions/31.md): 'stack <- main' clears CONTROL.SPSEL. -/
def State.inHandler (s : State) (e : ExcNum) : State :=
  { (s.setSp s.frameptr) with
    lr := s.excReturn, mode := .handler, ipsr := e, control := { s.control with spSel := false }, event := true,
    pending := s.pending.filter (· != e) }

/-- The address of the vector of exception `e` (R505, R511). -/
def State.vectorAddr (s : State) (e : ExcNum) : Word := s.cfg.vectorTable + 4#32 * e.setWidth 32

/-- Entry to exception `e` with return address `ret`: stack the frame, switch to Handler mode, branch to the vector
(R511). -/
def State.enter (s : State) (e : ExcNum) (ret : Word) : Access State :=
  (s.storeWords s.frameptr (s.frameWords ret)).bind fun s1 =>
    ((s1.inHandler e).memRead (s1.vectorAddr e) .word).bind fun vector => .ok ((s1.inHandler e).interworkTo vector)

/-- The end of a run where `TrapEntry` is terminal: exception `e` is raised with return address `ret` (R510, D4). -/
def State.endRaised (s : State) (e : ExcNum) (ret : Word) : State := s.withRun (.raised e ret)

/-- The Lockup state, with the fault that led to it (R522). -/
def State.lockUp (s : State) (c : HardFaultCause) : State := (s.withLastFault (some c)).withRun .lockup

/-- Entry to HardFault; a fault while stacking for it cannot be taken and locks up (R522). -/
def State.enterHardFault (s : State) (ret : Word) (c : HardFaultCause) : Result :=
  match (s.withLastFault (some c)).enter excHardFault ret with
  | .ok s' => .next s'
  | .hardFault c' => .next (s.lockUp c')
  | .refused r => .refused r

/-- `raise HardFault(cause)` with return address `ret`: the end of the run where `TrapEntry` is terminal (R510), and
otherwise entry, or Lockup at priority -1 or -2 (R501, R511, R512, R522). -/
def State.raiseHardFault (s : State) (ret : Word) (c : HardFaultCause) : Result :=
  if s.cfg.trapEntry = .terminal then .next ((s.withLastFault (some c)).endRaised excHardFault ret)
  else if s.execPriority ≤ -1 then .next (s.lockUp c) else s.enterHardFault ret c

/-- Taking exception `e`, whose priority allows it, with return address `ret`: the end of the run where `TrapEntry` is
terminal (R510), and otherwise entry, a fault of which is a HardFault (R511, R522). -/
def State.takeException (s : State) (e : ExcNum) (ret : Word) : Result :=
  if s.cfg.trapEntry = .terminal then .next (s.endRaised e ret)
  else match s.enter e ret with
  | .ok s' => .next s'
  | .hardFault c => if e = excNmi then .next (s.lockUp c) else s.raiseHardFault ret c
  | .refused r => .refused r

/-- The end of an instruction whose accesses gave `r`; a HardFault is raised from `s`, where its return address is the
instruction's own (R510, R512, R513). -/
def State.complete (s : State) (r : Access State) : Result :=
  match r with
  | .ok s' => .next s'
  | .hardFault c => s.raiseHardFault s.pc c
  | .refused r => .refused r

/-! ## Exception return (R520, R521) -/

/-- The words of a frame (R511). -/
structure Frame where
  r0 : Word
  r1 : Word
  r2 : Word
  r3 : Word
  r12 : Word
  lr : Word
  ret : Word
  xpsr : Word
deriving DecidableEq, Repr

/-- The eight words at `p`, lowest address first (R511, R520). -/
def State.readFrame (s : State) (p : Word) : Access Frame :=
  (s.memRead p .word).bind fun r0 =>
  (s.memRead (p + 0x04#32) .word).bind fun r1 =>
  (s.memRead (p + 0x08#32) .word).bind fun r2 =>
  (s.memRead (p + 0x0C#32) .word).bind fun r3 =>
  (s.memRead (p + 0x10#32) .word).bind fun r12 =>
  (s.memRead (p + 0x14#32) .word).bind fun lr =>
  (s.memRead (p + 0x18#32) .word).bind fun ret =>
  (s.memRead (p + 0x1C#32) .word).bind fun xpsr =>
  .ok { r0 := r0, r1 := r1, r2 := r2, r3 := r3, r12 := r12, lr := lr, ret := ret, xpsr := xpsr }

/-- The stack pointer after a frame at `p` is popped: bit 2 is set when bit 9 of the stacked xPSR is 1 (R520). -/
def poppedSp (p xpsr : Word) : Word :=
  align4 ((p + 0x20#32) ||| (if xpsr.getLsbD 9 then 4#32 else 0#32))

/-- What a return restores from the frame: R0 to R3, R12, LR, pc, flags, `T` and the exception number (R520, R521). -/
def State.restore (s : State) (f : Frame) : State :=
  { s with
    regs := ((((s.regs.set 0 f.r0).set 1 f.r1).set 2 f.r2).set 3 f.r3).set 12 f.r12
    lr := f.lr
    pc := align2 f.ret
    apsr := apsrOfWord f.xpsr
    t := f.xpsr.getLsbD 24
    ipsr := f.xpsr.setWidth 6
    event := true }

/-- Where an exception return value sends the processor (R520). -/
inductive ReturnTo where
  | handlerMain
  | threadMain
  | threadProcess
deriving DecidableEq, Repr

/-- The low four bits of an exception return value (R520). -/
def returnTo (a : Word) : Option ReturnTo :=
  match a.extractLsb' 0 4 with
  | 0b0001#4 => some .handlerMain
  | 0b1001#4 => some .threadMain
  | 0b1101#4 => some .threadProcess
  | _ => none

/-- The frame pointer of a return: the stack pointer of the selected stack (R520). -/
def State.returnSp (s : State) : ReturnTo → Word
  | .threadProcess => s.psp
  | _ => s.msp

/-- The mode and stack of a return, with the stack pointer after the pop (R520, R530). -/
def State.leaveHandler (s : State) (w : ReturnTo) (sp : Word) : State :=
  match w with
  | .handlerMain => { s with mode := .handler, msp := sp }
  | .threadMain => { s with mode := .thread, msp := sp, control := { s.control with spSel := false } }
  | .threadProcess => { s with mode := .thread, psp := sp, control := { s.control with spSel := true } }

/-- `ExceptionReturn(a)` (R520, R521). -/
def State.exceptionReturn (s : State) (a : Word) : Result :=
  match returnTo a with
  | none => .refused (.unpredictableReturn a)
  | some w =>
    s.complete ((s.readFrame (s.returnSp w)).bind fun f =>
      .ok ((s.restore f).leaveHandler w (poppedSp (s.returnSp w) f.xpsr)))

/-- `IsExceptionReturn(a)` (R520). -/
def State.isExceptionReturn (s : State) (a : Word) : Bool := s.mode = .handler && a.extractLsb' 28 4 == 0b1111#4

/-- `BXWritePC` and `LoadWritePC` (R58). -/
def State.bxWritePC (s : State) (a : Word) : Result :=
  if s.isExceptionReturn a then s.exceptionReturn a else .next (s.interworkTo a)

/-! ## Special registers (R64 to R67, R320, R330, R530) -/

/-- PRIMASK or CONTROL as a 32-bit value (R66). -/
def Control.toWord (c : Control) : Word := 0#30 ++ BitVec.ofBool c.spSel ++ BitVec.ofBool c.nPriv

/-- The value MRS moves; unprivileged code reads the stack pointers, PRIMASK and CONTROL as zero (R66, R320, R530). -/
def State.readSpecial (s : State) : SpecReg → Word
  | .apsr => s.apsr.toWord
  | .iapsr => s.apsr.toWord ||| s.ipsr.setWidth 32
  | .eapsr => s.apsr.toWord
  | .xpsr => s.apsr.toWord ||| s.ipsr.setWidth 32
  | .ipsr => s.ipsr.setWidth 32
  | .epsr => 0#32
  | .iepsr => s.ipsr.setWidth 32
  | .msp => if s.privileged then s.msp else 0#32
  | .psp => if s.privileged then s.psp else 0#32
  | .primask => if s.privileged then (BitVec.ofBool s.primask).setWidth 32 else 0#32
  | .control => if s.privileged then s.control.toWord else 0#32

/-- CONTROL after a privileged write: SPSEL only in Thread mode, nPRIV only with the unprivileged extension (R66). -/
def State.controlWrite (s : State) (v : Word) : Control :=
  { spSel := if s.mode = .thread then v.getLsbD 1 else s.control.spSel
    nPriv := if s.cfg.hasUnpriv then v.getLsbD 0 else s.control.nPriv }

/-- What MSR writes; unprivileged writes other than to the flags are ignored (R66, R330, R530). -/
def State.writeSpecial (s : State) (r : SpecReg) (v : Word) : State :=
  match r with
  | .apsr => s.withApsr (apsrOfWord v)
  | .iapsr => s.withApsr (apsrOfWord v)
  | .eapsr => s.withApsr (apsrOfWord v)
  | .xpsr => s.withApsr (apsrOfWord v)
  | .ipsr => s
  | .epsr => s
  | .iepsr => s
  | .msp => if s.privileged then s.withMsp (align4 v) else s
  | .psp => if s.privileged then s.withPsp (align4 v) else s
  | .primask => if s.privileged then s.withPrimask (v.getLsbD 0) else s
  | .control => if s.privileged then s.withControl (s.controlWrite v) else s

end Sys2Proof.Machine
end

