-- ==== Sys2Proof/Machine/Arithmetic.lean ====
section
/-! DEFINITION. The meanings of the arithmetic family: ADC, ADD, ADR, CMN, CMP, MUL, RSB, SBC, SUB. -/

namespace Sys2Proof.Machine

/-- A sum written to a register with its four flags (R61, R62). -/
def State.retireSum (s : State) (d : RegNum) (r : Sum) : Result :=
  .next (((s.setX d r.result).withApsr (nzcv r)).advance 2#32)

/-- The four flags of a sum, the result discarded (R62). -/
def State.retireCompare (s : State) (r : Sum) : Result := .next ((s.withApsr (nzcv r)).advance 2#32)

/-- A value written to a register, no flag changed (R62). -/
def State.retireValue (s : State) (d : RegNum) (v : Word) : Result := .next ((s.setX d v).advance 2#32)

/-- A value written to a register with N and Z from it, C and V unchanged (R62). -/
def State.retireNZ (s : State) (d : RegNum) (v : Word) : Result :=
  .next (((s.setX d v).withApsr (s.apsr.nz v)).advance 2#32)

/-- `x - y` as an `AddWithCarry` (R20). -/
def subWithCarry (x y : Word) : Sum := addWithCarry x (~~~y) true

/-- ADCS (R200). -/
def execAdc (rdn rm : LowReg) (s : State) : Result :=
  s.retireSum (lowReg rdn) (addWithCarry (s.x (lowReg rdn)) (s.x (lowReg rm)) s.apsr.c)

/-- ADDS (immediate) T1 (R201). -/
def execAddImmT1 (rd rn : LowReg) (imm3 : BitVec 3) (s : State) : Result :=
  s.retireSum (lowReg rd) (addWithCarry (s.x (lowReg rn)) (imm32 imm3) false)

/-- ADDS (immediate) T2 (R202). -/
def execAddImmT2 (rdn : LowReg) (imm8 : BitVec 8) (s : State) : Result :=
  s.retireSum (lowReg rdn) (addWithCarry (s.x (lowReg rdn)) (imm32 imm8) false)

/-- ADDS (register) T1 (R203). -/
def execAddRegT1 (rd rn rm : LowReg) (s : State) : Result :=
  s.retireSum (lowReg rd) (addWithCarry (s.x (lowReg rn)) (s.x (lowReg rm)) false)

/-- ADD (register) T2 (R204). -/
def execAddRegT2 (rdn rm : RegNum) (s : State) : Result :=
  if rdn = 15#4 ∧ rm = 15#4 then .refused .unpredictable
  else .next (s.writeOrBranch rdn (s.x rdn + s.x rm))

/-- ADD (SP plus immediate) T1 (R205). -/
def execAddSpImmT1 (rd : LowReg) (imm8 : BitVec 8) (s : State) : Result :=
  s.retireValue (lowReg rd) (s.x 13#4 + imm32x4 imm8)

/-- ADD (SP plus immediate) T2 (R206). -/
def execAddSpImmT2 (imm7 : BitVec 7) (s : State) : Result :=
  s.retireValue 13#4 (s.x 13#4 + imm32x4 imm7)

/-- ADD (SP plus register) T1 (R207). -/
def execAddSpRegT1 (rdm : RegNum) (s : State) : Result := .next (s.writeOrBranch rdm (s.x 13#4 + s.x rdm))

/-- ADD (SP plus register) T2 (R208). -/
def execAddSpRegT2 (rm : RegNum) (s : State) : Result := s.retireValue 13#4 (s.x 13#4 + s.x rm)

/-- ADR (R209). -/
def execAdr (rd : LowReg) (imm8 : BitVec 8) (s : State) : Result :=
  s.retireValue (lowReg rd) (align4 s.pcVal + imm32x4 imm8)

/-- CMN (R250). -/
def execCmn (rn rm : LowReg) (s : State) : Result :=
  s.retireCompare (addWithCarry (s.x (lowReg rn)) (s.x (lowReg rm)) false)

/-- CMP (immediate) (R251). -/
def execCmpImm (rn : LowReg) (imm8 : BitVec 8) (s : State) : Result :=
  s.retireCompare (subWithCarry (s.x (lowReg rn)) (imm32 imm8))

/-- CMP (register) T1 (R252). -/
def execCmpRegT1 (rn rm : LowReg) (s : State) : Result :=
  s.retireCompare (subWithCarry (s.x (lowReg rn)) (s.x (lowReg rm)))

/-- CMP (register) T2 (R253). -/
def execCmpRegT2 (rn rm : RegNum) (s : State) : Result :=
  if (rn.toNat < 8 ∧ rm.toNat < 8) ∨ rn = 15#4 ∨ rm = 15#4 then .refused .unpredictable
  else s.retireCompare (subWithCarry (s.x rn) (s.x rm))

/-- MULS (R332): the product modulo 2^32, and N and Z from those 32 bits (C13). -/
def execMul (rdm rn : LowReg) (s : State) : Result :=
  s.retireNZ (lowReg rdm) (BitVec.ofNat 32 ((s.x (lowReg rn)).toNat * (s.x (lowReg rdm)).toNat))

/-- RSBS (immediate) (R347). -/
def execRsb (rd rn : LowReg) (s : State) : Result :=
  s.retireSum (lowReg rd) (addWithCarry (~~~(s.x (lowReg rn))) 0#32 true)

/-- SBCS (R348). -/
def execSbc (rdn rm : LowReg) (s : State) : Result :=
  s.retireSum (lowReg rdn) (addWithCarry (s.x (lowReg rdn)) (~~~(s.x (lowReg rm))) s.apsr.c)

/-- SUBS (immediate) T1 (R390). -/
def execSubImmT1 (rd rn : LowReg) (imm3 : BitVec 3) (s : State) : Result :=
  s.retireSum (lowReg rd) (subWithCarry (s.x (lowReg rn)) (imm32 imm3))

/-- SUBS (immediate) T2 (R391). -/
def execSubImmT2 (rdn : LowReg) (imm8 : BitVec 8) (s : State) : Result :=
  s.retireSum (lowReg rdn) (subWithCarry (s.x (lowReg rdn)) (imm32 imm8))

/-- SUBS (register) (R392). -/
def execSubReg (rd rn rm : LowReg) (s : State) : Result :=
  s.retireSum (lowReg rd) (subWithCarry (s.x (lowReg rn)) (s.x (lowReg rm)))

/-- SUB (SP minus immediate) (R393). -/
def execSubSpImm (imm7 : BitVec 7) (s : State) : Result :=
  s.retireValue 13#4 (subWithCarry (s.x 13#4) (imm32x4 imm7)).result

end Sys2Proof.Machine
end

