-- ==== Sys2Proof/Machine/Branch.lean ====
section
/-! DEFINITION. The meanings of the branch family: B, BL, BLX, BX. -/

namespace Sys2Proof.Machine

/-- B<c> T1 (R223). -/
def execBT1 (cond : Cond) (imm8 : BitVec 8) (s : State) : Result :=
  .next (if condHolds s.apsr cond then s.branchTo (s.pcVal + branchOffset imm8) else s.advance 2#32)

/-- B T2 (R224). -/
def execBT2 (imm11 : BitVec 11) (s : State) : Result := .next (s.branchTo (s.pcVal + branchOffset imm11))

/-- BL (R227). -/
def execBl (sbit : BitVec 1) (imm10 : BitVec 10) (j1 j2 : BitVec 1) (imm11 : BitVec 11) (s : State) : Result :=
  .next ((s.withLr (withBit0 s.pcVal)).branchTo (s.pcVal + blOffset sbit imm10 j1 j2 imm11))

/-- BLX (register) (R228): the target is read before LR is written. -/
def execBlx (rm : RegNum) (sb : BitVec 3) (s : State) : Result :=
  if sb ≠ 0#3 then .refused .shouldBeBits
  else if rm = 15#4 then .refused .unpredictable
  else .next ((s.withLr (withBit0 (s.pc + 2#32))).interworkTo (s.x rm))

/-- BX (R229). -/
def execBx (rm : RegNum) (sb : BitVec 3) (s : State) : Result :=
  if sb ≠ 0#3 then .refused .shouldBeBits
  else if rm = 15#4 then .refused .unpredictable
  else s.bxWritePC (s.x rm)

end Sys2Proof.Machine
end

