-- ==== Sys2Proof/Machine/Extend.lean ====
section
/-! DEFINITION. The meanings of the byte reversal and extension family: REV, REV16, REVSH, SXTB, SXTH, UXTB, UXTH. -/

namespace Sys2Proof.Machine

/-- REV (R343). -/
def execRev (rd rm : LowReg) (s : State) : Result := s.retireValue (lowReg rd) (rev32 (s.x (lowReg rm)))

/-- REV16 (R344). -/
def execRev16 (rd rm : LowReg) (s : State) : Result := s.retireValue (lowReg rd) (rev16Halves (s.x (lowReg rm)))

/-- REVSH (R345). -/
def execRevsh (rd rm : LowReg) (s : State) : Result := s.retireValue (lowReg rd) (revSignedHalf (s.x (lowReg rm)))

/-- SXTB (R395). -/
def execSxtb (rd rm : LowReg) (s : State) : Result := s.retireValue (lowReg rd) (sext8 (s.x (lowReg rm)))

/-- SXTH (R396). -/
def execSxth (rd rm : LowReg) (s : State) : Result := s.retireValue (lowReg rd) (sext16 (s.x (lowReg rm)))

/-- UXTB (R400). -/
def execUxtb (rd rm : LowReg) (s : State) : Result := s.retireValue (lowReg rd) (zext8 (s.x (lowReg rm)))

/-- UXTH (R401). -/
def execUxth (rd rm : LowReg) (s : State) : Result := s.retireValue (lowReg rd) (zext16 (s.x (lowReg rm)))

end Sys2Proof.Machine
end

