-- ==== Sys2Proof/Machine/LoadStore.lean ====
section
/-! DEFINITION. The meanings of the single load and store family (43_ldm_to_ldrsh.md, 46_stm_to_strh.md). -/

namespace Sys2Proof.Machine

/-- A load: `x[t] <- extend(MemRead(addr, n))`. When the read raises, nothing is written (R106, R513). -/
def State.loadInto (s : State) (t : LowReg) (addr : Word) (size : Size) (extend : Word → Word) : Result :=
  s.complete ((s.memRead addr size).bind fun v => .ok ((s.setX (lowReg t) (extend v)).advance 2#32))

/-- A store: `MemWrite(addr, n, v)`. When the write raises, nothing is written (R107, R513). -/
def State.storeFrom (s : State) (addr : Word) (size : Size) (v : Word) : Result :=
  s.complete ((s.memWrite addr size v).bind fun s' => .ok (s'.advance 2#32))

/-- The address `x[n] + imm32` of an immediate-offset access (R281, R371). -/
def State.addrImm (s : State) (rn : LowReg) (offset : Word) : Word := s.x (lowReg rn) + offset

/-- The address `x[n] + x[m]` of a register-offset access (R284, R373). -/
def State.addrReg (s : State) (rn rm : LowReg) : Word := s.x (lowReg rn) + s.x (lowReg rm)

/-- The address `x[13] + imm32` of an SP-relative access (R282, R372). -/
def State.addrSp (s : State) (imm8 : BitVec 8) : Word := s.x 13#4 + imm32x4 imm8

/-- The address of LDR (literal) (R283). -/
def State.addrLit (s : State) (imm8 : BitVec 8) : Word := align4 s.pcVal + imm32x4 imm8

/-- LDR (immediate) T1 (R281). -/
def execLdrImmT1 (rt rn : LowReg) (imm5 : BitVec 5) (s : State) : Result :=
  s.loadInto rt (s.addrImm rn (imm32x4 imm5)) .word id

/-- LDR (immediate) T2 (R282). -/
def execLdrImmT2 (rt : LowReg) (imm8 : BitVec 8) (s : State) : Result := s.loadInto rt (s.addrSp imm8) .word id

/-- LDR (literal) (R283). -/
def execLdrLit (rt : LowReg) (imm8 : BitVec 8) (s : State) : Result := s.loadInto rt (s.addrLit imm8) .word id

/-- LDR (register) (R284). -/
def execLdrReg (rt rn rm : LowReg) (s : State) : Result := s.loadInto rt (s.addrReg rn rm) .word id

/-- LDRB (immediate) (R285). -/
def execLdrbImm (rt rn : LowReg) (imm5 : BitVec 5) (s : State) : Result :=
  s.loadInto rt (s.addrImm rn (imm32 imm5)) .byte zext8

/-- LDRB (register) (R286). -/
def execLdrbReg (rt rn rm : LowReg) (s : State) : Result := s.loadInto rt (s.addrReg rn rm) .byte zext8

/-- LDRH (immediate) (R287). -/
def execLdrhImm (rt rn : LowReg) (imm5 : BitVec 5) (s : State) : Result :=
  s.loadInto rt (s.addrImm rn (imm32x2 imm5)) .half zext16

/-- LDRH (register) (R288). -/
def execLdrhReg (rt rn rm : LowReg) (s : State) : Result := s.loadInto rt (s.addrReg rn rm) .half zext16

/-- LDRSB (register) (R289). -/
def execLdrsb (rt rn rm : LowReg) (s : State) : Result := s.loadInto rt (s.addrReg rn rm) .byte sext8

/-- LDRSH (register) (R290). -/
def execLdrsh (rt rn rm : LowReg) (s : State) : Result := s.loadInto rt (s.addrReg rn rm) .half sext16

/-- STR (immediate) T1 (R371). -/
def execStrImmT1 (rt rn : LowReg) (imm5 : BitVec 5) (s : State) : Result :=
  s.storeFrom (s.addrImm rn (imm32x4 imm5)) .word (s.x (lowReg rt))

/-- STR (immediate) T2 (R372). -/
def execStrImmT2 (rt : LowReg) (imm8 : BitVec 8) (s : State) : Result :=
  s.storeFrom (s.addrSp imm8) .word (s.x (lowReg rt))

/-- STR (register) (R373). -/
def execStrReg (rt rn rm : LowReg) (s : State) : Result := s.storeFrom (s.addrReg rn rm) .word (s.x (lowReg rt))

/-- STRB (immediate) (R374). -/
def execStrbImm (rt rn : LowReg) (imm5 : BitVec 5) (s : State) : Result :=
  s.storeFrom (s.addrImm rn (imm32 imm5)) .byte (s.x (lowReg rt))

/-- STRB (register) (R375). -/
def execStrbReg (rt rn rm : LowReg) (s : State) : Result := s.storeFrom (s.addrReg rn rm) .byte (s.x (lowReg rt))

/-- STRH (immediate) (R376). -/
def execStrhImm (rt rn : LowReg) (imm5 : BitVec 5) (s : State) : Result :=
  s.storeFrom (s.addrImm rn (imm32x2 imm5)) .half (s.x (lowReg rt))

/-- STRH (register) (R377). -/
def execStrhReg (rt rn rm : LowReg) (s : State) : Result := s.storeFrom (s.addrReg rn rm) .half (s.x (lowReg rt))

end Sys2Proof.Machine
end

