-- ==== Sys2Proof/Machine/Logic.lean ====
section
/-! DEFINITION. The meanings of the logical and move family: AND, BIC, EOR, MOV, MVN, ORR, TST. -/

namespace Sys2Proof.Machine

/-- ANDS (R220). -/
def execAndReg (rdn rm : LowReg) (s : State) : Result :=
  s.retireNZ (lowReg rdn) (s.x (lowReg rdn) &&& s.x (lowReg rm))

/-- BICS (R225). -/
def execBic (rdn rm : LowReg) (s : State) : Result :=
  s.retireNZ (lowReg rdn) (s.x (lowReg rdn) &&& ~~~(s.x (lowReg rm)))

/-- EORS (R265). -/
def execEor (rdn rm : LowReg) (s : State) : Result :=
  s.retireNZ (lowReg rdn) (s.x (lowReg rdn) ^^^ s.x (lowReg rm))

/-- MOVS (immediate) (R314). -/
def execMovImm (rd : LowReg) (imm8 : BitVec 8) (s : State) : Result := s.retireNZ (lowReg rd) (imm32 imm8)

/-- MOV (register) T1 (R315). -/
def execMovRegT1 (rd rm : RegNum) (s : State) : Result := .next (s.writeOrBranch rd (s.x rm))

/-- MOVS (register) T2 (R316). -/
def execMovRegT2 (rd rm : LowReg) (s : State) : Result := s.retireNZ (lowReg rd) (s.x (lowReg rm))

/-- MVNS (R333). -/
def execMvn (rd rm : LowReg) (s : State) : Result := s.retireNZ (lowReg rd) (~~~(s.x (lowReg rm)))

/-- ORRS (R340). -/
def execOrr (rdn rm : LowReg) (s : State) : Result :=
  s.retireNZ (lowReg rdn) (s.x (lowReg rdn) ||| s.x (lowReg rm))

/-- TST (R397). -/
def execTst (rn rm : LowReg) (s : State) : Result :=
  .next ((s.withApsr (s.apsr.nz (s.x (lowReg rn) &&& s.x (lowReg rm)))).advance 2#32)

end Sys2Proof.Machine
end

