-- ==== Sys2Proof/Machine/MultiTransfer.lean ====
section
/-! DEFINITION. The meanings of the multiple transfer family: LDM, POP, PUSH, STM (R110, R111). -/

namespace Sys2Proof.Machine

/-- The loads of LDM and POP: registers from consecutive word addresses, rising (R110, R280, R341). -/
def State.loadRegs (s : State) (addr : Word) : List RegNum → Access State
  | [] => .ok s
  | i :: is => (s.memRead addr .word).bind fun v => (s.setX i v).loadRegs (addr + 4#32) is

/-- The end of a multiple transfer of `n` words at `addr` whose accesses gave `r`. After a HardFault part-way the words
addressed and the registers `lost` have no defined value (R111, D24, notes/assumptions/8.md). -/
def State.completeTransfer {α : Type} (s : State) (r : Access α) (addr : Word) (n : Nat) (lost : List RegNum)
    (done : α → Result) : Result :=
  match r with
  | .ok a => done a
  | .hardFault c => ((s.undefineWords addr n).undefineRegs lost).raiseHardFault s.pc c
  | .refused q => .refused q

/-- The end of LDM once its registers are loaded: write-back unless the base is in the list (R280). -/
def State.ldmWriteBack (s : State) (rn : LowReg) (l : BitVec 8) (base : Word) : Result :=
  .next ((if l.getLsbD rn.toNat then s
    else s.setX (lowReg rn) (base + wordsSize (listRegs l).length)).advance 2#32)

/-- LDM (R280). -/
def execLdm (rn : LowReg) (l : BitVec 8) (s : State) : Result :=
  if l = 0#8 then .refused .unpredictable
  else s.completeTransfer (s.loadRegs (s.x (lowReg rn)) (listRegs l)) (s.x (lowReg rn)) (listRegs l).length
    (listRegs l ++ [lowReg rn]) fun s' => s'.ldmWriteBack rn l (s.x (lowReg rn))

/-- The loads of POP: the registers and, when `p` is 1, the word above them for the PC (R341). -/
def State.popLoads (s : State) (p : BitVec 1) (l : BitVec 8) : Access (State × Option Word) :=
  (s.loadRegs (s.x 13#4) (listRegs l)).bind fun s' =>
    if p = 1#1 then
      (s.memRead (s.x 13#4 + wordsSize (listRegs l).length) .word).bind fun target => .ok (s', some target)
    else .ok (s', none)

/-- The end of POP: SP past the words, from its value `sp` before them, and the branch to the word loaded for the PC
(R341). -/
def State.popRetire (p : BitVec 1) (l : BitVec 8) (sp : Word) (loaded : State × Option Word) : Result :=
  match loaded with
  | (s, some target) => (s.setX 13#4 (sp + wordsSize (popCount p l))).bxWritePC target
  | (s, none) => .next ((s.setX 13#4 (sp + wordsSize (popCount p l))).advance 2#32)

/-- POP (R341). After a HardFault part-way its base, SP, has no defined value either (D24, notes/assumptions/8.md). -/
def execPop (p : BitVec 1) (l : BitVec 8) (s : State) : Result :=
  if p = 0#1 ∧ l = 0#8 then .refused .unpredictable
  else s.completeTransfer (s.popLoads p l) (s.x 13#4) (popCount p l) (listRegs l ++ [13#4])
    (State.popRetire p l (s.x 13#4))

/-- The lowest address PUSH stores to, and SP after it (R342). -/
def State.pushAddr (s : State) (m : BitVec 1) (l : BitVec 8) : Word := s.x 13#4 - wordsSize (pushRegs m l).length

/-- PUSH (R342). After a HardFault part-way its base, SP, has no defined value either (D24, notes/assumptions/8.md). -/
def execPush (m : BitVec 1) (l : BitVec 8) (s : State) : Result :=
  if m = 0#1 ∧ l = 0#8 then .refused .unpredictable
  else s.completeTransfer (s.storeWords (s.pushAddr m l) ((pushRegs m l).map s.x)) (s.pushAddr m l)
    (pushRegs m l).length (pushRegs m l ++ [13#4]) fun s' => .next ((s'.setX 13#4 (s.pushAddr m l)).advance 2#32)

/-- Whether STM stores an UNKNOWN word for its base register: it is in the list and not lowest (R370). -/
def stmBaseUnknown (rn : LowReg) (l : BitVec 8) : Bool :=
  l.getLsbD rn.toNat && (listRegs l).head? != some (lowReg rn)

/-- The words STM stores, lowest address first (R370). -/
def State.stmWords (s : State) (rn : LowReg) (l : BitVec 8) : List Word :=
  (listRegs l).map fun i => if i = lowReg rn ∧ stmBaseUnknown rn l then s.freeWord else s.x i

/-- STM (R370). -/
def execStm (rn : LowReg) (l : BitVec 8) (s : State) : Result :=
  if l = 0#8 then .refused .unpredictable
  else s.completeTransfer (s.storeWords (s.x (lowReg rn)) (s.stmWords rn l)) (s.x (lowReg rn)) (listRegs l).length
    (listRegs l ++ [lowReg rn]) fun s' =>
      .next (((if stmBaseUnknown rn l then s'.drewFree else s').setX (lowReg rn)
        (s.x (lowReg rn) + wordsSize (listRegs l).length)).advance 2#32)

end Sys2Proof.Machine
end

