-- ==== Sys2Proof/Machine/Shift.lean ====
section
/-! DEFINITION. The meanings of the shift family: ASR, LSL, LSR, ROR, immediate and register forms. -/

namespace Sys2Proof.Machine

/-- A shift of a value into a register, with N, Z and C (R62). -/
def State.retireShift (s : State) (d : RegNum) (type : SRType) (v : Word) (n : Nat) : Result :=
  .next (((s.setX d (shiftC v type n s.apsr.c).1).withApsr
    (s.apsr.nzc (shiftC v type n s.apsr.c).1 (shiftC v type n s.apsr.c).2)).advance 2#32)

/-- ASRS (immediate) (R221). -/
def execAsrImm (rd rm : LowReg) (imm5 : BitVec 5) (s : State) : Result :=
  s.retireShift (lowReg rd) .asr (s.x (lowReg rm)) (immShiftRight imm5)

/-- ASRS (register) (R222). -/
def execAsrReg (rdn rm : LowReg) (s : State) : Result :=
  s.retireShift (lowReg rdn) .asr (s.x (lowReg rdn)) (regShift (s.x (lowReg rm)))

/-- LSLS (immediate) (R310). -/
def execLslImm (rd rm : LowReg) (imm5 : BitVec 5) (s : State) : Result :=
  s.retireShift (lowReg rd) .lsl (s.x (lowReg rm)) imm5.toNat

/-- LSLS (register) (R311). -/
def execLslReg (rdn rm : LowReg) (s : State) : Result :=
  s.retireShift (lowReg rdn) .lsl (s.x (lowReg rdn)) (regShift (s.x (lowReg rm)))

/-- LSRS (immediate) (R312). -/
def execLsrImm (rd rm : LowReg) (imm5 : BitVec 5) (s : State) : Result :=
  s.retireShift (lowReg rd) .lsr (s.x (lowReg rm)) (immShiftRight imm5)

/-- LSRS (register) (R313). -/
def execLsrReg (rdn rm : LowReg) (s : State) : Result :=
  s.retireShift (lowReg rdn) .lsr (s.x (lowReg rdn)) (regShift (s.x (lowReg rm)))

/-- RORS (register) (R346). -/
def execRor (rdn rm : LowReg) (s : State) : Result :=
  s.retireShift (lowReg rdn) .ror (s.x (lowReg rdn)) (regShift (s.x (lowReg rm)))

end Sys2Proof.Machine
end

