-- ==== Sys2Proof/WellFormed.lean ====
section
/-! DEFINITION. Which terms are instructions: `Instr.inOwnRow` says the encoding is this row's and no other's (R160), and
`Instr.predictable` says the spec gives it a meaning (R163, R164, R320, R330). -/

namespace Sys2Proof

/-- The `SYSm` values R66 allocates. -/
def allocatedSysm (sysm : BitVec 8) : Bool :=
  [0#8, 1#8, 2#8, 3#8, 5#8, 6#8, 7#8, 8#8, 9#8, 16#8, 20#8].contains sysm

/-- The value the should-be bits of DMB, DSB and ISB have: `1111 : 0 : 1111` (R163). -/
def barrierShouldBe : BitVec 9 := 0b111101111#9

/-- The value the should-be bits of MRS have: `0 : 1111 : 0` (R163). -/
def mrsShouldBe : BitVec 6 := 0b011110#6

/-- The value the should-be bits of MSR have: `0 : 0 : 1000` (R163). -/
def msrShouldBe : BitVec 6 := 0b001000#6

/-- The value the should-be bits of CPS have (R163). -/
def cpsShouldBe : BitVec 4 := 0b0010#4

/-- The fields do not make the words another row's (the priorities of R160): LSL (immediate) has `imm5 != 0`, ADD
(register) T2 names no SP, and ADD (SP plus register) T2 has `Rm != SP`. -/
def Instr.inOwnRow : Instr → Bool
  | .lslImm _ _ imm5 => imm5 != 0#5
  | .addRegT2 rdn rm => rdn != 13#4 && rm != 13#4
  | .addSpRegT2 rm => rm != 13#4
  | _ => true

/-- The should-be bits have their values (R163). -/
def Instr.shouldBeOk : Instr → Bool
  | .blx _ sb => sb == 0#3
  | .bx _ sb => sb == 0#3
  | .cps _ sb => sb == cpsShouldBe
  | .dmb _ sb => sb == barrierShouldBe
  | .dsb _ sb => sb == barrierShouldBe
  | .isb _ sb => sb == barrierShouldBe
  | .mrs _ _ sb => sb == mrsShouldBe
  | .msr _ _ sb => sb == msrShouldBe
  | _ => true

/-- The field values are none of those the spec makes UNPREDICTABLE (R164, R320, R330). -/
def Instr.valuesOk : Instr → Bool
  | .addRegT2 rdn rm => !(rdn == 15#4 && rm == 15#4)
  | .blx rm _ => rm != 15#4
  | .bx rm _ => rm != 15#4
  | .cmpRegT2 rn rm => !(rn.ult 8#4 && rm.ult 8#4) && rn != 15#4 && rm != 15#4
  | .ldm _ l => l != 0#8
  | .stm _ l => l != 0#8
  | .pop p l => !(p == 0#1 && l == 0#8)
  | .push m l => !(m == 0#1 && l == 0#8)
  | .mrs rd sysm _ => rd != 13#4 && rd != 15#4 && allocatedSysm sysm
  | .msr rn sysm _ => rn != 13#4 && rn != 15#4 && allocatedSysm sysm
  | _ => true

/-- The spec gives the instruction a meaning. -/
def Instr.predictable (i : Instr) : Bool := i.shouldBeOk && i.valuesOk

/-- A well-formed instruction: an encoding of its own row with the field values the spec gives a meaning. -/
def Instr.wellFormed (i : Instr) : Bool := i.inOwnRow && i.predictable

end Sys2Proof
end

