-- ==== Sys2Proof/Machine/System.lean ====
section
/-! DEFINITION. The meanings of the system family: BKPT, CPS, DMB, DSB, ISB, MRS, MSR, NOP, SEV, SVC, UDF, WFE, WFI,
YIELD. -/

namespace Sys2Proof.Machine

/-- BKPT (R226, R503). -/
def execBkpt (imm8 : BitVec 8) (s : State) : Result :=
  if s.cfg.debugHalt then .next (s.withRun (.halted imm8))
  else s.raiseHardFault s.pc (.breakpoint s.pc imm8)

/-- CPS (R258). -/
def execCps (im : BitVec 1) (sb : BitVec 4) (s : State) : Result :=
  if sb ≠ cpsShouldBe then .refused .shouldBeBits
  else .next ((if s.privileged then s.withPrimask (im == 1#1) else s).advance 2#32)

/-- The end of a barrier, whatever `option` is, in the state `t` it leaves: with one agent whose accesses are performed in
program order a barrier changes nothing that an instruction can read (R120, R166, D12, D13). -/
def State.afterBarrier (t : State) (sb : BitVec 9) : Result :=
  if sb ≠ barrierShouldBe then .refused .shouldBeBits else .next (t.advance 4#32)

/-- DMB (R262). -/
def execDmb (_option : BitVec 4) (sb : BitVec 9) (s : State) : Result := s.afterBarrier sb

/-- DSB (R263): the stores before it are complete, the first half of what makes them visible to a fetch (R122, R125). -/
def execDsb (_option : BitVec 4) (sb : BitVec 9) (s : State) : Result :=
  (s.withModified s.modified.drain).afterBarrier sb

/-- ISB (R267): what the last DSB completed is visible to the fetches after it (R123, R125). -/
def execIsb (_option : BitVec 4) (sb : BitVec 9) (s : State) : Result :=
  (s.withModified s.modified.flush).afterBarrier sb

/-- What the restriction of D21 refuses: PSP, and a write of CONTROL whose bits 1 and 0 are not both 0 (R320, R330). -/
def State.outsideSingleStack (s : State) (sysm : BitVec 8) (written : Word) : Bool :=
  s.cfg.singleStack && (sysm == 9#8 || (sysm == 20#8 && written.extractLsb' 0 2 != 0#2))

/-- MRS (R320). -/
def execMrs (rd : RegNum) (sysm : BitVec 8) (sb : BitVec 6) (s : State) : Result :=
  if sb ≠ mrsShouldBe then .refused .shouldBeBits
  else if rd = 13#4 ∨ rd = 15#4 then .refused .unpredictable
  else match specRegOf sysm with
    | none => .refused (.reservedSysm sysm)
    | some r =>
      if s.outsideSingleStack sysm 0#32 then .refused (.outsideSingleStack sysm)
      else .next ((s.setX rd (s.readSpecial r)).advance 4#32)

/-- MSR (register) (R330). -/
def execMsr (rn : RegNum) (sysm : BitVec 8) (sb : BitVec 6) (s : State) : Result :=
  if sb ≠ msrShouldBe then .refused .shouldBeBits
  else if rn = 13#4 ∨ rn = 15#4 then .refused .unpredictable
  else match specRegOf sysm with
    | none => .refused (.reservedSysm sysm)
    | some r =>
      if s.outsideSingleStack sysm (s.x rn) then .refused (.outsideSingleStack sysm)
      else .next ((s.writeSpecial r (s.x rn)).advance 4#32)

/-- NOP (R335). -/
def execNop (s : State) : Result := .next (s.advance 2#32)

/-- SEV (R349). -/
def execSev (s : State) : Result := .next ((s.withEvent true).advance 2#32)

/-- SVC (R394): SVCall, or HardFault when SVCall's priority is not higher than the current execution priority (R502). -/
def execSvc (_imm8 : BitVec 8) (s : State) : Result :=
  if s.priority excSvCall < s.execPriority then s.takeException excSvCall (s.pc + 2#32)
  else s.raiseHardFault (s.pc + 2#32) (.svcEscalated s.pc)

/-- UNDEFINED: the Undefined Instruction exception, taken as HardFault (R34, R504). -/
def State.undefinedInstruction (s : State) : Result := s.raiseHardFault s.pc (.undefined s.pc)

/-- UDF T1 (R398). -/
def execUdfT1 (_imm8 : BitVec 8) (s : State) : Result := s.undefinedInstruction

/-- UDF T2 (R399). -/
def execUdfT2 (_imm4 : BitVec 4) (_imm12 : BitVec 12) (s : State) : Result := s.undefinedInstruction

/-- WFE (R423): an event registered is cleared; otherwise the instruction retires or suspends, which the spec leaves open
(D15). -/
def execWfe (s : State) : Result :=
  .next (if s.event then (s.withEvent false).advance 2#32
    else ((s.withRun (if Config.hintSuspends s.freeIdx then .waitingForEvent else s.run)).drewFree).advance 2#32)

/-- WFI (R424): a wake-up pending lets it retire; otherwise it retires or suspends, which the spec leaves open (D15). -/
def execWfi (s : State) : Result :=
  .next (if s.wakesInterrupt then s.advance 2#32
    else ((s.withRun (if Config.hintSuspends s.freeIdx then .waitingForInterrupt else s.run)).drewFree).advance 2#32)

/-- YIELD (R425). -/
def execYield (s : State) : Result := .next (s.advance 2#32)

end Sys2Proof.Machine
end

