-- ==== Sys2Proof/Machine/Dispatch.lean ====
section
/-! DEFINITION. One arm per instruction: its meaning. -/

namespace Sys2Proof.Machine

def exec (i : Instr) (s : State) : Host.Outcome State Fault Refusal :=
  match i with
  | .adc rdn rm => Sys2Proof.Machine.execAdc rdn rm s
  | .addImmT1 rd rn imm3 => Sys2Proof.Machine.execAddImmT1 rd rn imm3 s
  | .addImmT2 rdn imm8 => Sys2Proof.Machine.execAddImmT2 rdn imm8 s
  | .addRegT1 rd rn rm => Sys2Proof.Machine.execAddRegT1 rd rn rm s
  | .addRegT2 rdn rm => Sys2Proof.Machine.execAddRegT2 rdn rm s
  | .addSpImmT1 rd imm8 => Sys2Proof.Machine.execAddSpImmT1 rd imm8 s
  | .addSpImmT2 imm7 => Sys2Proof.Machine.execAddSpImmT2 imm7 s
  | .addSpRegT1 rdm => Sys2Proof.Machine.execAddSpRegT1 rdm s
  | .addSpRegT2 rm => Sys2Proof.Machine.execAddSpRegT2 rm s
  | .adr rd imm8 => Sys2Proof.Machine.execAdr rd imm8 s
  | .andReg rdn rm => Sys2Proof.Machine.execAndReg rdn rm s
  | .asrImm rd rm imm5 => Sys2Proof.Machine.execAsrImm rd rm imm5 s
  | .asrReg rdn rm => Sys2Proof.Machine.execAsrReg rdn rm s
  | .bT1 cond imm8 => Sys2Proof.Machine.execBT1 cond imm8 s
  | .bT2 imm11 => Sys2Proof.Machine.execBT2 imm11 s
  | .bic rdn rm => Sys2Proof.Machine.execBic rdn rm s
  | .bkpt imm8 => Sys2Proof.Machine.execBkpt imm8 s
  | .bl sbit imm10 j1 j2 imm11 => Sys2Proof.Machine.execBl sbit imm10 j1 j2 imm11 s
  | .blx rm sb => Sys2Proof.Machine.execBlx rm sb s
  | .bx rm sb => Sys2Proof.Machine.execBx rm sb s
  | .cmn rn rm => Sys2Proof.Machine.execCmn rn rm s
  | .cmpImm rn imm8 => Sys2Proof.Machine.execCmpImm rn imm8 s
  | .cmpRegT1 rn rm => Sys2Proof.Machine.execCmpRegT1 rn rm s
  | .cmpRegT2 rn rm => Sys2Proof.Machine.execCmpRegT2 rn rm s
  | .cps im sb => Sys2Proof.Machine.execCps im sb s
  | .dmb option sb => Sys2Proof.Machine.execDmb option sb s
  | .dsb option sb => Sys2Proof.Machine.execDsb option sb s
  | .eor rdn rm => Sys2Proof.Machine.execEor rdn rm s
  | .isb option sb => Sys2Proof.Machine.execIsb option sb s
  | .ldm rn registerList => Sys2Proof.Machine.execLdm rn registerList s
  | .ldrImmT1 rt rn imm5 => Sys2Proof.Machine.execLdrImmT1 rt rn imm5 s
  | .ldrImmT2 rt imm8 => Sys2Proof.Machine.execLdrImmT2 rt imm8 s
  | .ldrLit rt imm8 => Sys2Proof.Machine.execLdrLit rt imm8 s
  | .ldrReg rt rn rm => Sys2Proof.Machine.execLdrReg rt rn rm s
  | .ldrbImm rt rn imm5 => Sys2Proof.Machine.execLdrbImm rt rn imm5 s
  | .ldrbReg rt rn rm => Sys2Proof.Machine.execLdrbReg rt rn rm s
  | .ldrhImm rt rn imm5 => Sys2Proof.Machine.execLdrhImm rt rn imm5 s
  | .ldrhReg rt rn rm => Sys2Proof.Machine.execLdrhReg rt rn rm s
  | .ldrsb rt rn rm => Sys2Proof.Machine.execLdrsb rt rn rm s
  | .ldrsh rt rn rm => Sys2Proof.Machine.execLdrsh rt rn rm s
  | .lslImm rd rm imm5 => Sys2Proof.Machine.execLslImm rd rm imm5 s
  | .lslReg rdn rm => Sys2Proof.Machine.execLslReg rdn rm s
  | .lsrImm rd rm imm5 => Sys2Proof.Machine.execLsrImm rd rm imm5 s
  | .lsrReg rdn rm => Sys2Proof.Machine.execLsrReg rdn rm s
  | .movImm rd imm8 => Sys2Proof.Machine.execMovImm rd imm8 s
  | .movRegT1 rd rm => Sys2Proof.Machine.execMovRegT1 rd rm s
  | .movRegT2 rd rm => Sys2Proof.Machine.execMovRegT2 rd rm s
  | .mrs rd sysm sb => Sys2Proof.Machine.execMrs rd sysm sb s
  | .msr rn sysm sb => Sys2Proof.Machine.execMsr rn sysm sb s
  | .mul rdm rn => Sys2Proof.Machine.execMul rdm rn s
  | .mvn rd rm => Sys2Proof.Machine.execMvn rd rm s
  | .nop => Sys2Proof.Machine.execNop s
  | .orr rdn rm => Sys2Proof.Machine.execOrr rdn rm s
  | .pop p registerList => Sys2Proof.Machine.execPop p registerList s
  | .push m registerList => Sys2Proof.Machine.execPush m registerList s
  | .rev rd rm => Sys2Proof.Machine.execRev rd rm s
  | .rev16 rd rm => Sys2Proof.Machine.execRev16 rd rm s
  | .revsh rd rm => Sys2Proof.Machine.execRevsh rd rm s
  | .ror rdn rm => Sys2Proof.Machine.execRor rdn rm s
  | .rsb rd rn => Sys2Proof.Machine.execRsb rd rn s
  | .sbc rdn rm => Sys2Proof.Machine.execSbc rdn rm s
  | .sev => Sys2Proof.Machine.execSev s
  | .stm rn registerList => Sys2Proof.Machine.execStm rn registerList s
  | .strImmT1 rt rn imm5 => Sys2Proof.Machine.execStrImmT1 rt rn imm5 s
  | .strImmT2 rt imm8 => Sys2Proof.Machine.execStrImmT2 rt imm8 s
  | .strReg rt rn rm => Sys2Proof.Machine.execStrReg rt rn rm s
  | .strbImm rt rn imm5 => Sys2Proof.Machine.execStrbImm rt rn imm5 s
  | .strbReg rt rn rm => Sys2Proof.Machine.execStrbReg rt rn rm s
  | .strhImm rt rn imm5 => Sys2Proof.Machine.execStrhImm rt rn imm5 s
  | .strhReg rt rn rm => Sys2Proof.Machine.execStrhReg rt rn rm s
  | .subImmT1 rd rn imm3 => Sys2Proof.Machine.execSubImmT1 rd rn imm3 s
  | .subImmT2 rdn imm8 => Sys2Proof.Machine.execSubImmT2 rdn imm8 s
  | .subReg rd rn rm => Sys2Proof.Machine.execSubReg rd rn rm s
  | .subSpImm imm7 => Sys2Proof.Machine.execSubSpImm imm7 s
  | .svc imm8 => Sys2Proof.Machine.execSvc imm8 s
  | .sxtb rd rm => Sys2Proof.Machine.execSxtb rd rm s
  | .sxth rd rm => Sys2Proof.Machine.execSxth rd rm s
  | .tst rn rm => Sys2Proof.Machine.execTst rn rm s
  | .udfT1 imm8 => Sys2Proof.Machine.execUdfT1 imm8 s
  | .udfT2 imm4 imm12 => Sys2Proof.Machine.execUdfT2 imm4 imm12 s
  | .uxtb rd rm => Sys2Proof.Machine.execUxtb rd rm s
  | .uxth rd rm => Sys2Proof.Machine.execUxth rd rm s
  | .wfe => Sys2Proof.Machine.execWfe s
  | .wfi => Sys2Proof.Machine.execWfi s
  | .yield => Sys2Proof.Machine.execYield s

end Sys2Proof.Machine
end

