-- ==== Sys2Proof/Decode.lean ====
section
/-! DEFINITION. The decoder, total on any halfwords and any bytes, and the encoder, both written from the encodings of
R142 to R146 with the priorities of R160. A pattern the spec allocates to no row is rejected by name (R165). -/

namespace Sys2Proof

/-- Why a bit pattern is no instruction. -/
inductive DecodeError where
  /-- UNDEFINED: matches no row of R144; raises the Undefined Instruction exception (R165, R504). -/
  | undefined
  /-- An unallocated hint `10111111hhhh0000` with `hhhh` from 0101 up: refused (R165, D15, C15). -/
  | unallocatedHint (hint : BitVec 4)
  /-- A byte list that ends before its instruction does. -/
  | truncated
deriving DecidableEq, Repr

/-- A bit slice `v[lo+len-1 : lo]` (R10). -/
abbrev slice {w : Nat} (v : BitVec w) (lo len : Nat) : BitVec len := v.extractLsb' lo len

/-- A halfword from the concatenation of its fields (R11). -/
def half {w : Nat} (v : BitVec w) : Half := v.setWidth 16

/-- The `cond` field of B T1 (R32); 1110 and 1111 are no condition of it (R223). -/
def condOfBits (b : BitVec 4) : Option Cond :=
  match b with
  | 0b0000#4 => some .eq
  | 0b0001#4 => some .ne
  | 0b0010#4 => some .cs
  | 0b0011#4 => some .cc
  | 0b0100#4 => some .mi
  | 0b0101#4 => some .pl
  | 0b0110#4 => some .vs
  | 0b0111#4 => some .vc
  | 0b1000#4 => some .hi
  | 0b1001#4 => some .ls
  | 0b1010#4 => some .ge
  | 0b1011#4 => some .lt
  | 0b1100#4 => some .gt
  | 0b1101#4 => some .le
  | _ => none

/-- The bits of a condition (R32). -/
def condBits : Cond → BitVec 4
  | .eq => 0b0000#4
  | .ne => 0b0001#4
  | .cs => 0b0010#4
  | .cc => 0b0011#4
  | .mi => 0b0100#4
  | .pl => 0b0101#4
  | .vs => 0b0110#4
  | .vc => 0b0111#4
  | .hi => 0b1000#4
  | .ls => 0b1001#4
  | .ge => 0b1010#4
  | .lt => 0b1011#4
  | .gt => 0b1100#4
  | .le => 0b1101#4

/-- Whether a first halfword starts a 32-bit instruction (R140, D10). -/
def isWide (hw1 : Half) : Bool :=
  slice hw1 11 5 == 0b11101#5 || slice hw1 11 5 == 0b11110#5 || slice hw1 11 5 == 0b11111#5

/-- Format AS3 (R142): ADD and SUB (register) T1, ADD and SUB (immediate) T1. -/
def decodeAddSub3 (hw : Half) : Instr :=
  match slice hw 9 2 with
  | 0b00#2 => .addRegT1 (slice hw 0 3) (slice hw 3 3) (slice hw 6 3)
  | 0b01#2 => .subReg (slice hw 0 3) (slice hw 3 3) (slice hw 6 3)
  | 0b10#2 => .addImmT1 (slice hw 0 3) (slice hw 3 3) (slice hw 6 3)
  | _ => .subImmT1 (slice hw 0 3) (slice hw 3 3) (slice hw 6 3)

/-- Format DP, enumerated by `op = instr[9:6]` (R145). -/
def decodeDataProcessing (hw : Half) : Instr :=
  match slice hw 6 4 with
  | 0b0000#4 => .andReg (slice hw 0 3) (slice hw 3 3)
  | 0b0001#4 => .eor (slice hw 0 3) (slice hw 3 3)
  | 0b0010#4 => .lslReg (slice hw 0 3) (slice hw 3 3)
  | 0b0011#4 => .lsrReg (slice hw 0 3) (slice hw 3 3)
  | 0b0100#4 => .asrReg (slice hw 0 3) (slice hw 3 3)
  | 0b0101#4 => .adc (slice hw 0 3) (slice hw 3 3)
  | 0b0110#4 => .sbc (slice hw 0 3) (slice hw 3 3)
  | 0b0111#4 => .ror (slice hw 0 3) (slice hw 3 3)
  | 0b1000#4 => .tst (slice hw 0 3) (slice hw 3 3)
  | 0b1001#4 => .rsb (slice hw 0 3) (slice hw 3 3)
  | 0b1010#4 => .cmpRegT1 (slice hw 0 3) (slice hw 3 3)
  | 0b1011#4 => .cmn (slice hw 0 3) (slice hw 3 3)
  | 0b1100#4 => .orr (slice hw 0 3) (slice hw 3 3)
  | 0b1101#4 => .mul (slice hw 0 3) (slice hw 3 3)
  | 0b1110#4 => .bic (slice hw 0 3) (slice hw 3 3)
  | _ => .mvn (slice hw 0 3) (slice hw 3 3)

/-- Formats HI and BXR (R142), with the priorities of R160 points 2 to 4 among the ADD encodings. -/
def decodeHighRegister (hw : Half) : Instr :=
  let high : RegNum := slice hw 7 1 ++ slice hw 0 3
  let rm : RegNum := slice hw 3 4
  match slice hw 8 2 with
  | 0b00#2 => if rm = 13#4 then .addSpRegT1 high else if high = 13#4 then .addSpRegT2 rm else .addRegT2 high rm
  | 0b01#2 => .cmpRegT2 high rm
  | 0b10#2 => .movRegT1 high rm
  | _ => if slice hw 7 1 = 1#1 then .blx rm (slice hw 0 3) else .bx rm (slice hw 0 3)

/-- Format LSR, the register-offset loads and stores by `op = instr[11:9]` (R146). -/
def decodeRegisterOffset (hw : Half) : Instr :=
  match slice hw 9 3 with
  | 0b000#3 => .strReg (slice hw 0 3) (slice hw 3 3) (slice hw 6 3)
  | 0b001#3 => .strhReg (slice hw 0 3) (slice hw 3 3) (slice hw 6 3)
  | 0b010#3 => .strbReg (slice hw 0 3) (slice hw 3 3) (slice hw 6 3)
  | 0b011#3 => .ldrsb (slice hw 0 3) (slice hw 3 3) (slice hw 6 3)
  | 0b100#3 => .ldrReg (slice hw 0 3) (slice hw 3 3) (slice hw 6 3)
  | 0b101#3 => .ldrhReg (slice hw 0 3) (slice hw 3 3) (slice hw 6 3)
  | 0b110#3 => .ldrbReg (slice hw 0 3) (slice hw 3 3) (slice hw 6 3)
  | _ => .ldrsh (slice hw 0 3) (slice hw 3 3) (slice hw 6 3)

/-- Format HINT (R142, R165): allocated hints, unallocated hints, and the undefined rest of `10111111........`. -/
def decodeHint (hw : Half) : Except DecodeError Instr :=
  if slice hw 0 4 = 0#4 then
    match slice hw 4 4 with
    | 0b0000#4 => .ok .nop
    | 0b0001#4 => .ok .yield
    | 0b0010#4 => .ok .wfe
    | 0b0011#4 => .ok .wfi
    | 0b0100#4 => .ok .sev
    | h => .error (.unallocatedHint h)
  else .error .undefined

/-- The miscellaneous block `1011....` by `instr[11:8]` (R142, R147, R165). -/
def decodeMiscellaneous (hw : Half) : Except DecodeError Instr :=
  match slice hw 8 4 with
  | 0b0000#4 => .ok (if slice hw 7 1 = 0#1 then .addSpImmT2 (slice hw 0 7) else .subSpImm (slice hw 0 7))
  | 0b0010#4 =>
    match slice hw 6 2 with
    | 0b00#2 => .ok (.sxth (slice hw 0 3) (slice hw 3 3))
    | 0b01#2 => .ok (.sxtb (slice hw 0 3) (slice hw 3 3))
    | 0b10#2 => .ok (.uxth (slice hw 0 3) (slice hw 3 3))
    | _ => .ok (.uxtb (slice hw 0 3) (slice hw 3 3))
  | 0b0100#4 => .ok (.push (slice hw 8 1) (slice hw 0 8))
  | 0b0101#4 => .ok (.push (slice hw 8 1) (slice hw 0 8))
  | 0b0110#4 => if slice hw 5 3 = 0b011#3 then .ok (.cps (slice hw 4 1) (slice hw 0 4)) else .error .undefined
  | 0b1010#4 =>
    match slice hw 6 2 with
    | 0b00#2 => .ok (.rev (slice hw 0 3) (slice hw 3 3))
    | 0b01#2 => .ok (.rev16 (slice hw 0 3) (slice hw 3 3))
    | 0b11#2 => .ok (.revsh (slice hw 0 3) (slice hw 3 3))
    | _ => .error .undefined
  | 0b1100#4 => .ok (.pop (slice hw 8 1) (slice hw 0 8))
  | 0b1101#4 => .ok (.pop (slice hw 8 1) (slice hw 0 8))
  | 0b1110#4 => .ok (.bkpt (slice hw 0 8))
  | 0b1111#4 => decodeHint hw
  | _ => .error .undefined

/-- Format BC (R142): UDF T1 and SVC take `cond` 1110 and 1111 (R160 point 5). -/
def decodeConditional (hw : Half) : Instr :=
  match condOfBits (slice hw 8 4) with
  | some c => .bT1 c (slice hw 0 8)
  | none => if slice hw 8 1 = 0#1 then .udfT1 (slice hw 0 8) else .svc (slice hw 0 8)

/-- A 16-bit instruction, by `instr[15:11]` (R142, R146, R147). -/
def decode16 (hw : Half) : Except DecodeError Instr :=
  match slice hw 11 5 with
  | 0b00000#5 =>
    .ok (if slice hw 6 5 = 0#5 then .movRegT2 (slice hw 0 3) (slice hw 3 3)
         else .lslImm (slice hw 0 3) (slice hw 3 3) (slice hw 6 5))
  | 0b00001#5 => .ok (.lsrImm (slice hw 0 3) (slice hw 3 3) (slice hw 6 5))
  | 0b00010#5 => .ok (.asrImm (slice hw 0 3) (slice hw 3 3) (slice hw 6 5))
  | 0b00011#5 => .ok (decodeAddSub3 hw)
  | 0b00100#5 => .ok (.movImm (slice hw 8 3) (slice hw 0 8))
  | 0b00101#5 => .ok (.cmpImm (slice hw 8 3) (slice hw 0 8))
  | 0b00110#5 => .ok (.addImmT2 (slice hw 8 3) (slice hw 0 8))
  | 0b00111#5 => .ok (.subImmT2 (slice hw 8 3) (slice hw 0 8))
  | 0b01000#5 => .ok (if slice hw 10 1 = 0#1 then decodeDataProcessing hw else decodeHighRegister hw)
  | 0b01001#5 => .ok (.ldrLit (slice hw 8 3) (slice hw 0 8))
  | 0b01010#5 => .ok (decodeRegisterOffset hw)
  | 0b01011#5 => .ok (decodeRegisterOffset hw)
  | 0b01100#5 => .ok (.strImmT1 (slice hw 0 3) (slice hw 3 3) (slice hw 6 5))
  | 0b01101#5 => .ok (.ldrImmT1 (slice hw 0 3) (slice hw 3 3) (slice hw 6 5))
  | 0b01110#5 => .ok (.strbImm (slice hw 0 3) (slice hw 3 3) (slice hw 6 5))
  | 0b01111#5 => .ok (.ldrbImm (slice hw 0 3) (slice hw 3 3) (slice hw 6 5))
  | 0b10000#5 => .ok (.strhImm (slice hw 0 3) (slice hw 3 3) (slice hw 6 5))
  | 0b10001#5 => .ok (.ldrhImm (slice hw 0 3) (slice hw 3 3) (slice hw 6 5))
  | 0b10010#5 => .ok (.strImmT2 (slice hw 8 3) (slice hw 0 8))
  | 0b10011#5 => .ok (.ldrImmT2 (slice hw 8 3) (slice hw 0 8))
  | 0b10100#5 => .ok (.adr (slice hw 8 3) (slice hw 0 8))
  | 0b10101#5 => .ok (.addSpImmT1 (slice hw 8 3) (slice hw 0 8))
  | 0b10110#5 => decodeMiscellaneous hw
  | 0b10111#5 => decodeMiscellaneous hw
  | 0b11000#5 => .ok (.stm (slice hw 8 3) (slice hw 0 8))
  | 0b11001#5 => .ok (.ldm (slice hw 8 3) (slice hw 0 8))
  | 0b11010#5 => .ok (decodeConditional hw)
  | 0b11011#5 => .ok (decodeConditional hw)
  | 0b11100#5 => .ok (.bT2 (slice hw 0 11))
  | _ => .error .undefined

/-- The should-be bits of a barrier: `hw1[3:0] : hw2[13] : hw2[11:8]` (R163). -/
def barrierBits (hw1 hw2 : Half) : BitVec 9 := slice hw1 0 4 ++ slice hw2 13 1 ++ slice hw2 8 4

/-- The 32-bit instructions with `hw2[15:14] = 10` and `hw2[12] = 0` (R143). -/
def decodeSystemWide (hw1 hw2 : Half) : Except DecodeError Instr :=
  if slice hw1 4 12 = 0b111100111011#12 then
    match slice hw2 4 4 with
    | 0b0100#4 => .ok (.dsb (slice hw2 0 4) (barrierBits hw1 hw2))
    | 0b0101#4 => .ok (.dmb (slice hw2 0 4) (barrierBits hw1 hw2))
    | 0b0110#4 => .ok (.isb (slice hw2 0 4) (barrierBits hw1 hw2))
    | _ => .error .undefined
  else if slice hw1 5 11 = 0b11110011111#11 then
    .ok (.mrs (slice hw2 8 4) (slice hw2 0 8) (slice hw1 4 1 ++ slice hw1 0 4 ++ slice hw2 13 1))
  else if slice hw1 5 11 = 0b11110011100#11 then
    .ok (.msr (slice hw1 0 4) (slice hw2 0 8) (slice hw1 4 1 ++ slice hw2 13 1 ++ slice hw2 8 4))
  else if slice hw1 4 12 = 0b111101111111#12 then
    if slice hw2 13 1 = 1#1 then .ok (.udfT2 (slice hw1 0 4) (slice hw2 0 12)) else .error .undefined
  else .error .undefined

/-- A 32-bit instruction (R143); every pair of halfwords outside the seven rows is UNDEFINED (R165). -/
def decode32 (hw1 hw2 : Half) : Except DecodeError Instr :=
  if slice hw1 11 5 = 0b11110#5 then
    if slice hw2 14 2 = 0b11#2 then
      if slice hw2 12 1 = 1#1 then
        .ok (.bl (slice hw1 10 1) (slice hw1 0 10) (slice hw2 13 1) (slice hw2 11 1) (slice hw2 0 11))
      else .error .undefined
    else if slice hw2 14 2 = 0b10#2 then
      if slice hw2 12 1 = 0#1 then decodeSystemWide hw1 hw2 else .error .undefined
    else .error .undefined
  else .error .undefined

/-- The instruction whose halfwords are `hw1` and, for a 32-bit one, `hw2` (R140, R141). -/
def decode (hw1 hw2 : Half) : Except DecodeError Instr :=
  if isWide hw1 then decode32 hw1 hw2 else decode16 hw1

/-- The halfword whose bytes in memory are `b0` and then `b1` (R103). -/
def halfOfBytes (b0 b1 : Byte) : Half := b1 ++ b0

/-- The instruction at the front of a list of bytes in memory order, and the bytes after it (R103, R140). -/
def decodeBytes : List Byte → Except DecodeError (Instr × List Byte)
  | b0 :: b1 :: rest =>
    if isWide (halfOfBytes b0 b1) then
      match rest with
      | b2 :: b3 :: rest' => (decode32 (halfOfBytes b0 b1) (halfOfBytes b2 b3)).map (·, rest')
      | _ => .error .truncated
    else (decode16 (halfOfBytes b0 b1)).map (·, rest)
  | _ => .error .truncated

/-- The bytes of a halfword in memory order (R103). -/
def bytesOfHalf (hw : Half) : List Byte := [slice hw 0 8, slice hw 8 8]

/-- The first and second halfword of the instruction whose `nbits` bits are `w`, numbered as spec/opcode_table.json numbers
them: a 16-bit row's number is its halfword, a 32-bit row's number has `hw1` in bits 31 to 16 and `hw2` in bits 15 to 0
(R141). A 32-bit number whose upper half starts no 32-bit instruction can only have been numbered from the first
halfword up, and is read so (notes/assumptions/25.md). -/
def tableHalves (nbits w : Nat) : Half × Half :=
  if nbits ≤ 16 then (BitVec.ofNat 16 w, 0#16)
  else if isWide (BitVec.ofNat 16 (w / 65536)) then (BitVec.ofNat 16 (w / 65536), BitVec.ofNat 16 w)
  else (BitVec.ofNat 16 w, BitVec.ofNat 16 (w / 65536))

/-- The bytes, in memory order, of the instruction whose bits are `w` (R103). -/
def tableBytes (nbits w : Nat) : List Byte :=
  bytesOfHalf (tableHalves nbits w).1 ++ bytesOfHalf (tableHalves nbits w).2

/-- The instruction the decoder reads from an instruction whose bits are `w`. -/
def decodeTableWord (nbits w : Nat) : Option Instr :=
  match decodeBytes (tableBytes nbits w) with
  | .ok (i, _) => some i
  | .error _ => none

/-- The halfword of a data-processing instruction: `010000 op Rm Rd` (R142, R145). -/
def encodeDataProcessing (op : BitVec 4) (rd rm : LowReg) : Half := half (0b010000#6 ++ op ++ rm ++ rd)

/-- The halfword of a register-offset load or store: `0101 op Rm Rn Rt` (R142, R146). -/
def encodeRegisterOffset (op : BitVec 3) (rt rn rm : LowReg) : Half := half (0b0101#4 ++ op ++ rm ++ rn ++ rt)

/-- The halfword of an encoding `op imm5 Rn Rt` (R142 formats SHI and LSI). -/
def encodeImm5 (op : BitVec 5) (rt rn : LowReg) (imm5 : BitVec 5) : Half := half (op ++ imm5 ++ rn ++ rt)

/-- The halfword of an encoding `op R imm8` (R142 formats I8, LIT, RI8, LSM). -/
def encodeImm8 (op : BitVec 5) (r : LowReg) (imm8 : BitVec 8) : Half := half (op ++ r ++ imm8)

/-- The halfword of an encoding `op Rm Rd` with a ten-bit opcode (R142 formats EXT and RV). -/
def encodeTwoLow (op : BitVec 10) (rd rm : LowReg) : Half := half (op ++ rm ++ rd)

/-- The halfword of an encoding `010001 op H Rm Rd` whose high register is `H:Rd` (R142 format HI). -/
def encodeHighRegister (op : BitVec 2) (high rm : RegNum) : Half :=
  half (0b010001#6 ++ op ++ slice high 3 1 ++ rm ++ slice high 0 3)

/-- The halfwords of a barrier (R143 format BAR). -/
def encodeBarrier (op option : BitVec 4) (sb : BitVec 9) : List Half :=
  [half (0b111100111011#12 ++ slice sb 5 4),
   half (0b10#2 ++ slice sb 4 1 ++ 0#1 ++ slice sb 0 4 ++ op ++ option)]

/-- The halfwords of an instruction, first halfword first (R142 to R144). -/
def encode : Instr → List Half
  | .adc rdn rm => [encodeDataProcessing 0b0101#4 rdn rm]
  | .addImmT1 rd rn imm3 => [half (0b0001110#7 ++ imm3 ++ rn ++ rd)]
  | .addImmT2 rdn imm8 => [encodeImm8 0b00110#5 rdn imm8]
  | .addRegT1 rd rn rm => [half (0b0001100#7 ++ rm ++ rn ++ rd)]
  | .addRegT2 rdn rm => [encodeHighRegister 0b00#2 rdn rm]
  | .addSpImmT1 rd imm8 => [encodeImm8 0b10101#5 rd imm8]
  | .addSpImmT2 imm7 => [half (0b101100000#9 ++ imm7)]
  | .addSpRegT1 rdm => [encodeHighRegister 0b00#2 rdm 0b1101#4]
  | .addSpRegT2 rm => [encodeHighRegister 0b00#2 0b1101#4 rm]
  | .adr rd imm8 => [encodeImm8 0b10100#5 rd imm8]
  | .andReg rdn rm => [encodeDataProcessing 0b0000#4 rdn rm]
  | .asrImm rd rm imm5 => [encodeImm5 0b00010#5 rd rm imm5]
  | .asrReg rdn rm => [encodeDataProcessing 0b0100#4 rdn rm]
  | .bT1 cond imm8 => [half (0b1101#4 ++ condBits cond ++ imm8)]
  | .bT2 imm11 => [half (0b11100#5 ++ imm11)]
  | .bic rdn rm => [encodeDataProcessing 0b1110#4 rdn rm]
  | .bkpt imm8 => [half (0b10111110#8 ++ imm8)]
  | .bl sbit imm10 j1 j2 imm11 =>
    [half (0b11110#5 ++ sbit ++ imm10), half (0b11#2 ++ j1 ++ 1#1 ++ j2 ++ imm11)]
  | .blx rm sb => [half (0b010001111#9 ++ rm ++ sb)]
  | .bx rm sb => [half (0b010001110#9 ++ rm ++ sb)]
  | .cmn rn rm => [encodeDataProcessing 0b1011#4 rn rm]
  | .cmpImm rn imm8 => [encodeImm8 0b00101#5 rn imm8]
  | .cmpRegT1 rn rm => [encodeDataProcessing 0b1010#4 rn rm]
  | .cmpRegT2 rn rm => [encodeHighRegister 0b01#2 rn rm]
  | .cps im sb => [half (0b10110110011#11 ++ im ++ sb)]
  | .dmb option sb => encodeBarrier 0b0101#4 option sb
  | .dsb option sb => encodeBarrier 0b0100#4 option sb
  | .eor rdn rm => [encodeDataProcessing 0b0001#4 rdn rm]
  | .isb option sb => encodeBarrier 0b0110#4 option sb
  | .ldm rn l => [encodeImm8 0b11001#5 rn l]
  | .ldrImmT1 rt rn imm5 => [encodeImm5 0b01101#5 rt rn imm5]
  | .ldrImmT2 rt imm8 => [encodeImm8 0b10011#5 rt imm8]
  | .ldrLit rt imm8 => [encodeImm8 0b01001#5 rt imm8]
  | .ldrReg rt rn rm => [encodeRegisterOffset 0b100#3 rt rn rm]
  | .ldrbImm rt rn imm5 => [encodeImm5 0b01111#5 rt rn imm5]
  | .ldrbReg rt rn rm => [encodeRegisterOffset 0b110#3 rt rn rm]
  | .ldrhImm rt rn imm5 => [encodeImm5 0b10001#5 rt rn imm5]
  | .ldrhReg rt rn rm => [encodeRegisterOffset 0b101#3 rt rn rm]
  | .ldrsb rt rn rm => [encodeRegisterOffset 0b011#3 rt rn rm]
  | .ldrsh rt rn rm => [encodeRegisterOffset 0b111#3 rt rn rm]
  | .lslImm rd rm imm5 => [encodeImm5 0b00000#5 rd rm imm5]
  | .lslReg rdn rm => [encodeDataProcessing 0b0010#4 rdn rm]
  | .lsrImm rd rm imm5 => [encodeImm5 0b00001#5 rd rm imm5]
  | .lsrReg rdn rm => [encodeDataProcessing 0b0011#4 rdn rm]
  | .movImm rd imm8 => [encodeImm8 0b00100#5 rd imm8]
  | .movRegT1 rd rm => [encodeHighRegister 0b10#2 rd rm]
  | .movRegT2 rd rm => [encodeImm5 0b00000#5 rd rm 0#5]
  | .mrs rd sysm sb =>
    [half (0b11110011111#11 ++ slice sb 5 1 ++ slice sb 1 4), half (0b10#2 ++ slice sb 0 1 ++ 0#1 ++ rd ++ sysm)]
  | .msr rn sysm sb =>
    [half (0b11110011100#11 ++ slice sb 5 1 ++ rn), half (0b10#2 ++ slice sb 4 1 ++ 0#1 ++ slice sb 0 4 ++ sysm)]
  | .mul rdm rn => [encodeDataProcessing 0b1101#4 rdm rn]
  | .mvn rd rm => [encodeDataProcessing 0b1111#4 rd rm]
  | .nop => [0b1011111100000000#16]
  | .orr rdn rm => [encodeDataProcessing 0b1100#4 rdn rm]
  | .pop p l => [half (0b1011110#7 ++ p ++ l)]
  | .push m l => [half (0b1011010#7 ++ m ++ l)]
  | .rev rd rm => [encodeTwoLow 0b1011101000#10 rd rm]
  | .rev16 rd rm => [encodeTwoLow 0b1011101001#10 rd rm]
  | .revsh rd rm => [encodeTwoLow 0b1011101011#10 rd rm]
  | .ror rdn rm => [encodeDataProcessing 0b0111#4 rdn rm]
  | .rsb rd rn => [encodeDataProcessing 0b1001#4 rd rn]
  | .sbc rdn rm => [encodeDataProcessing 0b0110#4 rdn rm]
  | .sev => [0b1011111101000000#16]
  | .stm rn l => [encodeImm8 0b11000#5 rn l]
  | .strImmT1 rt rn imm5 => [encodeImm5 0b01100#5 rt rn imm5]
  | .strImmT2 rt imm8 => [encodeImm8 0b10010#5 rt imm8]
  | .strReg rt rn rm => [encodeRegisterOffset 0b000#3 rt rn rm]
  | .strbImm rt rn imm5 => [encodeImm5 0b01110#5 rt rn imm5]
  | .strbReg rt rn rm => [encodeRegisterOffset 0b010#3 rt rn rm]
  | .strhImm rt rn imm5 => [encodeImm5 0b10000#5 rt rn imm5]
  | .strhReg rt rn rm => [encodeRegisterOffset 0b001#3 rt rn rm]
  | .subImmT1 rd rn imm3 => [half (0b0001111#7 ++ imm3 ++ rn ++ rd)]
  | .subImmT2 rdn imm8 => [encodeImm8 0b00111#5 rdn imm8]
  | .subReg rd rn rm => [half (0b0001101#7 ++ rm ++ rn ++ rd)]
  | .subSpImm imm7 => [half (0b101100001#9 ++ imm7)]
  | .svc imm8 => [half (0b11011111#8 ++ imm8)]
  | .sxtb rd rm => [encodeTwoLow 0b1011001001#10 rd rm]
  | .sxth rd rm => [encodeTwoLow 0b1011001000#10 rd rm]
  | .tst rn rm => [encodeDataProcessing 0b1000#4 rn rm]
  | .udfT1 imm8 => [half (0b11011110#8 ++ imm8)]
  | .udfT2 imm4 imm12 => [half (0b111101111111#12 ++ imm4), half (0b1010#4 ++ imm12)]
  | .uxtb rd rm => [encodeTwoLow 0b1011001011#10 rd rm]
  | .uxth rd rm => [encodeTwoLow 0b1011001010#10 rd rm]
  | .wfe => [0b1011111100100000#16]
  | .wfi => [0b1011111100110000#16]
  | .yield => [0b1011111100010000#16]

/-- The bytes of an instruction in memory order (R103). -/
def encodeBytes (i : Instr) : List Byte := (encode i).flatMap bytesOfHalf

end Sys2Proof
end

