-- ==== Sys2Proof/Machine/Fetch.lean ====
section
/-! DEFINITION. Fetching an instruction (R103, R109), what a step does with a pattern that is no instruction (R165), with a
pending exception (R506, R507), in a wait (R423, R424, R535) and in Lockup (R522), and the host's way to place a word. -/

namespace Sys2Proof.Machine

/-- The halfword at an address, little-endian in every configuration (R103). -/
def State.fetchHalf (s : State) (a : Word) : Half :=
  halfOfBytes (s.mem.read a.toNat) (s.mem.read (a.toNat + 1))

/-- Whether a fetch of the halfword at an address takes no byte that was stored to and not followed by a DSB and then an ISB
(R125, R612). -/
def State.synchronised (s : State) (a : Word) : Bool :=
  !s.modified.has a.toNat && !s.modified.has (a.toNat + 1)

/-- `Fetch(ia)`: the halfwords of the instruction at `pc`, the second one zero for a 16-bit instruction. `T` is checked
first, then the first halfword, then the second (R109, R508); a halfword that was modified and not synchronised is refused
(R125, R612), and so is a second halfword past the top (D19). -/
def State.fetch (s : State) : Access (Half × Half) :=
  if !s.t then .hardFault (.state s.pc)
  else if !s.admits s.pc 2 .fetch then .hardFault (.fetch s.pc)
  else if !s.synchronised s.pc then .refused (.unsynchronisedFetch s.pc)
  else if !isWide (s.fetchHalf s.pc) then .ok (s.fetchHalf s.pc, 0#16)
  else if s.pc.toNat + 4 > 2 ^ 32 then .refused (.straddlesTop s.pc)
  else if !s.admits (s.pc + 2#32) 2 .fetch then .hardFault (.fetch (s.pc + 2#32))
  else if !s.synchronised (s.pc + 2#32) then .refused (.unsynchronisedFetch (s.pc + 2#32))
  else .ok (s.fetchHalf s.pc, s.fetchHalf (s.pc + 2#32))

/-- What a step does with a pattern that is no instruction: UNDEFINED is an exception (R504), an unallocated hint is
refused (R165). -/
def State.rejected (s : State) : DecodeError → Result
  | .unallocatedHint h => .refused (.unallocatedHint h)
  | .undefined => s.raiseHardFault s.pc (.undefined s.pc)
  | .truncated => s.raiseHardFault s.pc (.undefined s.pc)

/-- A step in `WaitForEvent()`: an event or a pending exception that would preempt ends the wait, and an event is
cleared (R423, R535). -/
def State.awaitEvent (s : State) : Result :=
  if s.event then .next ((s.withEvent false).withRun .running)
  else if s.preempting.isSome then .next (s.withRun .running)
  else .fault .waiting

/-- A step in `WaitForInterrupt()`: a pending exception that would preempt if PRIMASK.PM were 0 ends the wait (R424,
R535). -/
def State.awaitInterrupt (s : State) : Result :=
  if s.wakesInterrupt then .next (s.withRun .running) else .fault .waiting

/-- A step in Lockup: NMI releases it, but for Lockup in the NMI handler (R522). -/
def State.lockedUp (s : State) : Result :=
  if s.pending.contains excNmi && !(s.mode = .handler && s.ipsr == excNmi) then
    (s.withRun .running).takeException excNmi s.pc
  else .fault .lockup

/-- The state with the bytes of a word where the next instruction is fetched, visible to the fetch, in Thumb state,
executing, and with nothing pending. -/
def State.placed (s : State) (bytes : List Byte) : State :=
  { s with
    mem := placeBytes s.mem s.pc.toNat bytes, modified := s.modified.forget s.pc.toNat bytes.length,
    t := true, run := .running, pending := [] }

end Sys2Proof.Machine
end

