-- ==== Sys2Proof/Machine/Step.lean ====
section
/-! DEFINITION. One step of the machine: a pending exception, or the instruction at `pc` (R57, R109, R507, R508). -/

namespace Sys2Proof.Machine

/-- Fetch, decode and execute the instruction at `pc` (R109, R508). -/
def State.runInstruction (s : State) : Result :=
  match s.fetch with
  | .hardFault c => s.raiseHardFault s.pc c
  | .refused r => .refused r
  | .ok (hw1, hw2) =>
    match decode hw1 hw2 with
    | .ok i => exec i s
    | .error e => s.rejected e

/-- One step. -/
def step (s : State) : Host.Outcome State Fault Refusal :=
  match s.run with
  | .running =>
    match s.preempting with
    | some e => s.takeException e s.pc
    | none => s.runInstruction
  | .waitingForEvent => s.awaitEvent
  | .waitingForInterrupt => s.awaitInterrupt
  | .halted _ => .fault .debugHalted
  | .lockup => s.lockedUp
  | .raised _ _ => .fault .exceptionRaised

/-- The state with the instruction whose bits are `w` stored where `step` fetches its next instruction. -/
def State.withFetchWord (s : State) (nbits w : Nat) : State := s.placed (tableBytes nbits w)

end Sys2Proof.Machine
end

