-- ==== Sys2Proof/Machine/Reset.lean ====
section
/-! DEFINITION. The architecture's reset of a machine whose platform and memory are given (R80, R600). -/

namespace Sys2Proof.Machine

/-- The state before the vector table is read: the reset values, on a given platform and memory. -/
def resetOn (cfg : Config) (mem : Memory) : State :=
  { State.reset with cfg := cfg, mem := mem }

/-- Reset: SP, pc and T from the words at `VectorTable` and `VectorTable + 4` (R80, R600). DESIGN CHOICE
(notes/assumptions/34.md): where one of the two words is misaligned or not admitted the spec does not say what reset does;
the answer is then the cause of the failed read, and there is no state to run from: no HardFault is entered, and no Lockup. -/
def launch (cfg : Config) (mem : Memory) : Access State :=
  ((resetOn cfg mem).memRead cfg.vectorTable .word).bind fun sp =>
    ((resetOn cfg mem).memRead (cfg.vectorTable + 4#32) .word).bind fun start =>
      .ok (((resetOn cfg mem).withMsp (align4 sp)).interworkTo start)

end Sys2Proof.Machine
end

