-- ==== Sys2Proof/Machine/Run.lean ====
section
/-! DEFINITION. Runs: steps until a condition the claim supplies, the parameter `EndOfRun` (R5, D23). -/

namespace Sys2Proof.Machine

/-- How a run stands. -/
inductive RunOutcome where
  /-- The run has ended successfully (D23). -/
  | ended (s : State)
  /-- The run can go on. -/
  | unfinished (s : State)
  /-- The machine takes no further step: a wait, a debug halt, Lockup or a terminal exception (R503, R510, R522, R535). -/
  | stopped (f : Fault) (s : State)
  /-- The next step has no meaning (R34). -/
  | refused (r : Refusal) (s : State)
deriving DecidableEq, Repr

/-- Whether a run ends here: `EndOfRun` holds, and the processor is not waiting, halted, locked up or at a terminal
exception, which are never successful ends (D23, R510, R535). -/
def State.endsRun (s : State) (endOfRun : State → Bool) : Bool := endOfRun s && s.run = .running

/-- At most `n` steps from a state, until `EndOfRun` (R5, D23). -/
def runUntil (endOfRun : State → Bool) : Nat → State → RunOutcome
  | 0, s => if s.endsRun endOfRun then .ended s else .unfinished s
  | n + 1, s =>
    if s.endsRun endOfRun then .ended s
    else match step s with
      | .next t => runUntil endOfRun n t
      | .fault f => .stopped f s
      | .refused r => .refused r s

end Sys2Proof.Machine
end

