-- ==== Sys2Proof/Safety.lean ====
section
/-! DEFINITION. The terms the statements use: what the bytes of memory say a word is, what an instruction leaves unchanged,
what a sum, a difference and a condition are, what taking an exception and returning from one leave, and the invariant
every step keeps. They are written over State's fields and not over the operations of Machine/Ops.lean, but for `PartRaises`,
which names the raising of HardFault. -/

namespace Sys2Proof.Machine

/-! ## Memory -/

/-- The `n` bytes at `a` are the low `n` bytes of `v`, in the data byte order (R102, R106). -/
def Stored (s : State) (a : Word) (n : Nat) (v : Word) : Prop :=
  ∀ k < n, s.mem.read (a.toNat + (if s.cfg.bigEndian then n - 1 - k else k)) = v.extractLsb' (8 * k) 8

/-- The byte address `b` is none of the `n` bytes at `a`. -/
def Outside (a : Word) (n b : Nat) : Prop := b < a.toNat ∨ a.toNat + n ≤ b

/-- Every byte reads as before. -/
def KeepsMemory (s t : State) : Prop := ∀ b, t.mem.read b = s.mem.read b

/-- Every byte but the `n` at `a` reads as before. -/
def KeepsMemoryBut (s t : State) (a : Word) (n : Nat) : Prop := ∀ b, Outside a n b → t.mem.read b = s.mem.read b

/-- Every byte but those of `n` words from `a` up reads as before. -/
def KeepsMemoryButWords (s t : State) (a : Word) (n : Nat) : Prop :=
  ∀ b, (∀ k < n, Outside (a + 4#32 * BitVec.ofNat 32 k) 4 b) → t.mem.read b = s.mem.read b

/-- The byte address `b` is in one of `n` aligned words from `a` up. -/
def InWords (a : Word) (n b : Nat) : Prop := ∃ k < n, ¬ Outside (a + 4#32 * BitVec.ofNat 32 k) 4 b

/-- The byte address `b` is one of the `n` bytes from `a` up, addresses wrapping modulo 2^32 (R100). -/
def Addressed (a : Word) (n b : Nat) : Prop := ∃ k < n, b = (a + BitVec.ofNat 32 k).toNat

/-- The byte at `b` was stored to, and no DSB and then an ISB followed: it may not be fetched (R125, R612). -/
def Unsynchronised (s : State) (b : Nat) : Prop := b ∈ s.modified.stored ∨ b ∈ s.modified.drained

/-- From `s` to `t` exactly the bytes in `P` were stored to, and no barrier was executed (R122, R123, R125). -/
def Modifies (s t : State) (P : Nat → Prop) : Prop :=
  (∀ b, b ∈ t.modified.stored ↔ b ∈ s.modified.stored ∨ P b) ∧ t.modified.drained = s.modified.drained

/-- An aligned read of `n` bytes at `a` that the platform admits (R104, R108). -/
def Readable (s : State) (a : Word) (n : Nat) : Prop := a.toNat % n = 0 ∧ s.admits a n .read = true

/-- An aligned write of `n` bytes at `a` that the platform admits and that touches no program text (R104, R108, R125). -/
def Writable (s : State) (a : Word) (n : Nat) : Prop :=
  a.toNat % n = 0 ∧ s.overlapsText a n = false ∧ s.admits a n .write = true

/-- Every one of `n` words from `a` up is readable. -/
def ReadableWords (s : State) (a : Word) (n : Nat) : Prop := ∀ k < n, Readable s (a + 4#32 * BitVec.ofNat 32 k) 4

/-- Every one of `n` words from `a` up is writable. -/
def WritableWords (s : State) (a : Word) (n : Nat) : Prop := ∀ k < n, Writable s (a + 4#32 * BitVec.ofNat 32 k) 4

/-! ## Frames -/

/-- Every register but those listed is unchanged: R0 to R14 as read, and both stack pointers. -/
def KeepsRegs (ds : List RegNum) (s t : State) : Prop :=
  (∀ i : RegNum, i ∉ ds → i ≠ 15#4 → t.x i = s.x i)
    ∧ (13#4 ∉ ds → t.msp = s.msp ∧ t.psp = s.psp)
    ∧ (if s.usesPsp then t.msp = s.msp else t.psp = s.psp)

/-- No byte was stored to and no barrier executed: which bytes may be fetched is unchanged (R122, R123, R125). -/
def KeepsSync (s t : State) : Prop := t.modified = s.modified

/-- Every special register, the pending set, the platform and the model's record of the last fault are unchanged. -/
def KeepsSpecial (s t : State) : Prop :=
  t.ipsr = s.ipsr ∧ t.mode = s.mode ∧ t.primask = s.primask ∧ t.control = s.control ∧ t.event = s.event
    ∧ t.pending = s.pending ∧ t.run = s.run ∧ t.cfg = s.cfg ∧ t.lastFault = s.lastFault

/-- The same, and no byte was stored to. -/
def KeepsSystem (s t : State) : Prop := KeepsSpecial s t ∧ KeepsSync s t

/-- An instruction of `n` bytes that writes the registers `ds` and perhaps the flags, and nothing else. -/
def Retired (n : Word) (ds : List RegNum) (s t : State) : Prop :=
  t.pc = s.pc + n ∧ KeepsRegs ds s t ∧ KeepsSystem s t ∧ t.t = s.t ∧ t.freeIdx = s.freeIdx ∧ KeepsMemory s t

/-! ## Arithmetic -/

/-- The flags of `x + y + c` (R20, R61): C is the carry out of bit 31, V a signed sum out of range. -/
def SumFlags (x y : Word) (c : Bool) (f : Apsr) : Prop :=
  f.n = (x + y + BitVec.ofNat 32 c.toNat).getLsbD 31
    ∧ f.z = decide (x + y + BitVec.ofNat 32 c.toNat = 0#32)
    ∧ f.c = decide (2 ^ 32 ≤ x.toNat + y.toNat + c.toNat)
    ∧ f.v = decide (x.toInt + y.toInt + c.toNat < -2 ^ 31 ∨ 2 ^ 31 ≤ x.toInt + y.toInt + c.toNat)

/-- The flags of `x - y - b` (R20, R61): C is the absence of a borrow, V a signed difference out of range. -/
def DifferenceFlags (x y : Word) (b : Bool) (f : Apsr) : Prop :=
  f.n = (x - y - BitVec.ofNat 32 b.toNat).getLsbD 31
    ∧ f.z = decide (x - y - BitVec.ofNat 32 b.toNat = 0#32)
    ∧ f.c = decide (y.toNat + b.toNat ≤ x.toNat)
    ∧ f.v = decide (x.toInt - y.toInt - b.toNat < -2 ^ 31 ∨ 2 ^ 31 ≤ x.toInt - y.toInt - b.toNat)

/-- `x + y + c` in register `d` with its flags. -/
def SumRetired (s t : State) (d : RegNum) (x y : Word) (c : Bool) : Prop :=
  t.x d = x + y + BitVec.ofNat 32 c.toNat ∧ SumFlags x y c t.apsr ∧ Retired 2#32 [d] s t

/-- `x - y - b` in register `d` with its flags. -/
def DifferenceRetired (s t : State) (d : RegNum) (x y : Word) (b : Bool) : Prop :=
  t.x d = x - y - BitVec.ofNat 32 b.toNat ∧ DifferenceFlags x y b t.apsr ∧ Retired 2#32 [d] s t

/-- N and Z from `r`, C and V unchanged (R62). -/
def ResultFlags (r : Word) (f g : Apsr) : Prop :=
  g.n = r.getLsbD 31 ∧ g.z = decide (r = 0#32) ∧ g.c = f.c ∧ g.v = f.v

/-- `r` in register `d`, N and Z from it, C and V unchanged. -/
def ResultRetired (s t : State) (d : RegNum) (r : Word) : Prop :=
  t.x d = r ∧ ResultFlags r s.apsr t.apsr ∧ Retired 2#32 [d] s t

/-- `r` in register `d`, no flag changed. -/
def ValueRetired (s t : State) (d : RegNum) (r : Word) : Prop := t.x d = r ∧ t.apsr = s.apsr ∧ Retired 2#32 [d] s t

/-- `r` shifted with carry out `c` in register `d`: N and Z from the register, V unchanged (R62). -/
def ShiftRetired (s t : State) (d : RegNum) (c : Bool) : Prop :=
  t.apsr.n = (t.x d).getLsbD 31 ∧ t.apsr.z = decide (t.x d = 0#32) ∧ t.apsr.c = c ∧ t.apsr.v = s.apsr.v
    ∧ Retired 2#32 [d] s t

/-- `v` written to any register (R53, R58): the stack pointer clears bits 1 and 0, and a write of the PC is a branch that
clears bit 0 and leaves `T`. -/
def HighWritten (s t : State) (d : RegNum) (v : Word) : Prop :=
  t.apsr = s.apsr ∧
    if d = 15#4 then
      t.pc = v &&& 0xFFFFFFFE#32 ∧ KeepsRegs [] s t ∧ KeepsSystem s t ∧ t.t = s.t ∧ t.freeIdx = s.freeIdx
        ∧ KeepsMemory s t
    else t.x d = (if d = 13#4 then v &&& 0xFFFFFFFC#32 else v) ∧ Retired 2#32 [d] s t

/-- The conditions (R32). -/
def CondTrue (f : Apsr) : Cond → Prop
  | .eq => f.z = true
  | .ne => f.z = false
  | .cs => f.c = true
  | .cc => f.c = false
  | .mi => f.n = true
  | .pl => f.n = false
  | .vs => f.v = true
  | .vc => f.v = false
  | .hi => f.c = true ∧ f.z = false
  | .ls => f.c = false ∨ f.z = true
  | .ge => f.n = f.v
  | .lt => f.n ≠ f.v
  | .gt => f.z = false ∧ f.n = f.v
  | .le => f.z = true ∨ f.n ≠ f.v

/-- An instruction that only branches to `a`: no register, flag or byte of memory changes. -/
def Branched (s t : State) (a : Word) : Prop :=
  t.pc = a ∧ t.apsr = s.apsr ∧ KeepsRegs [] s t ∧ KeepsSystem s t ∧ t.t = s.t ∧ t.freeIdx = s.freeIdx ∧ KeepsMemory s t

/-- A store's next state: the low `n` bytes of `v` are at `a`, every other byte, every register, flag and special register is
as before, and the pc has moved past the instruction. -/
def StoreRetired (s t : State) (a : Word) (n : Nat) (v : Word) : Prop :=
  Stored t a n v ∧ KeepsMemoryBut s t a n ∧ Modifies s t (fun b => ¬ Outside a n b) ∧ t.pc = s.pc + 2#32
    ∧ t.apsr = s.apsr ∧ KeepsRegs [] s t ∧ KeepsSpecial s t ∧ t.t = s.t ∧ t.freeIdx = s.freeIdx

/-- What the event instructions change: the pc, the event register, whether the processor waits, and nothing else but the
count of free values. -/
def EventRetired (s t : State) (event : Bool) : Prop :=
  t.pc = s.pc + 2#32 ∧ t.event = event ∧ t.apsr = s.apsr ∧ KeepsRegs [] s t ∧ t.ipsr = s.ipsr ∧ t.mode = s.mode
    ∧ t.primask = s.primask ∧ t.control = s.control ∧ t.pending = s.pending ∧ t.cfg = s.cfg
    ∧ t.lastFault = s.lastFault ∧ t.t = s.t ∧ KeepsSync s t ∧ KeepsMemory s t

/-- What the barriers change: the pc, and which bytes a later fetch may take, which no instruction can read (R120, R125). -/
def BarrierRetired (s t : State) : Prop :=
  t.pc = s.pc + 4#32 ∧ t.apsr = s.apsr ∧ KeepsRegs [] s t ∧ t.ipsr = s.ipsr ∧ t.mode = s.mode ∧ t.primask = s.primask
    ∧ t.control = s.control ∧ t.event = s.event ∧ t.pending = s.pending ∧ t.run = s.run ∧ t.cfg = s.cfg
    ∧ t.lastFault = s.lastFault ∧ t.t = s.t ∧ t.freeIdx = s.freeIdx ∧ t.mem = s.mem

/-! ## The access of a single load or store -/

/-- The address and width of the access a single load makes (R281 to R290). -/
def loadAccess (s : State) : Instr → Option (Word × Nat)
  | .ldrImmT1 _ rn imm5 => some (s.x (lowReg rn) + 4#32 * imm5.setWidth 32, 4)
  | .ldrImmT2 _ imm8 => some (s.sp + 4#32 * imm8.setWidth 32, 4)
  | .ldrLit _ imm8 => some (((s.pc + 4#32) &&& 0xFFFFFFFC#32) + 4#32 * imm8.setWidth 32, 4)
  | .ldrReg _ rn rm => some (s.x (lowReg rn) + s.x (lowReg rm), 4)
  | .ldrbImm _ rn imm5 => some (s.x (lowReg rn) + imm5.setWidth 32, 1)
  | .ldrbReg _ rn rm => some (s.x (lowReg rn) + s.x (lowReg rm), 1)
  | .ldrhImm _ rn imm5 => some (s.x (lowReg rn) + 2#32 * imm5.setWidth 32, 2)
  | .ldrhReg _ rn rm => some (s.x (lowReg rn) + s.x (lowReg rm), 2)
  | .ldrsb _ rn rm => some (s.x (lowReg rn) + s.x (lowReg rm), 1)
  | .ldrsh _ rn rm => some (s.x (lowReg rn) + s.x (lowReg rm), 2)
  | _ => none

/-- The address, width and register of the access a single store makes (R371 to R377). -/
def storeAccess (s : State) : Instr → Option (Word × Nat × LowReg)
  | .strImmT1 rt rn imm5 => some (s.x (lowReg rn) + 4#32 * imm5.setWidth 32, 4, rt)
  | .strImmT2 rt imm8 => some (s.sp + 4#32 * imm8.setWidth 32, 4, rt)
  | .strReg rt rn rm => some (s.x (lowReg rn) + s.x (lowReg rm), 4, rt)
  | .strbImm rt rn imm5 => some (s.x (lowReg rn) + imm5.setWidth 32, 1, rt)
  | .strbReg rt rn rm => some (s.x (lowReg rn) + s.x (lowReg rm), 1, rt)
  | .strhImm rt rn imm5 => some (s.x (lowReg rn) + 2#32 * imm5.setWidth 32, 2, rt)
  | .strhReg rt rn rm => some (s.x (lowReg rn) + s.x (lowReg rm), 2, rt)
  | _ => none

/-! ## Register lists -/

/-- Whether R`i`, `i` below 8, is in a register list (R110). -/
def InList (l : BitVec 8) (i : RegNum) : Prop := i.toNat < 8 ∧ l.getLsbD i.toNat = true

/-- How many registers of a list are numbered below `i`. -/
def rankIn (l : BitVec 8) : Nat → Nat
  | 0 => 0
  | i + 1 => rankIn l i + (l.getLsbD i).toNat

/-- The address of the word of R`i` in a multiple transfer from `base` up (R110). -/
def slotOf (base : Word) (l : BitVec 8) (i : RegNum) : Word := base + 4#32 * BitVec.ofNat 32 (rankIn l i.toNat)

/-! ## Exceptions -/

/-- The address of the frame an exception stores (R511). -/
def frameBase (s : State) : Word := ((if s.usesPsp then s.psp else s.msp) - 0x20#32) &&& 0xFFFFFFFB#32

/-- The vector of `e` can be read by a privileged access (R505, R511). -/
def VectorReadable (s : State) (e : ExcNum) : Prop :=
  (s.cfg.vectorTable + 4#32 * e.setWidth 32).toNat % 4 = 0 ∧
    s.cfg.regions.any (fun r => decide (r.base ≤ (s.cfg.vectorTable + 4#32 * e.setWidth 32).toNat)
      && decide ((s.cfg.vectorTable + 4#32 * e.setWidth 32).toNat + 4 ≤ r.base + r.size) && r.canRead) = true

/-- Exception `e` can be entered without a further fault: its frame can be stored and its vector read. -/
def CanEnter (s : State) (e : ExcNum) : Prop := WritableWords s (frameBase s) 8 ∧ VectorReadable s e

/-- Exception `e` is taken and entered: the platform enters exceptions (`TrapEntry`), and entry does not fault. -/
def CanTake (s : State) (e : ExcNum) : Prop := s.cfg.trapEntry = .architecture ∧ CanEnter s e

/-- The run ends with exception `e` raised and nothing else changed, as where `TrapEntry` is terminal (R510). -/
def EndedRaised (s t : State) (e : ExcNum) (ret : Word) : Prop :=
  t = { s with run := .raised e ret, lastFault := t.lastFault } ∧ step t = .fault .exceptionRaised

/-- The eight words of the frame are in memory, with return address `ret` (R511): R0 to R3, R12, LR, `ret` and xPSR, whose
bits 31 to 28 are the flags, bit 24 `T`, bit 9 bit 2 of the old stack pointer and bits 5 to 0 the exception number. -/
def FrameStored (s t : State) (ret : Word) : Prop :=
  Stored t (frameBase s) 4 (s.x 0#4) ∧ Stored t (frameBase s + 0x04#32) 4 (s.x 1#4)
    ∧ Stored t (frameBase s + 0x08#32) 4 (s.x 2#4) ∧ Stored t (frameBase s + 0x0C#32) 4 (s.x 3#4)
    ∧ Stored t (frameBase s + 0x10#32) 4 (s.x 12#4) ∧ Stored t (frameBase s + 0x14#32) 4 s.lr
    ∧ Stored t (frameBase s + 0x18#32) 4 ret
    ∧ ∃ xpsr, Stored t (frameBase s + 0x1C#32) 4 xpsr
        ∧ xpsr.getLsbD 31 = s.apsr.n ∧ xpsr.getLsbD 30 = s.apsr.z ∧ xpsr.getLsbD 29 = s.apsr.c
        ∧ xpsr.getLsbD 28 = s.apsr.v ∧ xpsr.getLsbD 24 = s.t
        ∧ xpsr.getLsbD 9 = (if s.usesPsp then s.psp else s.msp).getLsbD 2
        ∧ xpsr.setWidth 6 = s.ipsr
        ∧ xpsr &&& 0x0EFFFDC0#32 = 0#32

/-- `t` is `s` after entry to exception `e` with return address `ret` (R511), the record of the last fault apart. -/
def Entered (s t : State) (e : ExcNum) (ret : Word) : Prop :=
  FrameStored s t ret ∧ KeepsMemoryButWords s t (frameBase s) 8
    ∧ (if s.usesPsp then t.psp = frameBase s ∧ t.msp = s.msp else t.msp = frameBase s ∧ t.psp = s.psp)
    ∧ t.regs = s.regs ∧ t.apsr = s.apsr
    ∧ t.lr = (if s.mode = .handler then 0xFFFFFFF1#32 else if s.control.spSel then 0xFFFFFFFD#32 else 0xFFFFFFF9#32)
    ∧ t.mode = .handler ∧ t.ipsr = e ∧ t.control = { spSel := false, nPriv := s.control.nPriv } ∧ t.event = true
    ∧ t.primask = s.primask ∧ t.pending = s.pending.filter (· != e) ∧ t.run = s.run ∧ t.cfg = s.cfg
    ∧ t.freeIdx = s.freeIdx ∧ Modifies s t (InWords (frameBase s) 8)
    ∧ ∃ vector, Stored t (s.cfg.vectorTable + 4#32 * e.setWidth 32) 4 vector
        ∧ t.pc = vector &&& 0xFFFFFFFE#32 ∧ t.t = vector.getLsbD 0

/-- `t` is `s` after HardFault is taken with return address `ret` for the cause `c` (R501, R510, R511). -/
def HardFaulted (s t : State) (ret : Word) (c : HardFaultCause) : Prop := Entered s t 3#6 ret ∧ t.lastFault = some c

/-- HardFault can be taken: nothing of priority -1 or -2 is executing, the platform enters exceptions, and entry itself
does not fault (R511, R522). -/
def CanHardFault (s : State) : Prop :=
  (s.mode = .handler → s.ipsr ≠ 1#6 ∧ s.ipsr ≠ 2#6 ∧ s.ipsr ≠ 3#6) ∧ CanTake s 3#6

/-- HardFault cannot be taken where exceptions are entered: HardFault or NMI is being handled, or the first word of its
frame is one that the platform does not admit (R511, R522). -/
def CannotHardFault (s : State) : Prop :=
  s.cfg.trapEntry = .architecture ∧ ((s.mode = .handler ∧ (s.ipsr = 2#6 ∨ s.ipsr = 3#6))
    ∨ (s.overlapsText (frameBase s) 4 = false ∧ s.admits (frameBase s) 4 .write = false))

/-- `t` is `s` in Lockup, nothing else changed but the record of the last fault (R522). -/
def LockedUp (s t : State) : Prop := t = { s with run := .lockup, lastFault := t.lastFault }

/-- `r` is what raising HardFault for the cause `c` with return address `ret` answers in `s`: HardFault taken, or the end of
the run where `TrapEntry` is terminal (R501, R510, R511). -/
def RaisesHardFault (s : State) (r : Result) (ret : Word) (c : HardFaultCause) : Prop :=
  (CanHardFault s → ∃ t, r = .next t ∧ HardFaulted s t ret c)
    ∧ (s.cfg.trapEntry = .terminal → ∃ t, r = .next t ∧ EndedRaised s t 3#6 ret ∧ t.lastFault = some c)

/-- `u` is `s` with the registers `lost` and `n` words at `a` without a defined value, as an access that faults part-way
through a multiple transfer leaves them (R111, D24): those words are modified, every other register, the stack pointer that
is not in use and every other byte are as before, and nothing else changes but the count of free values. -/
def PartUndefined (s u : State) (lost : RegNum → Prop) (a : Word) (n : Nat) : Prop :=
  u = { s with
        regs := u.regs, lr := u.lr, msp := u.msp, psp := u.psp, mem := u.mem, modified := u.modified, freeIdx := u.freeIdx }
    ∧ (∀ i, ¬ lost i → u.x i = s.x i) ∧ (if s.usesPsp then u.msp = s.msp else u.psp = s.psp)
    ∧ (∀ b, ¬ Addressed a (4 * n) b → u.mem.read b = s.mem.read b) ∧ Modifies s u (Addressed a (4 * n))

/-- `r` is what raising HardFault for the cause `c` from part-way through a transfer of `n` words at `a` answers, from a state
`u` in which the registers `lost` and those words have no defined value, with the transfer's own address as the return
address: HardFault taken, or the end of the run where `TrapEntry` is terminal (R111, R510, R511). Where SP is not lost,
HardFault can be taken from `u` if it can be taken from `s`. -/
def PartRaises (s : State) (r : Result) (c : HardFaultCause) (lost : RegNum → Prop) (a : Word) (n : Nat) : Prop :=
  ∃ u, PartUndefined s u lost a n ∧ r = u.raiseHardFault s.pc c ∧ RaisesHardFault u r s.pc c
    ∧ (¬ lost 13#4 → CanHardFault s → CanHardFault u)

/-- What a return that pops the frame at `p` restores: R0 to R3, R12, LR, the pc, the flags, `T`, the exception number and
the stack pointer (R520, R521). -/
def FramePopped (s t : State) (p : Word) : Prop :=
  Stored s p 4 (t.x 0#4) ∧ Stored s (p + 0x04#32) 4 (t.x 1#4) ∧ Stored s (p + 0x08#32) 4 (t.x 2#4)
    ∧ Stored s (p + 0x0C#32) 4 (t.x 3#4) ∧ Stored s (p + 0x10#32) 4 (t.x 12#4) ∧ Stored s (p + 0x14#32) 4 t.lr
    ∧ (∃ ret, Stored s (p + 0x18#32) 4 ret ∧ t.pc = ret &&& 0xFFFFFFFE#32)
    ∧ ∃ xpsr, Stored s (p + 0x1C#32) 4 xpsr
        ∧ t.apsr.n = xpsr.getLsbD 31 ∧ t.apsr.z = xpsr.getLsbD 30 ∧ t.apsr.c = xpsr.getLsbD 29
        ∧ t.apsr.v = xpsr.getLsbD 28 ∧ t.t = xpsr.getLsbD 24 ∧ t.ipsr = xpsr.setWidth 6
        ∧ t.sp = (p + 0x20#32) ||| (if xpsr.getLsbD 9 then 4#32 else 0#32)

/-- `t` is `s` after a return to a mode and a stack, main or process, that pops the frame at `p` (R520, R521). -/
def ReturnedTo (s t : State) (mode : Mode) (process : Bool) (p : Word) : Prop :=
  FramePopped s t p ∧ t.mode = mode ∧ t.control = { spSel := process, nPriv := s.control.nPriv }
    ∧ (process = false → t.psp = s.psp) ∧ t.primask = s.primask ∧ t.mem = s.mem ∧ KeepsSync s t ∧ t.cfg = s.cfg
    ∧ t.pending = s.pending ∧ t.run = s.run ∧ t.event = true ∧ t.lastFault = s.lastFault ∧ t.freeIdx = s.freeIdx

/-- R4 to R11 after a POP from the main stack that returns: the listed ones hold their words, the others are as before. -/
def PoppedHigh (s t : State) (l : BitVec 8) : Prop :=
  ∀ i : RegNum, 4 ≤ i.toNat → i.toNat < 12 →
    (InList l i → Stored s (slotOf s.msp l i) 4 (t.x i)) ∧ (¬ InList l i → t.x i = s.x i)

/-! ## Instructions that end in a given way -/

/-- The instructions that assign a flag (R62). -/
def writesFlags : Instr → Bool
  | .adc _ _ | .addImmT1 _ _ _ | .addImmT2 _ _ | .addRegT1 _ _ _ | .andReg _ _ | .asrImm _ _ _ | .asrReg _ _
  | .bic _ _ | .cmn _ _ | .cmpImm _ _ | .cmpRegT1 _ _ | .cmpRegT2 _ _ | .eor _ _ | .lslImm _ _ _ | .lslReg _ _
  | .lsrImm _ _ _ | .lsrReg _ _ | .movImm _ _ | .movRegT2 _ _ | .msr _ _ _ | .mul _ _ | .mvn _ _ | .orr _ _
  | .ror _ _ | .rsb _ _ | .sbc _ _ | .subImmT1 _ _ _ | .subImmT2 _ _ | .subReg _ _ _ | .tst _ _ => true
  | _ => false

/-- The instructions that can return from an exception (R520). -/
def mayReturn : Instr → Bool
  | .bx _ _ => true
  | .pop p _ => p == 1#1
  | _ => false

/-! ## Safe runs -/

/-- What every step keeps: the pc is even (R59), the stack pointers are word aligned (R53), memory is in canonical form
(R70), CONTROL shows the main stack in Handler mode (R530, notes/assumptions/31.md), and CONTROL.nPRIV is 0 without the
unprivileged extension (R66). -/
structure State.Inv (s : State) : Prop where
  pcEven : s.pc.getLsbD 0 = false
  mspAligned : s.msp &&& 3#32 = 0#32
  pspAligned : s.psp &&& 3#32 = 0#32
  memWf : s.mem.wf
  handlerMain : s.mode = .handler → s.control.spSel = false
  nPrivExtension : s.control.nPriv = true → s.cfg.hasUnpriv = true

/-- A step has a meaning: it is not refused. -/
def StepDefined (s : State) : Prop := ∀ r, step s ≠ .refused r

end Sys2Proof.Machine
end

