-- ==== Sys2Proof/Certificates/Slice0/Obligations.lean ====
section
/-! DEFINITION. The statements about the model, for the provers. -/

open Sys2Proof Sys2Proof.Machine

/-! ## Encoding -/

/-- The decoder reads back every instruction the encoder writes, in front of any bytes, every operand at every value its
encoding admits (R142 to R146, R160). -/
def Obligations.DecodeReadsBackEncode : Prop :=
  ∀ (i : Instr) (rest : List Byte), i.inOwnRow = true → decodeBytes (encodeBytes i ++ rest) = .ok (i, rest)

/-- The encoder writes back every pair of halfwords that decodes: no bit of a halfword is dropped, and the decoded
instruction is an encoding of its own row (R141, R160). -/
def Obligations.EncodeWritesBackDecode : Prop :=
  ∀ (hw1 hw2 : Half) (i : Instr), decode hw1 hw2 = .ok i →
    i.inOwnRow = true ∧ encode i = if isWide hw1 then [hw1, hw2] else [hw1]

/-- Words written out from the spec's encodings decode to the instructions they stand for. -/
def Obligations.WrittenWordsDecode : Prop :=
  decode 0b0100000101001000#16 0#16 = .ok (.adc 0#3 1#3)
    ∧ decode 0b0100010010001000#16 0#16 = .ok (.addRegT2 8#4 1#4)
    ∧ decode 0b1101000000000010#16 0#16 = .ok (.bT1 .eq 2#8)
    ∧ decode 0b0110100001001000#16 0#16 = .ok (.ldrImmT1 0#3 1#3 1#5)
    ∧ decode 0b1011010100000011#16 0#16 = .ok (.push 1#1 3#8)
    ∧ decode 0b0000100000001000#16 0#16 = .ok (.lsrImm 0#3 1#3 0#5)
    ∧ decode 0b1011101000001000#16 0#16 = .ok (.rev 0#3 1#3)
    ∧ decode 0b1111001111101111#16 0b1000000000010000#16 = .ok (.mrs 0#4 16#8 mrsShouldBe)
    ∧ decode 0b1111011111111111#16 0b1111111111111110#16 = .ok (.bl 1#1 1023#10 1#1 1#1 2046#11)

/-- What R165 lists as unallocated among the 16-bit patterns is UNDEFINED, and the eleven unallocated hints are rejected by
that name. -/
def Obligations.UnallocatedPatternsRejected : Prop :=
  (∀ h : BitVec 4, 5 ≤ h.toNat → ∀ hw2, decode (half (0b10111111#8 ++ h ++ 0#4)) hw2 = .error (.unallocatedHint h))
    ∧ (∀ (h l : BitVec 4) (hw2 : Half), l ≠ 0#4 → decode (half (0b10111111#8 ++ h ++ l)) hw2 = .error .undefined)
    ∧ (∀ (b : BitVec 4) (x : BitVec 8) (hw2 : Half), b ∈ [1#4, 3#4, 7#4, 8#4, 9#4, 11#4] →
        decode (half (0b1011#4 ++ b ++ x)) hw2 = .error .undefined)
    ∧ (∀ (x : BitVec 6) (hw2 : Half), decode (half (0b1011101010#10 ++ x)) hw2 = .error .undefined)
    ∧ (∀ (b : BitVec 3) (x : BitVec 5) (hw2 : Half), b ≠ 3#3 →
        decode (half (0b10110110#8 ++ b ++ x)) hw2 = .error .undefined)

/-! ## Steps -/

/-- A step runs the decoded instruction: with nothing pending that preempts, in Thumb state, when the bytes at the pc decode
to `i`, the platform admits their fetch and no store has changed them without a DSB and an ISB, a step is `exec i` at the
state itself. -/
def Obligations.StepRunsDecodedInstruction : Prop :=
  ∀ (s : State) (i : Instr), s.run = .running → s.preempting = none → s.t = true →
    s.admits s.pc 2 .fetch = true → s.synchronised s.pc = true →
    (isWide (s.fetchHalf s.pc) = true → s.pc.toNat + 4 ≤ 2 ^ 32 ∧ s.admits (s.pc + 2#32) 2 .fetch = true
      ∧ s.synchronised (s.pc + 2#32) = true) →
    decode (s.fetchHalf s.pc) (if isWide (s.fetchHalf s.pc) then s.fetchHalf (s.pc + 2#32) else 0#16) = .ok i →
    step s = exec i s

/-- The halfword fetched at an address is its two bytes, the lower address least significant, whatever the data byte order
is, and a 32-bit instruction has its first halfword at the pc and its second at the pc plus 2 (R103). -/
def Obligations.FetchIsLittleEndian : Prop :=
  ∀ s : State,
    (∀ a, (s.fetchHalf a).toNat = (s.mem.read a.toNat).toNat + 256 * (s.mem.read (a.toNat + 1)).toNat)
      ∧ ∀ hw1 hw2, s.fetch = .ok (hw1, hw2) →
          hw1 = s.fetchHalf s.pc ∧ (isWide hw1 = true → hw2 = s.fetchHalf (s.pc + 2#32))

/-- What stops a fetch raises HardFault with return address the pc: `T = 0` before any fetch, then a first halfword that the
platform does not admit, then a second (R60, R109, R508, R511, R512; that HardFault is entered, or the run ended where
`TrapEntry` is terminal, R510, is notes/assumptions/1.md). A halfword with a byte that was stored to, and that no DSB and
then an ISB followed, is refused (R125, R612, notes/assumptions/32.md), and so is a 32-bit instruction at the top of the
address space (R59, notes/assumptions/14.md). -/
def Obligations.FetchFaults : Prop :=
  ∀ s : State, s.run = .running → s.preempting = none →
    (s.t = false → RaisesHardFault s (step s) s.pc (.state s.pc))
      ∧ (s.t = true → s.admits s.pc 2 .fetch = false → RaisesHardFault s (step s) s.pc (.fetch s.pc))
      ∧ (s.t = true → s.admits s.pc 2 .fetch = true →
          (Unsynchronised s s.pc.toNat ∨ Unsynchronised s (s.pc.toNat + 1)) →
          step s = .refused (.unsynchronisedFetch s.pc))
      ∧ (s.t = true → s.admits s.pc 2 .fetch = true → ¬ Unsynchronised s s.pc.toNat →
          ¬ Unsynchronised s (s.pc.toNat + 1) → isWide (s.fetchHalf s.pc) = true →
          (2 ^ 32 < s.pc.toNat + 4 → step s = .refused (.straddlesTop s.pc))
            ∧ (s.pc.toNat + 4 ≤ 2 ^ 32 → s.admits (s.pc + 2#32) 2 .fetch = false →
              RaisesHardFault s (step s) s.pc (.fetch (s.pc + 2#32)))
            ∧ (s.pc.toNat + 4 ≤ 2 ^ 32 → s.admits (s.pc + 2#32) 2 .fetch = true →
              (Unsynchronised s (s.pc + 2#32).toNat ∨ Unsynchronised s ((s.pc + 2#32).toNat + 1)) →
              step s = .refused (.unsynchronisedFetch (s.pc + 2#32))))

/-- Undefined Instruction raises HardFault with the undefined instruction's own address: by UDF T1, by UDF T2, and by
a step at every pattern that is UNDEFINED (R504, R511, R512). HardFault is taken, or the run ends with it raised where
`TrapEntry` is terminal (R510; notes/assumptions/1.md). -/
def Obligations.UndefinedTakesHardFault : Prop :=
  ∀ s : State,
    (∀ imm8, RaisesHardFault s (exec (.udfT1 imm8) s) s.pc (.undefined s.pc))
      ∧ (∀ imm4 imm12, RaisesHardFault s (exec (.udfT2 imm4 imm12) s) s.pc (.undefined s.pc))
      ∧ (∀ hw1 hw2, s.run = .running → s.preempting = none → s.fetch = .ok (hw1, hw2) →
          decode hw1 hw2 = .error .undefined → RaisesHardFault s (step s) s.pc (.undefined s.pc))

/-! ## Reset -/

/-- What R80 gives after reset: Thumb state, PRIMASK and CONTROL zero, IPSR zero in Thread mode, LR all ones, and the stack
pointer and pc zero, the words at the vector table of a memory that lists nothing (that memory is the model's choice,
notes/assumptions/4.md, and T, SP and pc over it are notes/assumptions/3.md). That no byte is modified is the model's choice
too (notes/assumptions/32.md), and so are the values of the last clause (notes/assumptions/2.md). -/
def Obligations.ResetState : Prop :=
  State.reset.t = true ∧ State.reset.primask = false ∧ State.reset.control = { spSel := false, nPriv := false }
    ∧ State.reset.ipsr = 0#6 ∧ State.reset.mode = .thread ∧ State.reset.lr = 0xFFFFFFFF#32
    ∧ State.reset.sp = 0#32 ∧ State.reset.pc = 0#32 ∧ State.reset.run = .running ∧ State.reset.pending = []
    ∧ (∀ b, State.reset.mem.read b = 0#8) ∧ State.reset.modified = { stored := [], drained := [] }
    ∧ (∀ i : RegNum, i.toNat < 13 → State.reset.x i = 0#32)

/-- The architecture's reset on a platform and a memory whose first two vector words can be read: SP is the first word with
bits 1 and 0 cleared, pc the second with bit 0 cleared, T its bit 0, LR all ones (R600). That no byte of the launched memory
is modified, so that all of it may be fetched, is the model's choice (notes/assumptions/32.md). -/
def Obligations.ArchitectureReset : Prop :=
  ∀ (cfg : Config) (mem : Memory), Readable (resetOn cfg mem) cfg.vectorTable 4 →
    Readable (resetOn cfg mem) (cfg.vectorTable + 4#32) 4 →
    ∃ t sp start, launch cfg mem = .ok t ∧ Stored t cfg.vectorTable 4 sp ∧ Stored t (cfg.vectorTable + 4#32) 4 start
      ∧ t.sp = sp &&& 0xFFFFFFFC#32 ∧ t.pc = start &&& 0xFFFFFFFE#32 ∧ t.t = start.getLsbD 0
      ∧ t.lr = 0xFFFFFFFF#32 ∧ t.primask = false ∧ t.control = { spSel := false, nPriv := false } ∧ t.ipsr = 0#6
      ∧ t.mode = .thread ∧ t.mem = mem ∧ t.modified = { stored := [], drained := [] } ∧ t.cfg = cfg

/-! ## The invariant and other rules of every step -/

/-- The invariant holds at reset. -/
def Obligations.InvariantAtReset : Prop := State.reset.Inv

/-- Every step keeps the invariant: the pc stays even, the stack pointers word aligned, memory canonical, Handler mode on
the main stack, and nPRIV zero without the unprivileged extension (R53, R59, R66, R530). That CONTROL.SPSEL shows the main
stack in Handler mode is notes/assumptions/31.md. -/
def Obligations.StepKeepsInvariant : Prop :=
  ∀ s t : State, s.Inv → step s = .next t → t.Inv

/-- No step changes the platform, and no step makes an exception pending. -/
def Obligations.StepKeepsPlatform : Prop :=
  ∀ s t : State, step s = .next t → t.cfg = s.cfg ∧ ∀ e ∈ t.pending, e ∈ s.pending

/-- Thread mode becomes Handler mode only by taking an exception: the handler's number is in IPSR, LR holds an exception
return value for the stack that was in use, and the pc is where the vector points (R511, R530). -/
def Obligations.HandlerModeOnlyByEntry : Prop :=
  ∀ s t : State, s.mode = .thread → step s = .next t → t.mode = .handler →
    t.ipsr ≠ 0#6 ∧ t.lr = (if s.control.spSel then 0xFFFFFFFD#32 else 0xFFFFFFF9#32)
      ∧ ∃ vector, Stored t (t.cfg.vectorTable + 4#32 * t.ipsr.setWidth 32) 4 vector
          ∧ t.pc = vector &&& 0xFFFFFFFE#32 ∧ t.t = vector.getLsbD 0

/-- Unprivileged Thread code cannot make itself privileged: a step that stays in Thread mode leaves CONTROL, PRIMASK, IPSR
and the stack pointer it does not use (R530). -/
def Obligations.UnprivilegedStaysUnprivileged : Prop :=
  ∀ s t : State, s.mode = .thread → s.control.nPriv = true → step s = .next t → t.mode = .thread →
    t.control = s.control ∧ t.primask = s.primask ∧ t.ipsr = s.ipsr
      ∧ (if s.control.spSel then t.msp = s.msp else t.psp = s.psp)

/-- Which instructions write which flags (R62), for every instruction that does not return from an exception: those outside
the table's first four rows and MSR write none; MOVS (register), MULS and the logical instructions leave C and V; the
shifts leave V, and C too when the amount is 0; MSR writes them only for SYSm 0 to 3. -/
def Obligations.FlagWriters : Prop :=
  ∀ (i : Instr) (s t : State), exec i s = .next t → (mayReturn i = true → s.mode = .thread) →
    (writesFlags i = false → t.apsr = s.apsr)
      ∧ ((∃ rd rm, i = .andReg rd rm ∨ i = .bic rd rm ∨ i = .eor rd rm ∨ i = .orr rd rm ∨ i = .mvn rd rm
            ∨ i = .tst rd rm ∨ i = .movRegT2 rd rm ∨ i = .mul rd rm) ∨ (∃ rd imm8, i = .movImm rd imm8) →
          t.apsr.c = s.apsr.c ∧ t.apsr.v = s.apsr.v)
      ∧ (∀ rd rm, (i = .asrReg rd rm ∨ i = .lslReg rd rm ∨ i = .lsrReg rd rm ∨ i = .ror rd rm) →
          t.apsr.v = s.apsr.v ∧ ((s.x (lowReg rm)).toNat % 256 = 0 → t.apsr.c = s.apsr.c))
      ∧ (∀ rd rm imm5, (i = .asrImm rd rm imm5 ∨ i = .lslImm rd rm imm5 ∨ i = .lsrImm rd rm imm5) →
          t.apsr.v = s.apsr.v)
      ∧ (∀ rn sysm sb, i = .msr rn sysm sb → 4 ≤ sysm.toNat → t.apsr = s.apsr)

/-- `exec` never ends in a fault, and a well-formed instruction is refused only for a store to program text, an exception
return value the spec makes UNPREDICTABLE, or an access of MRS or MSR that the restriction of D21 refuses. -/
def Obligations.WellFormedRuns : Prop :=
  ∀ (i : Instr) (s : State), (∀ f, exec i s ≠ .fault f) ∧
    (i.wellFormed = true → ∀ r, exec i s = .refused r →
      (∃ a, r = .storeToProgramText a)
        ∨ (∃ a, r = .unpredictableReturn a ∧ mayReturn i = true ∧ s.mode = .handler)
        ∨ (∃ sysm, r = .outsideSingleStack sysm ∧ s.cfg.singleStack = true))

/-- Field values the spec makes UNPREDICTABLE are refused, whatever the state is (R163, R164, R320, R330), and so is an
exception return value in Handler mode whose low four bits are none of 0001, 1001 and 1101, by BX and by POP (R520). -/
def Obligations.UnpredictableIsRefused : Prop :=
  ∀ (i : Instr) (s : State), (i.shouldBeOk = false → exec i s = .refused .shouldBeBits)
    ∧ (i.shouldBeOk = true → i.valuesOk = false →
        exec i s = .refused .unpredictable ∨ ∃ sysm, exec i s = .refused (.reservedSysm sysm))
    ∧ (∀ v : Word, s.mode = .handler → v.extractLsb' 28 4 = 0b1111#4 → v.extractLsb' 0 4 ≠ 0b0001#4 →
        v.extractLsb' 0 4 ≠ 0b1001#4 → v.extractLsb' 0 4 ≠ 0b1101#4 →
        (∀ rm : RegNum, rm ≠ 15#4 → s.x rm = v → exec (.bx rm 0#3) s = .refused (.unpredictableReturn v))
          ∧ ∀ l, ReadableWords s s.sp (rankIn l 8 + 1) → Stored s (s.sp + 4#32 * BitVec.ofNat 32 (rankIn l 8)) 4 v →
            exec (.pop 1#1 l) s = .refused (.unpredictableReturn v))

/-! ## Arithmetic -/

/-- The additions that set flags: ADCS and the three ADDS (R200 to R203). -/
def Obligations.AddsSetsFlags : Prop :=
  ∀ (s : State) (rd rn rm : LowReg) (imm3 : BitVec 3) (imm8 : BitVec 8) (hw2 : Half),
    (∃ t, exec (.adc rd rm) s = .next t
        ∧ SumRetired s t (lowReg rd) (s.x (lowReg rd)) (s.x (lowReg rm)) s.apsr.c)
      ∧ (∃ t, exec (.addImmT1 rd rn imm3) s = .next t
        ∧ SumRetired s t (lowReg rd) (s.x (lowReg rn)) (imm3.setWidth 32) false)
      ∧ (∃ t, exec (.addImmT2 rd imm8) s = .next t
        ∧ SumRetired s t (lowReg rd) (s.x (lowReg rd)) (imm8.setWidth 32) false)
      ∧ (∃ t, exec (.addRegT1 rd rn rm) s = .next t
        ∧ SumRetired s t (lowReg rd) (s.x (lowReg rn)) (s.x (lowReg rm)) false)
      ∧ decode (half (0b0100000101#10 ++ rm ++ rd)) hw2 = .ok (.adc rd rm)
      ∧ decode (half (0b0001110#7 ++ imm3 ++ rn ++ rd)) hw2 = .ok (.addImmT1 rd rn imm3)
      ∧ decode (half (0b00110#5 ++ rd ++ imm8)) hw2 = .ok (.addImmT2 rd imm8)
      ∧ decode (half (0b0001100#7 ++ rm ++ rn ++ rd)) hw2 = .ok (.addRegT1 rd rn rm)

/-- The subtractions that set flags: SBCS, RSBS and the three SUBS, the carry being the absence of a borrow (R347, R348,
R390 to R392). -/
def Obligations.SubtractSetsFlags : Prop :=
  ∀ (s : State) (rd rn rm : LowReg) (imm3 : BitVec 3) (imm8 : BitVec 8) (hw2 : Half),
    (∃ t, exec (.sbc rd rm) s = .next t
        ∧ DifferenceRetired s t (lowReg rd) (s.x (lowReg rd)) (s.x (lowReg rm)) (!s.apsr.c))
      ∧ (∃ t, exec (.rsb rd rn) s = .next t
        ∧ DifferenceRetired s t (lowReg rd) 0#32 (s.x (lowReg rn)) false)
      ∧ (∃ t, exec (.subImmT1 rd rn imm3) s = .next t
        ∧ DifferenceRetired s t (lowReg rd) (s.x (lowReg rn)) (imm3.setWidth 32) false)
      ∧ (∃ t, exec (.subImmT2 rd imm8) s = .next t
        ∧ DifferenceRetired s t (lowReg rd) (s.x (lowReg rd)) (imm8.setWidth 32) false)
      ∧ (∃ t, exec (.subReg rd rn rm) s = .next t
        ∧ DifferenceRetired s t (lowReg rd) (s.x (lowReg rn)) (s.x (lowReg rm)) false)
      ∧ decode (half (0b0100000110#10 ++ rm ++ rd)) hw2 = .ok (.sbc rd rm)
      ∧ decode (half (0b0100001001#10 ++ rn ++ rd)) hw2 = .ok (.rsb rd rn)
      ∧ decode (half (0b0001111#7 ++ imm3 ++ rn ++ rd)) hw2 = .ok (.subImmT1 rd rn imm3)
      ∧ decode (half (0b00111#5 ++ rd ++ imm8)) hw2 = .ok (.subImmT2 rd imm8)
      ∧ decode (half (0b0001101#7 ++ rm ++ rn ++ rd)) hw2 = .ok (.subReg rd rn rm)

/-- The comparisons set the four flags and write no register: CMN as a sum, CMP as a difference; CMP T2 for the registers it
is defined on (R250 to R253). -/
def Obligations.CompareSetsFlagsOnly : Prop :=
  ∀ (s : State) (rn rm : LowReg) (imm8 : BitVec 8) (hw2 : Half),
    (∃ t, exec (.cmn rn rm) s = .next t ∧ SumFlags (s.x (lowReg rn)) (s.x (lowReg rm)) false t.apsr
        ∧ Retired 2#32 [] s t)
      ∧ (∃ t, exec (.cmpImm rn imm8) s = .next t
        ∧ DifferenceFlags (s.x (lowReg rn)) (imm8.setWidth 32) false t.apsr ∧ Retired 2#32 [] s t)
      ∧ (∃ t, exec (.cmpRegT1 rn rm) s = .next t
        ∧ DifferenceFlags (s.x (lowReg rn)) (s.x (lowReg rm)) false t.apsr ∧ Retired 2#32 [] s t)
      ∧ (∀ hn hm : RegNum, (8 ≤ hn.toNat ∨ 8 ≤ hm.toNat) → hn ≠ 15#4 → hm ≠ 15#4 →
        ∃ t, exec (.cmpRegT2 hn hm) s = .next t ∧ DifferenceFlags (s.x hn) (s.x hm) false t.apsr
          ∧ Retired 2#32 [] s t)
      ∧ (∀ hn hm : RegNum, (hn.toNat < 8 ∧ hm.toNat < 8) ∨ hn = 15#4 ∨ hm = 15#4 →
        exec (.cmpRegT2 hn hm) s = .refused .unpredictable)
      ∧ (∀ hn hm : RegNum,
        decode (half (0b01000101#8 ++ slice hn 3 1 ++ hm ++ slice hn 0 3)) hw2 = .ok (.cmpRegT2 hn hm))
      ∧ decode (half (0b0100001011#10 ++ rm ++ rn)) hw2 = .ok (.cmn rn rm)
      ∧ decode (half (0b00101#5 ++ rn ++ imm8)) hw2 = .ok (.cmpImm rn imm8)
      ∧ decode (half (0b0100001010#10 ++ rm ++ rn)) hw2 = .ok (.cmpRegT1 rn rm)

/-- Additions and moves that name any register and set no flag: a write of SP clears its bits 1 and 0, a write of the PC is
a branch, and a read of the PC gives the instruction's address plus 4 (R53, R56, R58, R204, R207, R208, R315). -/
def Obligations.HighRegisterResults : Prop :=
  ∀ (s : State) (rd rm : RegNum),
    (¬ (rd = 15#4 ∧ rm = 15#4) → ∃ t, exec (.addRegT2 rd rm) s = .next t ∧ HighWritten s t rd (s.x rd + s.x rm))
      ∧ (∃ t, exec (.addSpRegT1 rd) s = .next t ∧ HighWritten s t rd (s.sp + s.x rd))
      ∧ (∃ t, exec (.addSpRegT2 rm) s = .next t ∧ HighWritten s t 13#4 (s.sp + s.x rm))
      ∧ (∃ t, exec (.movRegT1 rd rm) s = .next t ∧ HighWritten s t rd (s.x rm))
      ∧ s.x 15#4 = s.pc + 4#32

/-- Additions and subtractions of a scaled immediate to SP or the PC: no flag changes (R205, R206, R209, R393). -/
def Obligations.AddressArithmetic : Prop :=
  ∀ (s : State) (rd : LowReg) (imm8 : BitVec 8) (imm7 : BitVec 7) (hw2 : Half),
    (∃ t, exec (.addSpImmT1 rd imm8) s = .next t
        ∧ ValueRetired s t (lowReg rd) (s.sp + 4#32 * imm8.setWidth 32))
      ∧ (∃ t, exec (.adr rd imm8) s = .next t
        ∧ ValueRetired s t (lowReg rd) (((s.pc + 4#32) &&& 0xFFFFFFFC#32) + 4#32 * imm8.setWidth 32))
      ∧ (∃ t, exec (.addSpImmT2 imm7) s = .next t
        ∧ HighWritten s t 13#4 (s.sp + 4#32 * imm7.setWidth 32))
      ∧ (∃ t, exec (.subSpImm imm7) s = .next t
        ∧ HighWritten s t 13#4 (s.sp - 4#32 * imm7.setWidth 32))
      ∧ decode (half (0b10101#5 ++ rd ++ imm8)) hw2 = .ok (.addSpImmT1 rd imm8)
      ∧ decode (half (0b10100#5 ++ rd ++ imm8)) hw2 = .ok (.adr rd imm8)
      ∧ decode (half (0b101100000#9 ++ imm7)) hw2 = .ok (.addSpImmT2 imm7)
      ∧ decode (half (0b101100001#9 ++ imm7)) hw2 = .ok (.subSpImm imm7)

/-- MULS writes the low 32 bits of the product and sets N and Z from them (R332). -/
def Obligations.MultiplyKeepsCarry : Prop :=
  ∀ (s : State) (rdm rn : LowReg) (hw2 : Half),
    (∃ t, exec (.mul rdm rn) s = .next t
        ∧ ResultRetired s t (lowReg rdm) (s.x (lowReg rn) * s.x (lowReg rdm)))
      ∧ decode (half (0b0100001101#10 ++ rn ++ rdm)) hw2 = .ok (.mul rdm rn)

/-! ## Logic and moves -/

/-- The logical instructions and the low moves: bit by bit, N and Z from the result, C and V unchanged; TST writes no
register (R220, R225, R265, R314, R316, R333, R340, R397). -/
def Obligations.LogicResults : Prop :=
  ∀ (s : State) (rd rm : LowReg) (imm8 : BitVec 8) (hw2 : Half),
    (∃ t, exec (.andReg rd rm) s = .next t ∧ ResultRetired s t (lowReg rd) (s.x (lowReg rd) &&& s.x (lowReg rm)))
      ∧ (∃ t, exec (.bic rd rm) s = .next t
        ∧ ResultRetired s t (lowReg rd) (s.x (lowReg rd) &&& ~~~(s.x (lowReg rm))))
      ∧ (∃ t, exec (.eor rd rm) s = .next t ∧ ResultRetired s t (lowReg rd) (s.x (lowReg rd) ^^^ s.x (lowReg rm)))
      ∧ (∃ t, exec (.orr rd rm) s = .next t ∧ ResultRetired s t (lowReg rd) (s.x (lowReg rd) ||| s.x (lowReg rm)))
      ∧ (∃ t, exec (.mvn rd rm) s = .next t ∧ ResultRetired s t (lowReg rd) (~~~(s.x (lowReg rm))))
      ∧ (∃ t, exec (.movRegT2 rd rm) s = .next t ∧ ResultRetired s t (lowReg rd) (s.x (lowReg rm)))
      ∧ (∃ t, exec (.movImm rd imm8) s = .next t ∧ ResultRetired s t (lowReg rd) (imm8.setWidth 32))
      ∧ (∃ t, exec (.tst rd rm) s = .next t
        ∧ ResultFlags (s.x (lowReg rd) &&& s.x (lowReg rm)) s.apsr t.apsr ∧ Retired 2#32 [] s t)
      ∧ decode (half (0b0100000000#10 ++ rm ++ rd)) hw2 = .ok (.andReg rd rm)
      ∧ decode (half (0b0100001110#10 ++ rm ++ rd)) hw2 = .ok (.bic rd rm)
      ∧ decode (half (0b0100000001#10 ++ rm ++ rd)) hw2 = .ok (.eor rd rm)
      ∧ decode (half (0b0100001100#10 ++ rm ++ rd)) hw2 = .ok (.orr rd rm)
      ∧ decode (half (0b0100001111#10 ++ rm ++ rd)) hw2 = .ok (.mvn rd rm)
      ∧ decode (half (0b0000000000#10 ++ rm ++ rd)) hw2 = .ok (.movRegT2 rd rm)
      ∧ decode (half (0b00100#5 ++ rd ++ imm8)) hw2 = .ok (.movImm rd imm8)
      ∧ decode (half (0b0100001000#10 ++ rm ++ rd)) hw2 = .ok (.tst rd rm)

/-! ## Shifts -/

/-- LSLS by an immediate and by a register, bit by bit; the amount of the register form is its bottom byte, amount 0 leaves
C, and from 33 up C is 0 (R21, R310, R311). -/
def Obligations.ShiftLeftBits : Prop :=
  ∀ (s : State) (rd rm : LowReg) (imm5 : BitVec 5) (hw2 : Half),
    (∃ t, exec (.lslImm rd rm imm5) s = .next t
        ∧ (∀ i < 32, (t.x (lowReg rd)).getLsbD i
            = (decide (imm5.toNat ≤ i) && (s.x (lowReg rm)).getLsbD (i - imm5.toNat)))
        ∧ ShiftRetired s t (lowReg rd)
            (if imm5.toNat = 0 then s.apsr.c else (s.x (lowReg rm)).getLsbD (32 - imm5.toNat)))
      ∧ (∃ t, exec (.lslReg rd rm) s = .next t
        ∧ (∀ i < 32, (t.x (lowReg rd)).getLsbD i = (decide ((s.x (lowReg rm)).toNat % 256 ≤ i)
            && (s.x (lowReg rd)).getLsbD (i - (s.x (lowReg rm)).toNat % 256)))
        ∧ ShiftRetired s t (lowReg rd)
            (if (s.x (lowReg rm)).toNat % 256 = 0 then s.apsr.c
              else decide ((s.x (lowReg rm)).toNat % 256 ≤ 32)
                && (s.x (lowReg rd)).getLsbD (32 - (s.x (lowReg rm)).toNat % 256)))
      ∧ (imm5 ≠ 0#5 → decode (half (0b00000#5 ++ imm5 ++ rm ++ rd)) hw2 = .ok (.lslImm rd rm imm5))
      ∧ decode (half (0b0100000010#10 ++ rm ++ rd)) hw2 = .ok (.lslReg rd rm)

/-- LSRS by an immediate, where 0 stands for 32, and by a register, bit by bit (R21, R23, R312, R313). -/
def Obligations.ShiftRightBits : Prop :=
  ∀ (s : State) (rd rm : LowReg) (imm5 : BitVec 5) (hw2 : Half),
    (∃ t, exec (.lsrImm rd rm imm5) s = .next t
        ∧ (∀ i < 32, (t.x (lowReg rd)).getLsbD i
            = (s.x (lowReg rm)).getLsbD (i + (if imm5 = 0#5 then 32 else imm5.toNat)))
        ∧ ShiftRetired s t (lowReg rd)
            ((s.x (lowReg rm)).getLsbD ((if imm5 = 0#5 then 32 else imm5.toNat) - 1)))
      ∧ (∃ t, exec (.lsrReg rd rm) s = .next t
        ∧ (∀ i < 32, (t.x (lowReg rd)).getLsbD i
            = (s.x (lowReg rd)).getLsbD (i + (s.x (lowReg rm)).toNat % 256))
        ∧ ShiftRetired s t (lowReg rd)
            (if (s.x (lowReg rm)).toNat % 256 = 0 then s.apsr.c
              else (s.x (lowReg rd)).getLsbD ((s.x (lowReg rm)).toNat % 256 - 1)))
      ∧ decode (half (0b00001#5 ++ imm5 ++ rm ++ rd)) hw2 = .ok (.lsrImm rd rm imm5)
      ∧ decode (half (0b0100000011#10 ++ rm ++ rd)) hw2 = .ok (.lsrReg rd rm)

/-- ASRS by an immediate, where 0 stands for 32, and by a register, bit by bit: copies of bit 31 come in (R21, R221,
R222). -/
def Obligations.ArithmeticShiftBits : Prop :=
  ∀ (s : State) (rd rm : LowReg) (imm5 : BitVec 5) (hw2 : Half),
    (∃ t, exec (.asrImm rd rm imm5) s = .next t
        ∧ (∀ i < 32, (t.x (lowReg rd)).getLsbD i
            = (s.x (lowReg rm)).getLsbD (min 31 (i + (if imm5 = 0#5 then 32 else imm5.toNat))))
        ∧ ShiftRetired s t (lowReg rd)
            ((s.x (lowReg rm)).getLsbD ((if imm5 = 0#5 then 32 else imm5.toNat) - 1)))
      ∧ (∃ t, exec (.asrReg rd rm) s = .next t
        ∧ (∀ i < 32, (t.x (lowReg rd)).getLsbD i
            = (s.x (lowReg rd)).getLsbD (min 31 (i + (s.x (lowReg rm)).toNat % 256)))
        ∧ ShiftRetired s t (lowReg rd)
            (if (s.x (lowReg rm)).toNat % 256 = 0 then s.apsr.c
              else (s.x (lowReg rd)).getLsbD (min 31 ((s.x (lowReg rm)).toNat % 256 - 1))))
      ∧ decode (half (0b00010#5 ++ imm5 ++ rm ++ rd)) hw2 = .ok (.asrImm rd rm imm5)
      ∧ decode (half (0b0100000100#10 ++ rm ++ rd)) hw2 = .ok (.asrReg rd rm)

/-- RORS by a register: bits move modulo 32, and C is the last bit moved to the top unless the amount is 0 (R21, R346). -/
def Obligations.RotateBits : Prop :=
  ∀ (s : State) (rd rm : LowReg) (hw2 : Half),
    (∃ t, exec (.ror rd rm) s = .next t
        ∧ (∀ i < 32, (t.x (lowReg rd)).getLsbD i
            = (s.x (lowReg rd)).getLsbD ((i + (s.x (lowReg rm)).toNat % 256) % 32))
        ∧ ShiftRetired s t (lowReg rd)
            (if (s.x (lowReg rm)).toNat % 256 = 0 then s.apsr.c else (t.x (lowReg rd)).getLsbD 31))
      ∧ decode (half (0b0100000111#10 ++ rm ++ rd)) hw2 = .ok (.ror rd rm)

/-! ## Extension and byte reversal -/

/-- SXTB, SXTH, UXTB, UXTH, REV, REV16 and REVSH, bit by bit; no flag changes (R343 to R345, R395, R396, R400, R401). -/
def Obligations.ExtendAndReverseBits : Prop :=
  ∀ (s : State) (rd rm : LowReg) (hw2 : Half),
    (∃ t, exec (.sxtb rd rm) s = .next t ∧ ValueRetired s t (lowReg rd) (t.x (lowReg rd))
        ∧ ∀ i < 32, (t.x (lowReg rd)).getLsbD i = (s.x (lowReg rm)).getLsbD (min i 7))
      ∧ (∃ t, exec (.sxth rd rm) s = .next t ∧ ValueRetired s t (lowReg rd) (t.x (lowReg rd))
        ∧ ∀ i < 32, (t.x (lowReg rd)).getLsbD i = (s.x (lowReg rm)).getLsbD (min i 15))
      ∧ (∃ t, exec (.uxtb rd rm) s = .next t ∧ ValueRetired s t (lowReg rd) (t.x (lowReg rd))
        ∧ ∀ i < 32, (t.x (lowReg rd)).getLsbD i = (decide (i < 8) && (s.x (lowReg rm)).getLsbD i))
      ∧ (∃ t, exec (.uxth rd rm) s = .next t ∧ ValueRetired s t (lowReg rd) (t.x (lowReg rd))
        ∧ ∀ i < 32, (t.x (lowReg rd)).getLsbD i = (decide (i < 16) && (s.x (lowReg rm)).getLsbD i))
      ∧ (∃ t, exec (.rev rd rm) s = .next t ∧ ValueRetired s t (lowReg rd) (t.x (lowReg rd))
        ∧ ∀ i < 32, (t.x (lowReg rd)).getLsbD i = (s.x (lowReg rm)).getLsbD (8 * (3 - i / 8) + i % 8))
      ∧ (∃ t, exec (.rev16 rd rm) s = .next t ∧ ValueRetired s t (lowReg rd) (t.x (lowReg rd))
        ∧ ∀ i < 32, (t.x (lowReg rd)).getLsbD i
            = (s.x (lowReg rm)).getLsbD (if i / 8 % 2 = 0 then i + 8 else i - 8))
      ∧ (∃ t, exec (.revsh rd rm) s = .next t ∧ ValueRetired s t (lowReg rd) (t.x (lowReg rd))
        ∧ ∀ i < 32, (t.x (lowReg rd)).getLsbD i
            = (s.x (lowReg rm)).getLsbD (if i < 8 then i + 8 else min (i - 8) 7))
      ∧ decode (half (0b1011001001#10 ++ rm ++ rd)) hw2 = .ok (.sxtb rd rm)
      ∧ decode (half (0b1011001000#10 ++ rm ++ rd)) hw2 = .ok (.sxth rd rm)
      ∧ decode (half (0b1011001011#10 ++ rm ++ rd)) hw2 = .ok (.uxtb rd rm)
      ∧ decode (half (0b1011001010#10 ++ rm ++ rd)) hw2 = .ok (.uxth rd rm)
      ∧ decode (half (0b1011101000#10 ++ rm ++ rd)) hw2 = .ok (.rev rd rm)
      ∧ decode (half (0b1011101001#10 ++ rm ++ rd)) hw2 = .ok (.rev16 rd rm)
      ∧ decode (half (0b1011101011#10 ++ rm ++ rd)) hw2 = .ok (.revsh rd rm)

/-! ## Loads and stores -/

/-- The word loads complete at a readable address: the register holds the four bytes there, nothing else changes (R106,
R281 to R284). -/
def Obligations.LoadWordCompletes : Prop :=
  ∀ (s : State) (rt rn rm : LowReg) (imm5 : BitVec 5) (imm8 : BitVec 8),
    (∀ a, a = s.x (lowReg rn) + 4#32 * imm5.setWidth 32 → Readable s a 4 →
        ∃ t v, exec (.ldrImmT1 rt rn imm5) s = .next t ∧ Stored s a 4 v ∧ ValueRetired s t (lowReg rt) v)
      ∧ (∀ a, a = s.sp + 4#32 * imm8.setWidth 32 → Readable s a 4 →
        ∃ t v, exec (.ldrImmT2 rt imm8) s = .next t ∧ Stored s a 4 v ∧ ValueRetired s t (lowReg rt) v)
      ∧ (∀ a, a = ((s.pc + 4#32) &&& 0xFFFFFFFC#32) + 4#32 * imm8.setWidth 32 → Readable s a 4 →
        ∃ t v, exec (.ldrLit rt imm8) s = .next t ∧ Stored s a 4 v ∧ ValueRetired s t (lowReg rt) v)
      ∧ (∀ a, a = s.x (lowReg rn) + s.x (lowReg rm) → Readable s a 4 →
        ∃ t v, exec (.ldrReg rt rn rm) s = .next t ∧ Stored s a 4 v ∧ ValueRetired s t (lowReg rt) v)

/-- The byte and halfword loads complete at a readable address: zero extended, or sign extended for LDRSB and LDRSH (R101,
R285 to R290). -/
def Obligations.NarrowLoadExtends : Prop :=
  ∀ (s : State) (rt rn rm : LowReg) (imm5 : BitVec 5),
    (∀ a, a = s.x (lowReg rn) + imm5.setWidth 32 → Readable s a 1 →
        ∃ t v, exec (.ldrbImm rt rn imm5) s = .next t ∧ Stored s a 1 v ∧ ValueRetired s t (lowReg rt) v
          ∧ ∀ i, 8 ≤ i → v.getLsbD i = false)
      ∧ (∀ a, a = s.x (lowReg rn) + 2#32 * imm5.setWidth 32 → Readable s a 2 →
        ∃ t v, exec (.ldrhImm rt rn imm5) s = .next t ∧ Stored s a 2 v ∧ ValueRetired s t (lowReg rt) v
          ∧ ∀ i, 16 ≤ i → v.getLsbD i = false)
      ∧ (∀ a, a = s.x (lowReg rn) + s.x (lowReg rm) →
        (Readable s a 1 → ∃ t v, exec (.ldrbReg rt rn rm) s = .next t ∧ Stored s a 1 v
            ∧ ValueRetired s t (lowReg rt) v ∧ ∀ i, 8 ≤ i → v.getLsbD i = false)
          ∧ (Readable s a 2 → ∃ t v, exec (.ldrhReg rt rn rm) s = .next t ∧ Stored s a 2 v
            ∧ ValueRetired s t (lowReg rt) v ∧ ∀ i, 16 ≤ i → v.getLsbD i = false)
          ∧ (Readable s a 1 → ∃ t v, exec (.ldrsb rt rn rm) s = .next t ∧ Stored s a 1 v
            ∧ ValueRetired s t (lowReg rt) v ∧ ∀ i, 8 ≤ i → i < 32 → v.getLsbD i = v.getLsbD 7)
          ∧ (Readable s a 2 → ∃ t v, exec (.ldrsh rt rn rm) s = .next t ∧ Stored s a 2 v
            ∧ ValueRetired s t (lowReg rt) v ∧ ∀ i, 16 ≤ i → i < 32 → v.getLsbD i = v.getLsbD 15))

/-- Every single store completes at a writable address: the width's bytes of the register are there and every other byte of
memory is as before (R101, R107, R371 to R377). -/
def Obligations.StoreCompletes : Prop :=
  ∀ (s : State) (i : Instr) (a : Word) (n : Nat) (rt : LowReg), storeAccess s i = some (a, n, rt) → Writable s a n →
    ∃ t, exec i s = .next t ∧ StoreRetired s t a n (s.x (lowReg rt))

/-- A misaligned access of a single load or store raises HardFault with the instruction's own address, and performs no part
of the access; a byte access is always aligned (R104, R511, R512). HardFault is taken, or the run ends with it raised where
`TrapEntry` is terminal (R510; notes/assumptions/1.md). -/
def Obligations.MisalignedAccessFaults : Prop :=
  ∀ (s : State) (i : Instr) (a : Word) (n : Nat),
    (loadAccess s i = some (a, n) ∨ ∃ rt, storeAccess s i = some (a, n, rt)) → a.toNat % n ≠ 0 →
    n ≠ 1 ∧ RaisesHardFault s (exec i s) s.pc (.align a n)

/-- An aligned access of a single load or store that the platform does not admit raises HardFault with the instruction's own
address (R108, R511, R512). HardFault is taken, or the run ends with it raised where `TrapEntry` is terminal (R510;
notes/assumptions/1.md). An aligned store that overlaps program text is refused before the platform is asked (R125; the
order is the model's choice, notes/assumptions/13.md), and so are STM and PUSH at the first of their words that overlaps
it. -/
def Obligations.UnadmittedAccessFaults : Prop :=
  ∀ (s : State) (i : Instr) (a : Word) (n : Nat), a.toNat % n = 0 →
    (loadAccess s i = some (a, n) → s.admits a n .read = false →
        RaisesHardFault s (exec i s) s.pc (.bus a n .read))
      ∧ (∀ rt, storeAccess s i = some (a, n, rt) → s.overlapsText a n = false → s.admits a n .write = false →
        RaisesHardFault s (exec i s) s.pc (.bus a n .write))
      ∧ (∀ rt, storeAccess s i = some (a, n, rt) → s.overlapsText a n = true →
        exec i s = .refused (.storeToProgramText a))
      ∧ (∀ (rn : LowReg) (l : BitVec 8), ∀ k < rankIn l 8, (s.x (lowReg rn)).toNat % 4 = 0 →
        WritableWords s (s.x (lowReg rn)) k → s.overlapsText (s.x (lowReg rn) + 4#32 * BitVec.ofNat 32 k) 4 = true →
        exec (.stm rn l) s = .refused (.storeToProgramText (s.x (lowReg rn) + 4#32 * BitVec.ofNat 32 k)))
      ∧ (∀ (m : BitVec 1) (l : BitVec 8) (b : Word), b = s.sp - 4#32 * BitVec.ofNat 32 (rankIn l 8 + m.toNat) →
        ∀ k < rankIn l 8 + m.toNat, b.toNat % 4 = 0 → WritableWords s b k →
        s.overlapsText (b + 4#32 * BitVec.ofNat 32 k) 4 = true →
        exec (.push m l) s = .refused (.storeToProgramText (b + 4#32 * BitVec.ofNat 32 k)))

/-! ## Multiple transfers -/

/-- LDM completes when its words are readable: each listed register holds the word at its place, the lowest-numbered from
the lowest address, and the base is written back exactly when it is not listed (R110, R280). -/
def Obligations.LoadMultipleCompletes : Prop :=
  ∀ (s : State) (rn : LowReg) (l : BitVec 8), l ≠ 0#8 → ReadableWords s (s.x (lowReg rn)) (rankIn l 8) →
    ∃ t, exec (.ldm rn l) s = .next t
      ∧ (∀ i, InList l i → Stored s (slotOf (s.x (lowReg rn)) l i) 4 (t.x i))
      ∧ (¬ InList l (lowReg rn) → t.x (lowReg rn) = s.x (lowReg rn) + 4#32 * BitVec.ofNat 32 (rankIn l 8))
      ∧ (∀ i, ¬ InList l i → i ≠ lowReg rn → i ≠ 15#4 → t.x i = s.x i) ∧ t.msp = s.msp ∧ t.psp = s.psp
      ∧ t.pc = s.pc + 2#32 ∧ t.apsr = s.apsr ∧ t.t = s.t ∧ KeepsSystem s t ∧ t.freeIdx = s.freeIdx
      ∧ KeepsMemory s t

/-- POP completes when its words are readable: each listed register holds the word at its place, SP moves past the words,
and with the PC in the list the last word is the branch target, its bit 0 going to T, in a mode or with a value that is no
exception return (R58, R110, R341). -/
def Obligations.PopCompletes : Prop :=
  ∀ (s : State) (p : BitVec 1) (l : BitVec 8), ¬ (p = 0#1 ∧ l = 0#8) →
    ReadableWords s s.sp (rankIn l 8 + p.toNat) →
    (∀ v, p = 1#1 → Stored s (s.sp + 4#32 * BitVec.ofNat 32 (rankIn l 8)) 4 v →
      ¬ (s.mode = .handler ∧ v.extractLsb' 28 4 = 0b1111#4)) →
    ∃ t, exec (.pop p l) s = .next t
      ∧ (∀ i, InList l i → Stored s (slotOf s.sp l i) 4 (t.x i))
      ∧ t.sp = s.sp + 4#32 * BitVec.ofNat 32 (rankIn l 8 + p.toNat)
      ∧ (if s.usesPsp then t.msp = s.msp else t.psp = s.psp)
      ∧ (∀ i, ¬ InList l i → i ≠ 13#4 → i ≠ 15#4 → t.x i = s.x i)
      ∧ (p = 0#1 → t.pc = s.pc + 2#32 ∧ t.t = s.t)
      ∧ (p = 1#1 → ∃ v, Stored s (s.sp + 4#32 * BitVec.ofNat 32 (rankIn l 8)) 4 v
          ∧ t.pc = v &&& 0xFFFFFFFE#32 ∧ t.t = v.getLsbD 0)
      ∧ t.apsr = s.apsr ∧ KeepsSystem s t ∧ t.freeIdx = s.freeIdx ∧ KeepsMemory s t

/-- PUSH completes when its words are writable: each listed register is stored at its place below SP, the lowest-numbered
at the lowest address and LR highest, SP ends at the lowest word, and every byte outside those words is as before (R110,
R342). -/
def Obligations.PushCompletes : Prop :=
  ∀ (s : State) (m : BitVec 1) (l : BitVec 8), ¬ (m = 0#1 ∧ l = 0#8) →
    WritableWords s (s.sp - 4#32 * BitVec.ofNat 32 (rankIn l 8 + m.toNat)) (rankIn l 8 + m.toNat) →
    ∃ t, exec (.push m l) s = .next t
      ∧ t.sp = s.sp - 4#32 * BitVec.ofNat 32 (rankIn l 8 + m.toNat)
      ∧ (∀ i, InList l i → Stored t (slotOf t.sp l i) 4 (s.x i))
      ∧ (m = 1#1 → Stored t (t.sp + 4#32 * BitVec.ofNat 32 (rankIn l 8)) 4 s.lr)
      ∧ KeepsMemoryButWords s t (s.sp - 4#32 * BitVec.ofNat 32 (rankIn l 8 + m.toNat)) (rankIn l 8 + m.toNat)
      ∧ Modifies s t (InWords (s.sp - 4#32 * BitVec.ofNat 32 (rankIn l 8 + m.toNat)) (rankIn l 8 + m.toNat))
      ∧ (∀ i, i ≠ 13#4 → i ≠ 15#4 → t.x i = s.x i) ∧ (if s.usesPsp then t.msp = s.msp else t.psp = s.psp)
      ∧ t.pc = s.pc + 2#32 ∧ t.apsr = s.apsr ∧ t.t = s.t ∧ KeepsSpecial s t ∧ t.freeIdx = s.freeIdx

/-- STM completes when its words are writable: each listed register is stored at its place, but for a base that is listed
and not lowest, whose word is free; the base is written back, and every byte outside those words is as before (R110,
R370). -/
def Obligations.StoreMultipleCompletes : Prop :=
  ∀ (s : State) (rn : LowReg) (l : BitVec 8), l ≠ 0#8 → WritableWords s (s.x (lowReg rn)) (rankIn l 8) →
    ∃ t, exec (.stm rn l) s = .next t
      ∧ (∀ i, InList l i → (i = lowReg rn → rankIn l i.toNat = 0) → Stored t (slotOf (s.x (lowReg rn)) l i) 4 (s.x i))
      ∧ KeepsMemoryButWords s t (s.x (lowReg rn)) (rankIn l 8) ∧ Modifies s t (InWords (s.x (lowReg rn)) (rankIn l 8))
      ∧ t.x (lowReg rn) = s.x (lowReg rn) + 4#32 * BitVec.ofNat 32 (rankIn l 8)
      ∧ KeepsRegs [lowReg rn] s t ∧ t.pc = s.pc + 2#32 ∧ t.apsr = s.apsr ∧ t.t = s.t ∧ KeepsSpecial s t

/-- LDM and STM with a misaligned base raise HardFault for the first word (R104, R111), and a word that the platform does not
admit makes LDM, POP, PUSH and STM raise it part-way (R108, R111). It is raised from a state in which the listed registers,
the base, which is SP for PUSH and POP, and the addressed words have no defined value, and all else is as before (D24): it
is taken (R505, R511) or, where `TrapEntry` is terminal, the run ends (R510; notes/assumptions/1.md and 8.md). -/
def Obligations.MisalignedMultipleFaults : Prop :=
  ∀ (s : State) (rn : LowReg) (l : BitVec 8),
    (l ≠ 0#8 → (s.x (lowReg rn)).toNat % 4 ≠ 0 →
      PartRaises s (exec (.ldm rn l) s) (.align (s.x (lowReg rn)) 4) (fun i => InList l i ∨ i = lowReg rn)
          (s.x (lowReg rn)) (rankIn l 8)
        ∧ PartRaises s (exec (.stm rn l) s) (.align (s.x (lowReg rn)) 4) (fun i => InList l i ∨ i = lowReg rn)
          (s.x (lowReg rn)) (rankIn l 8))
    ∧ (∀ k < rankIn l 8, (s.x (lowReg rn)).toNat % 4 = 0 →
      (ReadableWords s (s.x (lowReg rn)) k →
        s.admits (s.x (lowReg rn) + 4#32 * BitVec.ofNat 32 k) 4 .read = false →
        PartRaises s (exec (.ldm rn l) s) (.bus (s.x (lowReg rn) + 4#32 * BitVec.ofNat 32 k) 4 .read)
          (fun i => InList l i ∨ i = lowReg rn) (s.x (lowReg rn)) (rankIn l 8))
      ∧ (WritableWords s (s.x (lowReg rn)) k →
        s.overlapsText (s.x (lowReg rn) + 4#32 * BitVec.ofNat 32 k) 4 = false →
        s.admits (s.x (lowReg rn) + 4#32 * BitVec.ofNat 32 k) 4 .write = false →
        PartRaises s (exec (.stm rn l) s) (.bus (s.x (lowReg rn) + 4#32 * BitVec.ofNat 32 k) 4 .write)
          (fun i => InList l i ∨ i = lowReg rn) (s.x (lowReg rn)) (rankIn l 8)))
    ∧ (∀ (p : BitVec 1), ∀ k < rankIn l 8 + p.toNat, s.sp.toNat % 4 = 0 → ReadableWords s s.sp k →
      s.admits (s.sp + 4#32 * BitVec.ofNat 32 k) 4 .read = false →
      PartRaises s (exec (.pop p l) s) (.bus (s.sp + 4#32 * BitVec.ofNat 32 k) 4 .read)
        (fun i => InList l i ∨ i = 13#4) s.sp (rankIn l 8 + p.toNat))
    ∧ ∀ (m : BitVec 1) (a : Word), a = s.sp - 4#32 * BitVec.ofNat 32 (rankIn l 8 + m.toNat) →
      ∀ k < rankIn l 8 + m.toNat, a.toNat % 4 = 0 → WritableWords s a k →
      s.overlapsText (a + 4#32 * BitVec.ofNat 32 k) 4 = false →
      s.admits (a + 4#32 * BitVec.ofNat 32 k) 4 .write = false →
      PartRaises s (exec (.push m l) s) (.bus (a + 4#32 * BitVec.ofNat 32 k) 4 .write)
        (fun i => InList l i ∨ (m = 1#1 ∧ i = 14#4) ∨ i = 13#4) a (rankIn l 8 + m.toNat)

/-! ## Branches -/

/-- B branches when its condition holds, to the instruction's address plus 4 plus twice the signed immediate, and falls
through otherwise; the unconditional B always branches (R32, R223, R224). -/
def Obligations.BranchTargets : Prop :=
  ∀ (s : State) (c : Cond) (imm8 : BitVec 8) (imm11 : BitVec 11) (hw2 : Half), s.pc.getLsbD 0 = false →
    (∃ t, exec (.bT1 c imm8) s = .next t
        ∧ (CondTrue s.apsr c → Branched s t (s.pc + 4#32 + BitVec.ofInt 32 (2 * imm8.toInt)))
        ∧ (¬ CondTrue s.apsr c → Branched s t (s.pc + 2#32)))
      ∧ (∃ t, exec (.bT2 imm11) s = .next t ∧ Branched s t (s.pc + 4#32 + BitVec.ofInt 32 (2 * imm11.toInt)))
      ∧ (∀ n : BitVec 4, (c, n) ∈ [(Cond.eq, 0#4), (.ne, 1#4), (.cs, 2#4), (.cc, 3#4), (.mi, 4#4), (.pl, 5#4),
          (.vs, 6#4), (.vc, 7#4), (.hi, 8#4), (.ls, 9#4), (.ge, 10#4), (.lt, 11#4), (.gt, 12#4), (.le, 13#4)] →
          decode (half (0b1101#4 ++ n ++ imm8)) hw2 = .ok (.bT1 c imm8))
      ∧ decode (half (0b11011110#8 ++ imm8)) hw2 = .ok (.udfT1 imm8)
      ∧ decode (half (0b11011111#8 ++ imm8)) hw2 = .ok (.svc imm8)
      ∧ decode (half (0b11100#5 ++ imm11)) hw2 = .ok (.bT2 imm11)

/-- BL saves the address after itself with bit 0 set in LR and branches by the signed offset of its fields, where a J bit
equal to S stands for 1 in the offset (R55, R227). -/
def Obligations.BranchLinkTargets : Prop :=
  ∀ (s : State) (sbit j1 j2 : BitVec 1) (imm10 : BitVec 10) (imm11 : BitVec 11), s.pc.getLsbD 0 = false →
    ∃ t, exec (.bl sbit imm10 j1 j2 imm11) s = .next t
      ∧ t.lr = (s.pc + 4#32) ||| 1#32
      ∧ t.pc = s.pc + 4#32 + BitVec.ofInt 32 (2 * (-(2 ^ 23 : Int) * sbit.toNat
          + 2 ^ 22 * (if j1 = sbit then 1 else 0) + 2 ^ 21 * (if j2 = sbit then 1 else 0)
          + 2 ^ 11 * imm10.toNat + imm11.toNat))
      ∧ t.apsr = s.apsr ∧ KeepsRegs [14#4] s t ∧ KeepsSystem s t ∧ t.t = s.t ∧ t.freeIdx = s.freeIdx
      ∧ KeepsMemory s t

/-- BLX and BX copy bit 0 of the target to T and branch to the rest; BLX reads its target before it writes LR, and BX does
so in a mode or with a value that is no exception return (R58, R228, R229). -/
def Obligations.InterworkingBranches : Prop :=
  ∀ (s : State) (rm : RegNum), rm ≠ 15#4 →
    (∃ t, exec (.blx rm 0#3) s = .next t ∧ t.pc = s.x rm &&& 0xFFFFFFFE#32 ∧ t.t = (s.x rm).getLsbD 0
        ∧ t.lr = (s.pc + 2#32) ||| 1#32 ∧ t.apsr = s.apsr ∧ KeepsRegs [14#4] s t ∧ KeepsSystem s t
        ∧ t.freeIdx = s.freeIdx ∧ KeepsMemory s t)
      ∧ (¬ (s.mode = .handler ∧ (s.x rm).extractLsb' 28 4 = 0b1111#4) →
        ∃ t, exec (.bx rm 0#3) s = .next t ∧ t.pc = s.x rm &&& 0xFFFFFFFE#32 ∧ t.t = (s.x rm).getLsbD 0
          ∧ t.apsr = s.apsr ∧ KeepsRegs [] s t ∧ KeepsSystem s t ∧ t.freeIdx = s.freeIdx ∧ KeepsMemory s t)

/-! ## System instructions -/

/-- CPSIE i is 0xB662 and CPSID i is 0xB672; CPS writes PRIMASK in privileged execution, does nothing in unprivileged
execution, and is refused with other should-be bits (R258, R530). -/
def Obligations.CpsWritesPrimask : Prop :=
  decode 0xB662#16 0#16 = .ok (.cps 0#1 0b0010#4) ∧ decode 0xB672#16 0#16 = .ok (.cps 1#1 0b0010#4) ∧
  (∀ (s : State) (im : BitVec 1) (sb : BitVec 4), sb ≠ 0b0010#4 → exec (.cps im sb) s = .refused .shouldBeBits) ∧
  ∀ (s : State) (im : BitVec 1), ∃ t, exec (.cps im 0b0010#4) s = .next t
    ∧ t.primask = (if s.mode = .handler ∨ s.control.nPriv = false then decide (im = 1#1) else s.primask)
    ∧ t.pc = s.pc + 2#32 ∧ t.apsr = s.apsr ∧ KeepsRegs [] s t ∧ t.ipsr = s.ipsr ∧ t.mode = s.mode
    ∧ t.control = s.control ∧ t.event = s.event ∧ t.pending = s.pending ∧ t.run = s.run ∧ t.cfg = s.cfg
    ∧ t.lastFault = s.lastFault ∧ t.freeIdx = s.freeIdx ∧ t.t = s.t ∧ KeepsSync s t ∧ KeepsMemory s t

/-- With PRIMASK set no exception of configurable priority is taken before an instruction, and SVC takes no SVCall (R67,
R502). -/
def Obligations.PrimaskMasksConfigurable : Prop :=
  ∀ s : State, s.primask = true →
    (∀ e, s.preempting = some e → e = 2#6)
      ∧ (∀ imm8 t, exec (.svc imm8) s = .next t → t.ipsr = 11#6 → s.ipsr = 11#6)

/-- NOP and YIELD are 0xBF00 and 0xBF10 and only advance the pc (R335, R425). -/
def Obligations.NopAndYieldOnlyAdvance : Prop :=
  decode 0xBF00#16 0#16 = .ok .nop ∧ decode 0xBF10#16 0#16 = .ok .yield
    ∧ ∀ s : State, (∃ t, exec .nop s = .next t ∧ t.apsr = s.apsr ∧ Retired 2#32 [] s t)
        ∧ ∃ t, exec .yield s = .next t ∧ t.apsr = s.apsr ∧ Retired 2#32 [] s t

/-- The barriers only advance the pc, whatever their option is (R120, R262, R263, R267), and let a fetch take the bytes that
stores have changed: DSB makes the stores before it complete, and an ISB what was complete before it visible, a model's
choice (R125, notes/assumptions/32.md). -/
def Obligations.BarriersOnlyAdvance : Prop :=
  ∀ (s : State) (option : BitVec 4),
    (∃ t, exec (.dmb option barrierShouldBe) s = .next t ∧ BarrierRetired s t ∧ KeepsSync s t)
      ∧ (∃ t, exec (.dsb option barrierShouldBe) s = .next t ∧ BarrierRetired s t
        ∧ t.modified.stored = [] ∧ ∀ b, b ∈ t.modified.drained ↔ Unsynchronised s b)
      ∧ ∃ t, exec (.isb option barrierShouldBe) s = .next t ∧ BarrierRetired s t
        ∧ t.modified.stored = s.modified.stored ∧ t.modified.drained = []

/-- SEV sets the event register; WFE with an event registered clears it and goes on, and otherwise retires or waits; WFI
goes on when a wake-up is pending, and otherwise retires or waits (R349, R423, R424). -/
def Obligations.EventInstructions : Prop :=
  ∀ s : State, (∃ t, exec .sev s = .next t ∧ EventRetired s t true ∧ t.run = s.run)
    ∧ (∃ t, exec .wfe s = .next t ∧ EventRetired s t false
        ∧ (s.event = true → t.run = s.run) ∧ (t.run = s.run ∨ t.run = .waitingForEvent))
    ∧ (∃ t, exec .wfi s = .next t ∧ EventRetired s t s.event
        ∧ (s.wakesInterrupt = true → t.run = s.run) ∧ (t.run = s.run ∨ t.run = .waitingForInterrupt))

/-- What ends a wait: WFE's by an event, which it clears, or by an exception that would preempt; WFI's by one that would
preempt if PRIMASK were 0; otherwise the machine waits (R423, R424, R535; that the event is cleared, and that nothing else
ends a wait, is notes/assumptions/9.md, over the pending set of notes/assumptions/17.md). -/
def Obligations.WaitsEnd : Prop :=
  ∀ s : State,
    (s.run = .waitingForEvent →
      (s.event = true → ∃ t, step s = .next t ∧ t.run = .running ∧ t.event = false ∧ t.pc = s.pc)
        ∧ (s.event = false → s.preempting = none → step s = .fault .waiting)
        ∧ (s.event = false → s.preempting ≠ none → ∃ t, step s = .next t ∧ t.run = .running ∧ t.pc = s.pc))
    ∧ (s.run = .waitingForInterrupt →
      ({ s with primask := false }.preempting ≠ none → ∃ t, step s = .next t ∧ t.run = .running ∧ t.pc = s.pc)
        ∧ ({ s with primask := false }.preempting = none → step s = .fault .waiting))

/-- What MRS reads for each special register (R64, R66), unprivileged code reading the stack pointers, PRIMASK and CONTROL as
zero (R530); that PSP is read is notes/assumptions/6.md, and with the restriction of D21 it is refused (R320). -/
def Obligations.MrsReads : Prop :=
  ∀ (s : State) (rd : RegNum) (sysm : BitVec 8), rd ≠ 13#4 → rd ≠ 15#4 → allocatedSysm sysm = true →
    (s.cfg.singleStack = true → sysm = 9#8 →
      exec (.mrs rd sysm mrsShouldBe) s = .refused (.outsideSingleStack sysm)) ∧
    (¬ (s.cfg.singleStack = true ∧ sysm = 9#8) →
      ∃ t, exec (.mrs rd sysm mrsShouldBe) s = .next t ∧ t.apsr = s.apsr ∧ Retired 4#32 [rd] s t
      ∧ (sysm.toNat ≤ 3 → (t.x rd).getLsbD 31 = s.apsr.n ∧ (t.x rd).getLsbD 30 = s.apsr.z
          ∧ (t.x rd).getLsbD 29 = s.apsr.c ∧ (t.x rd).getLsbD 28 = s.apsr.v)
      ∧ (sysm = 0#8 ∨ sysm = 2#8 → t.x rd &&& 0x0FFFFFFF#32 = 0#32)
      ∧ (sysm = 1#8 ∨ sysm = 3#8 → t.x rd &&& 0x0FFFFFFF#32 = s.ipsr.setWidth 32)
      ∧ (sysm = 5#8 ∨ sysm = 7#8 → t.x rd = s.ipsr.setWidth 32)
      ∧ (sysm = 6#8 → t.x rd = 0#32)
      ∧ (s.mode = .handler ∨ s.control.nPriv = false →
          (sysm = 8#8 → t.x rd = s.msp) ∧ (sysm = 9#8 → t.x rd = s.psp)
            ∧ (sysm = 16#8 → t.x rd = if s.primask then 1#32 else 0#32)
            ∧ (sysm = 20#8 →
                t.x rd = (if s.control.spSel then 2#32 else 0#32) + (if s.control.nPriv then 1#32 else 0#32)))
      ∧ (s.mode = .thread → s.control.nPriv = true →
          (sysm = 8#8 ∨ sysm = 9#8 ∨ sysm = 16#8 ∨ sysm = 20#8 → t.x rd = 0#32)))

/-- What MSR writes for each special register in privileged execution (R53, R64, R66); that PSP and a CONTROL other than
zero are written is notes/assumptions/6.md, and with the restriction of D21 both are refused (R330). -/
def Obligations.MsrWrites : Prop :=
  ∀ (s : State) (rn : RegNum) (sysm : BitVec 8), rn ≠ 13#4 → rn ≠ 15#4 → allocatedSysm sysm = true →
    s.mode = .handler ∨ s.control.nPriv = false →
    (s.cfg.singleStack = true → (sysm = 9#8 ∨ (sysm = 20#8 ∧ (s.x rn).extractLsb' 0 2 ≠ 0#2)) →
      exec (.msr rn sysm msrShouldBe) s = .refused (.outsideSingleStack sysm)) ∧
    (¬ (s.cfg.singleStack = true ∧ (sysm = 9#8 ∨ (sysm = 20#8 ∧ (s.x rn).extractLsb' 0 2 ≠ 0#2))) →
    ∃ t, exec (.msr rn sysm msrShouldBe) s = .next t
      ∧ t.apsr = (if sysm.toNat ≤ 3 then ⟨(s.x rn).getLsbD 31, (s.x rn).getLsbD 30, (s.x rn).getLsbD 29,
          (s.x rn).getLsbD 28⟩ else s.apsr)
      ∧ t.msp = (if sysm = 8#8 then s.x rn &&& 0xFFFFFFFC#32 else s.msp)
      ∧ t.psp = (if sysm = 9#8 then s.x rn &&& 0xFFFFFFFC#32 else s.psp)
      ∧ t.primask = (if sysm = 16#8 then (s.x rn).getLsbD 0 else s.primask)
      ∧ t.control.spSel = (if sysm = 20#8 ∧ s.mode = .thread then (s.x rn).getLsbD 1 else s.control.spSel)
      ∧ t.control.nPriv = (if sysm = 20#8 ∧ s.cfg.hasUnpriv then (s.x rn).getLsbD 0 else s.control.nPriv)
      ∧ t.regs = s.regs ∧ t.lr = s.lr ∧ t.pc = s.pc + 4#32 ∧ t.t = s.t ∧ t.ipsr = s.ipsr ∧ t.mode = s.mode
      ∧ t.event = s.event ∧ t.pending = s.pending ∧ t.run = s.run ∧ t.cfg = s.cfg ∧ t.lastFault = s.lastFault
      ∧ t.freeIdx = s.freeIdx ∧ KeepsSync s t ∧ KeepsMemory s t)

/-- Unprivileged MSR writes the flags and ignores every other write (R530), but for what the restriction of D21 refuses
(R330, notes/assumptions/6.md). -/
def Obligations.UnprivilegedMsrIgnored : Prop :=
  ∀ (s : State) (rn : RegNum) (sysm : BitVec 8), rn ≠ 13#4 → rn ≠ 15#4 → allocatedSysm sysm = true →
    s.mode = .thread → s.control.nPriv = true →
    (s.cfg.singleStack = true → (sysm = 9#8 ∨ (sysm = 20#8 ∧ (s.x rn).extractLsb' 0 2 ≠ 0#2)) →
      exec (.msr rn sysm msrShouldBe) s = .refused (.outsideSingleStack sysm)) ∧
    (¬ (s.cfg.singleStack = true ∧ (sysm = 9#8 ∨ (sysm = 20#8 ∧ (s.x rn).extractLsb' 0 2 ≠ 0#2))) →
    ∃ t, exec (.msr rn sysm msrShouldBe) s = .next t ∧ Retired 4#32 [] s t
      ∧ t.apsr = (if sysm.toNat ≤ 3 then ⟨(s.x rn).getLsbD 31, (s.x rn).getLsbD 30, (s.x rn).getLsbD 29,
          (s.x rn).getLsbD 28⟩ else s.apsr))

/-! ## Exceptions -/

/-- SVC with PRIMASK clear, in Thread mode or in a handler of lower priority than SVCall, takes SVCall with the return
address of the next instruction, whatever the immediate is (R394, R502, R505, R511, R512), and where `TrapEntry` is terminal
ends the run with SVCall raised (R510). That SVCall is entered is notes/assumptions/1.md, and the priority of a handler
notes/assumptions/18.md. -/
def Obligations.SvcTakesSvcall : Prop :=
  ∀ (s : State) (imm8 : BitVec 8), s.primask = false →
    (s.mode = .thread ∨ (s.mode = .handler ∧ s.priority 11#6 < s.priority s.ipsr)) →
    (CanTake s 11#6 →
        ∃ t, exec (.svc imm8) s = .next t ∧ Entered s t 11#6 (s.pc + 2#32) ∧ t.lastFault = s.lastFault)
      ∧ (s.cfg.trapEntry = .terminal →
        ∃ t, exec (.svc imm8) s = .next t ∧ EndedRaised s t 11#6 (s.pc + 2#32) ∧ t.lastFault = s.lastFault)

/-- SVC escalates to HardFault where SVCall's priority is not higher than the current execution priority: with PRIMASK
set, or in a handler whose priority is equal to or higher than SVCall's, SVCall's own among them; HardFault is taken, or the
run ends with it raised where `TrapEntry` is terminal (R510), and in the HardFault and NMI handlers it locks up (R502, R522).
The return address is notes/assumptions/19.md, entry notes/assumptions/1.md and the priority of a handler
notes/assumptions/18.md. -/
def Obligations.SvcEscalates : Prop :=
  ∀ (s : State) (imm8 : BitVec 8),
    ((s.primask = true ∨ (s.mode = .handler ∧ s.priority s.ipsr ≤ s.priority 11#6)) →
      RaisesHardFault s (exec (.svc imm8) s) (s.pc + 2#32) (.svcEscalated s.pc))
    ∧ (s.mode = .handler → s.ipsr = 11#6 →
      RaisesHardFault s (exec (.svc imm8) s) (s.pc + 2#32) (.svcEscalated s.pc))
    ∧ (s.mode = .handler → s.ipsr = 2#6 ∨ s.ipsr = 3#6 → s.cfg.trapEntry = .architecture →
      ∃ t, exec (.svc imm8) s = .next t ∧ LockedUp s t)

/-- BKPT raises HardFault with its own address (R503, R511, R512), taken, or the end of the run where `TrapEntry` is terminal
(R510; notes/assumptions/1.md), or halts where debug halts are configured, a next state from which the run has ended (R534,
notes/assumptions/28.md). -/
def Obligations.BreakpointFaultsOrHalts : Prop :=
  ∀ (s : State) (imm8 : BitVec 8),
    (s.cfg.debugHalt = false → RaisesHardFault s (exec (.bkpt imm8) s) s.pc (.breakpoint s.pc imm8))
      ∧ (s.cfg.debugHalt = true →
        ∃ t, exec (.bkpt imm8) s = .next t ∧ t.run = .halted imm8 ∧ t.pc = s.pc ∧ t.apsr = s.apsr
          ∧ KeepsRegs [] s t ∧ t.t = s.t ∧ t.mode = s.mode ∧ t.ipsr = s.ipsr ∧ t.control = s.control
          ∧ t.primask = s.primask ∧ KeepsSync s t ∧ KeepsMemory s t ∧ step t = .fault .debugHalted)

/-- Only CPS and MSR change PRIMASK: a step that changes it fetches and executes one of them, so that no exception entry, no
return, no wait, no Lockup and no other instruction does (R511, R521). -/
def Obligations.PrimaskWriters : Prop :=
  ∀ s t : State, step s = .next t → t.primask ≠ s.primask →
    s.run = .running ∧ s.preempting = none ∧ ∃ hw1 hw2 i, s.fetch = .ok (hw1, hw2) ∧ decode hw1 hw2 = .ok i
      ∧ exec i s = .next t ∧ ((∃ im sb, i = .cps im sb) ∨ ∃ rn sysm sb, i = .msr rn sysm sb)

/-- A return restores from the frame R0 to R3, R12, LR, the pc, the flags, T, the exception number and the stack pointer,
and changes neither PRIMASK nor memory; in the mode and on the stack that the low four bits of the value select (R520,
R521), by BX and by POP, which first loads its registers and moves SP past its words (R341). The stacked address loses bit
0, and CONTROL.SPSEL becomes the stack returned to: notes/assumptions/22.md. -/
def Obligations.ReturnRestoresFrame : Prop :=
  ∀ (s : State) (v : Word), s.mode = .handler → s.control.spSel = false → v.extractLsb' 28 4 = 0b1111#4 →
    (∀ rm : RegNum, rm ≠ 15#4 → s.x rm = v →
      (v.extractLsb' 0 4 = 0b0001#4 → ReadableWords s s.msp 8 →
        ∃ t, exec (.bx rm 0#3) s = .next t ∧ ReturnedTo s t .handler false s.msp
          ∧ ∀ i : RegNum, 4 ≤ i.toNat → i.toNat < 12 → t.x i = s.x i)
      ∧ (v.extractLsb' 0 4 = 0b1001#4 → ReadableWords s s.msp 8 →
        ∃ t, exec (.bx rm 0#3) s = .next t ∧ ReturnedTo s t .thread false s.msp
          ∧ ∀ i : RegNum, 4 ≤ i.toNat → i.toNat < 12 → t.x i = s.x i)
      ∧ (v.extractLsb' 0 4 = 0b1101#4 → ReadableWords s s.psp 8 →
        ∃ t, exec (.bx rm 0#3) s = .next t ∧ ReturnedTo s t .thread true s.psp ∧ t.msp = s.msp
          ∧ ∀ i : RegNum, 4 ≤ i.toNat → i.toNat < 12 → t.x i = s.x i))
    ∧ ∀ (l : BitVec 8) (above : Word), above = s.msp + 4#32 * BitVec.ofNat 32 (rankIn l 8 + 1) →
      ReadableWords s s.msp (rankIn l 8 + 1) → Stored s (s.msp + 4#32 * BitVec.ofNat 32 (rankIn l 8)) 4 v →
      (v.extractLsb' 0 4 = 0b0001#4 → ReadableWords s above 8 →
        ∃ t, exec (.pop 1#1 l) s = .next t ∧ ReturnedTo s t .handler false above ∧ PoppedHigh s t l)
      ∧ (v.extractLsb' 0 4 = 0b1001#4 → ReadableWords s above 8 →
        ∃ t, exec (.pop 1#1 l) s = .next t ∧ ReturnedTo s t .thread false above ∧ PoppedHigh s t l)
      ∧ (v.extractLsb' 0 4 = 0b1101#4 → ReadableWords s s.psp 8 →
        ∃ t, exec (.pop 1#1 l) s = .next t ∧ ReturnedTo s t .thread true s.psp ∧ t.msp = above ∧ PoppedHigh s t l)

/-- SVC followed at once by `BX LR` in its handler gives back what SVC interrupted, one instruction further: every register,
the flags, T, the mode, CONTROL, PRIMASK and both stack pointers, and every byte outside the frame (R511, R520, R521; entry is
notes/assumptions/1.md and the return notes/assumptions/22.md). -/
def Obligations.SvcReturnRoundTrip : Prop :=
  ∀ (s t : State) (imm8 : BitVec 8), s.Inv → s.mode = .thread → s.primask = false → CanTake s 11#6 →
    (∀ k < 8, s.cfg.regions.any (fun r => decide (r.base ≤ (frameBase s + 4#32 * BitVec.ofNat 32 k).toNat)
        && decide ((frameBase s + 4#32 * BitVec.ofNat 32 k).toNat + 4 ≤ r.base + r.size) && r.canRead) = true) →
    exec (.svc imm8) s = .next t →
    ∃ u, exec (.bx 14#4 0#3) t = .next u ∧ u.regs = s.regs ∧ u.lr = s.lr ∧ u.msp = s.msp ∧ u.psp = s.psp
      ∧ u.pc = s.pc + 2#32 ∧ u.apsr = s.apsr ∧ u.t = s.t ∧ u.ipsr = s.ipsr ∧ u.mode = .thread
      ∧ u.control = s.control ∧ u.primask = s.primask ∧ u.run = s.run ∧ u.cfg = s.cfg
      ∧ KeepsMemoryButWords s u (frameBase s) 8

/-- A pending exception that preempts is taken before the next instruction, with the address of that instruction; it is of
higher priority than what executes, and no pending asynchronous exception goes before it (R507, R511); where `TrapEntry` is
terminal the run ends with it raised (R510). That it is entered is notes/assumptions/1.md, the pending set is the model's choice, notes/assumptions/17.md, and so is the execution priority, notes/assumptions/18.md. -/
def Obligations.PendingPreempts : Prop :=
  ∀ (s : State) (e : ExcNum), s.run = .running → s.preempting = some e →
    e ∈ s.pending ∧ s.priority e < s.execPriority
      ∧ (∀ f ∈ s.pending, isAsynchronous f = true →
          s.priority e < s.priority f ∨ (s.priority e = s.priority f ∧ e.toNat ≤ f.toNat))
      ∧ (CanTake s e → ∃ t, step s = .next t ∧ Entered s t e s.pc)
      ∧ (s.cfg.trapEntry = .terminal → ∃ t, step s = .next t ∧ EndedRaised s t e s.pc ∧ t.lastFault = s.lastFault)

/-- A HardFault that cannot be taken locks up, whatever raises it: while HardFault or NMI is handled, or with a frame whose
first word the platform does not admit (R511, R522). A locked-up machine takes no step unless NMI is pending, and none at all
in the NMI handler. That Lockup keeps registers and memory is notes/assumptions/20.md, the return address of NMI and Lockup
in the NMI handler notes/assumptions/21.md, and that NMI is entered notes/assumptions/1.md. -/
def Obligations.FaultInHardFaultLocksUp : Prop :=
  ∀ s : State,
    (CannotHardFault s →
      (∀ ret c, ∃ t, s.raiseHardFault ret c = .next t ∧ LockedUp s t)
        ∧ (∀ imm8, ∃ t, exec (.udfT1 imm8) s = .next t ∧ LockedUp s t)
        ∧ (∀ imm4 imm12, ∃ t, exec (.udfT2 imm4 imm12) s = .next t ∧ LockedUp s t)
        ∧ (∀ imm8, s.cfg.debugHalt = false → ∃ t, exec (.bkpt imm8) s = .next t ∧ LockedUp s t)
        ∧ (∀ imm8, s.primask = true ∨ (s.mode = .handler ∧ s.priority s.ipsr ≤ s.priority 11#6) →
          ∃ t, exec (.svc imm8) s = .next t ∧ LockedUp s t)
        ∧ (∀ i a n, loadAccess s i = some (a, n) → (a.toNat % n ≠ 0 ∨ s.admits a n .read = false) →
          ∃ t, exec i s = .next t ∧ LockedUp s t)
        ∧ (∀ i a n rt, storeAccess s i = some (a, n, rt) →
          (a.toNat % n ≠ 0 ∨ (s.overlapsText a n = false ∧ s.admits a n .write = false)) →
          ∃ t, exec i s = .next t ∧ LockedUp s t)
        ∧ (s.run = .running → s.preempting = none → ∀ c, s.fetch = .hardFault c →
          ∃ t, step s = .next t ∧ LockedUp s t)
        ∧ (s.run = .running → s.preempting = none → ∀ hw1 hw2, s.fetch = .ok (hw1, hw2) →
          decode hw1 hw2 = .error .undefined → ∃ t, step s = .next t ∧ LockedUp s t))
      ∧ (s.run = .lockup → (2#6 ∉ s.pending ∨ (s.mode = .handler ∧ s.ipsr = 2#6)) → step s = .fault .lockup)
      ∧ (s.run = .lockup → 2#6 ∈ s.pending → ¬ (s.mode = .handler ∧ s.ipsr = 2#6) →
          CanTake { s with run := .running } 2#6 →
          ∃ t, step s = .next t ∧ Entered { s with run := .running } t 2#6 s.pc)
end

