-- ==== Sys2Proof/Laws/Bits.lean ====
section
/-! SUPPORT. Bits of aligned words, of the special registers as words, and of the word an exception frame holds. -/

namespace Sys2Proof.Machine

/-! ## Alignment -/

/-- A word's bits under a constant mask, the mask's bits given for each place. -/
theorem and_mask_getLsbD (v m : Word) (p : Nat → Bool) (hm : ∀ i < 32, m.getLsbD i = p i) (i : Nat) :
    (v &&& m).getLsbD i = (v.getLsbD i && p i) := by
  rw [BitVec.getLsbD_and]
  rcases Nat.lt_or_ge i 32 with h | h
  · rw [hm i h]
  · simp [BitVec.getLsbD_of_ge v i h]

theorem align4_getLsbD (v : Word) (i : Nat) : (align4 v).getLsbD i = (v.getLsbD i && decide (2 ≤ i)) :=
  and_mask_getLsbD v _ (fun i => decide (2 ≤ i)) (by decide) i

theorem align2_getLsbD (v : Word) (i : Nat) : (align2 v).getLsbD i = (v.getLsbD i && decide (1 ≤ i)) :=
  and_mask_getLsbD v _ (fun i => decide (1 ≤ i)) (by decide) i

theorem getLsbD_zero_iff (v : Word) : v.getLsbD 0 = false ↔ v.toNat % 2 = 0 := by
  rw [BitVec.getLsbD, Nat.testBit_zero]
  simp

theorem getLsbD_one_iff (v : Word) : v.getLsbD 1 = false ↔ v.toNat / 2 % 2 = 0 := by
  rw [BitVec.getLsbD, Nat.testBit_succ, Nat.testBit_zero]
  simp

theorem aligned_iff_bits (v : Word) : v.toNat % 4 = 0 ↔ v.getLsbD 0 = false ∧ v.getLsbD 1 = false := by
  rw [getLsbD_zero_iff, getLsbD_one_iff]
  omega

theorem aligned_iff_and (v : Word) : v.toNat % 4 = 0 ↔ v &&& 3#32 = 0#32 := by
  rw [aligned_iff_bits]
  have h3 : ∀ i, (v &&& 3#32).getLsbD i = (v.getLsbD i && decide (i < 2)) :=
    and_mask_getLsbD v _ (fun i => decide (i < 2)) (by decide)
  constructor
  · rintro ⟨h0, h1⟩
    refine BitVec.eq_of_getLsbD_eq fun i _ => ?_
    rw [h3]
    rcases (by omega : i = 0 ∨ i = 1 ∨ ¬ i < 2) with rfl | rfl | h
    · rw [h0]; rfl
    · rw [h1]; rfl
    · simp [h]
  · intro h
    have a := h3 0
    have b := h3 1
    rw [h, BitVec.getLsbD_zero, decide_eq_true (by decide), Bool.and_true] at a b
    exact ⟨a.symm, b.symm⟩

/-- Aligning an aligned address changes nothing. -/
theorem align4_of_aligned {a : Word} (h : a.toNat % 4 = 0) : align4 a = a := by
  obtain ⟨h0, h1⟩ := (aligned_iff_bits a).mp h
  refine BitVec.eq_of_getLsbD_eq fun i _ => ?_
  rw [align4_getLsbD]
  rcases (by omega : i = 0 ∨ i = 1 ∨ 2 ≤ i) with rfl | rfl | h
  · rw [h0]; rfl
  · rw [h1]; rfl
  · simp [h]

theorem align4_aligned (a : Word) : (align4 a).toNat % 4 = 0 := by
  rw [aligned_iff_bits, align4_getLsbD, align4_getLsbD]
  simp

theorem align4_and (a : Word) : align4 a &&& 3#32 = 0#32 := (aligned_iff_and _).mp (align4_aligned a)

theorem align2_even (a : Word) : (align2 a).getLsbD 0 = false := by rw [align2_getLsbD]; simp

/-- Aligning an even address changes nothing. -/
theorem align2_of_even {a : Word} (h : a.getLsbD 0 = false) : align2 a = a := by
  refine BitVec.eq_of_getLsbD_eq fun i _ => ?_
  rw [align2_getLsbD]
  rcases (by omega : i = 0 ∨ 1 ≤ i) with rfl | h'
  · rw [h]; rfl
  · simp [h']

/-- The sum of even addresses is even. -/
theorem even_add {a b : Word} (ha : a.getLsbD 0 = false) (hb : b.getLsbD 0 = false) : (a + b).getLsbD 0 = false := by
  rw [getLsbD_zero_iff] at *
  rw [BitVec.toNat_add]
  omega

/-! ## The flags as a word -/

theorem Apsr.toWord_getLsbD (f : Apsr) (i : Nat) :
    f.toWord.getLsbD i = (if i = 31 then f.n else if i = 30 then f.z else if i = 29 then f.c
      else if i = 28 then f.v else false) := by
  obtain ⟨n, z, c, v⟩ := f
  rcases Nat.lt_or_ge i 32 with h | h
  · exact (by decide : ∀ (n z c v : Bool) (j : Fin 32), (Apsr.mk n z c v).toWord.getLsbD j.val
      = (if j.val = 31 then n else if j.val = 30 then z else if j.val = 29 then c else if j.val = 28 then v else false))
      n z c v ⟨i, h⟩
  · rw [BitVec.getLsbD_of_ge _ _ h]
    split_ifs <;> first | rfl | omega

@[simp] theorem apsrOfWord_toWord (f : Apsr) : apsrOfWord f.toWord = f := by
  simp only [apsrOfWord, Apsr.toWord_getLsbD]
  rfl

/-! ## xPSR -/

theorem constBit_getLsbD (b : Bool) (m : Word) (k : Nat) (hm : ∀ i < 32, m.getLsbD i = decide (i = k)) (i : Nat) (hi : i < 32) :
    (if b then m else 0#32).getLsbD i = (b && decide (i = k)) := by
  cases b <;> simp [hm i hi]

/-! ## The frame pointer -/

/-- A word is itself with bit 2 cleared, and that bit. -/
theorem clearBit2_add (v : Word) : (v &&& 0xFFFFFFFB#32) + (if v.getLsbD 2 then 4#32 else 0#32) = v := by
  have h4 : (v &&& 4#32) = if v.getLsbD 2 then 4#32 else 0#32 := by
    have hb : ∀ i, (v &&& 4#32).getLsbD i = (v.getLsbD i && decide (i = 2)) :=
      and_mask_getLsbD v _ (fun i => decide (i = 2)) (by decide)
    refine BitVec.eq_of_getLsbD_eq fun i hi => ?_
    rw [hb, constBit_getLsbD _ _ 2 (by decide) i hi]
    by_cases h : i = 2
    · subst h; rfl
    · simp [h]
  rw [← h4, BitVec.add_eq_or_of_and_eq_zero, ← BitVec.and_or_distrib_left]
  · exact BitVec.and_allOnes
  · rw [BitVec.and_assoc, ← BitVec.and_assoc _ v, BitVec.and_comm _ v, BitVec.and_assoc v]; simp

/-- Setting a clear bit 2 adds 4. -/
theorem setBit2 (v : Word) (h : v.getLsbD 2 = false) (b : Bool) :
    v ||| (if b then 4#32 else 0#32) = v + (if b then 4#32 else 0#32) := by
  rw [BitVec.add_eq_or_of_and_eq_zero]
  refine BitVec.eq_of_getLsbD_eq fun i hi => ?_
  rw [BitVec.getLsbD_and, constBit_getLsbD b _ 2 (by decide) i hi]
  by_cases h' : i = 2
  · subst h'; rw [h]; simp
  · simp [h']

theorem bit2_toNat (v : Word) : v.getLsbD 2 = decide (v.toNat / 4 % 2 = 1) := by
  rw [BitVec.getLsbD, Nat.testBit_succ, Nat.testBit_succ, Nat.testBit_zero]
  congr 2; omega

/-- The stack pointer comes back: popping the frame that an entry pushed gives the stack pointer before it (R511, R520). -/
theorem poppedSp_frame (sp xpsr : Word) (h : sp.toNat % 4 = 0) (hx : xpsr.getLsbD 9 = sp.getLsbD 2) :
    poppedSp ((sp - 0x20#32) &&& 0xFFFFFFFB#32) xpsr = sp := by
  unfold poppedSp
  rw [hx]
  have h2 : (sp - 0x20#32).getLsbD 2 = sp.getLsbD 2 := by
    rw [bit2_toNat, bit2_toNat, BitVec.toNat_sub]
    have := sp.isLt
    simp only [BitVec.toNat_ofNat]
    congr 1; apply propext; omega
  have hs := clearBit2_add (sp - 0x20#32)
  rw [h2] at hs
  have hlow : (((sp - 0x20#32) &&& 0xFFFFFFFB#32) + 0x20#32).getLsbD 2 = false := by
    have hb : ((sp - 0x20#32) &&& 0xFFFFFFFB#32).getLsbD 2 = false := by
      rw [and_mask_getLsbD _ _ (fun i => decide (i ≠ 2)) (by decide)]; simp
    rw [bit2_toNat] at hb ⊢
    rw [BitVec.toNat_add]
    simp only [BitVec.toNat_ofNat, decide_eq_false_iff_not] at hb ⊢
    have := ((sp - 0x20#32) &&& 0xFFFFFFFB#32).isLt
    omega
  rw [setBit2 _ hlow]
  have e : (sp - 0x20#32 &&& 0xFFFFFFFB#32) + 0x20#32 + (if sp.getLsbD 2 then 4#32 else 0#32) = sp := by
    rw [BitVec.add_assoc, BitVec.add_comm 0x20#32, ← BitVec.add_assoc, hs]
    exact BitVec.sub_add_cancel sp 0x20#32
  rw [e]
  exact align4_of_aligned h

/-! ## The bits of xPSR -/

/-- The bits of the xPSR word a frame holds (R511). -/
theorem xpsrFrame_getLsbD (s : State) (a : Bool) (i : Nat) (hi : i < 32) :
    (s.xpsrFrame a).getLsbD i = (s.apsr.toWord.getLsbD i || (s.t && decide (i = 24)) || (a && decide (i = 9))
      || s.ipsr.getLsbD i) := by
  unfold State.xpsrFrame
  rw [BitVec.getLsbD_or, BitVec.getLsbD_or, BitVec.getLsbD_or, constBit_getLsbD s.t _ 24 (by decide) i hi,
    constBit_getLsbD a _ 9 (by decide) i hi, BitVec.getLsbD_setWidth]
  simp [hi]

/-- What the fields of that word are. -/
theorem xpsrFrame_bits (s : State) (a : Bool) :
    (s.xpsrFrame a).getLsbD 31 = s.apsr.n ∧ (s.xpsrFrame a).getLsbD 30 = s.apsr.z
      ∧ (s.xpsrFrame a).getLsbD 29 = s.apsr.c ∧ (s.xpsrFrame a).getLsbD 28 = s.apsr.v
      ∧ (s.xpsrFrame a).getLsbD 24 = s.t ∧ (s.xpsrFrame a).getLsbD 9 = a
      ∧ (s.xpsrFrame a).setWidth 6 = s.ipsr ∧ s.xpsrFrame a &&& 0x0EFFFDC0#32 = 0#32 := by
  have hi : ∀ k, 6 ≤ k → s.ipsr.getLsbD k = false := fun k hk => BitVec.getLsbD_of_ge _ _ hk
  refine ⟨?_, ?_, ?_, ?_, ?_, ?_, ?_, ?_⟩
  · rw [xpsrFrame_getLsbD _ _ _ (by decide), Apsr.toWord_getLsbD, hi _ (by decide)]; simp
  · rw [xpsrFrame_getLsbD _ _ _ (by decide), Apsr.toWord_getLsbD, hi _ (by decide)]; simp
  · rw [xpsrFrame_getLsbD _ _ _ (by decide), Apsr.toWord_getLsbD, hi _ (by decide)]; simp
  · rw [xpsrFrame_getLsbD _ _ _ (by decide), Apsr.toWord_getLsbD, hi _ (by decide)]; simp
  · rw [xpsrFrame_getLsbD _ _ _ (by decide), Apsr.toWord_getLsbD, hi _ (by decide)]; simp
  · rw [xpsrFrame_getLsbD _ _ _ (by decide), Apsr.toWord_getLsbD, hi _ (by decide)]; simp
  · refine BitVec.eq_of_getLsbD_eq fun i h => ?_
    have h31 : i ≠ 31 := by omega
    have h30 : i ≠ 30 := by omega
    have h29 : i ≠ 29 := by omega
    have h28 : i ≠ 28 := by omega
    have h24 : i ≠ 24 := by omega
    have h9 : i ≠ 9 := by omega
    rw [BitVec.getLsbD_setWidth, xpsrFrame_getLsbD _ _ _ (by omega), Apsr.toWord_getLsbD]
    simp [h, h31, h30, h29, h28, h24, h9]
  · refine BitVec.eq_of_getLsbD_eq fun i h => ?_
    have hmask : (0x0EFFFDC0#32).getLsbD i
        = decide (6 ≤ i ∧ i ≠ 9 ∧ i ≠ 24 ∧ i ≠ 28 ∧ i ≠ 29 ∧ i ≠ 30 ∧ i ≠ 31) := by
      revert i; decide
    rw [BitVec.getLsbD_and, hmask, xpsrFrame_getLsbD _ _ _ h, Apsr.toWord_getLsbD]
    by_cases hp : 6 ≤ i ∧ i ≠ 9 ∧ i ≠ 24 ∧ i ≠ 28 ∧ i ≠ 29 ∧ i ≠ 30 ∧ i ≠ 31
    · obtain ⟨h6, h9, h24, h28, h29, h30, h31⟩ := hp
      simp [h9, h24, h28, h29, h30, h31, hi i h6]
    · simp [hp]

end Sys2Proof.Machine
end

