-- ==== Sys2Proof/Laws/Encoding.lean ====
section
/-! SUPPORT. Bit slices of the halfwords the encoder writes. -/

namespace Sys2Proof

/-- A slice of a halfword made of fields is a slice of the fields. -/
theorem slice_half {w : Nat} (x : BitVec w) (lo len : Nat) (h : lo + len ≤ 16) :
    slice (half x) lo len = slice x lo len := by
  refine BitVec.eq_of_getLsbD_eq fun i hi => ?_
  simp only [slice, half, BitVec.getLsbD_extractLsb', BitVec.getLsbD_setWidth]
  have : lo + i < 16 := by omega
  simp [this, hi]

/-- A slice that lies in the low part of a concatenation. -/
theorem slice_append_low {v w : Nat} (x : BitVec v) (y : BitVec w) (lo len : Nat) (h : lo + len ≤ w) :
    slice (x ++ y) lo len = slice y lo len := BitVec.extractLsb'_append_eq_of_add_le h

/-- A slice that lies in the high part of a concatenation. -/
theorem slice_append_high {v w : Nat} (x : BitVec v) (y : BitVec w) (lo len : Nat) (h : w ≤ lo) :
    slice (x ++ y) lo len = slice x (lo - w) len := BitVec.extractLsb'_append_eq_of_le h

/-- The slice of all bits. -/
theorem slice_all {w : Nat} (x : BitVec w) : slice x 0 w = x := BitVec.extractLsb'_eq_self

/-- A register number is its top bit and its low three bits. -/
theorem slice_high_join (h : RegNum) : slice h 3 1 ++ slice h 0 3 = h := by revert h; decide

theorem condOfBits_condBits (c : Cond) : condOfBits (condBits c) = some c := by cases c <;> rfl

/-- The bytes of a halfword give it back. -/
theorem halfOfBytes_slice (hw : Half) : halfOfBytes (slice hw 0 8) (slice hw 8 8) = hw := by
  refine BitVec.eq_of_getLsbD_eq fun i hi => ?_
  simp only [halfOfBytes, BitVec.getLsbD_append, slice, BitVec.getLsbD_extractLsb']
  rcases Nat.lt_or_ge i 8 with h | h
  · simp [h]
  · have h1 : ¬ i < 8 := by omega
    have h2 : i - 8 < 8 := by omega
    have h3 : 8 + (i - 8) = i := by omega
    simp [h1, h2, h3]

end Sys2Proof
end

