-- ==== Sys2Proof/Laws/State.lean ====
section
/-! SUPPORT. One lemma per field per update of State, true by `rfl`, so that no proof unfolds an update. -/

namespace Sys2Proof.Machine

@[simp] theorem State.withRegs_regs (s : State) (v : Vector Word 13) : (s.withRegs v).regs = v := rfl
@[simp] theorem State.withRegs_msp (s : State) (v : Vector Word 13) : (s.withRegs v).msp = s.msp := rfl
@[simp] theorem State.withRegs_psp (s : State) (v : Vector Word 13) : (s.withRegs v).psp = s.psp := rfl
@[simp] theorem State.withRegs_lr (s : State) (v : Vector Word 13) : (s.withRegs v).lr = s.lr := rfl
@[simp] theorem State.withRegs_pc (s : State) (v : Vector Word 13) : (s.withRegs v).pc = s.pc := rfl
@[simp] theorem State.withRegs_apsr (s : State) (v : Vector Word 13) : (s.withRegs v).apsr = s.apsr := rfl
@[simp] theorem State.withRegs_t (s : State) (v : Vector Word 13) : (s.withRegs v).t = s.t := rfl
@[simp] theorem State.withRegs_ipsr (s : State) (v : Vector Word 13) : (s.withRegs v).ipsr = s.ipsr := rfl
@[simp] theorem State.withRegs_mode (s : State) (v : Vector Word 13) : (s.withRegs v).mode = s.mode := rfl
@[simp] theorem State.withRegs_primask (s : State) (v : Vector Word 13) : (s.withRegs v).primask = s.primask := rfl
@[simp] theorem State.withRegs_control (s : State) (v : Vector Word 13) : (s.withRegs v).control = s.control := rfl
@[simp] theorem State.withRegs_event (s : State) (v : Vector Word 13) : (s.withRegs v).event = s.event := rfl
@[simp] theorem State.withRegs_pending (s : State) (v : Vector Word 13) : (s.withRegs v).pending = s.pending := rfl
@[simp] theorem State.withRegs_run (s : State) (v : Vector Word 13) : (s.withRegs v).run = s.run := rfl
@[simp] theorem State.withRegs_mem (s : State) (v : Vector Word 13) : (s.withRegs v).mem = s.mem := rfl
@[simp] theorem State.withRegs_modified (s : State) (v : Vector Word 13) : (s.withRegs v).modified = s.modified := rfl
@[simp] theorem State.withRegs_cfg (s : State) (v : Vector Word 13) : (s.withRegs v).cfg = s.cfg := rfl
@[simp] theorem State.withRegs_lastFault (s : State) (v : Vector Word 13) : (s.withRegs v).lastFault = s.lastFault := rfl
@[simp] theorem State.withRegs_freeIdx (s : State) (v : Vector Word 13) : (s.withRegs v).freeIdx = s.freeIdx := rfl

@[simp] theorem State.withMsp_regs (s : State) (v : Word) : (s.withMsp v).regs = s.regs := rfl
@[simp] theorem State.withMsp_msp (s : State) (v : Word) : (s.withMsp v).msp = v := rfl
@[simp] theorem State.withMsp_psp (s : State) (v : Word) : (s.withMsp v).psp = s.psp := rfl
@[simp] theorem State.withMsp_lr (s : State) (v : Word) : (s.withMsp v).lr = s.lr := rfl
@[simp] theorem State.withMsp_pc (s : State) (v : Word) : (s.withMsp v).pc = s.pc := rfl
@[simp] theorem State.withMsp_apsr (s : State) (v : Word) : (s.withMsp v).apsr = s.apsr := rfl
@[simp] theorem State.withMsp_t (s : State) (v : Word) : (s.withMsp v).t = s.t := rfl
@[simp] theorem State.withMsp_ipsr (s : State) (v : Word) : (s.withMsp v).ipsr = s.ipsr := rfl
@[simp] theorem State.withMsp_mode (s : State) (v : Word) : (s.withMsp v).mode = s.mode := rfl
@[simp] theorem State.withMsp_primask (s : State) (v : Word) : (s.withMsp v).primask = s.primask := rfl
@[simp] theorem State.withMsp_control (s : State) (v : Word) : (s.withMsp v).control = s.control := rfl
@[simp] theorem State.withMsp_event (s : State) (v : Word) : (s.withMsp v).event = s.event := rfl
@[simp] theorem State.withMsp_pending (s : State) (v : Word) : (s.withMsp v).pending = s.pending := rfl
@[simp] theorem State.withMsp_run (s : State) (v : Word) : (s.withMsp v).run = s.run := rfl
@[simp] theorem State.withMsp_mem (s : State) (v : Word) : (s.withMsp v).mem = s.mem := rfl
@[simp] theorem State.withMsp_modified (s : State) (v : Word) : (s.withMsp v).modified = s.modified := rfl
@[simp] theorem State.withMsp_cfg (s : State) (v : Word) : (s.withMsp v).cfg = s.cfg := rfl
@[simp] theorem State.withMsp_lastFault (s : State) (v : Word) : (s.withMsp v).lastFault = s.lastFault := rfl
@[simp] theorem State.withMsp_freeIdx (s : State) (v : Word) : (s.withMsp v).freeIdx = s.freeIdx := rfl

@[simp] theorem State.withPsp_regs (s : State) (v : Word) : (s.withPsp v).regs = s.regs := rfl
@[simp] theorem State.withPsp_msp (s : State) (v : Word) : (s.withPsp v).msp = s.msp := rfl
@[simp] theorem State.withPsp_psp (s : State) (v : Word) : (s.withPsp v).psp = v := rfl
@[simp] theorem State.withPsp_lr (s : State) (v : Word) : (s.withPsp v).lr = s.lr := rfl
@[simp] theorem State.withPsp_pc (s : State) (v : Word) : (s.withPsp v).pc = s.pc := rfl
@[simp] theorem State.withPsp_apsr (s : State) (v : Word) : (s.withPsp v).apsr = s.apsr := rfl
@[simp] theorem State.withPsp_t (s : State) (v : Word) : (s.withPsp v).t = s.t := rfl
@[simp] theorem State.withPsp_ipsr (s : State) (v : Word) : (s.withPsp v).ipsr = s.ipsr := rfl
@[simp] theorem State.withPsp_mode (s : State) (v : Word) : (s.withPsp v).mode = s.mode := rfl
@[simp] theorem State.withPsp_primask (s : State) (v : Word) : (s.withPsp v).primask = s.primask := rfl
@[simp] theorem State.withPsp_control (s : State) (v : Word) : (s.withPsp v).control = s.control := rfl
@[simp] theorem State.withPsp_event (s : State) (v : Word) : (s.withPsp v).event = s.event := rfl
@[simp] theorem State.withPsp_pending (s : State) (v : Word) : (s.withPsp v).pending = s.pending := rfl
@[simp] theorem State.withPsp_run (s : State) (v : Word) : (s.withPsp v).run = s.run := rfl
@[simp] theorem State.withPsp_mem (s : State) (v : Word) : (s.withPsp v).mem = s.mem := rfl
@[simp] theorem State.withPsp_modified (s : State) (v : Word) : (s.withPsp v).modified = s.modified := rfl
@[simp] theorem State.withPsp_cfg (s : State) (v : Word) : (s.withPsp v).cfg = s.cfg := rfl
@[simp] theorem State.withPsp_lastFault (s : State) (v : Word) : (s.withPsp v).lastFault = s.lastFault := rfl
@[simp] theorem State.withPsp_freeIdx (s : State) (v : Word) : (s.withPsp v).freeIdx = s.freeIdx := rfl

@[simp] theorem State.withLr_regs (s : State) (v : Word) : (s.withLr v).regs = s.regs := rfl
@[simp] theorem State.withLr_msp (s : State) (v : Word) : (s.withLr v).msp = s.msp := rfl
@[simp] theorem State.withLr_psp (s : State) (v : Word) : (s.withLr v).psp = s.psp := rfl
@[simp] theorem State.withLr_lr (s : State) (v : Word) : (s.withLr v).lr = v := rfl
@[simp] theorem State.withLr_pc (s : State) (v : Word) : (s.withLr v).pc = s.pc := rfl
@[simp] theorem State.withLr_apsr (s : State) (v : Word) : (s.withLr v).apsr = s.apsr := rfl
@[simp] theorem State.withLr_t (s : State) (v : Word) : (s.withLr v).t = s.t := rfl
@[simp] theorem State.withLr_ipsr (s : State) (v : Word) : (s.withLr v).ipsr = s.ipsr := rfl
@[simp] theorem State.withLr_mode (s : State) (v : Word) : (s.withLr v).mode = s.mode := rfl
@[simp] theorem State.withLr_primask (s : State) (v : Word) : (s.withLr v).primask = s.primask := rfl
@[simp] theorem State.withLr_control (s : State) (v : Word) : (s.withLr v).control = s.control := rfl
@[simp] theorem State.withLr_event (s : State) (v : Word) : (s.withLr v).event = s.event := rfl
@[simp] theorem State.withLr_pending (s : State) (v : Word) : (s.withLr v).pending = s.pending := rfl
@[simp] theorem State.withLr_run (s : State) (v : Word) : (s.withLr v).run = s.run := rfl
@[simp] theorem State.withLr_mem (s : State) (v : Word) : (s.withLr v).mem = s.mem := rfl
@[simp] theorem State.withLr_modified (s : State) (v : Word) : (s.withLr v).modified = s.modified := rfl
@[simp] theorem State.withLr_cfg (s : State) (v : Word) : (s.withLr v).cfg = s.cfg := rfl
@[simp] theorem State.withLr_lastFault (s : State) (v : Word) : (s.withLr v).lastFault = s.lastFault := rfl
@[simp] theorem State.withLr_freeIdx (s : State) (v : Word) : (s.withLr v).freeIdx = s.freeIdx := rfl

@[simp] theorem State.withPc_regs (s : State) (v : Word) : (s.withPc v).regs = s.regs := rfl
@[simp] theorem State.withPc_msp (s : State) (v : Word) : (s.withPc v).msp = s.msp := rfl
@[simp] theorem State.withPc_psp (s : State) (v : Word) : (s.withPc v).psp = s.psp := rfl
@[simp] theorem State.withPc_lr (s : State) (v : Word) : (s.withPc v).lr = s.lr := rfl
@[simp] theorem State.withPc_pc (s : State) (v : Word) : (s.withPc v).pc = v := rfl
@[simp] theorem State.withPc_apsr (s : State) (v : Word) : (s.withPc v).apsr = s.apsr := rfl
@[simp] theorem State.withPc_t (s : State) (v : Word) : (s.withPc v).t = s.t := rfl
@[simp] theorem State.withPc_ipsr (s : State) (v : Word) : (s.withPc v).ipsr = s.ipsr := rfl
@[simp] theorem State.withPc_mode (s : State) (v : Word) : (s.withPc v).mode = s.mode := rfl
@[simp] theorem State.withPc_primask (s : State) (v : Word) : (s.withPc v).primask = s.primask := rfl
@[simp] theorem State.withPc_control (s : State) (v : Word) : (s.withPc v).control = s.control := rfl
@[simp] theorem State.withPc_event (s : State) (v : Word) : (s.withPc v).event = s.event := rfl
@[simp] theorem State.withPc_pending (s : State) (v : Word) : (s.withPc v).pending = s.pending := rfl
@[simp] theorem State.withPc_run (s : State) (v : Word) : (s.withPc v).run = s.run := rfl
@[simp] theorem State.withPc_mem (s : State) (v : Word) : (s.withPc v).mem = s.mem := rfl
@[simp] theorem State.withPc_modified (s : State) (v : Word) : (s.withPc v).modified = s.modified := rfl
@[simp] theorem State.withPc_cfg (s : State) (v : Word) : (s.withPc v).cfg = s.cfg := rfl
@[simp] theorem State.withPc_lastFault (s : State) (v : Word) : (s.withPc v).lastFault = s.lastFault := rfl
@[simp] theorem State.withPc_freeIdx (s : State) (v : Word) : (s.withPc v).freeIdx = s.freeIdx := rfl

@[simp] theorem State.withApsr_regs (s : State) (v : Apsr) : (s.withApsr v).regs = s.regs := rfl
@[simp] theorem State.withApsr_msp (s : State) (v : Apsr) : (s.withApsr v).msp = s.msp := rfl
@[simp] theorem State.withApsr_psp (s : State) (v : Apsr) : (s.withApsr v).psp = s.psp := rfl
@[simp] theorem State.withApsr_lr (s : State) (v : Apsr) : (s.withApsr v).lr = s.lr := rfl
@[simp] theorem State.withApsr_pc (s : State) (v : Apsr) : (s.withApsr v).pc = s.pc := rfl
@[simp] theorem State.withApsr_apsr (s : State) (v : Apsr) : (s.withApsr v).apsr = v := rfl
@[simp] theorem State.withApsr_t (s : State) (v : Apsr) : (s.withApsr v).t = s.t := rfl
@[simp] theorem State.withApsr_ipsr (s : State) (v : Apsr) : (s.withApsr v).ipsr = s.ipsr := rfl
@[simp] theorem State.withApsr_mode (s : State) (v : Apsr) : (s.withApsr v).mode = s.mode := rfl
@[simp] theorem State.withApsr_primask (s : State) (v : Apsr) : (s.withApsr v).primask = s.primask := rfl
@[simp] theorem State.withApsr_control (s : State) (v : Apsr) : (s.withApsr v).control = s.control := rfl
@[simp] theorem State.withApsr_event (s : State) (v : Apsr) : (s.withApsr v).event = s.event := rfl
@[simp] theorem State.withApsr_pending (s : State) (v : Apsr) : (s.withApsr v).pending = s.pending := rfl
@[simp] theorem State.withApsr_run (s : State) (v : Apsr) : (s.withApsr v).run = s.run := rfl
@[simp] theorem State.withApsr_mem (s : State) (v : Apsr) : (s.withApsr v).mem = s.mem := rfl
@[simp] theorem State.withApsr_modified (s : State) (v : Apsr) : (s.withApsr v).modified = s.modified := rfl
@[simp] theorem State.withApsr_cfg (s : State) (v : Apsr) : (s.withApsr v).cfg = s.cfg := rfl
@[simp] theorem State.withApsr_lastFault (s : State) (v : Apsr) : (s.withApsr v).lastFault = s.lastFault := rfl
@[simp] theorem State.withApsr_freeIdx (s : State) (v : Apsr) : (s.withApsr v).freeIdx = s.freeIdx := rfl

@[simp] theorem State.withT_regs (s : State) (v : Bool) : (s.withT v).regs = s.regs := rfl
@[simp] theorem State.withT_msp (s : State) (v : Bool) : (s.withT v).msp = s.msp := rfl
@[simp] theorem State.withT_psp (s : State) (v : Bool) : (s.withT v).psp = s.psp := rfl
@[simp] theorem State.withT_lr (s : State) (v : Bool) : (s.withT v).lr = s.lr := rfl
@[simp] theorem State.withT_pc (s : State) (v : Bool) : (s.withT v).pc = s.pc := rfl
@[simp] theorem State.withT_apsr (s : State) (v : Bool) : (s.withT v).apsr = s.apsr := rfl
@[simp] theorem State.withT_t (s : State) (v : Bool) : (s.withT v).t = v := rfl
@[simp] theorem State.withT_ipsr (s : State) (v : Bool) : (s.withT v).ipsr = s.ipsr := rfl
@[simp] theorem State.withT_mode (s : State) (v : Bool) : (s.withT v).mode = s.mode := rfl
@[simp] theorem State.withT_primask (s : State) (v : Bool) : (s.withT v).primask = s.primask := rfl
@[simp] theorem State.withT_control (s : State) (v : Bool) : (s.withT v).control = s.control := rfl
@[simp] theorem State.withT_event (s : State) (v : Bool) : (s.withT v).event = s.event := rfl
@[simp] theorem State.withT_pending (s : State) (v : Bool) : (s.withT v).pending = s.pending := rfl
@[simp] theorem State.withT_run (s : State) (v : Bool) : (s.withT v).run = s.run := rfl
@[simp] theorem State.withT_mem (s : State) (v : Bool) : (s.withT v).mem = s.mem := rfl
@[simp] theorem State.withT_modified (s : State) (v : Bool) : (s.withT v).modified = s.modified := rfl
@[simp] theorem State.withT_cfg (s : State) (v : Bool) : (s.withT v).cfg = s.cfg := rfl
@[simp] theorem State.withT_lastFault (s : State) (v : Bool) : (s.withT v).lastFault = s.lastFault := rfl
@[simp] theorem State.withT_freeIdx (s : State) (v : Bool) : (s.withT v).freeIdx = s.freeIdx := rfl

@[simp] theorem State.withPrimask_regs (s : State) (v : Bool) : (s.withPrimask v).regs = s.regs := rfl
@[simp] theorem State.withPrimask_msp (s : State) (v : Bool) : (s.withPrimask v).msp = s.msp := rfl
@[simp] theorem State.withPrimask_psp (s : State) (v : Bool) : (s.withPrimask v).psp = s.psp := rfl
@[simp] theorem State.withPrimask_lr (s : State) (v : Bool) : (s.withPrimask v).lr = s.lr := rfl
@[simp] theorem State.withPrimask_pc (s : State) (v : Bool) : (s.withPrimask v).pc = s.pc := rfl
@[simp] theorem State.withPrimask_apsr (s : State) (v : Bool) : (s.withPrimask v).apsr = s.apsr := rfl
@[simp] theorem State.withPrimask_t (s : State) (v : Bool) : (s.withPrimask v).t = s.t := rfl
@[simp] theorem State.withPrimask_ipsr (s : State) (v : Bool) : (s.withPrimask v).ipsr = s.ipsr := rfl
@[simp] theorem State.withPrimask_mode (s : State) (v : Bool) : (s.withPrimask v).mode = s.mode := rfl
@[simp] theorem State.withPrimask_primask (s : State) (v : Bool) : (s.withPrimask v).primask = v := rfl
@[simp] theorem State.withPrimask_control (s : State) (v : Bool) : (s.withPrimask v).control = s.control := rfl
@[simp] theorem State.withPrimask_event (s : State) (v : Bool) : (s.withPrimask v).event = s.event := rfl
@[simp] theorem State.withPrimask_pending (s : State) (v : Bool) : (s.withPrimask v).pending = s.pending := rfl
@[simp] theorem State.withPrimask_run (s : State) (v : Bool) : (s.withPrimask v).run = s.run := rfl
@[simp] theorem State.withPrimask_mem (s : State) (v : Bool) : (s.withPrimask v).mem = s.mem := rfl
@[simp] theorem State.withPrimask_modified (s : State) (v : Bool) : (s.withPrimask v).modified = s.modified := rfl
@[simp] theorem State.withPrimask_cfg (s : State) (v : Bool) : (s.withPrimask v).cfg = s.cfg := rfl
@[simp] theorem State.withPrimask_lastFault (s : State) (v : Bool) : (s.withPrimask v).lastFault = s.lastFault := rfl
@[simp] theorem State.withPrimask_freeIdx (s : State) (v : Bool) : (s.withPrimask v).freeIdx = s.freeIdx := rfl

@[simp] theorem State.withControl_regs (s : State) (v : Control) : (s.withControl v).regs = s.regs := rfl
@[simp] theorem State.withControl_msp (s : State) (v : Control) : (s.withControl v).msp = s.msp := rfl
@[simp] theorem State.withControl_psp (s : State) (v : Control) : (s.withControl v).psp = s.psp := rfl
@[simp] theorem State.withControl_lr (s : State) (v : Control) : (s.withControl v).lr = s.lr := rfl
@[simp] theorem State.withControl_pc (s : State) (v : Control) : (s.withControl v).pc = s.pc := rfl
@[simp] theorem State.withControl_apsr (s : State) (v : Control) : (s.withControl v).apsr = s.apsr := rfl
@[simp] theorem State.withControl_t (s : State) (v : Control) : (s.withControl v).t = s.t := rfl
@[simp] theorem State.withControl_ipsr (s : State) (v : Control) : (s.withControl v).ipsr = s.ipsr := rfl
@[simp] theorem State.withControl_mode (s : State) (v : Control) : (s.withControl v).mode = s.mode := rfl
@[simp] theorem State.withControl_primask (s : State) (v : Control) : (s.withControl v).primask = s.primask := rfl
@[simp] theorem State.withControl_control (s : State) (v : Control) : (s.withControl v).control = v := rfl
@[simp] theorem State.withControl_event (s : State) (v : Control) : (s.withControl v).event = s.event := rfl
@[simp] theorem State.withControl_pending (s : State) (v : Control) : (s.withControl v).pending = s.pending := rfl
@[simp] theorem State.withControl_run (s : State) (v : Control) : (s.withControl v).run = s.run := rfl
@[simp] theorem State.withControl_mem (s : State) (v : Control) : (s.withControl v).mem = s.mem := rfl
@[simp] theorem State.withControl_modified (s : State) (v : Control) : (s.withControl v).modified = s.modified := rfl
@[simp] theorem State.withControl_cfg (s : State) (v : Control) : (s.withControl v).cfg = s.cfg := rfl
@[simp] theorem State.withControl_lastFault (s : State) (v : Control) : (s.withControl v).lastFault = s.lastFault := rfl
@[simp] theorem State.withControl_freeIdx (s : State) (v : Control) : (s.withControl v).freeIdx = s.freeIdx := rfl

@[simp] theorem State.withEvent_regs (s : State) (v : Bool) : (s.withEvent v).regs = s.regs := rfl
@[simp] theorem State.withEvent_msp (s : State) (v : Bool) : (s.withEvent v).msp = s.msp := rfl
@[simp] theorem State.withEvent_psp (s : State) (v : Bool) : (s.withEvent v).psp = s.psp := rfl
@[simp] theorem State.withEvent_lr (s : State) (v : Bool) : (s.withEvent v).lr = s.lr := rfl
@[simp] theorem State.withEvent_pc (s : State) (v : Bool) : (s.withEvent v).pc = s.pc := rfl
@[simp] theorem State.withEvent_apsr (s : State) (v : Bool) : (s.withEvent v).apsr = s.apsr := rfl
@[simp] theorem State.withEvent_t (s : State) (v : Bool) : (s.withEvent v).t = s.t := rfl
@[simp] theorem State.withEvent_ipsr (s : State) (v : Bool) : (s.withEvent v).ipsr = s.ipsr := rfl
@[simp] theorem State.withEvent_mode (s : State) (v : Bool) : (s.withEvent v).mode = s.mode := rfl
@[simp] theorem State.withEvent_primask (s : State) (v : Bool) : (s.withEvent v).primask = s.primask := rfl
@[simp] theorem State.withEvent_control (s : State) (v : Bool) : (s.withEvent v).control = s.control := rfl
@[simp] theorem State.withEvent_event (s : State) (v : Bool) : (s.withEvent v).event = v := rfl
@[simp] theorem State.withEvent_pending (s : State) (v : Bool) : (s.withEvent v).pending = s.pending := rfl
@[simp] theorem State.withEvent_run (s : State) (v : Bool) : (s.withEvent v).run = s.run := rfl
@[simp] theorem State.withEvent_mem (s : State) (v : Bool) : (s.withEvent v).mem = s.mem := rfl
@[simp] theorem State.withEvent_modified (s : State) (v : Bool) : (s.withEvent v).modified = s.modified := rfl
@[simp] theorem State.withEvent_cfg (s : State) (v : Bool) : (s.withEvent v).cfg = s.cfg := rfl
@[simp] theorem State.withEvent_lastFault (s : State) (v : Bool) : (s.withEvent v).lastFault = s.lastFault := rfl
@[simp] theorem State.withEvent_freeIdx (s : State) (v : Bool) : (s.withEvent v).freeIdx = s.freeIdx := rfl

@[simp] theorem State.withRun_regs (s : State) (v : RunState) : (s.withRun v).regs = s.regs := rfl
@[simp] theorem State.withRun_msp (s : State) (v : RunState) : (s.withRun v).msp = s.msp := rfl
@[simp] theorem State.withRun_psp (s : State) (v : RunState) : (s.withRun v).psp = s.psp := rfl
@[simp] theorem State.withRun_lr (s : State) (v : RunState) : (s.withRun v).lr = s.lr := rfl
@[simp] theorem State.withRun_pc (s : State) (v : RunState) : (s.withRun v).pc = s.pc := rfl
@[simp] theorem State.withRun_apsr (s : State) (v : RunState) : (s.withRun v).apsr = s.apsr := rfl
@[simp] theorem State.withRun_t (s : State) (v : RunState) : (s.withRun v).t = s.t := rfl
@[simp] theorem State.withRun_ipsr (s : State) (v : RunState) : (s.withRun v).ipsr = s.ipsr := rfl
@[simp] theorem State.withRun_mode (s : State) (v : RunState) : (s.withRun v).mode = s.mode := rfl
@[simp] theorem State.withRun_primask (s : State) (v : RunState) : (s.withRun v).primask = s.primask := rfl
@[simp] theorem State.withRun_control (s : State) (v : RunState) : (s.withRun v).control = s.control := rfl
@[simp] theorem State.withRun_event (s : State) (v : RunState) : (s.withRun v).event = s.event := rfl
@[simp] theorem State.withRun_pending (s : State) (v : RunState) : (s.withRun v).pending = s.pending := rfl
@[simp] theorem State.withRun_run (s : State) (v : RunState) : (s.withRun v).run = v := rfl
@[simp] theorem State.withRun_mem (s : State) (v : RunState) : (s.withRun v).mem = s.mem := rfl
@[simp] theorem State.withRun_modified (s : State) (v : RunState) : (s.withRun v).modified = s.modified := rfl
@[simp] theorem State.withRun_cfg (s : State) (v : RunState) : (s.withRun v).cfg = s.cfg := rfl
@[simp] theorem State.withRun_lastFault (s : State) (v : RunState) : (s.withRun v).lastFault = s.lastFault := rfl
@[simp] theorem State.withRun_freeIdx (s : State) (v : RunState) : (s.withRun v).freeIdx = s.freeIdx := rfl

@[simp] theorem State.withMem_regs (s : State) (v : Memory) : (s.withMem v).regs = s.regs := rfl
@[simp] theorem State.withMem_msp (s : State) (v : Memory) : (s.withMem v).msp = s.msp := rfl
@[simp] theorem State.withMem_psp (s : State) (v : Memory) : (s.withMem v).psp = s.psp := rfl
@[simp] theorem State.withMem_lr (s : State) (v : Memory) : (s.withMem v).lr = s.lr := rfl
@[simp] theorem State.withMem_pc (s : State) (v : Memory) : (s.withMem v).pc = s.pc := rfl
@[simp] theorem State.withMem_apsr (s : State) (v : Memory) : (s.withMem v).apsr = s.apsr := rfl
@[simp] theorem State.withMem_t (s : State) (v : Memory) : (s.withMem v).t = s.t := rfl
@[simp] theorem State.withMem_ipsr (s : State) (v : Memory) : (s.withMem v).ipsr = s.ipsr := rfl
@[simp] theorem State.withMem_mode (s : State) (v : Memory) : (s.withMem v).mode = s.mode := rfl
@[simp] theorem State.withMem_primask (s : State) (v : Memory) : (s.withMem v).primask = s.primask := rfl
@[simp] theorem State.withMem_control (s : State) (v : Memory) : (s.withMem v).control = s.control := rfl
@[simp] theorem State.withMem_event (s : State) (v : Memory) : (s.withMem v).event = s.event := rfl
@[simp] theorem State.withMem_pending (s : State) (v : Memory) : (s.withMem v).pending = s.pending := rfl
@[simp] theorem State.withMem_run (s : State) (v : Memory) : (s.withMem v).run = s.run := rfl
@[simp] theorem State.withMem_mem (s : State) (v : Memory) : (s.withMem v).mem = v := rfl
@[simp] theorem State.withMem_modified (s : State) (v : Memory) : (s.withMem v).modified = s.modified := rfl
@[simp] theorem State.withMem_cfg (s : State) (v : Memory) : (s.withMem v).cfg = s.cfg := rfl
@[simp] theorem State.withMem_lastFault (s : State) (v : Memory) : (s.withMem v).lastFault = s.lastFault := rfl
@[simp] theorem State.withMem_freeIdx (s : State) (v : Memory) : (s.withMem v).freeIdx = s.freeIdx := rfl

@[simp] theorem State.withModified_regs (s : State) (v : Modified) : (s.withModified v).regs = s.regs := rfl
@[simp] theorem State.withModified_msp (s : State) (v : Modified) : (s.withModified v).msp = s.msp := rfl
@[simp] theorem State.withModified_psp (s : State) (v : Modified) : (s.withModified v).psp = s.psp := rfl
@[simp] theorem State.withModified_lr (s : State) (v : Modified) : (s.withModified v).lr = s.lr := rfl
@[simp] theorem State.withModified_pc (s : State) (v : Modified) : (s.withModified v).pc = s.pc := rfl
@[simp] theorem State.withModified_apsr (s : State) (v : Modified) : (s.withModified v).apsr = s.apsr := rfl
@[simp] theorem State.withModified_t (s : State) (v : Modified) : (s.withModified v).t = s.t := rfl
@[simp] theorem State.withModified_ipsr (s : State) (v : Modified) : (s.withModified v).ipsr = s.ipsr := rfl
@[simp] theorem State.withModified_mode (s : State) (v : Modified) : (s.withModified v).mode = s.mode := rfl
@[simp] theorem State.withModified_primask (s : State) (v : Modified) : (s.withModified v).primask = s.primask := rfl
@[simp] theorem State.withModified_control (s : State) (v : Modified) : (s.withModified v).control = s.control := rfl
@[simp] theorem State.withModified_event (s : State) (v : Modified) : (s.withModified v).event = s.event := rfl
@[simp] theorem State.withModified_pending (s : State) (v : Modified) : (s.withModified v).pending = s.pending := rfl
@[simp] theorem State.withModified_run (s : State) (v : Modified) : (s.withModified v).run = s.run := rfl
@[simp] theorem State.withModified_mem (s : State) (v : Modified) : (s.withModified v).mem = s.mem := rfl
@[simp] theorem State.withModified_modified (s : State) (v : Modified) : (s.withModified v).modified = v := rfl
@[simp] theorem State.withModified_cfg (s : State) (v : Modified) : (s.withModified v).cfg = s.cfg := rfl
@[simp] theorem State.withModified_lastFault (s : State) (v : Modified) : (s.withModified v).lastFault = s.lastFault := rfl
@[simp] theorem State.withModified_freeIdx (s : State) (v : Modified) : (s.withModified v).freeIdx = s.freeIdx := rfl


@[simp] theorem State.withLastFault_regs (s : State) (v : Option HardFaultCause) : (s.withLastFault v).regs = s.regs := rfl
@[simp] theorem State.withLastFault_msp (s : State) (v : Option HardFaultCause) : (s.withLastFault v).msp = s.msp := rfl
@[simp] theorem State.withLastFault_psp (s : State) (v : Option HardFaultCause) : (s.withLastFault v).psp = s.psp := rfl
@[simp] theorem State.withLastFault_lr (s : State) (v : Option HardFaultCause) : (s.withLastFault v).lr = s.lr := rfl
@[simp] theorem State.withLastFault_pc (s : State) (v : Option HardFaultCause) : (s.withLastFault v).pc = s.pc := rfl
@[simp] theorem State.withLastFault_apsr (s : State) (v : Option HardFaultCause) : (s.withLastFault v).apsr = s.apsr := rfl
@[simp] theorem State.withLastFault_t (s : State) (v : Option HardFaultCause) : (s.withLastFault v).t = s.t := rfl
@[simp] theorem State.withLastFault_ipsr (s : State) (v : Option HardFaultCause) : (s.withLastFault v).ipsr = s.ipsr := rfl
@[simp] theorem State.withLastFault_mode (s : State) (v : Option HardFaultCause) : (s.withLastFault v).mode = s.mode := rfl
@[simp] theorem State.withLastFault_primask (s : State) (v : Option HardFaultCause) : (s.withLastFault v).primask = s.primask := rfl
@[simp] theorem State.withLastFault_control (s : State) (v : Option HardFaultCause) : (s.withLastFault v).control = s.control := rfl
@[simp] theorem State.withLastFault_event (s : State) (v : Option HardFaultCause) : (s.withLastFault v).event = s.event := rfl
@[simp] theorem State.withLastFault_pending (s : State) (v : Option HardFaultCause) : (s.withLastFault v).pending = s.pending := rfl
@[simp] theorem State.withLastFault_run (s : State) (v : Option HardFaultCause) : (s.withLastFault v).run = s.run := rfl
@[simp] theorem State.withLastFault_mem (s : State) (v : Option HardFaultCause) : (s.withLastFault v).mem = s.mem := rfl
@[simp] theorem State.withLastFault_modified (s : State) (v : Option HardFaultCause) : (s.withLastFault v).modified = s.modified := rfl
@[simp] theorem State.withLastFault_cfg (s : State) (v : Option HardFaultCause) : (s.withLastFault v).cfg = s.cfg := rfl
@[simp] theorem State.withLastFault_lastFault (s : State) (v : Option HardFaultCause) : (s.withLastFault v).lastFault = v := rfl
@[simp] theorem State.withLastFault_freeIdx (s : State) (v : Option HardFaultCause) : (s.withLastFault v).freeIdx = s.freeIdx := rfl

@[simp] theorem State.withFreeIdx_regs (s : State) (v : Nat) : (s.withFreeIdx v).regs = s.regs := rfl
@[simp] theorem State.withFreeIdx_msp (s : State) (v : Nat) : (s.withFreeIdx v).msp = s.msp := rfl
@[simp] theorem State.withFreeIdx_psp (s : State) (v : Nat) : (s.withFreeIdx v).psp = s.psp := rfl
@[simp] theorem State.withFreeIdx_lr (s : State) (v : Nat) : (s.withFreeIdx v).lr = s.lr := rfl
@[simp] theorem State.withFreeIdx_pc (s : State) (v : Nat) : (s.withFreeIdx v).pc = s.pc := rfl
@[simp] theorem State.withFreeIdx_apsr (s : State) (v : Nat) : (s.withFreeIdx v).apsr = s.apsr := rfl
@[simp] theorem State.withFreeIdx_t (s : State) (v : Nat) : (s.withFreeIdx v).t = s.t := rfl
@[simp] theorem State.withFreeIdx_ipsr (s : State) (v : Nat) : (s.withFreeIdx v).ipsr = s.ipsr := rfl
@[simp] theorem State.withFreeIdx_mode (s : State) (v : Nat) : (s.withFreeIdx v).mode = s.mode := rfl
@[simp] theorem State.withFreeIdx_primask (s : State) (v : Nat) : (s.withFreeIdx v).primask = s.primask := rfl
@[simp] theorem State.withFreeIdx_control (s : State) (v : Nat) : (s.withFreeIdx v).control = s.control := rfl
@[simp] theorem State.withFreeIdx_event (s : State) (v : Nat) : (s.withFreeIdx v).event = s.event := rfl
@[simp] theorem State.withFreeIdx_pending (s : State) (v : Nat) : (s.withFreeIdx v).pending = s.pending := rfl
@[simp] theorem State.withFreeIdx_run (s : State) (v : Nat) : (s.withFreeIdx v).run = s.run := rfl
@[simp] theorem State.withFreeIdx_mem (s : State) (v : Nat) : (s.withFreeIdx v).mem = s.mem := rfl
@[simp] theorem State.withFreeIdx_modified (s : State) (v : Nat) : (s.withFreeIdx v).modified = s.modified := rfl
@[simp] theorem State.withFreeIdx_cfg (s : State) (v : Nat) : (s.withFreeIdx v).cfg = s.cfg := rfl
@[simp] theorem State.withFreeIdx_lastFault (s : State) (v : Nat) : (s.withFreeIdx v).lastFault = s.lastFault := rfl
@[simp] theorem State.withFreeIdx_freeIdx (s : State) (v : Nat) : (s.withFreeIdx v).freeIdx = v := rfl

end Sys2Proof.Machine
end

