-- ==== Sys2Proof/Laws/Registers.lean ====
section
/-! SUPPORT. What the register operations do: each field after a write, and what a read gives after it. -/

namespace Sys2Proof.Machine

/-! ## Fields a register write leaves alone -/

@[simp] theorem State.setSp_regs (s : State) (v : Word) : (s.setSp v).regs = s.regs := by unfold State.setSp; split <;> rfl
@[simp] theorem State.setSp_lr (s : State) (v : Word) : (s.setSp v).lr = s.lr := by unfold State.setSp; split <;> rfl
@[simp] theorem State.setSp_pc (s : State) (v : Word) : (s.setSp v).pc = s.pc := by unfold State.setSp; split <;> rfl
@[simp] theorem State.setSp_apsr (s : State) (v : Word) : (s.setSp v).apsr = s.apsr := by unfold State.setSp; split <;> rfl
@[simp] theorem State.setSp_t (s : State) (v : Word) : (s.setSp v).t = s.t := by unfold State.setSp; split <;> rfl
@[simp] theorem State.setSp_ipsr (s : State) (v : Word) : (s.setSp v).ipsr = s.ipsr := by unfold State.setSp; split <;> rfl
@[simp] theorem State.setSp_mode (s : State) (v : Word) : (s.setSp v).mode = s.mode := by unfold State.setSp; split <;> rfl
@[simp] theorem State.setSp_primask (s : State) (v : Word) : (s.setSp v).primask = s.primask := by unfold State.setSp; split <;> rfl
@[simp] theorem State.setSp_control (s : State) (v : Word) : (s.setSp v).control = s.control := by unfold State.setSp; split <;> rfl
@[simp] theorem State.setSp_event (s : State) (v : Word) : (s.setSp v).event = s.event := by unfold State.setSp; split <;> rfl
@[simp] theorem State.setSp_pending (s : State) (v : Word) : (s.setSp v).pending = s.pending := by unfold State.setSp; split <;> rfl
@[simp] theorem State.setSp_run (s : State) (v : Word) : (s.setSp v).run = s.run := by unfold State.setSp; split <;> rfl
@[simp] theorem State.setSp_mem (s : State) (v : Word) : (s.setSp v).mem = s.mem := by unfold State.setSp; split <;> rfl
@[simp] theorem State.setSp_modified (s : State) (v : Word) : (s.setSp v).modified = s.modified := by unfold State.setSp; split <;> rfl
@[simp] theorem State.setSp_cfg (s : State) (v : Word) : (s.setSp v).cfg = s.cfg := by unfold State.setSp; split <;> rfl
@[simp] theorem State.setSp_lastFault (s : State) (v : Word) : (s.setSp v).lastFault = s.lastFault := by unfold State.setSp; split <;> rfl
@[simp] theorem State.setSp_freeIdx (s : State) (v : Word) : (s.setSp v).freeIdx = s.freeIdx := by unfold State.setSp; split <;> rfl

@[simp] theorem State.setX_pc (s : State) (i : RegNum) (v : Word) : (s.setX i v).pc = s.pc := by
  unfold State.setX; split_ifs <;> simp
@[simp] theorem State.setX_apsr (s : State) (i : RegNum) (v : Word) : (s.setX i v).apsr = s.apsr := by
  unfold State.setX; split_ifs <;> simp
@[simp] theorem State.setX_t (s : State) (i : RegNum) (v : Word) : (s.setX i v).t = s.t := by
  unfold State.setX; split_ifs <;> simp
@[simp] theorem State.setX_ipsr (s : State) (i : RegNum) (v : Word) : (s.setX i v).ipsr = s.ipsr := by
  unfold State.setX; split_ifs <;> simp
@[simp] theorem State.setX_mode (s : State) (i : RegNum) (v : Word) : (s.setX i v).mode = s.mode := by
  unfold State.setX; split_ifs <;> simp
@[simp] theorem State.setX_primask (s : State) (i : RegNum) (v : Word) : (s.setX i v).primask = s.primask := by
  unfold State.setX; split_ifs <;> simp
@[simp] theorem State.setX_control (s : State) (i : RegNum) (v : Word) : (s.setX i v).control = s.control := by
  unfold State.setX; split_ifs <;> simp
@[simp] theorem State.setX_event (s : State) (i : RegNum) (v : Word) : (s.setX i v).event = s.event := by
  unfold State.setX; split_ifs <;> simp
@[simp] theorem State.setX_pending (s : State) (i : RegNum) (v : Word) : (s.setX i v).pending = s.pending := by
  unfold State.setX; split_ifs <;> simp
@[simp] theorem State.setX_run (s : State) (i : RegNum) (v : Word) : (s.setX i v).run = s.run := by
  unfold State.setX; split_ifs <;> simp
@[simp] theorem State.setX_mem (s : State) (i : RegNum) (v : Word) : (s.setX i v).mem = s.mem := by
  unfold State.setX; split_ifs <;> simp
@[simp] theorem State.setX_modified (s : State) (i : RegNum) (v : Word) : (s.setX i v).modified = s.modified := by
  unfold State.setX; split_ifs <;> simp
@[simp] theorem State.setX_cfg (s : State) (i : RegNum) (v : Word) : (s.setX i v).cfg = s.cfg := by
  unfold State.setX; split_ifs <;> simp
@[simp] theorem State.setX_lastFault (s : State) (i : RegNum) (v : Word) : (s.setX i v).lastFault = s.lastFault := by
  unfold State.setX; split_ifs <;> simp
@[simp] theorem State.setX_freeIdx (s : State) (i : RegNum) (v : Word) : (s.setX i v).freeIdx = s.freeIdx := by
  unfold State.setX; split_ifs <;> simp

@[simp] theorem State.advance_regs (s : State) (n : Word) : (s.advance n).regs = s.regs := rfl
@[simp] theorem State.advance_msp (s : State) (n : Word) : (s.advance n).msp = s.msp := rfl
@[simp] theorem State.advance_psp (s : State) (n : Word) : (s.advance n).psp = s.psp := rfl
@[simp] theorem State.advance_lr (s : State) (n : Word) : (s.advance n).lr = s.lr := rfl
@[simp] theorem State.advance_pc (s : State) (n : Word) : (s.advance n).pc = s.pc + n := rfl
@[simp] theorem State.advance_apsr (s : State) (n : Word) : (s.advance n).apsr = s.apsr := rfl
@[simp] theorem State.advance_t (s : State) (n : Word) : (s.advance n).t = s.t := rfl
@[simp] theorem State.advance_ipsr (s : State) (n : Word) : (s.advance n).ipsr = s.ipsr := rfl
@[simp] theorem State.advance_mode (s : State) (n : Word) : (s.advance n).mode = s.mode := rfl
@[simp] theorem State.advance_primask (s : State) (n : Word) : (s.advance n).primask = s.primask := rfl
@[simp] theorem State.advance_control (s : State) (n : Word) : (s.advance n).control = s.control := rfl
@[simp] theorem State.advance_event (s : State) (n : Word) : (s.advance n).event = s.event := rfl
@[simp] theorem State.advance_pending (s : State) (n : Word) : (s.advance n).pending = s.pending := rfl
@[simp] theorem State.advance_run (s : State) (n : Word) : (s.advance n).run = s.run := rfl
@[simp] theorem State.advance_mem (s : State) (n : Word) : (s.advance n).mem = s.mem := rfl
@[simp] theorem State.advance_modified (s : State) (n : Word) : (s.advance n).modified = s.modified := rfl
@[simp] theorem State.advance_cfg (s : State) (n : Word) : (s.advance n).cfg = s.cfg := rfl
@[simp] theorem State.advance_lastFault (s : State) (n : Word) : (s.advance n).lastFault = s.lastFault := rfl
@[simp] theorem State.advance_freeIdx (s : State) (n : Word) : (s.advance n).freeIdx = s.freeIdx := rfl

@[simp] theorem State.branchTo_regs (s : State) (a : Word) : (s.branchTo a).regs = s.regs := rfl
@[simp] theorem State.branchTo_msp (s : State) (a : Word) : (s.branchTo a).msp = s.msp := rfl
@[simp] theorem State.branchTo_psp (s : State) (a : Word) : (s.branchTo a).psp = s.psp := rfl
@[simp] theorem State.branchTo_lr (s : State) (a : Word) : (s.branchTo a).lr = s.lr := rfl
@[simp] theorem State.branchTo_pc (s : State) (a : Word) : (s.branchTo a).pc = align2 a := rfl
@[simp] theorem State.branchTo_apsr (s : State) (a : Word) : (s.branchTo a).apsr = s.apsr := rfl
@[simp] theorem State.branchTo_t (s : State) (a : Word) : (s.branchTo a).t = s.t := rfl
@[simp] theorem State.branchTo_ipsr (s : State) (a : Word) : (s.branchTo a).ipsr = s.ipsr := rfl
@[simp] theorem State.branchTo_mode (s : State) (a : Word) : (s.branchTo a).mode = s.mode := rfl
@[simp] theorem State.branchTo_primask (s : State) (a : Word) : (s.branchTo a).primask = s.primask := rfl
@[simp] theorem State.branchTo_control (s : State) (a : Word) : (s.branchTo a).control = s.control := rfl
@[simp] theorem State.branchTo_event (s : State) (a : Word) : (s.branchTo a).event = s.event := rfl
@[simp] theorem State.branchTo_pending (s : State) (a : Word) : (s.branchTo a).pending = s.pending := rfl
@[simp] theorem State.branchTo_run (s : State) (a : Word) : (s.branchTo a).run = s.run := rfl
@[simp] theorem State.branchTo_mem (s : State) (a : Word) : (s.branchTo a).mem = s.mem := rfl
@[simp] theorem State.branchTo_modified (s : State) (a : Word) : (s.branchTo a).modified = s.modified := rfl
@[simp] theorem State.branchTo_cfg (s : State) (a : Word) : (s.branchTo a).cfg = s.cfg := rfl
@[simp] theorem State.branchTo_lastFault (s : State) (a : Word) : (s.branchTo a).lastFault = s.lastFault := rfl
@[simp] theorem State.branchTo_freeIdx (s : State) (a : Word) : (s.branchTo a).freeIdx = s.freeIdx := rfl

@[simp] theorem State.interworkTo_regs (s : State) (a : Word) : (s.interworkTo a).regs = s.regs := rfl
@[simp] theorem State.interworkTo_msp (s : State) (a : Word) : (s.interworkTo a).msp = s.msp := rfl
@[simp] theorem State.interworkTo_psp (s : State) (a : Word) : (s.interworkTo a).psp = s.psp := rfl
@[simp] theorem State.interworkTo_lr (s : State) (a : Word) : (s.interworkTo a).lr = s.lr := rfl
@[simp] theorem State.interworkTo_pc (s : State) (a : Word) : (s.interworkTo a).pc = align2 a := rfl
@[simp] theorem State.interworkTo_apsr (s : State) (a : Word) : (s.interworkTo a).apsr = s.apsr := rfl
@[simp] theorem State.interworkTo_t (s : State) (a : Word) : (s.interworkTo a).t = a.getLsbD 0 := rfl
@[simp] theorem State.interworkTo_ipsr (s : State) (a : Word) : (s.interworkTo a).ipsr = s.ipsr := rfl
@[simp] theorem State.interworkTo_mode (s : State) (a : Word) : (s.interworkTo a).mode = s.mode := rfl
@[simp] theorem State.interworkTo_primask (s : State) (a : Word) : (s.interworkTo a).primask = s.primask := rfl
@[simp] theorem State.interworkTo_control (s : State) (a : Word) : (s.interworkTo a).control = s.control := rfl
@[simp] theorem State.interworkTo_event (s : State) (a : Word) : (s.interworkTo a).event = s.event := rfl
@[simp] theorem State.interworkTo_pending (s : State) (a : Word) : (s.interworkTo a).pending = s.pending := rfl
@[simp] theorem State.interworkTo_run (s : State) (a : Word) : (s.interworkTo a).run = s.run := rfl
@[simp] theorem State.interworkTo_mem (s : State) (a : Word) : (s.interworkTo a).mem = s.mem := rfl
@[simp] theorem State.interworkTo_modified (s : State) (a : Word) : (s.interworkTo a).modified = s.modified := rfl
@[simp] theorem State.interworkTo_cfg (s : State) (a : Word) : (s.interworkTo a).cfg = s.cfg := rfl
@[simp] theorem State.interworkTo_lastFault (s : State) (a : Word) : (s.interworkTo a).lastFault = s.lastFault := rfl
@[simp] theorem State.interworkTo_freeIdx (s : State) (a : Word) : (s.interworkTo a).freeIdx = s.freeIdx := rfl

@[simp] theorem State.drewFree_regs (s : State) : s.drewFree.regs = s.regs := rfl
@[simp] theorem State.drewFree_msp (s : State) : s.drewFree.msp = s.msp := rfl
@[simp] theorem State.drewFree_psp (s : State) : s.drewFree.psp = s.psp := rfl
@[simp] theorem State.drewFree_lr (s : State) : s.drewFree.lr = s.lr := rfl
@[simp] theorem State.drewFree_pc (s : State) : s.drewFree.pc = s.pc := rfl
@[simp] theorem State.drewFree_apsr (s : State) : s.drewFree.apsr = s.apsr := rfl
@[simp] theorem State.drewFree_t (s : State) : s.drewFree.t = s.t := rfl
@[simp] theorem State.drewFree_ipsr (s : State) : s.drewFree.ipsr = s.ipsr := rfl
@[simp] theorem State.drewFree_mode (s : State) : s.drewFree.mode = s.mode := rfl
@[simp] theorem State.drewFree_primask (s : State) : s.drewFree.primask = s.primask := rfl
@[simp] theorem State.drewFree_control (s : State) : s.drewFree.control = s.control := rfl
@[simp] theorem State.drewFree_event (s : State) : s.drewFree.event = s.event := rfl
@[simp] theorem State.drewFree_pending (s : State) : s.drewFree.pending = s.pending := rfl
@[simp] theorem State.drewFree_run (s : State) : s.drewFree.run = s.run := rfl
@[simp] theorem State.drewFree_mem (s : State) : s.drewFree.mem = s.mem := rfl
@[simp] theorem State.drewFree_modified (s : State) : s.drewFree.modified = s.modified := rfl
@[simp] theorem State.drewFree_cfg (s : State) : s.drewFree.cfg = s.cfg := rfl
@[simp] theorem State.drewFree_lastFault (s : State) : s.drewFree.lastFault = s.lastFault := rfl
@[simp] theorem State.drewFree_freeIdx (s : State) : s.drewFree.freeIdx = s.freeIdx + 1 := rfl

/-! ## Privilege and the stack pointer in use depend on mode and CONTROL alone -/

theorem State.usesPsp_congr {s t : State} (hm : t.mode = s.mode) (hc : t.control = s.control) :
    t.usesPsp = s.usesPsp := by simp [State.usesPsp, hm, hc]

theorem State.privileged_congr {s t : State} (hm : t.mode = s.mode) (hc : t.control = s.control) :
    t.privileged = s.privileged := by simp [State.privileged, hm, hc]

theorem State.admits_congr {s t : State} (hm : t.mode = s.mode) (hc : t.control = s.control) (hcfg : t.cfg = s.cfg)
    (a : Word) (n : Nat) (k : AccessKind) : t.admits a n k = s.admits a n k := by
  simp [State.admits, State.privileged_congr hm hc, hcfg]

theorem State.overlapsText_congr {s t : State} (hcfg : t.cfg = s.cfg) (a : Word) (n : Nat) :
    t.overlapsText a n = s.overlapsText a n := by simp [State.overlapsText, hcfg]

theorem State.execPriority_congr {s t : State} (hm : t.mode = s.mode) (hi : t.ipsr = s.ipsr) (hp : t.primask = s.primask)
    (hcfg : t.cfg = s.cfg) : t.execPriority = s.execPriority := by
  simp [State.execPriority, State.basePriority, State.priority, hm, hi, hp, hcfg]

@[simp] theorem State.setSp_usesPsp (s : State) (v : Word) : (s.setSp v).usesPsp = s.usesPsp :=
  State.usesPsp_congr (by simp) (by simp)

@[simp] theorem State.setX_usesPsp (s : State) (i : RegNum) (v : Word) : (s.setX i v).usesPsp = s.usesPsp :=
  State.usesPsp_congr (by simp) (by simp)

/-- A write of SP changes the stack pointer in use and clears its bits 1 and 0 (R53). -/
@[simp] theorem State.setSp_sp (s : State) (v : Word) : (s.setSp v).sp = align4 v := by
  unfold State.sp
  rw [State.setSp_usesPsp]
  unfold State.setSp
  split <;> rfl

theorem State.setSp_msp (s : State) (v : Word) : (s.setSp v).msp = if s.usesPsp then s.msp else align4 v := by
  unfold State.setSp; split <;> rfl

theorem State.setSp_psp (s : State) (v : Word) : (s.setSp v).psp = if s.usesPsp then align4 v else s.psp := by
  unfold State.setSp; split <;> rfl

/-! ## The four kinds of register -/

theorem State.x_general (s : State) {i : RegNum} (h : i.toNat < 13) : s.x i = s.regs[i.toNat] := by
  simp [State.x, h]

@[simp] theorem State.x_at_sp (s : State) : s.x 13#4 = s.sp := rfl

@[simp] theorem State.x_at_lr (s : State) : s.x 14#4 = s.lr := rfl

@[simp] theorem State.x_at_pc (s : State) : s.x 15#4 = s.pcVal := rfl

theorem State.setX_general (s : State) {i : RegNum} (h : i.toNat < 13) (v : Word) :
    s.setX i v = s.withRegs (s.regs.set i.toNat v) := by simp [State.setX, h]

@[simp] theorem State.setX_at_sp (s : State) (v : Word) : s.setX 13#4 v = s.setSp v := rfl

@[simp] theorem State.setX_at_lr (s : State) (v : Word) : s.setX 14#4 v = s.withLr v := rfl

@[simp] theorem State.setX_at_pc (s : State) (v : Word) : s.setX 15#4 v = s := rfl

/-- The sixteen register numbers by kind. -/
theorem regNum_cases (i : RegNum) : i.toNat < 13 ∨ i = 13#4 ∨ i = 14#4 ∨ i = 15#4 := by
  revert i; decide

theorem lowReg_toNat (r : LowReg) : (lowReg r).toNat = r.toNat := by revert r; decide

theorem lowReg_lt (r : LowReg) : (lowReg r).toNat < 8 := by revert r; decide

@[simp] theorem lowReg_ne_sp (r : LowReg) : lowReg r ≠ 13#4 := by revert r; decide

@[simp] theorem lowReg_ne_lr (r : LowReg) : lowReg r ≠ 14#4 := by revert r; decide

@[simp] theorem lowReg_ne_pc (r : LowReg) : lowReg r ≠ 15#4 := by revert r; decide

/-- Reading depends on the register fields, the pc, the mode and CONTROL alone. -/
theorem State.x_congr {s t : State} (hr : t.regs = s.regs) (hl : t.lr = s.lr) (hsp : t.sp = s.sp) (hpc : t.pc = s.pc)
    (i : RegNum) : t.x i = s.x i := by
  simp [State.x, State.pcVal, hr, hl, hsp, hpc]

/-- Reading any register but the PC does not depend on the pc. -/
theorem State.x_congr_ne {s t : State} (hr : t.regs = s.regs) (hl : t.lr = s.lr) (hsp : t.sp = s.sp)
    {i : RegNum} (hi : i ≠ 15#4) : t.x i = s.x i := by
  rcases regNum_cases i with h | rfl | rfl | rfl
  · simp [State.x_general _ h, hr]
  · exact hsp
  · exact hl
  · exact absurd rfl hi

/-- The stack pointer clears bits 1 and 0 of what is written; every other register holds it (R52, R53). -/
theorem State.x_setX_self (s : State) {i : RegNum} (hi : i ≠ 15#4) (v : Word) :
    (s.setX i v).x i = if i = 13#4 then align4 v else v := by
  rcases regNum_cases i with h | rfl | rfl | rfl
  · have h13 : i ≠ 13#4 := by rintro rfl; exact absurd h (by decide)
    rw [State.setX_general _ h, State.x_general _ h]
    simp [h13]
  · simp
  · simp
  · exact absurd rfl hi

/-- A write of one register leaves every other register. -/
theorem State.x_setX_other (s : State) {i j : RegNum} (hij : j ≠ i) (v : Word) : (s.setX i v).x j = s.x j := by
  rcases regNum_cases i with h | rfl | rfl | rfl
  · rw [State.setX_general _ h]
    rcases regNum_cases j with hj | rfl | rfl | rfl
    · have : i.toNat ≠ j.toNat := fun e => hij (BitVec.eq_of_toNat_eq e.symm)
      rw [State.x_general _ hj, State.x_general _ hj]
      simp [Vector.getElem_set_ne _ _ this]
    · rfl
    · rfl
    · rfl
  · rcases regNum_cases j with hj | rfl | rfl | rfl
    · simp [State.x_general _ hj]
    · exact absurd rfl hij
    · simp
    · simp [State.pcVal]
  · rcases regNum_cases j with hj | rfl | rfl | rfl
    · simp [State.x_general _ hj]
    · rfl
    · exact absurd rfl hij
    · rfl
  · rfl

/-- A low register holds what is written to it. -/
@[simp] theorem State.x_setX_low (s : State) (r : LowReg) (v : Word) : (s.setX (lowReg r) v).x (lowReg r) = v := by
  rw [State.x_setX_self _ (lowReg_ne_pc r), if_neg (lowReg_ne_sp r)]

/-- Only a write of SP changes a stack pointer. -/
theorem State.setX_msp (s : State) {i : RegNum} (hi : i ≠ 13#4) (v : Word) : (s.setX i v).msp = s.msp := by
  rcases regNum_cases i with h | rfl | rfl | rfl
  · rw [State.setX_general _ h]; rfl
  · exact absurd rfl hi
  · rfl
  · rfl

/-- Only a write of SP changes a stack pointer. -/
theorem State.setX_psp (s : State) {i : RegNum} (hi : i ≠ 13#4) (v : Word) : (s.setX i v).psp = s.psp := by
  rcases regNum_cases i with h | rfl | rfl | rfl
  · rw [State.setX_general _ h]; rfl
  · exact absurd rfl hi
  · rfl
  · rfl

/-- A change of the pc alone leaves every register but the PC. -/
@[simp] theorem State.x_advance (s : State) (n : Word) {i : RegNum} (hi : i ≠ 15#4) : (s.advance n).x i = s.x i :=
  State.x_congr_ne (s := s) (t := s.advance n) rfl rfl rfl hi

/-- Flags are no part of what a register reads as. -/
@[simp] theorem State.x_withApsr (s : State) (f : Apsr) (i : RegNum) : (s.withApsr f).x i = s.x i := rfl

/-- Memory is no part of what a register reads as. -/
@[simp] theorem State.x_withMem (s : State) (m : Memory) (i : RegNum) : (s.withMem m).x i = s.x i := rfl

end Sys2Proof.Machine
end

