-- ==== Sys2Proof/Laws/Memory.lean ====
section
/-! SUPPORT. Memory: reads after writes, the canonical form, byte order, and what the memory primitives can answer. -/

namespace Sys2Proof.Machine

/-! ## One byte -/

@[simp] theorem Memory.read_nil (a : Nat) : Memory.read [] a = unlistedByte := rfl

theorem Memory.read_cons (c : Host.Cell) (m : Memory) (a : Nat) :
    Memory.read (c :: m) a = if c.1 = a then c.2 else Memory.read m a := rfl

theorem Memory.read_filter_same (m : Memory) (a : Nat) : Memory.read (m.filter fun c => c.1 != a) a = unlistedByte := by
  induction m with
  | nil => rfl
  | cons c m ih =>
    by_cases h : c.1 = a
    · simp [h, ih]
    · rw [List.filter_cons_of_pos (by simpa using h)]
      simp [Memory.read_cons, h, ih]

theorem Memory.read_filter_other (m : Memory) {a b : Nat} (h : b ≠ a) :
    Memory.read (m.filter fun c => c.1 != a) b = m.read b := by
  induction m with
  | nil => rfl
  | cons c m ih =>
    by_cases hc : c.1 = a
    · have : c.1 ≠ b := fun e => h (e.symm.trans hc)
      simp only [hc, Memory.read_cons, if_neg h.symm, bne_self_eq_false, Bool.false_eq_true, not_false_eq_true, List.filter_cons_of_neg, ih]
    · rw [List.filter_cons_of_pos (by simpa using hc)]
      simp [Memory.read_cons, ih]

theorem Memory.read_place_same (m : Memory) (a : Nat) (v : Byte) (h : ∀ c ∈ m, c.1 ≠ a) : (m.place a v).read a = v := by
  induction m with
  | nil => simp [Memory.place, Memory.read_cons]
  | cons c m ih =>
    have hc : c.1 ≠ a := h c (by simp)
    have ht := ih fun d hd => h d (by simp [hd])
    unfold Memory.place
    split_ifs <;> simp [Memory.read_cons, hc, ht]

theorem Memory.read_place_other (m : Memory) {a b : Nat} (v : Byte) (h : b ≠ a) : (m.place a v).read b = m.read b := by
  induction m with
  | nil => simp [Memory.place, Memory.read_cons, h.symm]
  | cons c m ih =>
    unfold Memory.place
    split_ifs <;> simp [Memory.read_cons, h.symm, ih]

/-- A read of the byte just written gives what was written. -/
@[simp] theorem Memory.read_write_same (m : Memory) (a : Nat) (v : Byte) : (m.write a v).read a = v := by
  unfold Memory.write
  simp only
  split_ifs with h
  · rw [Memory.read_filter_same, h]
  · exact Memory.read_place_same _ _ _ (by simp)

/-- A write leaves every other byte. -/
theorem Memory.read_write_other (m : Memory) {a b : Nat} (v : Byte) (h : b ≠ a) : (m.write a v).read b = m.read b := by
  unfold Memory.write
  simp only
  split_ifs
  · exact Memory.read_filter_other m h
  · rw [Memory.read_place_other _ _ h, Memory.read_filter_other m h]

/-! ## The canonical form -/

theorem Memory.mem_place {m : Memory} {a : Nat} {v : Byte} {c : Host.Cell} (h : c ∈ m.place a v) :
    c = (a, v) ∨ c ∈ m := by
  induction m with
  | nil => simpa [Memory.place] using h
  | cons d m ih =>
    unfold Memory.place at h
    split_ifs at h
    · simpa using h
    · rcases List.mem_cons.mp h with rfl | h
      · simp
      · rcases ih h with rfl | h
        · simp
        · simp [h]

theorem Memory.place_pairwise {m : Memory} {a : Nat} {v : Byte} (hm : m.Pairwise fun c d => c.1 < d.1)
    (h : ∀ c ∈ m, c.1 ≠ a) : (m.place a v).Pairwise fun c d => c.1 < d.1 := by
  induction m with
  | nil => simp [Memory.place]
  | cons d m ih =>
    obtain ⟨hd, hm'⟩ := List.pairwise_cons.mp hm
    unfold Memory.place
    split_ifs with hlt
    · refine List.pairwise_cons.mpr ⟨fun c hc => ?_, hm⟩
      rcases List.mem_cons.mp hc with rfl | hc
      · exact hlt
      · exact hlt.trans (hd c hc)
    · refine List.pairwise_cons.mpr ⟨fun c hc => ?_, ih hm' fun c hc => h c (by simp [hc])⟩
      rcases Memory.mem_place hc with rfl | hc
      · have := h d (by simp)
        simp only at hlt ⊢
        omega
      · exact hd c hc

/-- A write keeps the canonical form. -/
theorem Memory.wf_write {m : Memory} (hm : m.wf) {a : Nat} (ha : a < 2 ^ 32) (v : Byte) : (m.write a v).wf := by
  obtain ⟨hp, hv⟩ := hm
  have hp' : (m.filter fun c => c.1 != a).Pairwise fun c d => c.1 < d.1 := hp.filter _
  have hv' : ∀ c ∈ m.filter fun c => c.1 != a, c.2 ≠ unlistedByte ∧ c.1 < 2 ^ 32 :=
    fun c hc => hv c (List.mem_filter.mp hc).1
  unfold Memory.write
  simp only
  split_ifs with h
  · exact ⟨hp', hv'⟩
  · refine ⟨Memory.place_pairwise hp' (by simp), fun c hc => ?_⟩
    rcases Memory.mem_place hc with rfl | hc
    · exact ⟨h, ha⟩
    · exact hv' c hc

/-- A store of bytes inside the 32-bit space keeps the canonical form. -/
theorem Memory.wf_writeBytes {m : Memory} (hm : m.wf) {a : Nat} {bs : List Byte} (h : a + bs.length ≤ 2 ^ 32) :
    (m.writeBytes a bs).wf := by
  induction bs generalizing m a with
  | nil => exact hm
  | cons b bs ih =>
    have h' : a + (bs.length + 1) ≤ 2 ^ 32 := by simpa using h
    exact ih (Memory.wf_write hm (by omega) b) (by omega)

/-- Placing bytes keeps the canonical form. -/
theorem wf_placeBytes {m : Memory} (hm : m.wf) (a : Nat) (bs : List Byte) : (placeBytes m a bs).wf := by
  induction bs generalizing m a with
  | nil => exact hm
  | cons b bs ih => exact ih (Memory.wf_write hm (Nat.mod_lt _ (by decide)) b) (a + 1)

theorem reset_mem_wf : State.reset.mem.wf := by decide

/-! ## Several bytes -/

theorem Memory.read_writeBytes_outside (m : Memory) {a b : Nat} (bs : List Byte) (h : b < a ∨ a + bs.length ≤ b) :
    (m.writeBytes a bs).read b = m.read b := by
  induction bs generalizing m a with
  | nil => rfl
  | cons v bs ih =>
    have h' : b < a ∨ a + (bs.length + 1) ≤ b := by simpa using h
    show ((m.write a v).writeBytes (a + 1) bs).read b = m.read b
    rw [ih (m.write a v) (by omega), Memory.read_write_other _ _ (by omega)]

theorem Memory.read_writeBytes_inside (m : Memory) (a : Nat) (bs : List Byte) {k : Nat} (hk : k < bs.length) :
    (m.writeBytes a bs).read (a + k) = bs[k] := by
  induction bs generalizing m a k with
  | nil => simp at hk
  | cons v bs ih =>
    show ((m.write a v).writeBytes (a + 1) bs).read (a + k) = (v :: bs)[k]
    cases k with
    | zero => rw [Memory.read_writeBytes_outside _ _ (by omega)]; simp
    | succ k =>
      have := ih (m.write a v) (a + 1) (k := k) (by simpa using hk)
      simpa [Nat.add_assoc, Nat.add_comm 1 k] using this

@[simp] theorem Memory.readBytes_length (m : Memory) (a n : Nat) : (m.readBytes a n).length = n := by
  induction n generalizing a with
  | zero => rfl
  | succ n ih => simp [Memory.readBytes, ih]

theorem Memory.readBytes_getElem (m : Memory) (a n : Nat) {k : Nat} (hk : k < (m.readBytes a n).length) :
    (m.readBytes a n)[k] = m.read (a + k) := by
  induction n generalizing a k with
  | zero => simp at hk
  | succ n ih =>
    cases k with
    | zero => rfl
    | succ k =>
      have := ih (a + 1) (k := k) (by simpa [Memory.readBytes] using hk)
      simpa [Memory.readBytes, Nat.add_assoc, Nat.add_comm 1 k] using this

@[simp] theorem bytesOfValue_length (v : Word) (n : Nat) : (bytesOfValue v n).length = n := by
  induction n generalizing v with
  | zero => rfl
  | succ n ih => simp [bytesOfValue, ih]

theorem bytesOfValue_getElem (v : Word) (n : Nat) {k : Nat} (hk : k < (bytesOfValue v n).length) :
    (bytesOfValue v n)[k] = v.extractLsb' (8 * k) 8 := by
  induction n generalizing v k with
  | zero => simp at hk
  | succ n ih =>
    cases k with
    | zero => simp [bytesOfValue, BitVec.setWidth_eq_extractLsb' (show 8 ≤ 32 by decide)]
    | succ k =>
      have := ih (v >>> 8) (k := k) (by simpa [bytesOfValue] using hk)
      simp only [bytesOfValue, List.getElem_cons_succ, this]
      ext i hi
      simp only [BitVec.getElem_extractLsb', BitVec.getLsbD_ushiftRight]
      congr 1
      omega

/-- Byte `k` of a value made of up to four bytes is the `k`-th byte. -/
theorem valueOfBytes_extract (bs : List Byte) (hl : bs.length ≤ 4) {k : Nat} (hk : k < bs.length) :
    (valueOfBytes bs).extractLsb' (8 * k) 8 = bs[k] := by
  induction bs generalizing k with
  | nil => simp at hk
  | cons b bs ih =>
    have hl' : bs.length ≤ 3 := Nat.le_of_succ_le_succ (by simpa using hl)
    cases k with
    | zero =>
      ext i hi
      simp only [valueOfBytes, BitVec.getElem_extractLsb', BitVec.getLsbD_or, BitVec.getLsbD_shiftLeft,
        BitVec.getLsbD_setWidth, List.getElem_cons_zero]
      have h32 : i < 32 := by omega
      simp [hi, h32]
    | succ k =>
      have hk' : k < bs.length := by simpa using hk
      have hrec := ih (by omega) hk'
      ext i hi
      have hbit : (valueOfBytes bs).getLsbD (8 * k + i) = bs[k][i] := by
        have := congrArg (fun v : Byte => v.getLsbD i) hrec
        simpa [BitVec.getLsbD_extractLsb', hi, BitVec.getLsbD_eq_getElem hi] using this
      have h32 : 8 * (k + 1) + i < 32 := by omega
      have hge : ¬ 8 * (k + 1) + i < 8 := by omega
      have hsub : 8 * (k + 1) + i - 8 = 8 * k + i := by omega
      have hb : b.getLsbD (8 * (k + 1) + i) = false := BitVec.getLsbD_of_ge _ _ (by omega)
      simp only [valueOfBytes, BitVec.getElem_extractLsb', BitVec.getLsbD_or, BitVec.getLsbD_shiftLeft,
        BitVec.getLsbD_setWidth, List.getElem_cons_succ]
      simp [h32, hge, hsub, hb, hbit]

/-- A value made of bytes has no bit above them. -/
theorem valueOfBytes_high (bs : List Byte) {i : Nat} (hi : 8 * bs.length ≤ i) : (valueOfBytes bs).getLsbD i = false := by
  induction bs generalizing i with
  | nil => simp [valueOfBytes]
  | cons b bs ih =>
    have h' : 8 * (bs.length + 1) ≤ i := by simpa using hi
    have hb : b.getLsbD i = false := BitVec.getLsbD_of_ge _ _ (by omega)
    simp [valueOfBytes, hb, ih (i := i - 8) (by omega)]

@[simp] theorem dataOrder_length (e : Bool) (bs : List Byte) : (dataOrder e bs).length = bs.length := by
  unfold dataOrder; split <;> simp

theorem dataOrder_getElem (e : Bool) (bs : List Byte) {k : Nat} (hk : k < (dataOrder e bs).length) :
    (dataOrder e bs)[k] = bs[if e then bs.length - 1 - k else k]'(by
      have : k < bs.length := by simpa using hk
      split <;> omega) := by
  cases e
  · simp [dataOrder]
  · simp [dataOrder, List.getElem_reverse]

/-! ## What the bytes of memory say -/

/-- A word is determined by its four bytes. -/
theorem stored_unique {s : State} {a v w : Word} (hv : Stored s a 4 v) (hw : Stored s a 4 w) : v = w := by
  ext i hi
  have h := (hv (i / 8) (by omega)).symm.trans (hw (i / 8) (by omega))
  have hb := congrArg (fun b : Byte => b.getLsbD (i % 8)) h
  have hm : i % 8 < 8 := Nat.mod_lt _ (by decide)
  simp only [BitVec.getLsbD_extractLsb', hm, decide_true, Bool.true_and, Nat.div_add_mod] at hb
  simpa [BitVec.getLsbD_eq_getElem hi] using hb

/-- What is stored depends on memory and the byte order alone. -/
theorem stored_congr {s t : State} (hm : ∀ b, t.mem.read b = s.mem.read b) (hc : t.cfg = s.cfg) (a : Word) (n : Nat)
    (v : Word) : Stored t a n v ↔ Stored s a n v := by simp [Stored, hm, hc]

/-- A word whose four bytes are not written is still there. -/
theorem stored_of_outside {s t : State} {a v : Word} {n : Nat} (hc : t.cfg = s.cfg) (h : Stored s a n v)
    (hm : ∀ b, a.toNat ≤ b → b < a.toNat + n → t.mem.read b = s.mem.read b) : Stored t a n v := by
  intro k hk
  rw [hc, hm _ (by omega) (by split <;> omega)]
  exact h k hk

/-! ## The memory primitives -/

theorem Size.bytes_le (z : Size) : z.bytes ≤ 4 := by cases z <;> decide

theorem Size.bytes_pos (z : Size) : 0 < z.bytes := by cases z <;> decide

/-- An aligned access does not leave the 32-bit space. -/
theorem Size.fits (z : Size) {a : Word} (h : a.toNat % z.bytes = 0) : a.toNat + z.bytes ≤ 2 ^ 32 := by
  have := a.isLt
  cases z <;> simp only [Size.bytes] at h ⊢ <;> omega

/-- Everything `MemRead` answers when it answers a value: the access is aligned and admitted, the value's bytes are those
of memory, and its other bits are zero. -/
theorem State.memRead_ok {s : State} {a v : Word} {z : Size} (h : s.memRead a z = .ok v) :
    Readable s a z.bytes ∧ Stored s a z.bytes v ∧ ∀ i, 8 * z.bytes ≤ i → v.getLsbD i = false := by
  unfold State.memRead at h
  split_ifs at h with h1 h2
  · cases h
    have hlen : (dataOrder s.cfg.bigEndian (s.mem.readBytes a.toNat z.bytes)).length = z.bytes := by simp
    refine ⟨⟨not_not.mp h1, h2⟩, fun k hk => ?_, fun i hi => valueOfBytes_high _ (by simpa using hi)⟩
    rw [valueOfBytes_extract _ (by rw [hlen]; exact z.bytes_le) (by rw [hlen]; exact hk), dataOrder_getElem,
      Memory.readBytes_getElem]
    simp

/-- A readable access answers a value. -/
theorem State.memRead_of_readable {s : State} {a : Word} {z : Size} (h : Readable s a z.bytes) :
    ∃ v, s.memRead a z = .ok v := by
  unfold State.memRead
  rw [if_neg (not_not.mpr h.1), if_pos h.2]
  exact ⟨_, rfl⟩

/-- `MemRead` raises its HardFault for alignment before the platform is asked, and is never refused (R104, R108). -/
theorem State.memRead_fault {s : State} {a : Word} {z : Size} {c : HardFaultCause} (h : s.memRead a z = .hardFault c) :
    (a.toNat % z.bytes ≠ 0 ∧ c = .align a z.bytes) ∨
      (a.toNat % z.bytes = 0 ∧ s.admits a z.bytes .read = false ∧ c = .bus a z.bytes .read) := by
  unfold State.memRead at h
  split_ifs at h with h1 h2
  · exact .inl ⟨h1, by cases h; rfl⟩
  · exact .inr ⟨not_not.mp h1, by simpa using h2, by cases h; rfl⟩

theorem State.memRead_not_refused {s : State} {a : Word} {z : Size} {r : Refusal} : s.memRead a z ≠ .refused r := by
  unfold State.memRead
  split_ifs <;> simp

/-- Reads see memory, the mode, CONTROL and the platform alone. -/
theorem State.memRead_congr {s t : State} (hmem : t.mem = s.mem) (hm : t.mode = s.mode) (hc : t.control = s.control)
    (hcfg : t.cfg = s.cfg) (a : Word) (z : Size) : t.memRead a z = s.memRead a z := by
  simp [State.memRead, State.admits_congr hm hc hcfg, hmem, hcfg]

/-- A byte of an access that does not pass the top is one modulo 2^32 exactly when it is one. -/
theorem Modified.mem_note (m : Modified) (a n b : Nat) :
    b ∈ (m.note a n).stored ↔ b ∈ m.stored ∨ ∃ k < n, b = (a + k) % 2 ^ 32 := by
  induction n generalizing m a with
  | zero => simp [Modified.note]
  | succ n ih =>
    have h0 : b ∈ (m.noteByte (a % 2 ^ 32)).stored ↔ b ∈ m.stored ∨ b = a % 2 ^ 32 := by
      unfold Modified.noteByte
      split_ifs with h
      · have h : a % 2 ^ 32 ∈ m.stored := by simpa using h
        exact ⟨.inl, fun hb => hb.elim id fun e => e ▸ h⟩
      · simp [or_comm]
    show b ∈ ((m.noteByte (a % 2 ^ 32)).note (a + 1) n).stored ↔ _
    rw [ih, h0]
    constructor
    · rintro ((h | h) | ⟨k, hk, h⟩)
      · exact .inl h
      · exact .inr ⟨0, by omega, h⟩
      · exact .inr ⟨k + 1, by omega, by rw [h]; congr 1; omega⟩
    · rintro (h | ⟨k, hk, h⟩)
      · exact .inl (.inl h)
      · cases k with
        | zero => exact .inl (.inr h)
        | succ k => exact .inr ⟨k, by omega, by rw [h]; congr 1; omega⟩

@[simp] theorem Modified.note_drained (m : Modified) (a n : Nat) : (m.note a n).drained = m.drained := by
  induction n generalizing m a with
  | zero => rfl
  | succ n ih =>
    have h : (m.noteByte (a % 2 ^ 32)).drained = m.drained := by unfold Modified.noteByte; split <;> rfl
    exact (ih _ _).trans h

/-- The bytes an access that fits stores to. -/
theorem Modified.mem_note_fits (m : Modified) {a n : Nat} (h : a + n ≤ 2 ^ 32) (b : Nat) :
    b ∈ (m.note a n).stored ↔ b ∈ m.stored ∨ (a ≤ b ∧ b < a + n) := by
  rw [Modified.mem_note]
  refine or_congr_right ⟨?_, fun hb => ⟨b - a, by omega, ?_⟩⟩
  · rintro ⟨k, hk, rfl⟩
    rw [Nat.mod_eq_of_lt (by omega)]
    omega
  · rw [Nat.mod_eq_of_lt (by omega)]
    omega

/-- Everything `MemWrite` answers when it answers a state: the access was writable, memory and the record of modified bytes
alone changed, its `n` bytes hold the value and are modified, every other byte is as before, and the canonical form is
kept. -/
theorem State.memWrite_ok {s t : State} {a v : Word} {z : Size} (h : s.memWrite a z v = .ok t) :
    Writable s a z.bytes ∧ t = (s.withMem t.mem).withModified t.modified ∧ Stored t a z.bytes v
      ∧ KeepsMemoryBut s t a z.bytes ∧ Modifies s t (fun b => ¬ Outside a z.bytes b) ∧ (s.mem.wf → t.mem.wf) := by
  unfold State.memWrite at h
  split_ifs at h with h1 h2 h3
  · cases h
    have hlen : (dataOrder s.cfg.bigEndian (bytesOfValue v z.bytes)).length = z.bytes := by simp
    refine ⟨⟨not_not.mp h1, by simpa using h2, h3⟩, rfl, fun k hk => ?_, fun b hb => ?_, ⟨fun b => ?_, by simp⟩,
      fun hw => ?_⟩
    · have hj : (if s.cfg.bigEndian then z.bytes - 1 - k else k) < z.bytes := by split <;> omega
      simp only [State.withModified_mem, State.withModified_cfg, State.withMem_mem, State.withMem_cfg]
      rw [Memory.read_writeBytes_inside _ _ _ (by rw [hlen]; exact hj), dataOrder_getElem, bytesOfValue_getElem]
      congr 2
      clear hj
      rw [bytesOfValue_length]
      rcases Bool.eq_false_or_eq_true s.cfg.bigEndian with he | he
      · simp only [he, if_true]; omega
      · simp [he]
    · refine Memory.read_writeBytes_outside _ _ ?_
      rw [hlen]; exact hb
    · rw [State.withModified_modified, Modified.mem_note_fits _ (z.fits (not_not.mp h1))]
      refine or_congr_right ?_
      unfold Outside
      omega
    · refine Memory.wf_writeBytes hw ?_
      rw [hlen]; exact z.fits (not_not.mp h1)

/-- A writable access answers a state. -/
theorem State.memWrite_of_writable {s : State} {a : Word} {z : Size} (h : Writable s a z.bytes) (v : Word) :
    ∃ t, s.memWrite a z v = .ok t := by
  unfold State.memWrite
  rw [if_neg (not_not.mpr h.1), if_neg (by simp [h.2.1]), if_pos h.2.2]
  exact ⟨_, rfl⟩

/-- `MemWrite` checks the alignment, then program text, then the platform (R104, R108, R125). -/
theorem State.memWrite_fault {s : State} {a v : Word} {z : Size} {c : HardFaultCause}
    (h : s.memWrite a z v = .hardFault c) :
    (a.toNat % z.bytes ≠ 0 ∧ c = .align a z.bytes) ∨
      (a.toNat % z.bytes = 0 ∧ s.overlapsText a z.bytes = false ∧ s.admits a z.bytes .write = false
        ∧ c = .bus a z.bytes .write) := by
  unfold State.memWrite at h
  split_ifs at h with h1 h2 h3
  · exact .inl ⟨h1, by cases h; rfl⟩
  · exact .inr ⟨not_not.mp h1, by simpa using h2, by simpa using h3, by cases h; rfl⟩

theorem State.memWrite_refused {s : State} {a v : Word} {z : Size} {r : Refusal} (h : s.memWrite a z v = .refused r) :
    a.toNat % z.bytes = 0 ∧ s.overlapsText a z.bytes = true ∧ r = .storeToProgramText a := by
  unfold State.memWrite at h
  split_ifs at h with h1 h2 h3
  · exact ⟨not_not.mp h1, h2, by cases h; rfl⟩

end Sys2Proof.Machine
end

