-- ==== Sys2Proof/Laws/Words.lean ====
section
/-! SUPPORT. Multiple transfers: the words of a run of consecutive addresses, and what storing and loading them can answer. -/

namespace Sys2Proof.Machine

/-! ## Consecutive word addresses -/

theorem slot_toNat (a : Word) (k : Nat) :
    (a + 4#32 * BitVec.ofNat 32 k).toNat = (a.toNat + 4 * k) % 2 ^ 32 := by
  simp only [BitVec.toNat_add, BitVec.toNat_mul, BitVec.toNat_ofNat]
  omega

theorem slot_zero (a : Word) : a + 4#32 * BitVec.ofNat 32 0 = a := by simp

theorem slot_succ (a : Word) (k : Nat) :
    a + 4#32 * BitVec.ofNat 32 (k + 1) = (a + 4#32) + 4#32 * BitVec.ofNat 32 k := by
  have : BitVec.ofNat 32 (k + 1) = BitVec.ofNat 32 k + 1#32 := BitVec.ofNat_add k 1
  rw [this, BitVec.mul_add, BitVec.mul_one]
  ac_rfl

/-- Two words of a run do not share a byte. -/
theorem slot_outside {a : Word} {j k b : Nat} (ha : a.toNat % 4 = 0) (hj : j < 2 ^ 30) (hk : k < 2 ^ 30) (h : j ≠ k)
    (h1 : (a + 4#32 * BitVec.ofNat 32 k).toNat ≤ b) (h2 : b < (a + 4#32 * BitVec.ofNat 32 k).toNat + 4) :
    Outside (a + 4#32 * BitVec.ofNat 32 j) 4 b := by
  unfold Outside
  rw [slot_toNat a k] at h1 h2
  rw [slot_toNat a j]
  have := a.isLt
  omega

theorem word_aligned_succ {a : Word} (h : a.toNat % 4 = 0) : (a + 4#32).toNat % 4 = 0 := by
  simp only [BitVec.toNat_add, BitVec.toNat_ofNat]
  omega

theorem wordsSize_eq (n : Nat) : wordsSize n = 4#32 * BitVec.ofNat 32 n := by
  unfold wordsSize
  rw [BitVec.ofNat_mul]

theorem keepsMemory_refl (s : State) : KeepsMemory s s := fun _ => rfl

/-! ## What a run depends on -/

theorem readable_congr {s t : State} (hm : t.mode = s.mode) (hc : t.control = s.control) (hcfg : t.cfg = s.cfg)
    (a : Word) (n : Nat) : Readable t a n ↔ Readable s a n := by
  simp [Readable, State.admits_congr hm hc hcfg]

theorem writable_congr {s t : State} (hm : t.mode = s.mode) (hc : t.control = s.control) (hcfg : t.cfg = s.cfg)
    (a : Word) (n : Nat) : Writable t a n ↔ Writable s a n := by
  simp [Writable, State.admits_congr hm hc hcfg, State.overlapsText_congr hcfg]

theorem writableWords_congr {s t : State} (hm : t.mode = s.mode) (hc : t.control = s.control) (hcfg : t.cfg = s.cfg)
    (a : Word) (n : Nat) : WritableWords t a n ↔ WritableWords s a n := by
  simp [WritableWords, writable_congr hm hc hcfg]

theorem readableWords_congr {s t : State} (hm : t.mode = s.mode) (hc : t.control = s.control) (hcfg : t.cfg = s.cfg)
    (a : Word) (n : Nat) : ReadableWords t a n ↔ ReadableWords s a n := by
  simp [ReadableWords, readable_congr hm hc hcfg]

theorem writableWords_succ {s : State} {a : Word} {n : Nat} :
    WritableWords s a (n + 1) ↔ Writable s a 4 ∧ WritableWords s (a + 4#32) n := by
  constructor
  · intro h
    exact ⟨by simpa using h 0 (by omega), fun k hk => by simpa [slot_succ] using h (k + 1) (by omega)⟩
  · rintro ⟨h0, h1⟩ k hk
    cases k with
    | zero => simpa using h0
    | succ k => rw [slot_succ]; exact h1 k (by omega)

theorem readableWords_succ {s : State} {a : Word} {n : Nat} :
    ReadableWords s a (n + 1) ↔ Readable s a 4 ∧ ReadableWords s (a + 4#32) n := by
  constructor
  · intro h
    exact ⟨by simpa using h 0 (by omega), fun k hk => by simpa [slot_succ] using h (k + 1) (by omega)⟩
  · rintro ⟨h0, h1⟩ k hk
    cases k with
    | zero => simpa using h0
    | succ k => rw [slot_succ]; exact h1 k (by omega)

theorem keepsMemoryButWords_succ {s t : State} {a : Word} {n : Nat} {u : State} (h0 : KeepsMemoryBut s u a 4)
    (h1 : KeepsMemoryButWords u t (a + 4#32) n) : KeepsMemoryButWords s t a (n + 1) := by
  intro b hb
  rw [h1 b fun k hk => by simpa [slot_succ] using hb (k + 1) (by omega)]
  exact h0 b (by simpa using hb 0 (by omega))

theorem inWords_zero (a : Word) (b : Nat) : ¬ InWords a 0 b := fun ⟨_, h, _⟩ => absurd h (by omega)

theorem inWords_succ (a : Word) (n b : Nat) : InWords a (n + 1) b ↔ ¬ Outside a 4 b ∨ InWords (a + 4#32) n b := by
  constructor
  · rintro ⟨k, hk, h⟩
    cases k with
    | zero => exact .inl (by simpa using h)
    | succ k => exact .inr ⟨k, by omega, by rwa [slot_succ] at h⟩
  · rintro (h | ⟨k, hk, h⟩)
    · exact ⟨0, by omega, by simpa using h⟩
    · exact ⟨k + 1, by omega, by rwa [slot_succ]⟩

theorem modifies_refl (s : State) : Modifies s s (fun _ => False) := ⟨fun _ => by simp, rfl⟩

/-- Two runs of stores, one after the other. -/
theorem modifies_trans {s u t : State} {P Q : Nat → Prop} (h : Modifies s u P) (k : Modifies u t Q) :
    Modifies s t fun b => P b ∨ Q b :=
  ⟨fun b => by rw [k.1, h.1, or_assoc], k.2.trans h.2⟩

theorem modifies_congr {s t : State} {P Q : Nat → Prop} (h : Modifies s t P) (e : ∀ b, P b ↔ Q b) : Modifies s t Q :=
  ⟨fun b => by rw [h.1, e], h.2⟩

/-! ## Storing words -/

/-- Everything a run of stores answers when it answers a state: every word was writable, memory and the record of modified
bytes alone changed, each word holds its value, every byte outside them is as before, their bytes are modified, and the
canonical form is kept. -/
theorem State.storeWords_ok {s t : State} {a : Word} {vs : List Word} (h : s.storeWords a vs = .ok t) :
    WritableWords s a vs.length ∧ t = (s.withMem t.mem).withModified t.modified
      ∧ (vs.length < 2 ^ 30 → ∀ k (hk : k < vs.length), Stored t (a + 4#32 * BitVec.ofNat 32 k) 4 vs[k])
      ∧ KeepsMemoryButWords s t a vs.length ∧ Modifies s t (InWords a vs.length) ∧ (s.mem.wf → t.mem.wf) := by
  induction vs generalizing s a with
  | nil =>
    cases h
    exact ⟨fun k hk => absurd hk (by simp), rfl, fun _ k hk => absurd hk (by simp), fun _ _ => rfl,
      modifies_congr (modifies_refl _) fun b => iff_of_false id (inWords_zero a b), id⟩
  | cons v vs ih =>
    unfold State.storeWords at h
    cases hw : s.memWrite a .word v with
    | hardFault c => simp [hw, Access.bind] at h
    | refused r => simp [hw, Access.bind] at h
    | ok u =>
      rw [hw] at h
      obtain ⟨hw1, hu, hst, hkeep, hmod, hwf⟩ := State.memWrite_ok hw
      obtain ⟨ih1, ih2, ih3, ih4, ih5, ih6⟩ := ih h
      have hm : u.mode = s.mode := by rw [hu]; rfl
      have hc : u.control = s.control := by rw [hu]; rfl
      have hcfg : u.cfg = s.cfg := by rw [hu]; rfl
      have htcfg : t.cfg = u.cfg := by rw [ih2]; rfl
      refine ⟨writableWords_succ.mpr ⟨hw1, (writableWords_congr hm hc hcfg _ _).mp ih1⟩, ?_, ?_,
        keepsMemoryButWords_succ hkeep ih4,
        modifies_congr (modifies_trans hmod ih5) fun b => (inWords_succ a vs.length b).symm, fun w => ih6 (hwf w)⟩
      · rw [ih2, hu]; rfl
      · intro hlen k hk
        have hlen' : vs.length + 1 < 2 ^ 30 := by simpa using hlen
        cases k with
        | zero =>
          simp only [slot_zero, List.getElem_cons_zero]
          refine stored_of_outside htcfg hst fun b h1 h2 => ih4 b fun j hj => ?_
          rw [← slot_succ]
          exact slot_outside (k := 0) hw1.1 (by omega) (by omega) (by omega) (by simpa using h1) (by simpa using h2)
        | succ k =>
          rw [slot_succ]
          exact ih3 (by omega) k (by simpa using hk)

/-- A run of writable words is stored. -/
theorem State.storeWords_of_writable {s : State} {a : Word} {vs : List Word} (h : WritableWords s a vs.length) :
    ∃ t, s.storeWords a vs = .ok t := by
  induction vs generalizing s a with
  | nil => exact ⟨s, rfl⟩
  | cons v vs ih =>
    obtain ⟨h0, h1⟩ := writableWords_succ.mp h
    obtain ⟨u, hu⟩ := State.memWrite_of_writable (z := .word) h0 v
    have hu' := (State.memWrite_ok hu).2.1
    have h1' : WritableWords u (a + 4#32) vs.length := by rw [hu']; exact h1
    obtain ⟨t, ht⟩ := ih h1'
    exact ⟨t, by simp [State.storeWords, hu, Access.bind, ht]⟩

/-- A run of stores is refused only for program text. -/
theorem State.storeWords_refused {s : State} {a : Word} {vs : List Word} {r : Refusal}
    (h : s.storeWords a vs = .refused r) : ∃ b, r = .storeToProgramText b := by
  induction vs generalizing s a with
  | nil => simp [State.storeWords] at h
  | cons v vs ih =>
    unfold State.storeWords at h
    cases hw : s.memWrite a .word v with
    | ok u => rw [hw] at h; exact ih h
    | hardFault c => simp [hw, Access.bind] at h
    | refused q =>
      rw [hw] at h
      cases h
      exact ⟨_, (State.memWrite_refused hw).2.2⟩

/-! ## Loading words -/

/-- A load into registers changes registers alone. -/
theorem State.loadRegs_ok {s t : State} {a : Word} {is : List RegNum} (h : s.loadRegs a is = .ok t) :
    t.pc = s.pc ∧ t.apsr = s.apsr ∧ t.t = s.t ∧ KeepsSystem s t ∧ t.freeIdx = s.freeIdx ∧ t.mem = s.mem := by
  induction is generalizing s a with
  | nil => cases h; simp [KeepsSystem, KeepsSpecial, KeepsSync]
  | cons i is ih =>
    unfold State.loadRegs at h
    cases hr : s.memRead a .word with
    | hardFault c => simp [hr, Access.bind] at h
    | refused r => simp [hr, Access.bind] at h
    | ok v =>
      rw [hr] at h
      have := ih h
      simpa [KeepsSystem, KeepsSpecial, KeepsSync] using this

/-- A load leaves every register that is not in its list. -/
theorem State.loadRegs_other {s t : State} {a : Word} {is : List RegNum} (h : s.loadRegs a is = .ok t) {j : RegNum}
    (hj : j ∉ is) : t.x j = s.x j := by
  induction is generalizing s a with
  | nil => cases h; rfl
  | cons i is ih =>
    unfold State.loadRegs at h
    cases hr : s.memRead a .word with
    | hardFault c => simp [hr, Access.bind] at h
    | refused r => simp [hr, Access.bind] at h
    | ok v =>
      rw [hr] at h
      rw [ih h (by simp_all), State.x_setX_other _ (by simp_all)]

/-- A load whose list names no stack pointer leaves both. -/
theorem State.loadRegs_stack {s t : State} {a : Word} {is : List RegNum} (h : s.loadRegs a is = .ok t)
    (hj : 13#4 ∉ is) : t.msp = s.msp ∧ t.psp = s.psp := by
  induction is generalizing s a with
  | nil => cases h; simp
  | cons i is ih =>
    unfold State.loadRegs at h
    cases hr : s.memRead a .word with
    | hardFault c => simp [hr, Access.bind] at h
    | refused r => simp [hr, Access.bind] at h
    | ok v =>
      rw [hr] at h
      have hi : i ≠ 13#4 := by rintro rfl; simp at hj
      obtain ⟨h1, h2⟩ := ih h (by simp_all)
      exact ⟨h1.trans (State.setX_msp _ hi v), h2.trans (State.setX_psp _ hi v)⟩

/-- Each register of a list without repeats, below R13, holds the word at its place. -/
theorem State.loadRegs_loaded {s t : State} {a : Word} {is : List RegNum} (h : s.loadRegs a is = .ok t)
    (hn : is.Nodup) (hlt : ∀ i ∈ is, i.toNat < 13) {k : Nat} (hk : k < is.length) :
    Stored s (a + 4#32 * BitVec.ofNat 32 k) 4 (t.x is[k]) := by
  induction is generalizing s a k with
  | nil => simp at hk
  | cons i is ih =>
    unfold State.loadRegs at h
    cases hr : s.memRead a .word with
    | hardFault c => simp [hr, Access.bind] at h
    | refused r => simp [hr, Access.bind] at h
    | ok v =>
      rw [hr] at h
      obtain ⟨hi, hn'⟩ := List.nodup_cons.mp hn
      have hi13 : i.toNat < 13 := hlt i (by simp)
      cases k with
      | zero =>
        have h15 : i ≠ 15#4 := by rintro rfl; exact absurd hi13 (by decide)
        have h13 : i ≠ 13#4 := by rintro rfl; exact absurd hi13 (by decide)
        simp only [List.getElem_cons_zero, slot_zero]
        rw [State.loadRegs_other h hi, State.x_setX_self _ h15, if_neg h13]
        exact (State.memRead_ok hr).2.1
      | succ k =>
        rw [slot_succ]
        have := ih h hn' (fun j hj => hlt j (by simp [hj])) (k := k) (by simpa using hk)
        rw [stored_congr (s := s) (by simp) (by simp)] at this
        simpa using this

/-- A run of readable words is loaded. -/
theorem State.loadRegs_of_readable {s : State} {a : Word} {is : List RegNum} (h : ReadableWords s a is.length) :
    ∃ t, s.loadRegs a is = .ok t := by
  induction is generalizing s a with
  | nil => exact ⟨s, rfl⟩
  | cons i is ih =>
    obtain ⟨h0, h1⟩ := readableWords_succ.mp h
    obtain ⟨v, hv⟩ := State.memRead_of_readable (z := .word) h0
    have h1' : ReadableWords (s.setX i v) (a + 4#32) is.length :=
      (readableWords_congr (by simp) (by simp) (by simp) _ _).mpr h1
    obtain ⟨t, ht⟩ := ih h1'
    exact ⟨t, by simp [State.loadRegs, hv, Access.bind, ht]⟩

/-- A load is never refused. -/
theorem State.loadRegs_not_refused {s : State} {a : Word} {is : List RegNum} {r : Refusal} :
    s.loadRegs a is ≠ .refused r := by
  induction is generalizing s a with
  | nil => simp [State.loadRegs]
  | cons i is ih =>
    unfold State.loadRegs
    cases hr : s.memRead a .word with
    | ok v => exact ih
    | hardFault c => simp [Access.bind]
    | refused q => exact absurd hr State.memRead_not_refused

/-! ## Register lists -/

theorem listRegs_nodup (l : BitVec 8) : (listRegs l).Nodup := by
  unfold listRegs
  exact List.Nodup.filter _ (by decide)

theorem mem_listRegs (l : BitVec 8) (i : RegNum) : i ∈ listRegs l ↔ InList l i := by
  have h : i ∈ ([0#4, 1#4, 2#4, 3#4, 4#4, 5#4, 6#4, 7#4] : List RegNum) ↔ i.toNat < 8 := by revert i; decide
  simp only [listRegs, List.mem_filter, h, InList]

theorem listRegs_lt {l : BitVec 8} {i : RegNum} (h : i ∈ listRegs l) : i.toNat < 8 := ((mem_listRegs l i).mp h).1

/-- A register list is the listed numbers below 8, rising. -/
theorem listRegs_eq (l : BitVec 8) : listRegs l = ((List.range 8).filter l.getLsbD).map (BitVec.ofNat 4) := by
  have h : ([0#4, 1#4, 2#4, 3#4, 4#4, 5#4, 6#4, 7#4] : List RegNum) = (List.range 8).map (BitVec.ofNat 4) := rfl
  unfold listRegs
  rw [h, List.filter_map]
  congr 1

theorem filter_range_length (l : BitVec 8) (n : Nat) : ((List.range n).filter l.getLsbD).length = rankIn l n := by
  induction n with
  | zero => rfl
  | succ n ih =>
    rw [List.range_succ, List.filter_append, List.length_append, ih]
    cases h : l.getLsbD n <;> simp [rankIn, h]

theorem filter_range_getElem (l : BitVec 8) {n i : Nat} (hi : i < n) (h : l.getLsbD i = true) :
    ((List.range n).filter l.getLsbD)[rankIn l i]? = some i := by
  induction n with
  | zero => exact absurd hi (by omega)
  | succ n ih =>
    rw [List.range_succ, List.filter_append]
    rcases Nat.lt_succ_iff_lt_or_eq.mp hi with hlt | rfl
    · have hsome := ih hlt
      obtain ⟨hb, _⟩ := List.getElem?_eq_some_iff.mp hsome
      rw [List.getElem?_append_left hb, hsome]
    · rw [List.getElem?_append_right (by rw [filter_range_length]), filter_range_length]
      simp [h]

/-- The number of registers in a list. -/
theorem listRegs_length (l : BitVec 8) : (listRegs l).length = rankIn l 8 := by
  rw [listRegs_eq, List.length_map, filter_range_length]

theorem rankIn_le (l : BitVec 8) (n : Nat) : rankIn l n ≤ n := by
  induction n with
  | zero => exact Nat.le_refl 0
  | succ n ih =>
    unfold rankIn
    have : (l.getLsbD n).toNat ≤ 1 := Bool.toNat_le _
    omega

/-- The place of a register in its list is the number of listed registers below it. -/
theorem listRegs_getElem (l : BitVec 8) {i : RegNum} (h : InList l i) :
    (listRegs l)[rankIn l i.toNat]? = some i := by
  rw [listRegs_eq, List.getElem?_map, filter_range_getElem l h.1 h.2]
  simp

/-- How many words PUSH stores. -/
theorem pushRegs_length (m : BitVec 1) (l : BitVec 8) : (pushRegs m l).length = rankIn l 8 + m.toNat := by
  have hm : m = 0#1 ∨ m = 1#1 := by revert m; decide
  unfold pushRegs
  rw [List.length_append, listRegs_length]
  rcases hm with rfl | rfl <;> rfl

theorem rankIn_lt {l : BitVec 8} {i : RegNum} (h : InList l i) : rankIn l i.toNat < (listRegs l).length :=
  (List.getElem?_eq_some_iff.mp (listRegs_getElem l h)).1

end Sys2Proof.Machine
end

