-- ==== Sys2Proof/Laws/Frames.lean ====
section
/-! SUPPORT. What the ways an instruction retires leave unchanged. -/

namespace Sys2Proof.Machine

/-! ## Registers -/

theorem keepsRegs_refl (ds : List RegNum) (s : State) : KeepsRegs ds s s :=
  ⟨fun _ _ _ => rfl, fun _ => ⟨rfl, rfl⟩, by split <;> rfl⟩

/-- A state with the same register fields, mode and CONTROL keeps every register. -/
theorem keepsRegs_of_fields {s t : State} (ds : List RegNum) (hr : t.regs = s.regs) (hl : t.lr = s.lr)
    (hm : t.msp = s.msp) (hp : t.psp = s.psp) (hmode : t.mode = s.mode) (hc : t.control = s.control) :
    KeepsRegs ds s t := by
  refine ⟨fun i _ hi => State.x_congr_ne hr hl ?_ hi, fun _ => ⟨hm, hp⟩, by split <;> assumption⟩
  simp [State.sp, State.usesPsp_congr hmode hc, hm, hp]

/-- A write of one register keeps every other. -/
theorem keepsRegs_setX (s : State) (d : RegNum) (v : Word) : KeepsRegs [d] s (s.setX d v) := by
  refine ⟨fun i hi _ => State.x_setX_other _ (by simpa using hi) v, fun h => ?_, ?_⟩
  · have hd : d ≠ 13#4 := by rintro rfl; simp at h
    exact ⟨State.setX_msp _ hd v, State.setX_psp _ hd v⟩
  · by_cases hd : d = 13#4
    · subst hd
      rw [State.setX_at_sp, State.setSp_msp, State.setSp_psp]
      cases s.usesPsp <;> simp
    · rw [State.setX_msp _ hd, State.setX_psp _ hd]
      split <;> rfl

theorem keepsRegs_trans {s u t : State} {ds : List RegNum} (h1 : KeepsRegs ds s u) (h2 : KeepsRegs ds u t)
    (hu : u.usesPsp = s.usesPsp) : KeepsRegs ds s t := by
  refine ⟨fun i hi h15 => (h2.1 i hi h15).trans (h1.1 i hi h15), fun h => ?_, ?_⟩
  · exact ⟨(h2.2.1 h).1.trans (h1.2.1 h).1, (h2.2.1 h).2.trans (h1.2.1 h).2⟩
  · have a := h1.2.2
    have b := h2.2.2
    rw [hu] at b
    split at a <;> simp_all

theorem keepsRegs_mono {s t : State} {ds es : List RegNum} (h : KeepsRegs ds s t) (hsub : ∀ i ∈ ds, i ∈ es) :
    KeepsRegs es s t :=
  ⟨fun i hi => h.1 i fun hd => hi (hsub i hd), fun hs => h.2.1 fun hd => hs (hsub _ hd), h.2.2⟩

/-! ## Retiring -/

/-- A register written, the flags written, the pc advanced: what is kept. -/
theorem retired_setX_withApsr (s : State) (d : RegNum) (v : Word) (f : Apsr) (n : Word) :
    Retired n [d] s (((s.setX d v).withApsr f).advance n) := by
  refine ⟨by simp, ?_, by simp [KeepsSystem, KeepsSpecial, KeepsSync], by simp, by simp, fun _ => by simp⟩
  refine keepsRegs_trans (keepsRegs_setX s d v) ?_ (by simp)
  exact keepsRegs_of_fields _ rfl rfl rfl rfl rfl rfl

/-- A register written, the pc advanced: what is kept. -/
theorem retired_setX (s : State) (d : RegNum) (v n : Word) : Retired n [d] s ((s.setX d v).advance n) := by
  refine ⟨by simp, ?_, by simp [KeepsSystem, KeepsSpecial, KeepsSync], by simp, by simp, fun _ => by simp⟩
  refine keepsRegs_trans (keepsRegs_setX s d v) ?_ (by simp)
  exact keepsRegs_of_fields _ rfl rfl rfl rfl rfl rfl

/-- The flags written, the pc advanced: what is kept. -/
theorem retired_withApsr (s : State) (f : Apsr) (n : Word) : Retired n [] s ((s.withApsr f).advance n) :=
  ⟨rfl, keepsRegs_of_fields _ rfl rfl rfl rfl rfl rfl, by simp [KeepsSystem, KeepsSpecial, KeepsSync], rfl, rfl, fun _ => rfl⟩

/-- The pc advanced: what is kept. -/
theorem retired_advance (s : State) (n : Word) : Retired n [] s (s.advance n) :=
  ⟨rfl, keepsRegs_of_fields _ rfl rfl rfl rfl rfl rfl, by simp [KeepsSystem, KeepsSpecial, KeepsSync], rfl, rfl, fun _ => rfl⟩

/-- A branch keeps everything but the pc. -/
theorem branched_branchTo (s : State) (a : Word) : Branched s (s.branchTo a) (align2 a) :=
  ⟨rfl, rfl, keepsRegs_of_fields _ rfl rfl rfl rfl rfl rfl, by simp [KeepsSystem, KeepsSpecial, KeepsSync], rfl, rfl, fun _ => rfl⟩

/-! ## Sums -/

/-- What `AddWithCarry` returns, without its exact sums (R20). -/
theorem addWithCarry_result (x y : Word) (c : Bool) :
    (addWithCarry x y c).result = x + y + BitVec.ofNat 32 c.toNat := by
  simp [addWithCarry, BitVec.ofNat_add]

theorem addWithCarry_carry (x y : Word) (c : Bool) :
    (addWithCarry x y c).carry = decide (2 ^ 32 ≤ x.toNat + y.toNat + c.toNat) := by
  have hc : c.toNat ≤ 1 := Bool.toNat_le c
  have hx := x.isLt
  have hy := y.isLt
  simp only [addWithCarry, BitVec.toNat_ofNat]
  rw [Bool.eq_iff_iff]
  simp only [bne_iff_ne, ne_eq, decide_eq_true_eq]
  omega

theorem addWithCarry_overflow (x y : Word) (c : Bool) :
    (addWithCarry x y c).overflow =
      decide (x.toInt + y.toInt + c.toNat < -2 ^ 31 ∨ 2 ^ 31 ≤ x.toInt + y.toInt + c.toNat) := by
  have hc : c.toNat ≤ 1 := Bool.toNat_le c
  have hx := x.isLt
  have hy := y.isLt
  have hr : ((BitVec.ofNat 32 (x.toNat + y.toNat + c.toNat) : Word)).toInt
      = ((x.toNat + y.toNat + c.toNat : Nat) : Int).bmod (2 ^ 32) := BitVec.toInt_ofNat' _
  simp only [addWithCarry, hr]
  rw [Bool.eq_iff_iff]
  simp only [bne_iff_ne, ne_eq, decide_eq_true_eq]
  rw [BitVec.toInt_eq_toNat_cond, BitVec.toInt_eq_toNat_cond]
  simp only [Int.bmod_def]
  split_ifs <;> omega

/-- The flags a sum sets (R61, R62). -/
theorem sumFlags_nzcv (x y : Word) (c : Bool) : SumFlags x y c (nzcv (addWithCarry x y c)) := by
  refine ⟨?_, ?_, addWithCarry_carry x y c, addWithCarry_overflow x y c⟩
  · simp [nzcv, addWithCarry_result]
  · simp [nzcv, addWithCarry_result, beq_eq_decide]

theorem toInt_not (y : Word) : (~~~y).toInt = -1 - y.toInt := by
  have h := y.isLt
  rw [BitVec.toInt_eq_toNat_cond, BitVec.toInt_eq_toNat_cond, BitVec.toNat_not]
  split_ifs <;> omega

/-- A difference as `AddWithCarry` forms it (R20): `x + NOT(y) + NOT(b)` is `x - y - b`. -/
theorem addWithCarry_not_result (x y : Word) (b : Bool) :
    (addWithCarry x (~~~y) (!b)).result = x - y - BitVec.ofNat 32 b.toNat := by
  rw [addWithCarry_result]
  apply BitVec.eq_of_toNat_eq
  have := x.isLt
  have := y.isLt
  cases b <;> simp [BitVec.toNat_add, BitVec.toNat_sub, BitVec.toNat_not] <;> omega

/-- The flags a difference sets (R20, R61). -/
theorem differenceFlags_nzcv (x y : Word) (b : Bool) :
    DifferenceFlags x y b (nzcv (addWithCarry x (~~~y) (!b))) := by
  have hx := x.isLt
  have hy := y.isLt
  refine ⟨?_, ?_, ?_, ?_⟩
  · simp [nzcv, addWithCarry_not_result]
  · simp [nzcv, addWithCarry_not_result, beq_eq_decide]
  · simp only [nzcv]
    rw [addWithCarry_carry, BitVec.toNat_not]
    cases b <;> simp <;> omega
  · simp only [nzcv]
    rw [addWithCarry_overflow, toInt_not]
    congr 1
    apply propext
    cases b <;> simp <;> omega

/-- A sum retired into a low register. -/
theorem sumRetired_retireSum (s : State) (d : LowReg) (x y : Word) (c : Bool) :
    SumRetired s (((s.setX (lowReg d) (addWithCarry x y c).result).withApsr (nzcv (addWithCarry x y c))).advance 2#32)
      (lowReg d) x y c :=
  ⟨by simp [addWithCarry_result], sumFlags_nzcv x y c, retired_setX_withApsr _ _ _ _ _⟩

end Sys2Proof.Machine
end

