-- ==== Sys2Proof/Laws/Exceptions.lean ====
section
/-! SUPPORT. What exception entry, HardFault and exception return can answer. -/

namespace Sys2Proof.Machine

/-! ## Sequencing -/

theorem Access.bind_eq_ok {α β : Type} {x : Access α} {f : α → Access β} {b : β} :
    x.bind f = .ok b ↔ ∃ a, x = .ok a ∧ f a = .ok b := by
  cases x <;> simp [Access.bind]

theorem Access.bind_eq_refused {α β : Type} {x : Access α} {f : α → Access β} {r : Refusal} :
    x.bind f = .refused r ↔ x = .refused r ∨ ∃ a, x = .ok a ∧ f a = .refused r := by
  cases x <;> simp [Access.bind]

theorem Access.bind_eq_hardFault {α β : Type} {x : Access α} {f : α → Access β} {c : HardFaultCause} :
    x.bind f = .hardFault c ↔ x = .hardFault c ∨ ∃ a, x = .ok a ∧ f a = .hardFault c := by
  cases x <;> simp [Access.bind]

@[simp] theorem Access.ok_bind {α β : Type} (a : α) (f : α → Access β) : (Access.ok a).bind f = f a := rfl

/-! ## Entry -/

/-- Handler mode is privileged, so what it can read depends on the platform alone. -/
theorem readable_handler {s : State} (h : s.mode = .handler) (a : Word) (n : Nat) :
    Readable s a n ↔ a.toNat % n = 0 ∧
      s.cfg.regions.any (fun r => decide (r.base ≤ a.toNat) && decide (a.toNat + n ≤ r.base + r.size) && r.canRead)
        = true := by
  simp [Readable, State.admits, State.privileged, h, permits]

theorem vectorReadable_iff (s t : State) (e : ExcNum) (hm : t.mode = .handler) (hc : t.cfg = s.cfg) :
    VectorReadable s e ↔ Readable t (t.vectorAddr e) 4 := by
  rw [readable_handler hm]
  simp only [VectorReadable, State.vectorAddr, hc]

@[simp] theorem State.inHandler_regs (s : State) (e : ExcNum) : (s.inHandler e).regs = s.regs := by
  simp [State.inHandler]

@[simp] theorem State.inHandler_apsr (s : State) (e : ExcNum) : (s.inHandler e).apsr = s.apsr := by
  simp [State.inHandler]

@[simp] theorem State.inHandler_t (s : State) (e : ExcNum) : (s.inHandler e).t = s.t := by
  simp [State.inHandler]

@[simp] theorem State.inHandler_pc (s : State) (e : ExcNum) : (s.inHandler e).pc = s.pc := by
  simp [State.inHandler]

@[simp] theorem State.inHandler_primask (s : State) (e : ExcNum) : (s.inHandler e).primask = s.primask := by
  simp [State.inHandler]

@[simp] theorem State.inHandler_run (s : State) (e : ExcNum) : (s.inHandler e).run = s.run := by
  simp [State.inHandler]

@[simp] theorem State.inHandler_mem (s : State) (e : ExcNum) : (s.inHandler e).mem = s.mem := by
  simp [State.inHandler]

@[simp] theorem State.inHandler_modified (s : State) (e : ExcNum) : (s.inHandler e).modified = s.modified := by
  simp [State.inHandler]

@[simp] theorem State.inHandler_cfg (s : State) (e : ExcNum) : (s.inHandler e).cfg = s.cfg := by
  simp [State.inHandler]

@[simp] theorem State.inHandler_lastFault (s : State) (e : ExcNum) : (s.inHandler e).lastFault = s.lastFault := by
  simp [State.inHandler]

@[simp] theorem State.inHandler_freeIdx (s : State) (e : ExcNum) : (s.inHandler e).freeIdx = s.freeIdx := by
  simp [State.inHandler]

@[simp] theorem State.inHandler_mode (s : State) (e : ExcNum) : (s.inHandler e).mode = .handler := rfl

@[simp] theorem State.inHandler_ipsr (s : State) (e : ExcNum) : (s.inHandler e).ipsr = e := rfl

@[simp] theorem State.inHandler_event (s : State) (e : ExcNum) : (s.inHandler e).event = true := rfl

@[simp] theorem State.inHandler_lr (s : State) (e : ExcNum) : (s.inHandler e).lr = s.excReturn := rfl

@[simp] theorem State.inHandler_control (s : State) (e : ExcNum) :
    (s.inHandler e).control = { spSel := false, nPriv := s.control.nPriv } := rfl

@[simp] theorem State.inHandler_pending (s : State) (e : ExcNum) :
    (s.inHandler e).pending = s.pending.filter (· != e) := rfl

@[simp] theorem State.inHandler_msp (s : State) (e : ExcNum) :
    (s.inHandler e).msp = if s.usesPsp then s.msp else align4 s.frameptr := by
  simp [State.inHandler, State.setSp_msp]

@[simp] theorem State.inHandler_psp (s : State) (e : ExcNum) :
    (s.inHandler e).psp = if s.usesPsp then align4 s.frameptr else s.psp := by
  simp [State.inHandler, State.setSp_psp]

/-- The frame's words are in memory once they are stored. -/
theorem frameStored_of_storeWords {s t : State} {ret : Word}
    (h : s.storeWords s.frameptr (s.frameWords ret) = .ok t) : FrameStored s t ret := by
  obtain ⟨_, _, hst, _, _, _⟩ := State.storeWords_ok h
  have hlen : (s.frameWords ret).length = 8 := rfl
  have hk := hst (by rw [hlen]; decide)
  obtain ⟨b1, b2, b3, b4, b5, b6, b7, b8⟩ := xpsrFrame_bits s (s.sp.getLsbD 2)
  have h0 := hk 0 (by rw [hlen]; decide)
  rw [slot_zero] at h0
  exact ⟨h0, hk 1 (by rw [hlen]; decide),
    hk 2 (by rw [hlen]; decide), hk 3 (by rw [hlen]; decide), hk 4 (by rw [hlen]; decide),
    hk 5 (by rw [hlen]; decide), hk 6 (by rw [hlen]; decide), _, hk 7 (by rw [hlen]; decide), b1, b2, b3, b4, b5, b6,
    b7, b8⟩

theorem stored_eq {s t : State} (hm : t.mem = s.mem) (hc : t.cfg = s.cfg) : Stored t = Stored s := by
  funext a n v
  simp only [Stored, hm, hc]

theorem frameStored_eq {s t u : State} (hm : t.mem = u.mem) (hc : t.cfg = u.cfg) (ret : Word) :
    FrameStored s t ret = FrameStored s u ret := by
  simp only [FrameStored, stored_eq hm hc]

/-- The state entry leaves, given the one whose memory holds the frame (R511). -/
theorem entered_inHandler {s u : State} {e : ExcNum} {ret v : Word} (hu : u = (s.withMem u.mem).withModified u.modified)
    (hfp : align4 s.frameptr = s.frameptr) (hf : FrameStored s u ret)
    (hk : KeepsMemoryButWords s u s.frameptr 8) (hmod : Modifies s u (InWords s.frameptr 8))
    (hv : Stored (u.inHandler e) (s.cfg.vectorTable + 4#32 * e.setWidth 32) 4 v) :
    Entered s ((u.inHandler e).interworkTo v) e ret := by
  have hps : u.usesPsp = s.usesPsp := by rw [hu]; rfl
  have hfr : u.frameptr = s.frameptr := by rw [hu]; rfl
  have hmod' : Modifies s ((u.inHandler e).interworkTo v) (InWords (frameBase s) 8) := by
    show Modifies s _ (InWords s.frameptr 8)
    exact ⟨fun b => by simpa using hmod.1 b, by simpa using hmod.2⟩
  refine ⟨?_, ?_, ?_, ?_, ?_, ?_, rfl, rfl, ?_, rfl, ?_, ?_, ?_, ?_, ?_, hmod', v, ?_, rfl, rfl⟩
  · rwa [frameStored_eq (u := u) (by simp) (by simp)]
  · intro b hb
    have := hk b hb
    simpa using this
  · simp only [State.interworkTo_psp, State.interworkTo_msp, State.inHandler_psp, State.inHandler_msp, hps, hfr, hfp]
    have hm : u.msp = s.msp := by rw [hu]; rfl
    have hp : u.psp = s.psp := by rw [hu]; rfl
    cases s.usesPsp
    · exact ⟨rfl, hp⟩
    · exact ⟨rfl, hm⟩
  all_goals first
    | (simp only [State.interworkTo_regs, State.interworkTo_apsr, State.interworkTo_lr, State.interworkTo_control,
        State.interworkTo_primask, State.interworkTo_pending, State.interworkTo_run, State.interworkTo_cfg,
        State.interworkTo_freeIdx, State.inHandler_regs, State.inHandler_apsr, State.inHandler_lr,
        State.inHandler_control, State.inHandler_primask, State.inHandler_pending, State.inHandler_run,
        State.inHandler_cfg, State.inHandler_freeIdx]
       rw [hu]
       rfl)
    | exact hv

/-- Everything entry answers when it answers a state (R511). -/
theorem State.enter_ok {s t : State} {e : ExcNum} {ret : Word} (h : s.enter e ret = .ok t) :
    CanEnter s e ∧ Entered s t e ret ∧ t.lastFault = s.lastFault ∧ (s.mem.wf → t.mem.wf) := by
  obtain ⟨u, hu, h⟩ := Access.bind_eq_ok.mp h
  obtain ⟨v, hv, h⟩ := Access.bind_eq_ok.mp h
  obtain ⟨hw, huw, _, hkeep, hmod, hwf⟩ := State.storeWords_ok hu
  obtain ⟨hr, hsv, _⟩ := State.memRead_ok hv
  have hframe := frameStored_of_storeWords hu
  have hlen : (s.frameWords ret).length = 8 := rfl
  rw [hlen] at hw hkeep hmod
  have hucfg : u.cfg = s.cfg := by rw [huw]; rfl
  have hfp : align4 s.frameptr = s.frameptr := align4_of_aligned (by simpa using (hw 0 (by decide)).1)
  have hva : u.vectorAddr e = s.cfg.vectorTable + 4#32 * e.setWidth 32 := by simp [State.vectorAddr, hucfg]
  have hva' : (u.inHandler e).vectorAddr e = u.vectorAddr e := by simp [State.vectorAddr]
  have hvr : VectorReadable s e :=
    (vectorReadable_iff s (u.inHandler e) e rfl (by simp [hucfg])).mpr (by rw [hva']; exact hr)
  cases h
  refine ⟨⟨hw, hvr⟩, entered_inHandler huw hfp hframe hkeep hmod (by rw [← hva]; exact hsv), ?_, fun w => ?_⟩
  · rw [State.interworkTo_lastFault, State.inHandler_lastFault, huw]; rfl
  · rw [State.interworkTo_mem, State.inHandler_mem]; exact hwf w

/-- Entry succeeds when its frame can be stored and its vector read. -/
theorem State.enter_of_canEnter {s : State} {e : ExcNum} (h : CanEnter s e) (ret : Word) : ∃ t, s.enter e ret = .ok t := by
  obtain ⟨u, hu⟩ := State.storeWords_of_writable (vs := s.frameWords ret) h.1
  have hucfg : u.cfg = s.cfg := by rw [(State.storeWords_ok hu).2.1]; rfl
  have hva' : (u.inHandler e).vectorAddr e = u.vectorAddr e := by simp [State.vectorAddr]
  have hr := (vectorReadable_iff s (u.inHandler e) e rfl (by simp [hucfg])).mp h.2
  rw [hva'] at hr
  obtain ⟨v, hv⟩ := State.memRead_of_readable (z := .word) hr
  exact ⟨_, Access.bind_eq_ok.mpr ⟨u, hu, Access.bind_eq_ok.mpr ⟨v, hv, rfl⟩⟩⟩

/-- Entry is refused only when its frame lies on program text (R125). -/
theorem State.enter_refused {s : State} {e : ExcNum} {ret : Word} {r : Refusal} (h : s.enter e ret = .refused r) :
    ∃ b, r = .storeToProgramText b := by
  rcases Access.bind_eq_refused.mp h with h | ⟨u, _, h⟩
  · exact State.storeWords_refused h
  · rcases Access.bind_eq_refused.mp h with h | ⟨v, _, h⟩
    · exact absurd h State.memRead_not_refused
    · simp at h

/-! ## HardFault -/

theorem canEnter_withLastFault {s : State} {c : Option HardFaultCause} {e : ExcNum} :
    CanEnter (s.withLastFault c) e ↔ CanEnter s e := Iff.rfl

theorem entered_withLastFault {s t : State} {c : Option HardFaultCause} {e : ExcNum} {ret : Word} :
    Entered (s.withLastFault c) t e ret ↔ Entered s t e ret := Iff.rfl

/-- Priority -1 or -2 is executing only in Handler mode, in HardFault, NMI or Reset (R505, R522). -/
theorem State.execPriority_gt {s : State} (h : s.mode = .handler → s.ipsr ≠ 1#6 ∧ s.ipsr ≠ 2#6 ∧ s.ipsr ≠ 3#6) :
    -1 < s.execPriority := by
  have hb : -1 < s.basePriority := by
    unfold State.basePriority
    split_ifs with hm
    · obtain ⟨h1, h2, h3⟩ := h hm
      unfold State.priority excNmi excHardFault
      rw [if_neg h1, if_neg h2, if_neg h3]
      omega
    · decide
  unfold State.execPriority
  split_ifs
  · omega
  · exact hb

/-- HardFault is taken where nothing of its priority is executing and entry does not fault (R510, R511). -/
theorem State.raiseHardFault_taken {s : State} (h : CanHardFault s) (ret : Word) (c : HardFaultCause) :
    ∃ t, s.raiseHardFault ret c = .next t ∧ HardFaulted s t ret c := by
  have hp := State.execPriority_gt h.1
  obtain ⟨t, ht⟩ := State.enter_of_canEnter (s := s.withLastFault (some c)) (canEnter_withLastFault.mpr h.2.2) ret
  refine ⟨t, ?_, (State.enter_ok ht).2.1, (State.enter_ok ht).2.2.1⟩
  unfold State.raiseHardFault State.enterHardFault
  rw [if_neg (by simp [h.2.1]), if_neg (by omega)]
  simp [excHardFault, ht]

/-- Where `TrapEntry` is terminal, raising HardFault ends the run (R510). -/
theorem State.raiseHardFault_terminal {s : State} (h : s.cfg.trapEntry = .terminal) (ret : Word) (c : HardFaultCause) :
    s.raiseHardFault ret c = .next ((s.withLastFault (some c)).endRaised 3#6 ret) := by
  unfold State.raiseHardFault
  rw [if_pos h]
  rfl

/-- Raising HardFault is what `RaisesHardFault` says. -/
theorem State.raiseHardFault_raises (s : State) (ret : Word) (c : HardFaultCause) :
    RaisesHardFault s (s.raiseHardFault ret c) ret c :=
  ⟨fun h => State.raiseHardFault_taken h ret c, fun h =>
    ⟨_, State.raiseHardFault_terminal h ret c, ⟨rfl, rfl⟩, rfl⟩⟩

/-- Everything raising HardFault can lead to: the end of the run, Lockup, or HardFault taken (R510, R511, R522). -/
theorem State.raiseHardFault_next {s t : State} {ret : Word} {c : HardFaultCause}
    (h : s.raiseHardFault ret c = .next t) :
    (∃ d e r, t = (s.withLastFault d).endRaised e r) ∨ (∃ d, t = s.lockUp d)
      ∨ (HardFaulted s t ret c ∧ (s.mem.wf → t.mem.wf)) := by
  unfold State.raiseHardFault State.enterHardFault at h
  split_ifs at h
  · cases h; exact .inl ⟨_, _, _, rfl⟩
  · cases h; exact .inr (.inl ⟨c, rfl⟩)
  · split at h
    · cases h
      rename_i ht
      obtain ⟨_, he, hl, hw⟩ := State.enter_ok ht
      exact .inr (.inr ⟨⟨he, hl⟩, hw⟩)
    · cases h; rename_i d _; exact .inr (.inl ⟨d, rfl⟩)
    · cases h

/-- Raising HardFault is refused only when the frame lies on program text (R125). -/
theorem State.raiseHardFault_refused {s : State} {ret : Word} {c : HardFaultCause} {r : Refusal}
    (h : s.raiseHardFault ret c = .refused r) : ∃ b, r = .storeToProgramText b := by
  unfold State.raiseHardFault State.enterHardFault at h
  split_ifs at h
  split at h
  · cases h
  · cases h
  · cases h
    rename_i hr
    exact State.enter_refused hr

theorem State.raiseHardFault_not_fault {s : State} {ret : Word} {c : HardFaultCause} {f : Fault} :
    s.raiseHardFault ret c ≠ .fault f := by
  unfold State.raiseHardFault State.enterHardFault
  split_ifs
  · simp
  · simp
  · split <;> simp

/-! ## Taking an exception -/

/-- An exception that can be entered is taken (R511). -/
theorem State.takeException_taken {s : State} {e : ExcNum} (h : CanTake s e) (ret : Word) :
    ∃ t, s.takeException e ret = .next t ∧ Entered s t e ret ∧ t.lastFault = s.lastFault := by
  obtain ⟨t, ht⟩ := State.enter_of_canEnter h.2 ret
  exact ⟨t, by simp [State.takeException, h.1, ht], (State.enter_ok ht).2.1, (State.enter_ok ht).2.2.1⟩

/-- Where `TrapEntry` is terminal, taking an exception ends the run (R510). -/
theorem State.takeException_terminal {s : State} (h : s.cfg.trapEntry = .terminal) (e : ExcNum) (ret : Word) :
    s.takeException e ret = .next (s.endRaised e ret) := by
  unfold State.takeException
  rw [if_pos h]

/-- Everything taking an exception can lead to: it is entered, the run ends, or its entry faults and HardFault or Lockup
follows. -/
theorem State.takeException_next {s t : State} {e : ExcNum} {ret : Word} (h : s.takeException e ret = .next t) :
    (Entered s t e ret ∧ t.lastFault = s.lastFault ∧ (s.mem.wf → t.mem.wf))
      ∨ (∃ d e' r, t = (s.withLastFault d).endRaised e' r) ∨ (∃ d, t = s.lockUp d)
      ∨ ∃ c, HardFaulted s t ret c ∧ (s.mem.wf → t.mem.wf) := by
  unfold State.takeException at h
  split at h
  · cases h; exact .inr (.inl ⟨s.lastFault, _, _, rfl⟩)
  · split at h
    · cases h
      rename_i ht
      exact .inl (State.enter_ok ht).2
    · split_ifs at h
      · cases h; rename_i d _ _; exact .inr (.inr (.inl ⟨d, rfl⟩))
      · rcases State.raiseHardFault_next h with h | h | h
        · exact .inr (.inl h)
        · exact .inr (.inr (.inl h))
        · exact .inr (.inr (.inr ⟨_, h⟩))
    · cases h

theorem State.takeException_not_fault {s : State} {e : ExcNum} {ret : Word} {f : Fault} :
    s.takeException e ret ≠ .fault f := by
  unfold State.takeException
  split
  · simp
  · split
    · simp
    · split_ifs
      · simp
      · exact State.raiseHardFault_not_fault
    · simp

theorem State.takeException_refused {s : State} {e : ExcNum} {ret : Word} {r : Refusal}
    (h : s.takeException e ret = .refused r) : ∃ b, r = .storeToProgramText b := by
  unfold State.takeException at h
  split at h
  · cases h
  · split at h
    · cases h
    · split_ifs at h
      exact State.raiseHardFault_refused h
    · cases h
      rename_i hr
      exact State.enter_refused hr

/-! ## Exception return -/

/-- Everything reading a frame answers when it answers one (R511, R520). -/
theorem State.readFrame_ok {s : State} {p : Word} {f : Frame} (h : s.readFrame p = .ok f) :
    Stored s p 4 f.r0 ∧ Stored s (p + 0x04#32) 4 f.r1 ∧ Stored s (p + 0x08#32) 4 f.r2 ∧ Stored s (p + 0x0C#32) 4 f.r3
      ∧ Stored s (p + 0x10#32) 4 f.r12 ∧ Stored s (p + 0x14#32) 4 f.lr ∧ Stored s (p + 0x18#32) 4 f.ret
      ∧ Stored s (p + 0x1C#32) 4 f.xpsr ∧ p.toNat % 4 = 0 := by
  obtain ⟨r0, h0, h⟩ := Access.bind_eq_ok.mp h
  obtain ⟨r1, h1, h⟩ := Access.bind_eq_ok.mp h
  obtain ⟨r2, h2, h⟩ := Access.bind_eq_ok.mp h
  obtain ⟨r3, h3, h⟩ := Access.bind_eq_ok.mp h
  obtain ⟨r4, h4, h⟩ := Access.bind_eq_ok.mp h
  obtain ⟨r5, h5, h⟩ := Access.bind_eq_ok.mp h
  obtain ⟨r6, h6, h⟩ := Access.bind_eq_ok.mp h
  obtain ⟨r7, h7, h⟩ := Access.bind_eq_ok.mp h
  cases h
  exact ⟨(State.memRead_ok h0).2.1, (State.memRead_ok h1).2.1, (State.memRead_ok h2).2.1, (State.memRead_ok h3).2.1,
    (State.memRead_ok h4).2.1, (State.memRead_ok h5).2.1, (State.memRead_ok h6).2.1, (State.memRead_ok h7).2.1,
    (State.memRead_ok h0).1.1⟩

/-- A frame whose eight words are readable is read. -/
theorem State.readFrame_of_readable {s : State} {p : Word} (h : ReadableWords s p 8) : ∃ f, s.readFrame p = .ok f := by
  obtain ⟨r0, h0⟩ := State.memRead_of_readable (z := .word) (slot_zero p ▸ h 0 (by decide))
  obtain ⟨r1, h1⟩ := State.memRead_of_readable (z := .word) (h 1 (by decide))
  obtain ⟨r2, h2⟩ := State.memRead_of_readable (z := .word) (h 2 (by decide))
  obtain ⟨r3, h3⟩ := State.memRead_of_readable (z := .word) (h 3 (by decide))
  obtain ⟨r4, h4⟩ := State.memRead_of_readable (z := .word) (h 4 (by decide))
  obtain ⟨r5, h5⟩ := State.memRead_of_readable (z := .word) (h 5 (by decide))
  obtain ⟨r6, h6⟩ := State.memRead_of_readable (z := .word) (h 6 (by decide))
  obtain ⟨r7, h7⟩ := State.memRead_of_readable (z := .word) (h 7 (by decide))
  exact ⟨_, Access.bind_eq_ok.mpr ⟨r0, h0, Access.bind_eq_ok.mpr ⟨r1, h1, Access.bind_eq_ok.mpr ⟨r2, h2,
    Access.bind_eq_ok.mpr ⟨r3, h3, Access.bind_eq_ok.mpr ⟨r4, h4, Access.bind_eq_ok.mpr ⟨r5, h5,
    Access.bind_eq_ok.mpr ⟨r6, h6, Access.bind_eq_ok.mpr ⟨r7, h7, rfl⟩⟩⟩⟩⟩⟩⟩⟩⟩

theorem State.readFrame_not_refused {s : State} {p : Word} {r : Refusal} : s.readFrame p ≠ .refused r := by
  intro h
  unfold State.readFrame at h
  repeat
    rcases Access.bind_eq_refused.mp h with h | ⟨_, _, h⟩
    · exact absurd h State.memRead_not_refused
  simp at h

/-- A return whose frame can be read (R520). -/
theorem State.exceptionReturn_of_frame {s : State} {a : Word} {w : ReturnTo} {f : Frame} (hw : returnTo a = some w)
    (hf : s.readFrame (s.returnSp w) = .ok f) :
    s.exceptionReturn a = .next ((s.restore f).leaveHandler w (poppedSp (s.returnSp w) f.xpsr)) := by
  simp [State.exceptionReturn, hw, hf, State.complete]

/-- Everything a return can lead to: the frame is popped, or reading it faults and the end of the run, HardFault or Lockup
follows. -/
theorem State.exceptionReturn_next {s t : State} {a : Word} (h : s.exceptionReturn a = .next t) :
    (∃ w f, returnTo a = some w ∧ s.readFrame (s.returnSp w) = .ok f
        ∧ t = (s.restore f).leaveHandler w (poppedSp (s.returnSp w) f.xpsr))
      ∨ (∃ d e r, t = (s.withLastFault d).endRaised e r) ∨ (∃ d, t = s.lockUp d)
      ∨ ∃ c, HardFaulted s t s.pc c ∧ (s.mem.wf → t.mem.wf) := by
  unfold State.exceptionReturn at h
  split at h
  · cases h
  · rename_i w hw
    cases hr : s.readFrame (s.returnSp w) with
    | ok f =>
      rw [hr] at h
      cases h
      exact .inl ⟨w, f, hw, hr, rfl⟩
    | hardFault c =>
      rw [hr] at h
      rcases State.raiseHardFault_next h with h | h | h
      · exact .inr (.inl h)
      · exact .inr (.inr (.inl h))
      · exact .inr (.inr (.inr ⟨_, h⟩))
    | refused r => exact absurd hr State.readFrame_not_refused

end Sys2Proof.Machine
end

