-- ==== Sys2Proof/Laws/PerInstr.lean ====
section
/-! SUPPORT. Statements about every instruction as syntax, one lemma per constructor. -/

namespace Sys2Proof.Laws.EncodingLength

/-- The encoding is one halfword that starts no 32-bit instruction, or two of which the first does (R140, R141). -/
def Statement (i : Instr) : Prop :=
  (∃ hw, encode i = [hw] ∧ isWide hw = false) ∨ (∃ hw1 hw2, encode i = [hw1, hw2] ∧ isWide hw1 = true)

/-- One halfword, by its top five bits. -/
theorem narrow {i : Instr} {hw : Half} (h : encode i = [hw]) {top : BitVec 5} (ht : slice hw 11 5 = top)
    (hn : (top == 0b11101#5 || top == 0b11110#5 || top == 0b11111#5) = false) : Statement i :=
  .inl ⟨hw, h, by rw [isWide, ht]; exact hn⟩

/-- Two halfwords, by the top five bits of the first. -/
theorem wide {i : Instr} {hw1 hw2 : Half} (h : encode i = [hw1, hw2]) (ht : slice hw1 11 5 = 0b11110#5) : Statement i :=
  .inr ⟨hw1, hw2, h, by rw [isWide, ht]; rfl⟩

/-- The top five bits of the halfwords of each format. -/
theorem top_dataProcessing (op : BitVec 4) (rd rm : LowReg) :
    slice (encodeDataProcessing op rd rm) 11 5 = 0b01000#5 := by
  simp (disch := decide) only [encodeDataProcessing, slice_half, slice_append_high, Nat.reduceSub]; decide

theorem top_imm5 (op : BitVec 5) (rt rn : LowReg) (imm5 : BitVec 5) : slice (encodeImm5 op rt rn imm5) 11 5 = op := by
  simp (disch := decide) only [encodeImm5, slice_half, slice_append_high, slice_all, Nat.reduceSub]

theorem top_imm8 (op : BitVec 5) (r : LowReg) (imm8 : BitVec 8) : slice (encodeImm8 op r imm8) 11 5 = op := by
  simp (disch := decide) only [encodeImm8, slice_half, slice_append_high, slice_all, Nat.reduceSub]

theorem top_twoLow (op : BitVec 10) (rd rm : LowReg) : slice (encodeTwoLow op rd rm) 11 5 = slice op 5 5 := by
  simp (disch := decide) only [encodeTwoLow, slice_half, slice_append_high, Nat.reduceSub]

theorem top_highRegister (op : BitVec 2) (high rm : RegNum) :
    slice (encodeHighRegister op high rm) 11 5 = 0b01000#5 := by
  simp (disch := decide) only [encodeHighRegister, slice_half, slice_append_high, Nat.reduceSub]; decide

theorem top_registerOffset (op : BitVec 3) (rt rn rm : LowReg) :
    slice (encodeRegisterOffset op rt rn rm) 11 5 = slice (0b0101#4 ++ op) 2 5 := by
  simp (disch := decide) only [encodeRegisterOffset, slice_half, slice_append_high, Nat.reduceSub]

theorem top_field {v w : Nat} (x : BitVec v) (y : BitVec w) (h : w ≤ 11) :
    slice (half (x ++ y)) 11 5 = slice x (11 - w) 5 := by
  rw [slice_half _ _ _ (by decide), slice_append_high _ _ _ _ h]

theorem barrier (op option : BitVec 4) (sb : BitVec 9) {i : Instr} (h : encode i = encodeBarrier op option sb) :
    Statement i :=
  wide h (by simp (disch := decide) only [slice_half, slice_append_high, Nat.reduceSub]; decide)

theorem adc (rdn rm : LowReg) : Statement (.adc rdn rm) :=
  narrow rfl (top_dataProcessing _ _ _) (by decide)

theorem addImmT1 (rd rn : LowReg) (imm3 : BitVec 3) : Statement (.addImmT1 rd rn imm3) :=
  narrow rfl (by
  simp (disch := decide) only [slice_half, slice_append_high, Nat.reduceSub]; rfl) (by decide)

theorem addImmT2 (rdn : LowReg) (imm8 : BitVec 8) : Statement (.addImmT2 rdn imm8) :=
  narrow rfl (top_imm8 _ _ _) (by decide)

theorem addRegT1 (rd rn rm : LowReg) : Statement (.addRegT1 rd rn rm) :=
  narrow rfl (by
  simp (disch := decide) only [slice_half, slice_append_high, Nat.reduceSub]; rfl) (by decide)

theorem addRegT2 (rdn rm : RegNum) : Statement (.addRegT2 rdn rm) :=
  narrow rfl (top_highRegister _ _ _) (by decide)

theorem addSpImmT1 (rd : LowReg) (imm8 : BitVec 8) : Statement (.addSpImmT1 rd imm8) :=
  narrow rfl (top_imm8 _ _ _) (by decide)

theorem addSpImmT2 (imm7 : BitVec 7) : Statement (.addSpImmT2 imm7) :=
  narrow rfl (by
  simp (disch := decide) only [slice_half, slice_append_high, Nat.reduceSub]; rfl) (by decide)

theorem addSpRegT1 (rdm : RegNum) : Statement (.addSpRegT1 rdm) :=
  narrow rfl (top_highRegister _ _ _) (by decide)

theorem addSpRegT2 (rm : RegNum) : Statement (.addSpRegT2 rm) :=
  narrow rfl (top_highRegister _ _ _) (by decide)

theorem adr (rd : LowReg) (imm8 : BitVec 8) : Statement (.adr rd imm8) :=
  narrow rfl (top_imm8 _ _ _) (by decide)

theorem andReg (rdn rm : LowReg) : Statement (.andReg rdn rm) :=
  narrow rfl (top_dataProcessing _ _ _) (by decide)

theorem asrImm (rd rm : LowReg) (imm5 : BitVec 5) : Statement (.asrImm rd rm imm5) :=
  narrow rfl (top_imm5 _ _ _ _) (by decide)

theorem asrReg (rdn rm : LowReg) : Statement (.asrReg rdn rm) :=
  narrow rfl (top_dataProcessing _ _ _) (by decide)

theorem bT1 (cond : Cond) (imm8 : BitVec 8) : Statement (.bT1 cond imm8) := by
  cases cond <;> exact narrow rfl (top_field _ _ (by decide)) (by decide)

theorem bT2 (imm11 : BitVec 11) : Statement (.bT2 imm11) :=
  narrow rfl (by
  simp (disch := decide) only [slice_half, slice_append_high, Nat.reduceSub]; rfl) (by decide)

theorem bic (rdn rm : LowReg) : Statement (.bic rdn rm) :=
  narrow rfl (top_dataProcessing _ _ _) (by decide)

theorem bkpt (imm8 : BitVec 8) : Statement (.bkpt imm8) :=
  narrow rfl (by
  simp (disch := decide) only [slice_half, slice_append_high, Nat.reduceSub]; rfl) (by decide)

theorem bl (sbit : BitVec 1) (imm10 : BitVec 10) (j1 j2 : BitVec 1) (imm11 : BitVec 11) : Statement (.bl sbit imm10 j1 j2 imm11) :=
  wide rfl (by
  simp (disch := decide) only [slice_half, slice_append_high, Nat.reduceSub]; decide)

theorem blx (rm : RegNum) (sb : BitVec 3) : Statement (.blx rm sb) :=
  narrow rfl (by
  simp (disch := decide) only [slice_half, slice_append_high, Nat.reduceSub]; rfl) (by decide)

theorem bx (rm : RegNum) (sb : BitVec 3) : Statement (.bx rm sb) :=
  narrow rfl (by
  simp (disch := decide) only [slice_half, slice_append_high, Nat.reduceSub]; rfl) (by decide)

theorem cmn (rn rm : LowReg) : Statement (.cmn rn rm) :=
  narrow rfl (top_dataProcessing _ _ _) (by decide)

theorem cmpImm (rn : LowReg) (imm8 : BitVec 8) : Statement (.cmpImm rn imm8) :=
  narrow rfl (top_imm8 _ _ _) (by decide)

theorem cmpRegT1 (rn rm : LowReg) : Statement (.cmpRegT1 rn rm) :=
  narrow rfl (top_dataProcessing _ _ _) (by decide)

theorem cmpRegT2 (rn rm : RegNum) : Statement (.cmpRegT2 rn rm) :=
  narrow rfl (top_highRegister _ _ _) (by decide)

theorem cps (im : BitVec 1) (sb : BitVec 4) : Statement (.cps im sb) :=
  narrow rfl (by
  simp (disch := decide) only [slice_half, slice_append_high, Nat.reduceSub]; rfl) (by decide)

theorem dmb (option : BitVec 4) (sb : BitVec 9) : Statement (.dmb option sb) :=
  barrier _ _ _ rfl

theorem dsb (option : BitVec 4) (sb : BitVec 9) : Statement (.dsb option sb) :=
  barrier _ _ _ rfl

theorem eor (rdn rm : LowReg) : Statement (.eor rdn rm) :=
  narrow rfl (top_dataProcessing _ _ _) (by decide)

theorem isb (option : BitVec 4) (sb : BitVec 9) : Statement (.isb option sb) :=
  barrier _ _ _ rfl

theorem ldm (rn : LowReg) (registerList : BitVec 8) : Statement (.ldm rn registerList) :=
  narrow rfl (top_imm8 _ _ _) (by decide)

theorem ldrImmT1 (rt rn : LowReg) (imm5 : BitVec 5) : Statement (.ldrImmT1 rt rn imm5) :=
  narrow rfl (top_imm5 _ _ _ _) (by decide)

theorem ldrImmT2 (rt : LowReg) (imm8 : BitVec 8) : Statement (.ldrImmT2 rt imm8) :=
  narrow rfl (top_imm8 _ _ _) (by decide)

theorem ldrLit (rt : LowReg) (imm8 : BitVec 8) : Statement (.ldrLit rt imm8) :=
  narrow rfl (top_imm8 _ _ _) (by decide)

theorem ldrReg (rt rn rm : LowReg) : Statement (.ldrReg rt rn rm) :=
  narrow rfl (top_registerOffset _ _ _ _) (by decide)

theorem ldrbImm (rt rn : LowReg) (imm5 : BitVec 5) : Statement (.ldrbImm rt rn imm5) :=
  narrow rfl (top_imm5 _ _ _ _) (by decide)

theorem ldrbReg (rt rn rm : LowReg) : Statement (.ldrbReg rt rn rm) :=
  narrow rfl (top_registerOffset _ _ _ _) (by decide)

theorem ldrhImm (rt rn : LowReg) (imm5 : BitVec 5) : Statement (.ldrhImm rt rn imm5) :=
  narrow rfl (top_imm5 _ _ _ _) (by decide)

theorem ldrhReg (rt rn rm : LowReg) : Statement (.ldrhReg rt rn rm) :=
  narrow rfl (top_registerOffset _ _ _ _) (by decide)

theorem ldrsb (rt rn rm : LowReg) : Statement (.ldrsb rt rn rm) :=
  narrow rfl (top_registerOffset _ _ _ _) (by decide)

theorem ldrsh (rt rn rm : LowReg) : Statement (.ldrsh rt rn rm) :=
  narrow rfl (top_registerOffset _ _ _ _) (by decide)

theorem lslImm (rd rm : LowReg) (imm5 : BitVec 5) : Statement (.lslImm rd rm imm5) :=
  narrow rfl (top_imm5 _ _ _ _) (by decide)

theorem lslReg (rdn rm : LowReg) : Statement (.lslReg rdn rm) :=
  narrow rfl (top_dataProcessing _ _ _) (by decide)

theorem lsrImm (rd rm : LowReg) (imm5 : BitVec 5) : Statement (.lsrImm rd rm imm5) :=
  narrow rfl (top_imm5 _ _ _ _) (by decide)

theorem lsrReg (rdn rm : LowReg) : Statement (.lsrReg rdn rm) :=
  narrow rfl (top_dataProcessing _ _ _) (by decide)

theorem movImm (rd : LowReg) (imm8 : BitVec 8) : Statement (.movImm rd imm8) :=
  narrow rfl (top_imm8 _ _ _) (by decide)

theorem movRegT1 (rd rm : RegNum) : Statement (.movRegT1 rd rm) :=
  narrow rfl (top_highRegister _ _ _) (by decide)

theorem movRegT2 (rd rm : LowReg) : Statement (.movRegT2 rd rm) :=
  narrow rfl (top_imm5 _ _ _ _) (by decide)

theorem mrs (rd : RegNum) (sysm : BitVec 8) (sb : BitVec 6) : Statement (.mrs rd sysm sb) :=
  wide rfl (by
  simp (disch := decide) only [slice_half, slice_append_high, Nat.reduceSub]; decide)

theorem msr (rn : RegNum) (sysm : BitVec 8) (sb : BitVec 6) : Statement (.msr rn sysm sb) :=
  wide rfl (by
  simp (disch := decide) only [slice_half, slice_append_high, Nat.reduceSub]; decide)

theorem mul (rdm rn : LowReg) : Statement (.mul rdm rn) :=
  narrow rfl (top_dataProcessing _ _ _) (by decide)

theorem mvn (rd rm : LowReg) : Statement (.mvn rd rm) :=
  narrow rfl (top_dataProcessing _ _ _) (by decide)

theorem nop : Statement (.nop) :=
  narrow rfl rfl (by decide)

theorem orr (rdn rm : LowReg) : Statement (.orr rdn rm) :=
  narrow rfl (top_dataProcessing _ _ _) (by decide)

theorem pop (p : BitVec 1) (registerList : BitVec 8) : Statement (.pop p registerList) :=
  narrow rfl (by
  simp (disch := decide) only [slice_half, slice_append_high, Nat.reduceSub]; rfl) (by decide)

theorem push (m : BitVec 1) (registerList : BitVec 8) : Statement (.push m registerList) :=
  narrow rfl (by
  simp (disch := decide) only [slice_half, slice_append_high, Nat.reduceSub]; rfl) (by decide)

theorem rev (rd rm : LowReg) : Statement (.rev rd rm) :=
  narrow rfl (top_twoLow _ _ _) (by decide)

theorem rev16 (rd rm : LowReg) : Statement (.rev16 rd rm) :=
  narrow rfl (top_twoLow _ _ _) (by decide)

theorem revsh (rd rm : LowReg) : Statement (.revsh rd rm) :=
  narrow rfl (top_twoLow _ _ _) (by decide)

theorem ror (rdn rm : LowReg) : Statement (.ror rdn rm) :=
  narrow rfl (top_dataProcessing _ _ _) (by decide)

theorem rsb (rd rn : LowReg) : Statement (.rsb rd rn) :=
  narrow rfl (top_dataProcessing _ _ _) (by decide)

theorem sbc (rdn rm : LowReg) : Statement (.sbc rdn rm) :=
  narrow rfl (top_dataProcessing _ _ _) (by decide)

theorem sev : Statement (.sev) :=
  narrow rfl rfl (by decide)

theorem stm (rn : LowReg) (registerList : BitVec 8) : Statement (.stm rn registerList) :=
  narrow rfl (top_imm8 _ _ _) (by decide)

theorem strImmT1 (rt rn : LowReg) (imm5 : BitVec 5) : Statement (.strImmT1 rt rn imm5) :=
  narrow rfl (top_imm5 _ _ _ _) (by decide)

theorem strImmT2 (rt : LowReg) (imm8 : BitVec 8) : Statement (.strImmT2 rt imm8) :=
  narrow rfl (top_imm8 _ _ _) (by decide)

theorem strReg (rt rn rm : LowReg) : Statement (.strReg rt rn rm) :=
  narrow rfl (top_registerOffset _ _ _ _) (by decide)

theorem strbImm (rt rn : LowReg) (imm5 : BitVec 5) : Statement (.strbImm rt rn imm5) :=
  narrow rfl (top_imm5 _ _ _ _) (by decide)

theorem strbReg (rt rn rm : LowReg) : Statement (.strbReg rt rn rm) :=
  narrow rfl (top_registerOffset _ _ _ _) (by decide)

theorem strhImm (rt rn : LowReg) (imm5 : BitVec 5) : Statement (.strhImm rt rn imm5) :=
  narrow rfl (top_imm5 _ _ _ _) (by decide)

theorem strhReg (rt rn rm : LowReg) : Statement (.strhReg rt rn rm) :=
  narrow rfl (top_registerOffset _ _ _ _) (by decide)

theorem subImmT1 (rd rn : LowReg) (imm3 : BitVec 3) : Statement (.subImmT1 rd rn imm3) :=
  narrow rfl (by
  simp (disch := decide) only [slice_half, slice_append_high, Nat.reduceSub]; rfl) (by decide)

theorem subImmT2 (rdn : LowReg) (imm8 : BitVec 8) : Statement (.subImmT2 rdn imm8) :=
  narrow rfl (top_imm8 _ _ _) (by decide)

theorem subReg (rd rn rm : LowReg) : Statement (.subReg rd rn rm) :=
  narrow rfl (by
  simp (disch := decide) only [slice_half, slice_append_high, Nat.reduceSub]; rfl) (by decide)

theorem subSpImm (imm7 : BitVec 7) : Statement (.subSpImm imm7) :=
  narrow rfl (by
  simp (disch := decide) only [slice_half, slice_append_high, Nat.reduceSub]; rfl) (by decide)

theorem svc (imm8 : BitVec 8) : Statement (.svc imm8) :=
  narrow rfl (by
  simp (disch := decide) only [slice_half, slice_append_high, Nat.reduceSub]; rfl) (by decide)

theorem sxtb (rd rm : LowReg) : Statement (.sxtb rd rm) :=
  narrow rfl (top_twoLow _ _ _) (by decide)

theorem sxth (rd rm : LowReg) : Statement (.sxth rd rm) :=
  narrow rfl (top_twoLow _ _ _) (by decide)

theorem tst (rn rm : LowReg) : Statement (.tst rn rm) :=
  narrow rfl (top_dataProcessing _ _ _) (by decide)

theorem udfT1 (imm8 : BitVec 8) : Statement (.udfT1 imm8) :=
  narrow rfl (by
  simp (disch := decide) only [slice_half, slice_append_high, Nat.reduceSub]; rfl) (by decide)

theorem udfT2 (imm4 : BitVec 4) (imm12 : BitVec 12) : Statement (.udfT2 imm4 imm12) :=
  wide rfl (by
  simp (disch := decide) only [slice_half, slice_append_high, Nat.reduceSub]; decide)

theorem uxtb (rd rm : LowReg) : Statement (.uxtb rd rm) :=
  narrow rfl (top_twoLow _ _ _) (by decide)

theorem uxth (rd rm : LowReg) : Statement (.uxth rd rm) :=
  narrow rfl (top_twoLow _ _ _) (by decide)

theorem wfe : Statement (.wfe) :=
  narrow rfl rfl (by decide)

theorem wfi : Statement (.wfi) :=
  narrow rfl rfl (by decide)

theorem yield : Statement (.yield) :=
  narrow rfl rfl (by decide)

end Sys2Proof.Laws.EncodingLength
end

