-- ==== Sys2Proof/Laws/Runs.lean ====
section
/-! SUPPORT. What a fetch and a run can answer. -/

namespace Sys2Proof.Machine

/-- A fetch that answers halfwords: `T` is set, the platform admits every halfword, none was modified without being
synchronised, and they are the halfwords at the pc (R103, R109, R125). -/
theorem State.fetch_ok {s : State} {hw1 hw2 : Half} (h : s.fetch = .ok (hw1, hw2)) :
    s.t = true ∧ s.admits s.pc 2 .fetch = true ∧ s.synchronised s.pc = true ∧ hw1 = s.fetchHalf s.pc
      ∧ if isWide hw1 then s.pc.toNat + 4 ≤ 2 ^ 32 ∧ s.admits (s.pc + 2#32) 2 .fetch = true
            ∧ s.synchronised (s.pc + 2#32) = true ∧ hw2 = s.fetchHalf (s.pc + 2#32)
          else hw2 = 0#16 := by
  unfold State.fetch at h
  split_ifs at h with h1 h2 h3 h4 h5 h6 h7
  · simp only [Access.ok.injEq, Prod.mk.injEq] at h
    obtain ⟨rfl, rfl⟩ := h
    simp_all
  · simp only [Access.ok.injEq, Prod.mk.injEq] at h
    obtain ⟨rfl, rfl⟩ := h
    simp_all

/-- A run that has ended is at a state where the claim's `EndOfRun` holds and the processor runs (D23). -/
theorem runUntil_ended {e : State → Bool} {n : Nat} {s t : State} (h : runUntil e n s = .ended t) :
    e t = true ∧ t.run = .running := by
  have done : ∀ u : State, u.endsRun e = true → u = t → e t = true ∧ t.run = .running := by
    rintro u hu rfl
    simpa [State.endsRun] using hu
  induction n generalizing s with
  | zero =>
    unfold runUntil at h
    split_ifs at h with he
    cases h; exact done _ he rfl
  | succ n ih =>
    unfold runUntil at h
    split_ifs at h with he
    · cases h; exact done _ he rfl
    · split at h
      · exact ih h
      · cases h
      · cases h

end Sys2Proof.Machine
end

