-- ==== Sys2Proof/Laws/Transfers.lean ====
section
/-! SUPPORT. What a fault part-way through a multiple transfer leaves (R111, D24), and how a multiple transfer ends. -/

namespace Sys2Proof.Machine

/-- Registers without a defined value: nothing else changes but the count of free values, and the stack pointer that is not
in use never does. -/
theorem State.undefineRegs_keeps (s : State) (is : List RegNum) :
    s.undefineRegs is = { s with
        regs := (s.undefineRegs is).regs, lr := (s.undefineRegs is).lr, msp := (s.undefineRegs is).msp,
        psp := (s.undefineRegs is).psp, freeIdx := (s.undefineRegs is).freeIdx }
      ∧ (∀ j, j ∉ is → (s.undefineRegs is).x j = s.x j)
      ∧ (if s.usesPsp then (s.undefineRegs is).msp = s.msp else (s.undefineRegs is).psp = s.psp) := by
  induction is generalizing s with
  | nil => exact ⟨rfl, fun _ _ => rfl, by simp [State.undefineRegs]⟩
  | cons i is ih =>
    obtain ⟨h0, h1, h2⟩ := ih ((s.setX i s.freeWord).drewFree)
    refine ⟨?_, fun j hj => ?_, ?_⟩
    · show ((s.setX i s.freeWord).drewFree).undefineRegs is = _
      rw [h0]
      simp only [State.undefineRegs, State.drewFree, State.withFreeIdx, State.setX_pc, State.setX_apsr, State.setX_t,
        State.setX_ipsr, State.setX_mode, State.setX_primask, State.setX_control, State.setX_event, State.setX_pending,
        State.setX_run, State.setX_mem, State.setX_modified, State.setX_cfg, State.setX_lastFault]
    · have hji : j ≠ i := fun h => hj (h ▸ List.mem_cons_self)
      exact (h1 j fun h => hj (List.mem_cons_of_mem _ h)).trans (State.x_setX_other s hji s.freeWord)
    · have hu : ((s.setX i s.freeWord).drewFree).usesPsp = s.usesPsp :=
        State.usesPsp_congr (State.setX_mode s i _) (State.setX_control s i _)
      have ho := (keepsRegs_setX s i s.freeWord).2.2
      rw [hu] at h2
      split at h2 <;> rename_i h <;> simp only [h, if_true, if_false, Bool.false_eq_true] at ho ⊢ <;> exact h2.trans ho

/-- Bytes stored from an address up, modulo 2^32, change no other byte. -/
theorem read_placeBytes_other (m : Memory) (a : Nat) (bs : List Byte) {b : Nat}
    (h : ∀ k < bs.length, b ≠ (a + k) % 2 ^ 32) : (placeBytes m a bs).read b = m.read b := by
  induction bs generalizing m a with
  | nil => rfl
  | cons v bs ih =>
    have h0 : b ≠ a % 2 ^ 32 := h 0 (by simp)
    show (placeBytes (m.write (a % 2 ^ 32) v) (a + 1) bs).read b = _
    rw [ih _ _ fun k hk => ?_, Memory.read_write_other _ _ h0]
    have := h (k + 1) (by simpa using hk)
    rwa [show a + 1 + k = a + (k + 1) by omega]

theorem addressed_zero (a : Word) (b : Nat) : ¬ Addressed a 0 b := fun ⟨_, h, _⟩ => absurd h (by omega)

/-- The bytes of one word, and of the words above it. -/
theorem addressed_succ (a : Word) (n b : Nat) :
    Addressed a (4 * (n + 1)) b ↔ (∃ k < 4, b = (a.toNat + k) % 2 ^ 32) ∨ Addressed (a + 4#32) (4 * n) b := by
  have e : ∀ k, (a + BitVec.ofNat 32 k).toNat = (a.toNat + k) % 2 ^ 32 := fun k => by
    simp only [BitVec.toNat_add, BitVec.toNat_ofNat]; omega
  have e4 : ∀ k, (a + 4#32 + BitVec.ofNat 32 k).toNat = (a.toNat + (k + 4)) % 2 ^ 32 := fun k => by
    simp only [BitVec.toNat_add, BitVec.toNat_ofNat]; omega
  constructor
  · rintro ⟨k, hk, h⟩
    rw [e] at h
    by_cases hk4 : k < 4
    · exact .inl ⟨k, hk4, h⟩
    · exact .inr ⟨k - 4, by omega, by rw [e4, h]; congr 2; omega⟩
  · rintro (⟨k, hk, h⟩ | ⟨k, hk, h⟩)
    · exact ⟨k, by omega, by rw [e, h]⟩
    · exact ⟨k + 4, by omega, by rw [e, h, e4]⟩

/-- Words without a defined value: nothing changes but those words, which are modified, and the count of free values. -/
theorem State.undefineWords_keeps (s : State) (a : Word) (n : Nat) :
    s.undefineWords a n = { s with
        mem := (s.undefineWords a n).mem, modified := (s.undefineWords a n).modified,
        freeIdx := (s.undefineWords a n).freeIdx }
      ∧ (∀ b, ¬ Addressed a (4 * n) b → (s.undefineWords a n).mem.read b = s.mem.read b)
      ∧ Modifies s (s.undefineWords a n) (Addressed a (4 * n)) ∧ (s.mem.wf → (s.undefineWords a n).mem.wf) := by
  induction n generalizing s a with
  | zero => exact ⟨rfl, fun _ _ => rfl, modifies_congr (modifies_refl s) fun b => iff_of_false id (addressed_zero a b), id⟩
  | succ n ih =>
    obtain ⟨h0, h1, h2, h3⟩ := ih (s.undefineWord a) (a + 4#32)
    have hm : Modifies s (s.undefineWord a) fun b => ∃ k < 4, b = (a.toNat + k) % 2 ^ 32 :=
      ⟨fun b => Modified.mem_note _ _ _ _, Modified.note_drained _ _ _⟩
    refine ⟨?_, fun b hb => ?_, modifies_congr (modifies_trans hm h2) fun b => (addressed_succ a n b).symm, fun w => ?_⟩
    · show (s.undefineWord a).undefineWords (a + 4#32) n = _
      rw [h0]
      rfl
    · have hb' := (not_congr (addressed_succ a n b)).mp hb
      show ((s.undefineWord a).undefineWords (a + 4#32) n).mem.read b = _
      rw [h1 b fun h => hb' (.inr h)]
      exact read_placeBytes_other _ _ _ fun k hk h => hb' (.inl ⟨k, by simpa using hk, h⟩)
    · exact h3 (wf_placeBytes w _ _)

/-- The state a fault part-way leaves before HardFault is raised is what `PartUndefined` says (R111, D24), and its memory
keeps the canonical form. -/
theorem State.undefined_keeps (s : State) (a : Word) (n : Nat) (lost : List RegNum) :
    PartUndefined s ((s.undefineWords a n).undefineRegs lost) (· ∈ lost) a n
      ∧ (s.mem.wf → ((s.undefineWords a n).undefineRegs lost).mem.wf) := by
  obtain ⟨w0, w1, w2, w3⟩ := State.undefineWords_keeps s a n
  obtain ⟨r0, r1, r2⟩ := State.undefineRegs_keeps (s.undefineWords a n) lost
  have hmem : ((s.undefineWords a n).undefineRegs lost).mem = (s.undefineWords a n).mem := by rw [r0]
  have hmod : ((s.undefineWords a n).undefineRegs lost).modified = (s.undefineWords a n).modified := by rw [r0]
  refine ⟨⟨?_, fun j hj => (r1 j hj).trans ?_, ?_, fun b hb => ?_, fun b => ?_, ?_⟩, fun w => ?_⟩
  · rw [r0, w0]
  · rw [w0]; rfl
  · have hu : (s.undefineWords a n).usesPsp = s.usesPsp := by rw [w0]; rfl
    have hm : (s.undefineWords a n).msp = s.msp := by rw [w0]
    have hp : (s.undefineWords a n).psp = s.psp := by rw [w0]
    rwa [hu, hm, hp] at r2
  · rw [hmem]; exact w1 b hb
  · rw [hmod]; exact w2.1 b
  · rw [hmod]; exact w2.2
  · rw [hmem]; exact w3 w

/-- Where SP is not lost, neither is the place of the frame. -/
theorem frameBase_partUndefined {s u : State} {lost : RegNum → Prop} {a : Word} {n : Nat} (h : PartUndefined s u lost a n)
    (h13 : ¬ lost 13#4) : frameBase u = frameBase s := by
  have hx : u.sp = s.sp := h.2.1 13#4 h13
  unfold frameBase
  exact congrArg (fun w => (w - 0x20#32) &&& 0xFFFFFFFB#32) hx

/-- What HardFault needs of the platform and of the exception that is handled is untouched part-way through a transfer. -/
theorem canHardFault_partUndefined {s u : State} {lost : RegNum → Prop} {a : Word} {n : Nat} (h : PartUndefined s u lost a n)
    (h13 : ¬ lost 13#4) (hc : CanHardFault s) : CanHardFault u := by
  have hf := frameBase_partUndefined h h13
  unfold CanHardFault CanTake CanEnter at hc ⊢
  rw [hf, h.1]
  exact hc

/-- A multiple transfer that faults part-way is what `PartRaises` says (R111, D24). -/
theorem State.completeTransfer_partRaises {α : Type} {s : State} {r : Access α} {c : HardFaultCause} (hr : r = .hardFault c)
    (a : Word) (n : Nat) (lost : List RegNum) (done : α → Result) :
    PartRaises s (s.completeTransfer r a n lost done) c (· ∈ lost) a n := by
  subst hr
  have hu := (State.undefined_keeps s a n lost).1
  exact ⟨_, hu, rfl, State.raiseHardFault_raises _ _ _, canHardFault_partUndefined hu⟩

/-- Everything a multiple transfer can answer: what its accesses lead to, a HardFault raised from the undefined state, or a
refusal of an access. -/
theorem State.completeTransfer_next {α : Type} {s t : State} {r : Access α} {a : Word} {n : Nat} {lost : List RegNum}
    {done : α → Result} (h : s.completeTransfer r a n lost done = .next t) :
    (∃ v, r = .ok v ∧ done v = .next t)
      ∨ ∃ c, r = .hardFault c ∧ ((s.undefineWords a n).undefineRegs lost).raiseHardFault s.pc c = .next t := by
  cases r with
  | ok v => exact .inl ⟨v, rfl, h⟩
  | hardFault c => exact .inr ⟨c, rfl, h⟩
  | refused q => cases h

end Sys2Proof.Machine
end

