-- ==== Sys2Proof/Tests/Slice0.lean ====
section
/-! SUPPORT. Tests: the ill-formed terms each check refuses, a word of every instruction decoded, one step of every
instruction with the result the spec's own vectors give (95_test_vectors.md section 2, or the rule named), and for every
statement a state and operands that meet its hypotheses. -/

namespace Sys2Proof.Tests

open Sys2Proof Sys2Proof.Machine

/-! ## WellFormed: a term each check refuses -/

theorem test_wf_lsl_zero : (Instr.lslImm 0#3 1#3 0#5).inOwnRow = false := by decide
theorem test_wf_add_sp : (Instr.addRegT2 13#4 1#4).inOwnRow = false := by decide
theorem test_wf_add_from_sp : (Instr.addRegT2 1#4 13#4).inOwnRow = false := by decide
theorem test_wf_add_sp_sp : (Instr.addSpRegT2 13#4).inOwnRow = false := by decide
theorem test_wf_bx_bits : (Instr.bx 14#4 1#3).shouldBeOk = false := by decide
theorem test_wf_blx_bits : (Instr.blx 1#4 4#3).shouldBeOk = false := by decide
theorem test_wf_cps_bits : (Instr.cps 1#1 3#4).shouldBeOk = false := by decide
theorem test_wf_dmb_bits : (Instr.dmb 15#4 0b111101110#9).shouldBeOk = false := by decide
theorem test_wf_dsb_bits : (Instr.dsb 15#4 0b111111111#9).shouldBeOk = false := by decide
theorem test_wf_isb_bits : (Instr.isb 15#4 0b011101111#9).shouldBeOk = false := by decide
theorem test_wf_mrs_bits : (Instr.mrs 0#4 0#8 0b111110#6).shouldBeOk = false := by decide
theorem test_wf_msr_bits : (Instr.msr 0#4 0#8 0b001001#6).shouldBeOk = false := by decide
theorem test_wf_add_pc_pc : (Instr.addRegT2 15#4 15#4).valuesOk = false := by decide
theorem test_wf_blx_pc : (Instr.blx 15#4 0#3).valuesOk = false := by decide
theorem test_wf_bx_pc : (Instr.bx 15#4 0#3).valuesOk = false := by decide
theorem test_wf_cmp_low : (Instr.cmpRegT2 7#4 7#4).valuesOk = false := by decide
theorem test_wf_cmp_pc : (Instr.cmpRegT2 8#4 15#4).valuesOk = false := by decide
theorem test_wf_ldm_empty : (Instr.ldm 0#3 0#8).valuesOk = false := by decide
theorem test_wf_stm_empty : (Instr.stm 0#3 0#8).valuesOk = false := by decide
theorem test_wf_pop_empty : (Instr.pop 0#1 0#8).valuesOk = false := by decide
theorem test_wf_push_empty : (Instr.push 0#1 0#8).valuesOk = false := by decide
theorem test_wf_mrs_sp : (Instr.mrs 13#4 0#8 mrsShouldBe).valuesOk = false := by decide
theorem test_wf_msr_pc : (Instr.msr 15#4 0#8 msrShouldBe).valuesOk = false := by decide
theorem test_wf_mrs_sysm : (Instr.mrs 0#4 4#8 mrsShouldBe).valuesOk = false := by decide
theorem test_wf_msr_sysm : (Instr.msr 0#4 17#8 msrShouldBe).valuesOk = false := by decide
theorem test_wf_accepts : (Instr.msr 14#4 20#8 msrShouldBe).wellFormed = true := by decide

/-! ## Decoding: a word of every constructor, its bits written out from the encodings of R142 to R146 -/

theorem test_decode_adc : decode 0b0100000101101010#16 0#16 = .ok (.adc 2#3 5#3) := by decide
theorem test_decode_addImmT1 : decode 0b0001110101010110#16 0#16 = .ok (.addImmT1 6#3 2#3 5#3) := by decide
theorem test_decode_addImmT2 : decode 0b0011010110110011#16 0#16 = .ok (.addImmT2 5#3 179#8) := by decide
theorem test_decode_addRegT1 : decode 0b0001100101010110#16 0#16 = .ok (.addRegT1 6#3 2#3 5#3) := by decide
theorem test_decode_addRegT2 : decode 0b0100010010110110#16 0#16 = .ok (.addRegT2 14#4 6#4) := by decide
theorem test_decode_addSpImmT1 : decode 0b1010110110110011#16 0#16 = .ok (.addSpImmT1 5#3 179#8) := by decide
theorem test_decode_addSpImmT2 : decode 0b1011000001011001#16 0#16 = .ok (.addSpImmT2 89#7) := by decide
theorem test_decode_addSpRegT1 : decode 0b0100010011101010#16 0#16 = .ok (.addSpRegT1 10#4) := by decide
theorem test_decode_addSpRegT2 : decode 0b0100010011001101#16 0#16 = .ok (.addSpRegT2 9#4) := by decide
theorem test_decode_adr : decode 0b1010010110110011#16 0#16 = .ok (.adr 5#3 179#8) := by decide
theorem test_decode_andReg : decode 0b0100000000101010#16 0#16 = .ok (.andReg 2#3 5#3) := by decide
theorem test_decode_asrImm : decode 0b0001010110010110#16 0#16 = .ok (.asrImm 6#3 2#3 22#5) := by decide
theorem test_decode_asrReg : decode 0b0100000100101010#16 0#16 = .ok (.asrReg 2#3 5#3) := by decide
theorem test_decode_bT1 : decode 0b1101101110110011#16 0#16 = .ok (.bT1 .lt 179#8) := by decide
theorem test_decode_bT2 : decode 0b1110010110011101#16 0#16 = .ok (.bT2 1437#11) := by decide
theorem test_decode_bic : decode 0b0100001110101010#16 0#16 = .ok (.bic 2#3 5#3) := by decide
theorem test_decode_bkpt : decode 0b1011111010110011#16 0#16 = .ok (.bkpt 179#8) := by decide
theorem test_decode_bl : decode 0b1111011011001110#16 0b1111110110011101#16 = .ok (.bl 1#1 718#10 1#1 1#1 1437#11) := by decide
theorem test_decode_blx : decode 0b0100011111001000#16 0#16 = .ok (.blx 9#4 0b000#3) := by decide
theorem test_decode_bx : decode 0b0100011101001000#16 0#16 = .ok (.bx 9#4 0b000#3) := by decide
theorem test_decode_cmn : decode 0b0100001011101010#16 0#16 = .ok (.cmn 2#3 5#3) := by decide
theorem test_decode_cmpImm : decode 0b0010110110110011#16 0#16 = .ok (.cmpImm 5#3 179#8) := by decide
theorem test_decode_cmpRegT1 : decode 0b0100001010101010#16 0#16 = .ok (.cmpRegT1 2#3 5#3) := by decide
theorem test_decode_cmpRegT2 : decode 0b0100010110110110#16 0#16 = .ok (.cmpRegT2 14#4 6#4) := by decide
theorem test_decode_cps : decode 0b1011011001110010#16 0#16 = .ok (.cps 1#1 0b0010#4) := by decide
theorem test_decode_dmb : decode 0b1111001110111111#16 0b1000111101011001#16 = .ok (.dmb 9#4 0b111101111#9) := by decide
theorem test_decode_dsb : decode 0b1111001110111111#16 0b1000111101001001#16 = .ok (.dsb 9#4 0b111101111#9) := by decide
theorem test_decode_eor : decode 0b0100000001101010#16 0#16 = .ok (.eor 2#3 5#3) := by decide
theorem test_decode_isb : decode 0b1111001110111111#16 0b1000111101101001#16 = .ok (.isb 9#4 0b111101111#9) := by decide
theorem test_decode_ldm : decode 0b1100110110110011#16 0#16 = .ok (.ldm 5#3 179#8) := by decide
theorem test_decode_ldrImmT1 : decode 0b0110110110010110#16 0#16 = .ok (.ldrImmT1 6#3 2#3 22#5) := by decide
theorem test_decode_ldrImmT2 : decode 0b1001110110110011#16 0#16 = .ok (.ldrImmT2 5#3 179#8) := by decide
theorem test_decode_ldrLit : decode 0b0100110110110011#16 0#16 = .ok (.ldrLit 5#3 179#8) := by decide
theorem test_decode_ldrReg : decode 0b0101100101010110#16 0#16 = .ok (.ldrReg 6#3 2#3 5#3) := by decide
theorem test_decode_ldrbImm : decode 0b0111110110010110#16 0#16 = .ok (.ldrbImm 6#3 2#3 22#5) := by decide
theorem test_decode_ldrbReg : decode 0b0101110101010110#16 0#16 = .ok (.ldrbReg 6#3 2#3 5#3) := by decide
theorem test_decode_ldrhImm : decode 0b1000110110010110#16 0#16 = .ok (.ldrhImm 6#3 2#3 22#5) := by decide
theorem test_decode_ldrhReg : decode 0b0101101101010110#16 0#16 = .ok (.ldrhReg 6#3 2#3 5#3) := by decide
theorem test_decode_ldrsb : decode 0b0101011101010110#16 0#16 = .ok (.ldrsb 6#3 2#3 5#3) := by decide
theorem test_decode_ldrsh : decode 0b0101111101010110#16 0#16 = .ok (.ldrsh 6#3 2#3 5#3) := by decide
theorem test_decode_lslImm : decode 0b0000010110010110#16 0#16 = .ok (.lslImm 6#3 2#3 22#5) := by decide
theorem test_decode_lslReg : decode 0b0100000010101010#16 0#16 = .ok (.lslReg 2#3 5#3) := by decide
theorem test_decode_lsrImm : decode 0b0000110110010110#16 0#16 = .ok (.lsrImm 6#3 2#3 22#5) := by decide
theorem test_decode_lsrReg : decode 0b0100000011101010#16 0#16 = .ok (.lsrReg 2#3 5#3) := by decide
theorem test_decode_movImm : decode 0b0010010110110011#16 0#16 = .ok (.movImm 5#3 179#8) := by decide
theorem test_decode_movRegT1 : decode 0b0100011010110110#16 0#16 = .ok (.movRegT1 14#4 6#4) := by decide
theorem test_decode_movRegT2 : decode 0b0000000000101010#16 0#16 = .ok (.movRegT2 2#3 5#3) := by decide
theorem test_decode_mrs : decode 0b1111001111101111#16 0b1000100100010000#16 = .ok (.mrs 9#4 16#8 0b011110#6) := by decide
theorem test_decode_msr : decode 0b1111001110001001#16 0b1000100000010000#16 = .ok (.msr 9#4 16#8 0b001000#6) := by decide
theorem test_decode_mul : decode 0b0100001101101010#16 0#16 = .ok (.mul 2#3 5#3) := by decide
theorem test_decode_mvn : decode 0b0100001111101010#16 0#16 = .ok (.mvn 2#3 5#3) := by decide
theorem test_decode_nop : decode 0b1011111100000000#16 0#16 = .ok .nop := by decide
theorem test_decode_orr : decode 0b0100001100101010#16 0#16 = .ok (.orr 2#3 5#3) := by decide
theorem test_decode_pop : decode 0b1011110110110011#16 0#16 = .ok (.pop 1#1 179#8) := by decide
theorem test_decode_push : decode 0b1011010110110011#16 0#16 = .ok (.push 1#1 179#8) := by decide
theorem test_decode_rev : decode 0b1011101000101010#16 0#16 = .ok (.rev 2#3 5#3) := by decide
theorem test_decode_rev16 : decode 0b1011101001101010#16 0#16 = .ok (.rev16 2#3 5#3) := by decide
theorem test_decode_revsh : decode 0b1011101011101010#16 0#16 = .ok (.revsh 2#3 5#3) := by decide
theorem test_decode_ror : decode 0b0100000111101010#16 0#16 = .ok (.ror 2#3 5#3) := by decide
theorem test_decode_rsb : decode 0b0100001001101010#16 0#16 = .ok (.rsb 2#3 5#3) := by decide
theorem test_decode_sbc : decode 0b0100000110101010#16 0#16 = .ok (.sbc 2#3 5#3) := by decide
theorem test_decode_sev : decode 0b1011111101000000#16 0#16 = .ok .sev := by decide
theorem test_decode_stm : decode 0b1100010110110011#16 0#16 = .ok (.stm 5#3 179#8) := by decide
theorem test_decode_strImmT1 : decode 0b0110010110010110#16 0#16 = .ok (.strImmT1 6#3 2#3 22#5) := by decide
theorem test_decode_strImmT2 : decode 0b1001010110110011#16 0#16 = .ok (.strImmT2 5#3 179#8) := by decide
theorem test_decode_strReg : decode 0b0101000101010110#16 0#16 = .ok (.strReg 6#3 2#3 5#3) := by decide
theorem test_decode_strbImm : decode 0b0111010110010110#16 0#16 = .ok (.strbImm 6#3 2#3 22#5) := by decide
theorem test_decode_strbReg : decode 0b0101010101010110#16 0#16 = .ok (.strbReg 6#3 2#3 5#3) := by decide
theorem test_decode_strhImm : decode 0b1000010110010110#16 0#16 = .ok (.strhImm 6#3 2#3 22#5) := by decide
theorem test_decode_strhReg : decode 0b0101001101010110#16 0#16 = .ok (.strhReg 6#3 2#3 5#3) := by decide
theorem test_decode_subImmT1 : decode 0b0001111101010110#16 0#16 = .ok (.subImmT1 6#3 2#3 5#3) := by decide
theorem test_decode_subImmT2 : decode 0b0011110110110011#16 0#16 = .ok (.subImmT2 5#3 179#8) := by decide
theorem test_decode_subReg : decode 0b0001101101010110#16 0#16 = .ok (.subReg 6#3 2#3 5#3) := by decide
theorem test_decode_subSpImm : decode 0b1011000011011001#16 0#16 = .ok (.subSpImm 89#7) := by decide
theorem test_decode_svc : decode 0b1101111110110011#16 0#16 = .ok (.svc 179#8) := by decide
theorem test_decode_sxtb : decode 0b1011001001101010#16 0#16 = .ok (.sxtb 2#3 5#3) := by decide
theorem test_decode_sxth : decode 0b1011001000101010#16 0#16 = .ok (.sxth 2#3 5#3) := by decide
theorem test_decode_tst : decode 0b0100001000101010#16 0#16 = .ok (.tst 2#3 5#3) := by decide
theorem test_decode_udfT1 : decode 0b1101111010110011#16 0#16 = .ok (.udfT1 179#8) := by decide
theorem test_decode_udfT2 : decode 0b1111011111111001#16 0b1010101100111010#16 = .ok (.udfT2 9#4 2874#12) := by decide
theorem test_decode_uxtb : decode 0b1011001011101010#16 0#16 = .ok (.uxtb 2#3 5#3) := by decide
theorem test_decode_uxth : decode 0b1011001010101010#16 0#16 = .ok (.uxth 2#3 5#3) := by decide
theorem test_decode_wfe : decode 0b1011111100100000#16 0#16 = .ok .wfe := by decide
theorem test_decode_wfi : decode 0b1011111100110000#16 0#16 = .ok .wfi := by decide
theorem test_decode_yield : decode 0b1011111100010000#16 0#16 = .ok .yield := by decide

/-- The table numbers a 32-bit row with its first halfword in bits 31 to 16. -/
theorem test_table_word : decodeTableWord 32 0xF3BF8F5F = some (.dmb 15#4 barrierShouldBe) := by decide

theorem test_table_half : decodeTableWord 16 0x4770 = some (.bx 14#4 0#3) := by decide

theorem test_encode_dmb : encode (.dmb 15#4 barrierShouldBe) = [0xF3BF#16, 0x8F5F#16] := by decide

/-! ## One step of every instruction -/

/-- The memory the load vectors start from. -/
def loadData : List (Nat × Byte) := [(0x20000000, 0xB2#8), (0x20000001, 0xA1#8), (0x20000002, 0xF0#8),
  (0x20000003, 0x80#8), (0x20000004, 0x44#8), (0x20000005, 0x33#8), (0x20000006, 0x22#8), (0x20000007, 0x11#8)]

/-- The memory the store vectors start from. -/
def storeData : List (Nat × Byte) := [(0x20000000, 0xAA#8), (0x20000001, 0xAA#8), (0x20000002, 0xAA#8),
  (0x20000003, 0xAA#8), (0x20000004, 0xBB#8), (0x20000005, 0xBB#8), (0x20000006, 0xBB#8), (0x20000007, 0xBB#8)]

/-- The memory the multiple transfer vectors start from. -/
def multiData : List (Nat × Byte) := [(0x20000000, 0x11#8), (0x20000001, 0x11#8), (0x20000002, 0x11#8),
  (0x20000003, 0x11#8), (0x20000004, 0x22#8), (0x20000005, 0x22#8), (0x20000006, 0x22#8), (0x20000007, 0x22#8),
  (0x20000008, 0x01#8), (0x20000009, 0x02#8), (0x2000000C, 0x44#8), (0x2000000D, 0x44#8), (0x2000000E, 0x44#8),
  (0x2000000F, 0x44#8)]

/-- A state at `ia` with the given registers, flags and memory, and the stack at 0x20001000. -/
def pre (ia : Word) (regs : List (RegNum × Word)) (nzcv : BitVec 4) (mem : List (Nat × Byte)) : State :=
  regs.foldl (fun s p => s.setX p.1 p.2)
    { State.reset with
      pc := ia, msp := 0x20001000#32, mem := mem,
      apsr := apsrOfWord (nzcv.setWidth 32 <<< 28) }

/-- One step of the instruction whose bits are `w`. -/
def run (ia : Word) (nbits w : Nat) (regs : List (RegNum × Word)) (nzcv : BitVec 4) (mem : List (Nat × Byte)) : Result :=
  step ((pre ia regs nzcv mem).withFetchWord nbits w)

/-- Registers, words of memory, flags, pc and `T` after a step. -/
def post (r : Result) (regs : List RegNum) (words : List Nat) :
    Option (List Word × List Word × BitVec 4 × Word × Bool) :=
  match r with
  | .next t => some (regs.map t.x, words.map fun a => valueOfBytes (t.mem.readBytes a 4),
      t.apsr.toWord.extractLsb' 28 4, t.pc, t.t)
  | _ => none

/-- A field of the state after a step. -/
def field {α : Type} (r : Result) (f : State → α) : Option α :=
  match r with
  | .next t => some (f t)
  | _ => none

/-- ADCS r0, r1: r0=0xFFFFFFFF, r1=0x0, NZCV=0010 gives r0=0x0, NZCV=0110. -/
theorem test_adc_1 :
    post (run 0x100#32 16 0x4148 [(0#4, 0xFFFFFFFF#32), (1#4, 0x0#32)] 0b0010#4 []) [0#4] []
      = some ([0x0#32], [], 0b0110#4, 0x102#32, true) := by decide

/-- ADCS r0, r1: r0=0x7FFFFFFF, r1=0x0, NZCV=0010 gives r0=0x80000000, NZCV=1001. -/
theorem test_adc_2 :
    post (run 0x100#32 16 0x4148 [(0#4, 0x7FFFFFFF#32), (1#4, 0x0#32)] 0b0010#4 []) [0#4] []
      = some ([0x80000000#32], [], 0b1001#4, 0x102#32, true) := by decide

/-- ADDS r0, r1, #7: r1=0xFFFFFFF9 gives r0=0x0, NZCV=0110. -/
theorem test_addImmT1_1 :
    post (run 0x100#32 16 0x1DC8 [(1#4, 0xFFFFFFF9#32)] 0b0000#4 []) [0#4] []
      = some ([0x0#32], [], 0b0110#4, 0x102#32, true) := by decide

/-- ADDS r0, r1, #0: r1=0x80000000 gives r0=0x80000000, NZCV=1000. -/
theorem test_addImmT1_2 :
    post (run 0x100#32 16 0x1C08 [(1#4, 0x80000000#32)] 0b0000#4 []) [0#4] []
      = some ([0x80000000#32], [], 0b1000#4, 0x102#32, true) := by decide

/-- ADDS r0, #255: r0=0x1 gives r0=0x100, NZCV=0000. -/
theorem test_addImmT2_1 :
    post (run 0x100#32 16 0x30FF [(0#4, 0x1#32)] 0b0000#4 []) [0#4] []
      = some ([0x100#32], [], 0b0000#4, 0x102#32, true) := by decide

/-- ADDS r0, #1: r0=0x7FFFFFFF gives r0=0x80000000, NZCV=1001. -/
theorem test_addImmT2_2 :
    post (run 0x100#32 16 0x3001 [(0#4, 0x7FFFFFFF#32)] 0b0000#4 []) [0#4] []
      = some ([0x80000000#32], [], 0b1001#4, 0x102#32, true) := by decide

/-- ADDS r0, r1, r2: r1=0x80000000, r2=0x80000000 gives r0=0x0, NZCV=0111. -/
theorem test_addRegT1_1 :
    post (run 0x100#32 16 0x1888 [(1#4, 0x80000000#32), (2#4, 0x80000000#32)] 0b0000#4 []) [0#4] []
      = some ([0x0#32], [], 0b0111#4, 0x102#32, true) := by decide

/-- ADDS r0, r1, r2: r1=0x40000000, r2=0x40000000 gives r0=0x80000000, NZCV=1001. -/
theorem test_addRegT1_2 :
    post (run 0x100#32 16 0x1888 [(1#4, 0x40000000#32), (2#4, 0x40000000#32)] 0b0000#4 []) [0#4] []
      = some ([0x80000000#32], [], 0b1001#4, 0x102#32, true) := by decide

/-- ADD r8, r1: r1=0x2, r8=0xFFFFFFFF, NZCV=1010 gives r8=0x1. -/
theorem test_addRegT2_1 :
    post (run 0x100#32 16 0x4488 [(1#4, 0x2#32), (8#4, 0xFFFFFFFF#32)] 0b1010#4 []) [8#4] []
      = some ([0x1#32], [], 0b1010#4, 0x102#32, true) := by decide

/-- ADD r0, pc: r0=0x10 gives r0=0x114. -/
theorem test_addRegT2_2 :
    post (run 0x100#32 16 0x4478 [(0#4, 0x10#32)] 0b0000#4 []) [0#4] []
      = some ([0x114#32], [], 0b0000#4, 0x102#32, true) := by decide

/-- ADD r0, sp, #1020: sp=0x20000000 gives r0=0x200003FC. -/
theorem test_addSpImmT1_1 :
    post (run 0x100#32 16 0xA8FF [(13#4, 0x20000000#32)] 0b0000#4 []) [0#4] []
      = some ([0x200003FC#32], [], 0b0000#4, 0x102#32, true) := by decide

/-- ADD sp, sp, #508: sp=0x20000000 gives sp=0x200001FC. -/
theorem test_addSpImmT2_1 :
    post (run 0x100#32 16 0xB07F [(13#4, 0x20000000#32)] 0b0000#4 []) [13#4] []
      = some ([0x200001FC#32], [], 0b0000#4, 0x102#32, true) := by decide

/-- ADD r0, sp, r0: r0=0x3, sp=0x20000000 gives r0=0x20000003. -/
theorem test_addSpRegT1_1 :
    post (run 0x100#32 16 0x4468 [(0#4, 0x3#32), (13#4, 0x20000000#32)] 0b0000#4 []) [0#4] []
      = some ([0x20000003#32], [], 0b0000#4, 0x102#32, true) := by decide

/-- ADD sp, sp, sp: sp=0x20000004 gives sp=0x40000008; the pattern matches ADD (SP plus register) T1 and T2 and ADD (register) T2, T1 is chosen (30_encoding.md rule R160), all three give this result. -/
theorem test_addSpRegT1_2 :
    post (run 0x100#32 16 0x44ED [(13#4, 0x20000004#32)] 0b0000#4 []) [13#4] []
      = some ([0x40000008#32], [], 0b0000#4, 0x102#32, true) := by decide

/-- ADD sp, r1: r1=0x13, sp=0x20000000 gives sp=0x20000010. -/
theorem test_addSpRegT2_1 :
    post (run 0x100#32 16 0x448D [(1#4, 0x13#32), (13#4, 0x20000000#32)] 0b0000#4 []) [13#4] []
      = some ([0x20000010#32], [], 0b0000#4, 0x102#32, true) := by decide

/-- ADR r0, <ia+4+1020>: ia=0x102 gives r0=0x500. -/
theorem test_adr_1 :
    post (run 0x102#32 16 0xA0FF [] 0b0000#4 []) [0#4] []
      = some ([0x500#32], [], 0b0000#4, 0x104#32, true) := by decide

/-- ADR r0, <Align(ia+4,4)>: none gives r0=0x104. -/
theorem test_adr_2 :
    post (run 0x100#32 16 0xA000 [] 0b0000#4 []) [0#4] []
      = some ([0x104#32], [], 0b0000#4, 0x102#32, true) := by decide

/-- ANDS r0, r1: r0=0xF0F0F0F0, r1=0xFF00FF00, NZCV=0011 gives r0=0xF000F000, NZCV=1011. -/
theorem test_andReg_1 :
    post (run 0x100#32 16 0x4008 [(0#4, 0xF0F0F0F0#32), (1#4, 0xFF00FF00#32)] 0b0011#4 []) [0#4] []
      = some ([0xF000F000#32], [], 0b1011#4, 0x102#32, true) := by decide

/-- ANDS r0, r1: r0=0xF0F0F0F, r1=0xF0F0F0F0, NZCV=1000 gives r0=0x0, NZCV=0100. -/
theorem test_andReg_2 :
    post (run 0x100#32 16 0x4008 [(0#4, 0xF0F0F0F#32), (1#4, 0xF0F0F0F0#32)] 0b1000#4 []) [0#4] []
      = some ([0x0#32], [], 0b0100#4, 0x102#32, true) := by decide

/-- ASRS r0, r1, #1: r1=0x80000001, NZCV=0000 gives r0=0xC0000000, NZCV=1010. -/
theorem test_asrImm_1 :
    post (run 0x100#32 16 0x1048 [(1#4, 0x80000001#32)] 0b0000#4 []) [0#4] []
      = some ([0xC0000000#32], [], 0b1010#4, 0x102#32, true) := by decide

/-- ASRS r0, r1, #32: r1=0x80000000, NZCV=0000 gives r0=0xFFFFFFFF, NZCV=1010. -/
theorem test_asrImm_2 :
    post (run 0x100#32 16 0x1008 [(1#4, 0x80000000#32)] 0b0000#4 []) [0#4] []
      = some ([0xFFFFFFFF#32], [], 0b1010#4, 0x102#32, true) := by decide

/-- ASRS r0, r1: r0=0x80000010, r1=0x104, NZCV=0000 gives r0=0xF8000001, NZCV=1000. -/
theorem test_asrReg_1 :
    post (run 0x100#32 16 0x4108 [(0#4, 0x80000010#32), (1#4, 0x104#32)] 0b0000#4 []) [0#4] []
      = some ([0xF8000001#32], [], 0b1000#4, 0x102#32, true) := by decide

/-- ASRS r0, r1: r0=0x80000010, r1=0x100, NZCV=0010 gives NZCV=1010. -/
theorem test_asrReg_2 :
    post (run 0x100#32 16 0x4108 [(0#4, 0x80000010#32), (1#4, 0x100#32)] 0b0010#4 []) [] []
      = some ([], [], 0b1010#4, 0x102#32, true) := by decide

/-- BICS r0, r1: r0=0xFFFFFFFF, r1=0x7FFFFFFF, NZCV=0000 gives r0=0x80000000, NZCV=1000. -/
theorem test_bic_1 :
    post (run 0x100#32 16 0x4388 [(0#4, 0xFFFFFFFF#32), (1#4, 0x7FFFFFFF#32)] 0b0000#4 []) [0#4] []
      = some ([0x80000000#32], [], 0b1000#4, 0x102#32, true) := by decide

/-- BL <ia+4>: none gives lr=0x105. -/
theorem test_bl_1 :
    post (run 0x100#32 32 0xF000F800 [] 0b0000#4 []) [14#4] []
      = some ([0x105#32], [], 0b0000#4, 0x104#32, true) := by decide

/-- BL <ia+4+16777214>: none gives lr=0x105, pc=0x1000102. -/
theorem test_bl_2 :
    post (run 0x100#32 32 0xF3FFD7FF [] 0b0000#4 []) [14#4] []
      = some ([0x105#32], [], 0b0000#4, 0x1000102#32, true) := by decide

/-- BLX r1: r1=0x201 gives lr=0x103, pc=0x200. -/
theorem test_blx_1 :
    post (run 0x100#32 16 0x4788 [(1#4, 0x201#32)] 0b0000#4 []) [14#4] []
      = some ([0x103#32], [], 0b0000#4, 0x200#32, true) := by decide

/-- BLX r1: r1=0x200 gives lr=0x103, T=0, pc=0x200; the next step is `Faulted(HardFault, state(0x200))`. -/
theorem test_blx_2 :
    post (run 0x100#32 16 0x4788 [(1#4, 0x200#32)] 0b0000#4 []) [14#4] []
      = some ([0x103#32], [], 0b0000#4, 0x200#32, false) := by decide

/-- BEQ <ia>: NZCV=0100 gives pc=0x100. -/
theorem test_bT1_1 :
    post (run 0x100#32 16 0xD0FE [] 0b0100#4 []) [] []
      = some ([], [], 0b0100#4, 0x100#32, true) := by decide

/-- BEQ <ia>: NZCV=0000 gives no change but pc = ia + 2. -/
theorem test_bT1_2 :
    post (run 0x100#32 16 0xD0FE [] 0b0000#4 []) [] []
      = some ([], [], 0b0000#4, 0x102#32, true) := by decide

/-- B <ia>: none gives pc=0x100. -/
theorem test_bT2_1 :
    post (run 0x100#32 16 0xE7FE [] 0b0000#4 []) [] []
      = some ([], [], 0b0000#4, 0x100#32, true) := by decide

/-- B <ia+2050>: none gives pc=0x902. -/
theorem test_bT2_2 :
    post (run 0x100#32 16 0xE3FF [] 0b0000#4 []) [] []
      = some ([], [], 0b0000#4, 0x902#32, true) := by decide

/-- BX lr: lr=0x10D gives pc=0x10C. -/
theorem test_bx_1 :
    post (run 0x100#32 16 0x4770 [(14#4, 0x10D#32)] 0b0000#4 []) [] []
      = some ([], [], 0b0000#4, 0x10C#32, true) := by decide

/-- BX r1: r1=0x200 gives T=0, pc=0x200; the next step is `Faulted(HardFault, state(0x200))`. -/
theorem test_bx_2 :
    post (run 0x100#32 16 0x4708 [(1#4, 0x200#32)] 0b0000#4 []) [] []
      = some ([], [], 0b0000#4, 0x200#32, false) := by decide

/-- CMN r0, r1: r0=0xFFFFFFFF, r1=0x1 gives NZCV=0110. -/
theorem test_cmn_1 :
    post (run 0x100#32 16 0x42C8 [(0#4, 0xFFFFFFFF#32), (1#4, 0x1#32)] 0b0000#4 []) [] []
      = some ([], [], 0b0110#4, 0x102#32, true) := by decide

/-- CMN r0, r1: r0=0x7FFFFFFF, r1=0x1 gives NZCV=1001. -/
theorem test_cmn_2 :
    post (run 0x100#32 16 0x42C8 [(0#4, 0x7FFFFFFF#32), (1#4, 0x1#32)] 0b0000#4 []) [] []
      = some ([], [], 0b1001#4, 0x102#32, true) := by decide

/-- CMP r0, #0: r0=0x0 gives NZCV=0110. -/
theorem test_cmpImm_1 :
    post (run 0x100#32 16 0x2800 [(0#4, 0x0#32)] 0b0000#4 []) [] []
      = some ([], [], 0b0110#4, 0x102#32, true) := by decide

/-- CMP r0, #1: r0=0x0 gives NZCV=1000. -/
theorem test_cmpImm_2 :
    post (run 0x100#32 16 0x2801 [(0#4, 0x0#32)] 0b0000#4 []) [] []
      = some ([], [], 0b1000#4, 0x102#32, true) := by decide

/-- CMP r0, r1: r0=0x5, r1=0x5 gives NZCV=0110. -/
theorem test_cmpRegT1_1 :
    post (run 0x100#32 16 0x4288 [(0#4, 0x5#32), (1#4, 0x5#32)] 0b0000#4 []) [] []
      = some ([], [], 0b0110#4, 0x102#32, true) := by decide

/-- CMP r0, r1: r0=0x7FFFFFFF, r1=0xFFFFFFFF gives NZCV=1001. -/
theorem test_cmpRegT1_2 :
    post (run 0x100#32 16 0x4288 [(0#4, 0x7FFFFFFF#32), (1#4, 0xFFFFFFFF#32)] 0b0000#4 []) [] []
      = some ([], [], 0b1001#4, 0x102#32, true) := by decide

/-- CMP r8, r0: r0=0x2, r8=0x1 gives NZCV=1000. -/
theorem test_cmpRegT2_1 :
    post (run 0x100#32 16 0x4580 [(0#4, 0x2#32), (8#4, 0x1#32)] 0b0000#4 []) [] []
      = some ([], [], 0b1000#4, 0x102#32, true) := by decide

/-- CMP r0, r8: r0=0x3, r8=0x2 gives NZCV=0010. -/
theorem test_cmpRegT2_2 :
    post (run 0x100#32 16 0x4540 [(0#4, 0x3#32), (8#4, 0x2#32)] 0b0000#4 []) [] []
      = some ([], [], 0b0010#4, 0x102#32, true) := by decide

/-- EORS r0, r1: r0=0xAAAAAAAA, r1=0xAAAAAAAA, NZCV=0010 gives r0=0x0, NZCV=0110. -/
theorem test_eor_1 :
    post (run 0x100#32 16 0x4048 [(0#4, 0xAAAAAAAA#32), (1#4, 0xAAAAAAAA#32)] 0b0010#4 []) [0#4] []
      = some ([0x0#32], [], 0b0110#4, 0x102#32, true) := by decide

/-- EORS r0, r0: r0=0x12345678, NZCV=1001 gives r0=0x0, NZCV=0101. -/
theorem test_eor_2 :
    post (run 0x100#32 16 0x4040 [(0#4, 0x12345678#32)] 0b1001#4 []) [0#4] []
      = some ([0x0#32], [], 0b0101#4, 0x102#32, true) := by decide

/-- LDM r0!, {r1, r2}: r0=0x20000000 gives r0=0x20000008, r1=0x11111111, r2=0x22222222. -/
theorem test_ldm_1 :
    post (run 0x100#32 16 0xC806 [(0#4, 0x20000000#32)] 0b0000#4 multiData) [0#4, 1#4, 2#4] []
      = some ([0x20000008#32, 0x11111111#32, 0x22222222#32], [], 0b0000#4, 0x102#32, true) := by decide

/-- LDM r0, {r0, r1}: r0=0x20000000 gives r0=0x11111111, r1=0x22222222; base in the list, so no write-back. -/
theorem test_ldm_2 :
    post (run 0x100#32 16 0xC803 [(0#4, 0x20000000#32)] 0b0000#4 multiData) [0#4, 1#4] []
      = some ([0x11111111#32, 0x22222222#32], [], 0b0000#4, 0x102#32, true) := by decide

/-- LDRB r0, [r1, #1]: r1=0x20000000 gives r0=0xA1. -/
theorem test_ldrbImm_1 :
    post (run 0x100#32 16 0x7848 [(1#4, 0x20000000#32)] 0b0000#4 loadData) [0#4] []
      = some ([0xA1#32], [], 0b0000#4, 0x102#32, true) := by decide

/-- LDRB r0, [r1, #31]: r1=0x1FFFFFE4 gives r0=0x80. -/
theorem test_ldrbImm_2 :
    post (run 0x100#32 16 0x7FC8 [(1#4, 0x1FFFFFE4#32)] 0b0000#4 loadData) [0#4] []
      = some ([0x80#32], [], 0b0000#4, 0x102#32, true) := by decide

/-- LDRB r0, [r1, r2]: r1=0x20000000, r2=0x3 gives r0=0x80. -/
theorem test_ldrbReg_1 :
    post (run 0x100#32 16 0x5C88 [(1#4, 0x20000000#32), (2#4, 0x3#32)] 0b0000#4 loadData) [0#4] []
      = some ([0x80#32], [], 0b0000#4, 0x102#32, true) := by decide

/-- LDRH r0, [r1, #2]: r1=0x20000000 gives r0=0x80F0. -/
theorem test_ldrhImm_1 :
    post (run 0x100#32 16 0x8848 [(1#4, 0x20000000#32)] 0b0000#4 loadData) [0#4] []
      = some ([0x80F0#32], [], 0b0000#4, 0x102#32, true) := by decide

/-- LDRH r0, [r1, r2]: r1=0x20000000, r2=0x6 gives r0=0x1122. -/
theorem test_ldrhReg_1 :
    post (run 0x100#32 16 0x5A88 [(1#4, 0x20000000#32), (2#4, 0x6#32)] 0b0000#4 loadData) [0#4] []
      = some ([0x1122#32], [], 0b0000#4, 0x102#32, true) := by decide

/-- LDR r0, [r1, #4]: r1=0x20000000 gives r0=0x11223344. -/
theorem test_ldrImmT1_1 :
    post (run 0x100#32 16 0x6848 [(1#4, 0x20000000#32)] 0b0000#4 loadData) [0#4] []
      = some ([0x11223344#32], [], 0b0000#4, 0x102#32, true) := by decide

/-- LDR r0, [r1, #124]: r1=0x1FFFFF88 gives r0=0x11223344. -/
theorem test_ldrImmT1_2 :
    post (run 0x100#32 16 0x6FC8 [(1#4, 0x1FFFFF88#32)] 0b0000#4 loadData) [0#4] []
      = some ([0x11223344#32], [], 0b0000#4, 0x102#32, true) := by decide

/-- LDR r0, [sp, #4]: sp=0x20000000 gives r0=0x11223344. -/
theorem test_ldrImmT2_1 :
    post (run 0x100#32 16 0x9801 [(13#4, 0x20000000#32)] 0b0000#4 loadData) [0#4] []
      = some ([0x11223344#32], [], 0b0000#4, 0x102#32, true) := by decide

/-- LDR r0, [r1, r2]: r1=0x20000008, r2=0xFFFFFFFC gives r0=0x11223344. -/
theorem test_ldrReg_1 :
    post (run 0x100#32 16 0x5888 [(1#4, 0x20000008#32), (2#4, 0xFFFFFFFC#32)] 0b0000#4 loadData) [0#4] []
      = some ([0x11223344#32], [], 0b0000#4, 0x102#32, true) := by decide

/-- LDRSB r0, [r1, r2]: r1=0x20000000, r2=0x0 gives r0=0xFFFFFFB2. -/
theorem test_ldrsb_1 :
    post (run 0x100#32 16 0x5688 [(1#4, 0x20000000#32), (2#4, 0x0#32)] 0b0000#4 loadData) [0#4] []
      = some ([0xFFFFFFB2#32], [], 0b0000#4, 0x102#32, true) := by decide

/-- LDRSB r0, [r1, r2]: r1=0x20000000, r2=0x4 gives r0=0x44. -/
theorem test_ldrsb_2 :
    post (run 0x100#32 16 0x5688 [(1#4, 0x20000000#32), (2#4, 0x4#32)] 0b0000#4 loadData) [0#4] []
      = some ([0x44#32], [], 0b0000#4, 0x102#32, true) := by decide

/-- LDRSH r0, [r1, r2]: r1=0x20000000, r2=0x2 gives r0=0xFFFF80F0. -/
theorem test_ldrsh_1 :
    post (run 0x100#32 16 0x5E88 [(1#4, 0x20000000#32), (2#4, 0x2#32)] 0b0000#4 loadData) [0#4] []
      = some ([0xFFFF80F0#32], [], 0b0000#4, 0x102#32, true) := by decide

/-- LDRSH r0, [r1, r2]: r1=0x20000000, r2=0x0 gives r0=0xFFFFA1B2. -/
theorem test_ldrsh_2 :
    post (run 0x100#32 16 0x5E88 [(1#4, 0x20000000#32), (2#4, 0x0#32)] 0b0000#4 loadData) [0#4] []
      = some ([0xFFFFA1B2#32], [], 0b0000#4, 0x102#32, true) := by decide

/-- LSLS r0, r1, #1: r1=0x80000001, NZCV=0000 gives r0=0x2, NZCV=0010. -/
theorem test_lslImm_1 :
    post (run 0x100#32 16 0x0048 [(1#4, 0x80000001#32)] 0b0000#4 []) [0#4] []
      = some ([0x2#32], [], 0b0010#4, 0x102#32, true) := by decide

/-- LSLS r0, r1, #31: r1=0x3, NZCV=0000 gives r0=0x80000000, NZCV=1010. -/
theorem test_lslImm_2 :
    post (run 0x100#32 16 0x07C8 [(1#4, 0x3#32)] 0b0000#4 []) [0#4] []
      = some ([0x80000000#32], [], 0b1010#4, 0x102#32, true) := by decide

/-- LSLS r0, r1: r0=0xF000001, r1=0x304, NZCV=0010 gives r0=0xF0000010, NZCV=1000. -/
theorem test_lslReg_1 :
    post (run 0x100#32 16 0x4088 [(0#4, 0xF000001#32), (1#4, 0x304#32)] 0b0010#4 []) [0#4] []
      = some ([0xF0000010#32], [], 0b1000#4, 0x102#32, true) := by decide

/-- LSLS r0, r1: r0=0xF000001, r1=0x300, NZCV=0010 gives no change but pc = ia + 2. -/
theorem test_lslReg_2 :
    post (run 0x100#32 16 0x4088 [(0#4, 0xF000001#32), (1#4, 0x300#32)] 0b0010#4 []) [] []
      = some ([], [], 0b0010#4, 0x102#32, true) := by decide

/-- LSRS r0, r1, #1: r1=0x3, NZCV=0000 gives r0=0x1, NZCV=0010. -/
theorem test_lsrImm_1 :
    post (run 0x100#32 16 0x0848 [(1#4, 0x3#32)] 0b0000#4 []) [0#4] []
      = some ([0x1#32], [], 0b0010#4, 0x102#32, true) := by decide

/-- LSRS r0, r1, #32: r1=0x80000000, NZCV=0000 gives r0=0x0, NZCV=0110. -/
theorem test_lsrImm_2 :
    post (run 0x100#32 16 0x0808 [(1#4, 0x80000000#32)] 0b0000#4 []) [0#4] []
      = some ([0x0#32], [], 0b0110#4, 0x102#32, true) := by decide

/-- LSRS r0, r1: r0=0xFFFFFF80, r1=0x8, NZCV=0000 gives r0=0xFFFFFF, NZCV=0010. -/
theorem test_lsrReg_1 :
    post (run 0x100#32 16 0x40C8 [(0#4, 0xFFFFFF80#32), (1#4, 0x8#32)] 0b0000#4 []) [0#4] []
      = some ([0xFFFFFF#32], [], 0b0010#4, 0x102#32, true) := by decide

/-- LSRS r0, r1: r0=0x80000000, r1=0x20, NZCV=0000 gives r0=0x0, NZCV=0110. -/
theorem test_lsrReg_2 :
    post (run 0x100#32 16 0x40C8 [(0#4, 0x80000000#32), (1#4, 0x20#32)] 0b0000#4 []) [0#4] []
      = some ([0x0#32], [], 0b0110#4, 0x102#32, true) := by decide

/-- MOVS r0, #0: NZCV=1011 gives r0=0x0, NZCV=0111. -/
theorem test_movImm_1 :
    post (run 0x100#32 16 0x2000 [] 0b1011#4 []) [0#4] []
      = some ([0x0#32], [], 0b0111#4, 0x102#32, true) := by decide

/-- MOVS r0, #255: NZCV=1100 gives r0=0xFF, NZCV=0000. -/
theorem test_movImm_2 :
    post (run 0x100#32 16 0x20FF [] 0b1100#4 []) [0#4] []
      = some ([0xFF#32], [], 0b0000#4, 0x102#32, true) := by decide

/-- MOV r8, r1 (CPY r8, r1): r1=0x80000000, NZCV=0100 gives r8=0x80000000. -/
theorem test_movRegT1_1 :
    post (run 0x100#32 16 0x4688 [(1#4, 0x80000000#32)] 0b0100#4 []) [8#4] []
      = some ([0x80000000#32], [], 0b0100#4, 0x102#32, true) := by decide

/-- MOV r0, pc: none gives r0=0x104. -/
theorem test_movRegT1_2 :
    post (run 0x100#32 16 0x4678 [] 0b0000#4 []) [0#4] []
      = some ([0x104#32], [], 0b0000#4, 0x102#32, true) := by decide

/-- MOVS r0, r1: r1=0x80000000, NZCV=0111 gives r0=0x80000000, NZCV=1011. -/
theorem test_movRegT2_1 :
    post (run 0x100#32 16 0x0008 [(1#4, 0x80000000#32)] 0b0111#4 []) [0#4] []
      = some ([0x80000000#32], [], 0b1011#4, 0x102#32, true) := by decide

/-- MOVS r0, r0: r0=0x0, NZCV=1000 gives NZCV=0100. -/
theorem test_movRegT2_2 :
    post (run 0x100#32 16 0x0000 [(0#4, 0x0#32)] 0b1000#4 []) [] []
      = some ([], [], 0b0100#4, 0x102#32, true) := by decide

/-- MULS r0, r1, r0: r0=0x10000, r1=0x10000, NZCV=1011 gives r0=0x0, NZCV=0111. -/
theorem test_mul_1 :
    post (run 0x100#32 16 0x4348 [(0#4, 0x10000#32), (1#4, 0x10000#32)] 0b1011#4 []) [0#4] []
      = some ([0x0#32], [], 0b0111#4, 0x102#32, true) := by decide

/-- MULS r0, r1, r0: r0=0xFFFFFFFF, r1=0xFFFFFFFF, NZCV=0000 gives r0=0x1. -/
theorem test_mul_2 :
    post (run 0x100#32 16 0x4348 [(0#4, 0xFFFFFFFF#32), (1#4, 0xFFFFFFFF#32)] 0b0000#4 []) [0#4] []
      = some ([0x1#32], [], 0b0000#4, 0x102#32, true) := by decide

/-- MVNS r0, r1: r1=0x0, NZCV=0000 gives r0=0xFFFFFFFF, NZCV=1000. -/
theorem test_mvn_1 :
    post (run 0x100#32 16 0x43C8 [(1#4, 0x0#32)] 0b0000#4 []) [0#4] []
      = some ([0xFFFFFFFF#32], [], 0b1000#4, 0x102#32, true) := by decide

/-- MVNS r0, r1: r1=0xFFFFFFFF, NZCV=0011 gives r0=0x0, NZCV=0111. -/
theorem test_mvn_2 :
    post (run 0x100#32 16 0x43C8 [(1#4, 0xFFFFFFFF#32)] 0b0011#4 []) [0#4] []
      = some ([0x0#32], [], 0b0111#4, 0x102#32, true) := by decide

/-- ORRS r0, r1: r0=0x80000000, r1=0x1, NZCV=0100 gives r0=0x80000001, NZCV=1000. -/
theorem test_orr_1 :
    post (run 0x100#32 16 0x4308 [(0#4, 0x80000000#32), (1#4, 0x1#32)] 0b0100#4 []) [0#4] []
      = some ([0x80000001#32], [], 0b1000#4, 0x102#32, true) := by decide

/-- POP {r0, r1}: sp=0x20000000 gives r0=0x11111111, r1=0x22222222, sp=0x20000008. -/
theorem test_pop_1 :
    post (run 0x100#32 16 0xBC03 [(13#4, 0x20000000#32)] 0b0000#4 multiData) [0#4, 1#4, 13#4] []
      = some ([0x11111111#32, 0x22222222#32, 0x20000008#32], [], 0b0000#4, 0x102#32, true) := by decide

/-- POP {r0, r1, pc}: sp=0x20000000 gives r0=0x11111111, r1=0x22222222, sp=0x2000000C, pc=0x200. -/
theorem test_pop_2 :
    post (run 0x100#32 16 0xBD03 [(13#4, 0x20000000#32)] 0b0000#4 multiData) [0#4, 1#4, 13#4] []
      = some ([0x11111111#32, 0x22222222#32, 0x2000000C#32], [], 0b0000#4, 0x200#32, true) := by decide

/-- PUSH {r0, r1, lr}: r0=0xA, r1=0xB, sp=0x2000000C, lr=0x10D gives sp=0x20000000, [0x20000000]=0x0000000A, [0x20000004]=0x0000000B, [0x20000008]=0x0000010D. -/
theorem test_push_1 :
    post (run 0x100#32 16 0xB503 [(0#4, 0xA#32), (1#4, 0xB#32), (13#4, 0x2000000C#32), (14#4, 0x10D#32)] 0b0000#4 multiData) [13#4] [0x20000000, 0x20000004, 0x20000008]
      = some ([0x20000000#32], [0xA#32, 0xB#32, 0x10D#32], 0b0000#4, 0x102#32, true) := by decide

/-- PUSH {r7}: r7=0x77, sp=0x20000004 gives sp=0x20000000, [0x20000000]=0x00000077. -/
theorem test_push_2 :
    post (run 0x100#32 16 0xB480 [(7#4, 0x77#32), (13#4, 0x20000004#32)] 0b0000#4 multiData) [13#4] [0x20000000]
      = some ([0x20000000#32], [0x77#32], 0b0000#4, 0x102#32, true) := by decide

/-- REV r0, r1: r1=0x12345678 gives r0=0x78563412. -/
theorem test_rev_1 :
    post (run 0x100#32 16 0xBA08 [(1#4, 0x12345678#32)] 0b0000#4 []) [0#4] []
      = some ([0x78563412#32], [], 0b0000#4, 0x102#32, true) := by decide

/-- REV16 r0, r1: r1=0x12345678 gives r0=0x34127856. -/
theorem test_rev16_1 :
    post (run 0x100#32 16 0xBA48 [(1#4, 0x12345678#32)] 0b0000#4 []) [0#4] []
      = some ([0x34127856#32], [], 0b0000#4, 0x102#32, true) := by decide

/-- REVSH r0, r1: r1=0x12345680 gives r0=0xFFFF8056. -/
theorem test_revsh_1 :
    post (run 0x100#32 16 0xBAC8 [(1#4, 0x12345680#32)] 0b0000#4 []) [0#4] []
      = some ([0xFFFF8056#32], [], 0b0000#4, 0x102#32, true) := by decide

/-- REVSH r0, r1: r1=0xFFFF807F gives r0=0x7F80. -/
theorem test_revsh_2 :
    post (run 0x100#32 16 0xBAC8 [(1#4, 0xFFFF807F#32)] 0b0000#4 []) [0#4] []
      = some ([0x7F80#32], [], 0b0000#4, 0x102#32, true) := by decide

/-- RORS r0, r1: r0=0x1234567F, r1=0x4, NZCV=0000 gives r0=0xF1234567, NZCV=1010. -/
theorem test_ror_1 :
    post (run 0x100#32 16 0x41C8 [(0#4, 0x1234567F#32), (1#4, 0x4#32)] 0b0000#4 []) [0#4] []
      = some ([0xF1234567#32], [], 0b1010#4, 0x102#32, true) := by decide

/-- RORS r0, r1: r0=0x80000000, r1=0x20, NZCV=0000 gives NZCV=1010. -/
theorem test_ror_2 :
    post (run 0x100#32 16 0x41C8 [(0#4, 0x80000000#32), (1#4, 0x20#32)] 0b0000#4 []) [] []
      = some ([], [], 0b1010#4, 0x102#32, true) := by decide

/-- RSBS r0, r1, #0 (NEG r0, r1): r1=0x1 gives r0=0xFFFFFFFF, NZCV=1000. -/
theorem test_rsb_1 :
    post (run 0x100#32 16 0x4248 [(1#4, 0x1#32)] 0b0000#4 []) [0#4] []
      = some ([0xFFFFFFFF#32], [], 0b1000#4, 0x102#32, true) := by decide

/-- RSBS r0, r1, #0: r1=0x0 gives r0=0x0, NZCV=0110. -/
theorem test_rsb_2 :
    post (run 0x100#32 16 0x4248 [(1#4, 0x0#32)] 0b0000#4 []) [0#4] []
      = some ([0x0#32], [], 0b0110#4, 0x102#32, true) := by decide

/-- SBCS r0, r1: r0=0x5, r1=0x3, NZCV=0010 gives r0=0x2. -/
theorem test_sbc_1 :
    post (run 0x100#32 16 0x4188 [(0#4, 0x5#32), (1#4, 0x3#32)] 0b0010#4 []) [0#4] []
      = some ([0x2#32], [], 0b0010#4, 0x102#32, true) := by decide

/-- SBCS r0, r1: r0=0x5, r1=0x3, NZCV=0000 gives r0=0x1, NZCV=0010. -/
theorem test_sbc_2 :
    post (run 0x100#32 16 0x4188 [(0#4, 0x5#32), (1#4, 0x3#32)] 0b0000#4 []) [0#4] []
      = some ([0x1#32], [], 0b0010#4, 0x102#32, true) := by decide

/-- STM r0!, {r1, r2}: r0=0x20000000, r1=0xA1, r2=0xA2 gives r0=0x20000008, [0x20000000]=0x000000A1, [0x20000004]=0x000000A2. -/
theorem test_stm_1 :
    post (run 0x100#32 16 0xC006 [(0#4, 0x20000000#32), (1#4, 0xA1#32), (2#4, 0xA2#32)] 0b0000#4 multiData) [0#4] [0x20000000, 0x20000004]
      = some ([0x20000008#32], [0xA1#32, 0xA2#32], 0b0000#4, 0x102#32, true) := by decide

/-- STM r0!, {r0, r1}: r0=0x20000000, r1=0xA1 gives r0=0x20000008, [0x20000000]=0x20000000, [0x20000004]=0x000000A1; base is the lowest register in the list, its original value is stored. -/
theorem test_stm_2 :
    post (run 0x100#32 16 0xC003 [(0#4, 0x20000000#32), (1#4, 0xA1#32)] 0b0000#4 multiData) [0#4] [0x20000000, 0x20000004]
      = some ([0x20000008#32], [0x20000000#32, 0xA1#32], 0b0000#4, 0x102#32, true) := by decide

/-- STRB r1, [r0, #1]: r0=0x20000000, r1=0x12345678 gives [0x20000000]=0xAAAA78AA. -/
theorem test_strbImm_1 :
    post (run 0x100#32 16 0x7041 [(0#4, 0x20000000#32), (1#4, 0x12345678#32)] 0b0000#4 storeData) [] [0x20000000]
      = some ([], [0xAAAA78AA#32], 0b0000#4, 0x102#32, true) := by decide

/-- STRB r2, [r0, r1]: r0=0x20000000, r1=0x7, r2=0x1FF gives [0x20000004]=0xFFBBBBBB. -/
theorem test_strbReg_1 :
    post (run 0x100#32 16 0x5442 [(0#4, 0x20000000#32), (1#4, 0x7#32), (2#4, 0x1FF#32)] 0b0000#4 storeData) [] [0x20000004]
      = some ([], [0xFFBBBBBB#32], 0b0000#4, 0x102#32, true) := by decide

/-- STRH r1, [r0, #2]: r0=0x20000000, r1=0x12345678 gives [0x20000000]=0x5678AAAA. -/
theorem test_strhImm_1 :
    post (run 0x100#32 16 0x8041 [(0#4, 0x20000000#32), (1#4, 0x12345678#32)] 0b0000#4 storeData) [] [0x20000000]
      = some ([], [0x5678AAAA#32], 0b0000#4, 0x102#32, true) := by decide

/-- STRH r2, [r0, r1]: r0=0x20000000, r1=0x4, r2=0xFFFF1234 gives [0x20000004]=0xBBBB1234. -/
theorem test_strhReg_1 :
    post (run 0x100#32 16 0x5242 [(0#4, 0x20000000#32), (1#4, 0x4#32), (2#4, 0xFFFF1234#32)] 0b0000#4 storeData) [] [0x20000004]
      = some ([], [0xBBBB1234#32], 0b0000#4, 0x102#32, true) := by decide

/-- STR r1, [r0, #4]: r0=0x20000000, r1=0x12345678 gives [0x20000004]=0x12345678. -/
theorem test_strImmT1_1 :
    post (run 0x100#32 16 0x6041 [(0#4, 0x20000000#32), (1#4, 0x12345678#32)] 0b0000#4 storeData) [] [0x20000004]
      = some ([], [0x12345678#32], 0b0000#4, 0x102#32, true) := by decide

/-- STR r1, [sp, #4]: r1=0x12345678, sp=0x20000000 gives [0x20000004]=0x12345678. -/
theorem test_strImmT2_1 :
    post (run 0x100#32 16 0x9101 [(1#4, 0x12345678#32), (13#4, 0x20000000#32)] 0b0000#4 storeData) [] [0x20000004]
      = some ([], [0x12345678#32], 0b0000#4, 0x102#32, true) := by decide

/-- STR r2, [r0, r1]: r0=0x20000000, r1=0x4, r2=0xCAFEF00D gives [0x20000004]=0xCAFEF00D. -/
theorem test_strReg_1 :
    post (run 0x100#32 16 0x5042 [(0#4, 0x20000000#32), (1#4, 0x4#32), (2#4, 0xCAFEF00D#32)] 0b0000#4 storeData) [] [0x20000004]
      = some ([], [0xCAFEF00D#32], 0b0000#4, 0x102#32, true) := by decide

/-- SUBS r0, r1, #7: r1=0x7 gives r0=0x0, NZCV=0110. -/
theorem test_subImmT1_1 :
    post (run 0x100#32 16 0x1FC8 [(1#4, 0x7#32)] 0b0000#4 []) [0#4] []
      = some ([0x0#32], [], 0b0110#4, 0x102#32, true) := by decide

/-- SUBS r0, r1, #1: r1=0x0 gives r0=0xFFFFFFFF, NZCV=1000. -/
theorem test_subImmT1_2 :
    post (run 0x100#32 16 0x1E48 [(1#4, 0x0#32)] 0b0000#4 []) [0#4] []
      = some ([0xFFFFFFFF#32], [], 0b1000#4, 0x102#32, true) := by decide

/-- SUBS r0, #255: r0=0xFF gives r0=0x0, NZCV=0110. -/
theorem test_subImmT2_1 :
    post (run 0x100#32 16 0x38FF [(0#4, 0xFF#32)] 0b0000#4 []) [0#4] []
      = some ([0x0#32], [], 0b0110#4, 0x102#32, true) := by decide

/-- SUBS r0, #1: r0=0x0 gives r0=0xFFFFFFFF, NZCV=1000. -/
theorem test_subImmT2_2 :
    post (run 0x100#32 16 0x3801 [(0#4, 0x0#32)] 0b0000#4 []) [0#4] []
      = some ([0xFFFFFFFF#32], [], 0b1000#4, 0x102#32, true) := by decide

/-- SUBS r0, r1, r2: r1=0x3, r2=0x5 gives r0=0xFFFFFFFE, NZCV=1000. -/
theorem test_subReg_1 :
    post (run 0x100#32 16 0x1A88 [(1#4, 0x3#32), (2#4, 0x5#32)] 0b0000#4 []) [0#4] []
      = some ([0xFFFFFFFE#32], [], 0b1000#4, 0x102#32, true) := by decide

/-- SUBS r0, r1, r2: r1=0x80000000, r2=0x1 gives r0=0x7FFFFFFF, NZCV=0011. -/
theorem test_subReg_2 :
    post (run 0x100#32 16 0x1A88 [(1#4, 0x80000000#32), (2#4, 0x1#32)] 0b0000#4 []) [0#4] []
      = some ([0x7FFFFFFF#32], [], 0b0011#4, 0x102#32, true) := by decide

/-- SUB sp, sp, #16: sp=0x20001000 gives sp=0x20000FF0. -/
theorem test_subSpImm_1 :
    post (run 0x100#32 16 0xB084 [(13#4, 0x20001000#32)] 0b0000#4 []) [13#4] []
      = some ([0x20000FF0#32], [], 0b0000#4, 0x102#32, true) := by decide

/-- SUB sp, sp, #508: sp=0x20001000 gives sp=0x20000E04. -/
theorem test_subSpImm_2 :
    post (run 0x100#32 16 0xB0FF [(13#4, 0x20001000#32)] 0b0000#4 []) [13#4] []
      = some ([0x20000E04#32], [], 0b0000#4, 0x102#32, true) := by decide

/-- SXTB r0, r1: r1=0x12345680 gives r0=0xFFFFFF80. -/
theorem test_sxtb_1 :
    post (run 0x100#32 16 0xB248 [(1#4, 0x12345680#32)] 0b0000#4 []) [0#4] []
      = some ([0xFFFFFF80#32], [], 0b0000#4, 0x102#32, true) := by decide

/-- SXTB r0, r1: r1=0xFFFFFF7F gives r0=0x7F. -/
theorem test_sxtb_2 :
    post (run 0x100#32 16 0xB248 [(1#4, 0xFFFFFF7F#32)] 0b0000#4 []) [0#4] []
      = some ([0x7F#32], [], 0b0000#4, 0x102#32, true) := by decide

/-- SXTH r0, r1: r1=0x12348000 gives r0=0xFFFF8000. -/
theorem test_sxth_1 :
    post (run 0x100#32 16 0xB208 [(1#4, 0x12348000#32)] 0b0000#4 []) [0#4] []
      = some ([0xFFFF8000#32], [], 0b0000#4, 0x102#32, true) := by decide

/-- TST r0, r1: r0=0x80000001, r1=0x80000000, NZCV=0000 gives NZCV=1000. -/
theorem test_tst_1 :
    post (run 0x100#32 16 0x4208 [(0#4, 0x80000001#32), (1#4, 0x80000000#32)] 0b0000#4 []) [] []
      = some ([], [], 0b1000#4, 0x102#32, true) := by decide

/-- TST r0, r1: r0=0x1, r1=0x2, NZCV=0010 gives NZCV=0110. -/
theorem test_tst_2 :
    post (run 0x100#32 16 0x4208 [(0#4, 0x1#32), (1#4, 0x2#32)] 0b0010#4 []) [] []
      = some ([], [], 0b0110#4, 0x102#32, true) := by decide

/-- UXTB r0, r1: r1=0x123456FF gives r0=0xFF. -/
theorem test_uxtb_1 :
    post (run 0x100#32 16 0xB2C8 [(1#4, 0x123456FF#32)] 0b0000#4 []) [0#4] []
      = some ([0xFF#32], [], 0b0000#4, 0x102#32, true) := by decide

/-- UXTH r0, r1: r1=0xFFFF8001 gives r0=0x8001. -/
theorem test_uxth_1 :
    post (run 0x100#32 16 0xB288 [(1#4, 0xFFFF8001#32)] 0b0000#4 []) [0#4] []
      = some ([0x8001#32], [], 0b0000#4, 0x102#32, true) := by decide

/-! ## The system instructions and exceptions -/

/-- CPSID i sets PRIMASK (R258). -/
theorem test_cps_1 : field (run 0x100#32 16 0xB672 [] 0#4 []) (·.primask) = some true := by decide

/-- CPSIE i clears it (R258). -/
theorem test_cps_2 :
    field (exec (.cps 0#1 cpsShouldBe) ((pre 0x100#32 [] 0#4 []).withPrimask true)) (·.primask) = some false := by decide

/-- DMB SY only advances the pc (R262). -/
theorem test_dmb_1 : post (run 0x100#32 32 0xF3BF8F5F [] 0#4 []) [] [] = some ([], [], 0#4, 0x104#32, true) := by decide

/-- DSB SY only advances the pc (R263). -/
theorem test_dsb_1 : post (run 0x100#32 32 0xF3BF8F4F [] 0#4 []) [] [] = some ([], [], 0#4, 0x104#32, true) := by decide

/-- ISB SY only advances the pc (R267). -/
theorem test_isb_1 : post (run 0x100#32 32 0xF3BF8F6F [] 0#4 []) [] [] = some ([], [], 0#4, 0x104#32, true) := by decide

/-- LDR r0, [pc, #8] at 0x102 reads the word at Align(0x106, 4) + 8 = 0x10C (R283). -/
theorem test_ldrLit_1 : post (run 0x102#32 16 0x4802 [] 0#4 [(0x10C, 0x78#8), (0x10D, 0x56#8), (0x10E, 0x34#8), (0x10F, 0x12#8)])
    [0#4] [] = some ([0x12345678#32], [], 0#4, 0x104#32, true) := by decide

/-- MRS r0, APSR with N and C set (R320). -/
theorem test_mrs_1 : post (run 0x100#32 32 0xF3EF8000 [] 0b1010#4 []) [0#4] []
    = some ([0xA0000000#32], [], 0b1010#4, 0x104#32, true) := by decide

/-- MRS r0, MSP (R320). -/
theorem test_mrs_2 : post (run 0x100#32 32 0xF3EF8008 [] 0#4 []) [0#4] []
    = some ([0x20001000#32], [], 0#4, 0x104#32, true) := by decide

/-- MSR APSR, r0 (R330). -/
theorem test_msr_1 : post (run 0x100#32 32 0xF3808800 [(0#4, 0x6FFFFFFF#32)] 0#4 []) [] []
    = some ([], [], 0b0110#4, 0x104#32, true) := by decide

/-- MSR MSP, r0 clears bits 1 and 0 (R330). -/
theorem test_msr_2 : post (run 0x100#32 32 0xF3808808 [(0#4, 0x20000FF6#32)] 0#4 []) [13#4] []
    = some ([0x20000FF4#32], [], 0#4, 0x104#32, true) := by decide

/-- MSR CONTROL, r0 with bit 1 set is refused at reset (R330, the vector of spec/95_test_vectors.md). -/
theorem test_msr_3 : exec (.msr 0#4 20#8 msrShouldBe) (pre 0x100#32 [(0#4, 2#32)] 0#4 [])
    = .refused (.outsideSingleStack 20#8) := by rfl

/-- NOP (R335). -/
theorem test_nop_1 : post (run 0x100#32 16 0xBF00 [] 0#4 []) [] [] = some ([], [], 0#4, 0x102#32, true) := by decide

/-- YIELD (R425). -/
theorem test_yield_1 : post (run 0x100#32 16 0xBF10 [] 0#4 []) [] [] = some ([], [], 0#4, 0x102#32, true) := by decide

/-- SEV (R349). -/
theorem test_sev_1 : field (run 0x100#32 16 0xBF40 [] 0#4 []) (fun t => (t.event, t.pc)) = some (true, 0x102#32) := by
  decide

/-- WFE with the event register set clears it (R423). -/
theorem test_wfe_1 : field (exec .wfe ((pre 0x100#32 [] 0#4 []).withEvent true)) (fun t => (t.event, t.pc, t.run))
    = some (false, 0x102#32, .running) := by decide

/-- WFI with a pending exception that would preempt goes on (R424). -/
theorem test_wfi_1 : field (exec .wfi { pre 0x100#32 [] 0#4 [] with primask := true, pending := [16#6] })
    (fun t => (t.pc, t.run)) = some (0x102#32, .running) := by decide

/-- SVC #5 enters SVCall: the frame at 0x20000FE0, return address 0x102, EXC_RETURN in LR (R394, R511). -/
theorem test_svc_1 : post (run 0x100#32 16 0xDF05 [(0#4, 7#32)] 0b1000#4 [(0x2C, 0x91#8)]) [0#4, 13#4, 14#4]
    [0x20000FE0, 0x20000FF8, 0x20000FFC] = some ([7#32, 0x20000FE0#32, 0xFFFFFFF9#32],
      [7#32, 0x102#32, 0x81000000#32], 0b1000#4, 0x90#32, true) := by decide

/-- SVC #5 with PRIMASK set escalates to HardFault (R502). -/
theorem test_svc_2 : field (exec (.svc 5#8) ((pre 0x100#32 [] 0#4 []).withPrimask true)) (fun t => (t.ipsr, t.lastFault))
    = some (3#6, some (.svcEscalated 0x100#32)) := by decide

/-- BKPT #0xAB takes HardFault with its own address (R503). -/
theorem test_bkpt_1 : post (run 0x100#32 16 0xBEAB [] 0#4 [(0x0C, 0x81#8)]) [14#4] [0x20000FF8]
    = some ([0xFFFFFFF9#32], [0x100#32], 0#4, 0x80#32, true) := by decide

/-- UDF #0 takes HardFault (R398). -/
theorem test_udfT1_1 : field (run 0x100#32 16 0xDE00 [] 0#4 []) (fun t => (t.ipsr, t.lastFault))
    = some (3#6, some (.undefined 0x100#32)) := by decide

/-- UDF.W #65535 takes HardFault (R399). -/
theorem test_udfT2_1 : field (run 0x100#32 32 0xF7FFAFFF [] 0#4 []) (fun t => (t.ipsr, t.lastFault))
    = some (3#6, some (.undefined 0x100#32)) := by decide

/-- 0xBF50 is an unallocated hint (R165). -/
theorem test_hint : run 0x100#32 16 0xBF50 [] 0#4 [] = .refused (.unallocatedHint 5#4) := by rfl

/-- 0xB100 is unallocated (R165). -/
theorem test_unallocated : field (run 0x100#32 16 0xB100 [] 0#4 []) (·.lastFault)
    = some (some (.undefined 0x100#32)) := by decide

/-- LDR r0, [r1] at a misaligned address takes HardFault (R104). -/
theorem test_misaligned : field (run 0x100#32 16 0x6808 [(1#4, 0x20000002#32)] 0#4 []) (fun t => (t.ipsr, t.lastFault))
    = some (3#6, some (.align 0x20000002#32 4)) := by decide

/-- The system control space is not admitted (R108, R112). -/
theorem test_unadmitted : field (run 0x100#32 16 0x6808 [(1#4, 0xE000E100#32)] 0#4 []) (·.lastFault)
    = some (some (.bus 0xE000E100#32 4 .read)) := by decide

/-- STM r1!, (r0, r1): the base in the list and not lowest still takes its word and the write-back (R370). -/
theorem test_stm_base : field (exec (.stm 1#3 3#8) (pre 0x100#32 [(0#4, 0xA0#32), (1#4, 0x20000000#32)] 0#4 []))
    (fun t => (t.x 1#4, t.freeIdx)) = some (0x20000008#32, 1) := by decide

/-! ## Witnesses: for every statement with hypotheses, what meets them -/

/-- A state to start from: at 0x100 in Thread mode, the stack at 0x20001000. -/
def base : State := pre 0x100#32 [(0#4, 0x20000000#32), (1#4, 1#32), (2#4, 0xFFFFFFFF#32)] 0b0110#4 loadData

/-- The same with a halfword placed at the pc. -/
def baseWith (w : Nat) : State := base.withFetchWord 16 w

/-- The same in the handler of an exception. -/
def inHandlerOf (e : ExcNum) : State := { base with mode := .handler, ipsr := e }

theorem canEnter_base (e : ExcNum) (he : e = 11#6 ∨ e = 3#6 ∨ e = 16#6) : CanEnter base e := by
  unfold CanEnter WritableWords Writable VectorReadable
  rcases he with rfl | rfl | rfl <;> decide

theorem canTake_base (e : ExcNum) (he : e = 11#6 ∨ e = 3#6 ∨ e = 16#6) : CanTake base e :=
  ⟨by decide, canEnter_base e he⟩

theorem canHardFault_base : CanHardFault base := ⟨by decide, canTake_base _ (by decide)⟩

theorem witness_inOwnRow : (Instr.lslImm 0#3 1#3 1#5).inOwnRow = true ∧ (Instr.lslImm 7#3 7#3 31#5).inOwnRow = true
    ∧ (Instr.addRegT2 12#4 14#4).inOwnRow = true ∧ (Instr.addSpRegT2 15#4).inOwnRow = true := by decide

theorem witness_decode : decode 0x07C8#16 0#16 = .ok (.lslImm 0#3 1#3 31#5)
    ∧ decode 0xF7FF#16 0xFFFE#16 = .ok (.bl 1#1 1023#10 1#1 1#1 2046#11) := by decide

theorem witness_unallocated : (5 ≤ (5#4).toNat ∧ 5 ≤ (15#4).toNat) ∧ 1#4 ≠ 0#4 ∧ 11#4 ∈ [1#4, 3#4, 7#4, 8#4, 9#4, 11#4]
    ∧ 2#3 ≠ 3#3 ∧ 4#3 ≠ 3#3 := by decide

theorem witness_stepRuns_narrow : (baseWith 0xBF00).run = .running ∧ (baseWith 0xBF00).preempting = none
    ∧ (baseWith 0xBF00).t = true ∧ (baseWith 0xBF00).admits 0x100#32 2 .fetch = true
    ∧ (baseWith 0xBF00).synchronised 0x100#32 = true ∧ isWide ((baseWith 0xBF00).fetchHalf 0x100#32) = false
    ∧ decode ((baseWith 0xBF00).fetchHalf 0x100#32) 0#16 = .ok .nop := by decide

/-- A 32-bit instruction in the last four bytes below the system control space. -/
def wideAtEdge : State := (pre 0xE000DFFC#32 [] 0#4 []).withFetchWord 32 0xF3BF8F5F

theorem witness_stepRuns_wide : wideAtEdge.run = .running ∧ wideAtEdge.preempting = none ∧ wideAtEdge.t = true
    ∧ wideAtEdge.admits wideAtEdge.pc 2 .fetch = true ∧ wideAtEdge.synchronised wideAtEdge.pc = true
    ∧ isWide (wideAtEdge.fetchHalf wideAtEdge.pc) = true ∧ wideAtEdge.synchronised (wideAtEdge.pc + 2#32) = true
    ∧ wideAtEdge.pc.toNat + 4 ≤ 2 ^ 32 ∧ wideAtEdge.admits (wideAtEdge.pc + 2#32) 2 .fetch = true
    ∧ decode (wideAtEdge.fetchHalf wideAtEdge.pc) (wideAtEdge.fetchHalf (wideAtEdge.pc + 2#32))
        = .ok (.dmb 15#4 barrierShouldBe) := by decide

theorem witness_fetch : (baseWith 0xBF00).fetch = .ok (0xBF00#16, 0#16)
    ∧ wideAtEdge.fetch = .ok (0xF3BF#16, 0x8F5F#16) ∧ isWide 0xF3BF#16 = true := by decide

/-- A 32-bit instruction whose second halfword lies in the system control space. -/
def wideOverEdge : State := { pre 0xE000DFFE#32 [] 0#4 [(0xE000DFFE, 0xBF#8), (0xE000DFFF, 0xF3#8)] with primask := false }

theorem witness_fetchFaults : CanHardFault { base with t := false } ∧ CanHardFault { base with pc := 0xE000E000#32 }
    ∧ { base with pc := 0xE000E000#32 }.admits 0xE000E000#32 2 .fetch = false ∧ CanHardFault wideOverEdge
    ∧ wideOverEdge.admits wideOverEdge.pc 2 .fetch = true ∧ wideOverEdge.synchronised wideOverEdge.pc = true
    ∧ wideOverEdge.pc.toNat + 4 ≤ 2 ^ 32 ∧ isWide (wideOverEdge.fetchHalf wideOverEdge.pc) = true
    ∧ wideOverEdge.admits (wideOverEdge.pc + 2#32) 2 .fetch = false ∧ base.run = .running ∧ base.preempting = none
    ∧ wideOverEdge.preempting = none := by
  unfold CanHardFault CanTake CanEnter WritableWords Writable VectorReadable
  decide

/-- The whole address space, as one region. -/
def wholeSpace : Region :=
  { base := 0, size := 2 ^ 32, canRead := true, canWrite := true, canFetch := true, privOnly := false }

/-- A 32-bit instruction in the last halfword of the address space, on a platform that admits it. -/
def wideAtTop : State :=
  { pre 0xFFFFFFFE#32 [] 0#4 [(0xFFFFFFFE, 0xBF#8), (0xFFFFFFFF, 0xF3#8)] with
    cfg := { architectureConfig with regions := [wholeSpace] } }

theorem witness_straddle : wideAtTop.admits wideAtTop.pc 2 .fetch = true ∧ wideAtTop.synchronised wideAtTop.pc = true
    ∧ isWide (wideAtTop.fetchHalf wideAtTop.pc) = true ∧ 2 ^ 32 < wideAtTop.pc.toNat + 4
    ∧ wideAtTop.t = true ∧ wideAtTop.run = .running ∧ wideAtTop.preempting = none := by decide

theorem test_straddle : step wideAtTop = .refused (.straddlesTop 0xFFFFFFFE#32) := by rfl

/-- STRH r1, [r0] where R1 holds the encoding of NOP and R0 the address 0x102, the next instruction's. -/
def selfModifying : State := (((baseWith 0x8001).setX 0#4 0x102#32).setX 1#4 0xBF00#32)

/-- The instruction a store has changed is refused until a DSB and then an ISB (R125, R612). -/
theorem test_selfModifying : field (step selfModifying) (fun t => (t.pc, match step t with
      | .refused r => some r
      | _ => none)) = some (0x102#32, some (.unsynchronisedFetch 0x102#32)) := by decide

/-- After a DSB and then an ISB it may be fetched; without the DSB the ISB does not help. -/
theorem test_synchronised : field (step selfModifying) (fun t =>
      ((t.withModified t.modified.drain.flush).synchronised 0x102#32,
        (t.withModified t.modified.flush).synchronised 0x102#32))
    = some (true, false) := by decide

/-- A byte that is stored with the value it had is modified all the same (R125). -/
theorem test_storedBack : field (exec (.strbImm 4#3 0#3 0#5) (baseWith 0xBF00)) (fun t =>
      (t.mem == (baseWith 0xBF00).mem, t.synchronised 0x20000000#32)) = some (false, false)
    ∧ field (exec (.strbImm 1#3 0#3 16#5) { base with mem := base.mem.write 0x20000010 1#8 }) (fun t =>
      (t.mem == base.mem.write 0x20000010 1#8, t.synchronised 0x20000010#32)) = some (true, false) := by decide

/-- A store has changed the second halfword of the 32-bit instruction at the pc. -/
def halfModified : State := { wideAtEdge with modified := { stored := [0xE000DFFE], drained := [] } }

/-- A DSB and no ISB has followed a store to the second byte of the halfword at the pc. -/
def undrained : State := { baseWith 0xBF00 with modified := { stored := [], drained := [0x101] } }

theorem witness_unsynchronised : undrained.admits undrained.pc 2 .fetch = true ∧ undrained.t = true
    ∧ Unsynchronised undrained (undrained.pc.toNat + 1) ∧ ¬ Unsynchronised halfModified halfModified.pc.toNat
    ∧ ¬ Unsynchronised halfModified (halfModified.pc.toNat + 1)
    ∧ isWide (halfModified.fetchHalf halfModified.pc) = true
    ∧ halfModified.pc.toNat + 4 ≤ 2 ^ 32 ∧ halfModified.admits (halfModified.pc + 2#32) 2 .fetch = true
    ∧ Unsynchronised halfModified (halfModified.pc + 2#32).toNat := by
  unfold Unsynchronised; decide

/-- The same where raising an exception ends the run. -/
def terminal : State := { base with cfg := { architectureConfig with trapEntry := .terminal } }

theorem witness_terminal : terminal.cfg.trapEntry = .terminal ∧ terminal.primask = false ∧ terminal.mode = .thread
    ∧ field (exec (.udfT1 0#8) terminal) (·.run) = some (.raised 3#6 0x100#32) := by decide

/-- Where raising ends the run, a misaligned load, a misaligned LDM, BKPT and a pending exception end it. -/
theorem test_terminal : field (exec (.ldrReg 0#3 0#3 1#3) terminal) (·.run) = some (.raised 3#6 0x100#32)
    ∧ field (exec (.ldm 1#3 6#8) terminal) (fun t => (t.run, t.x 0#4)) = some (.raised 3#6 0x100#32, 0x20000000#32)
    ∧ field (exec (.bkpt 0#8) terminal) (·.run) = some (.raised 3#6 0x100#32)
    ∧ field (step { terminal with pending := [16#6] }) (·.run) = some (.raised 16#6 0x100#32) := by decide

/-- On the defaults of R5 an SVC ends the run with SVCall raised (R510), and MSR CONTROL of 2 is refused (R330). -/
theorem test_defaultConfig : field (exec (.svc 5#8) { base with cfg := defaultConfig }) (·.run)
      = some (.raised 11#6 0x102#32)
    ∧ exec (.msr 4#4 20#8 msrShouldBe) { base.setX 4#4 2#32 with cfg := defaultConfig }
      = .refused (.outsideSingleStack 20#8) := ⟨by decide, by rfl⟩

theorem witness_undefined : CanHardFault (baseWith 0xB100) ∧ (baseWith 0xB100).preempting = none
    ∧ (baseWith 0xB100).fetch = .ok (0xB100#16, 0#16) ∧ decode 0xB100#16 0#16 = .error .undefined := by
  refine ⟨?_, by decide, by decide, by decide⟩
  unfold CanHardFault CanTake CanEnter WritableWords Writable VectorReadable
  decide

theorem witness_reset : Readable (resetOn architectureConfig []) 0#32 4 ∧ Readable (resetOn architectureConfig []) 4#32 4 := by
  unfold Readable; decide

theorem inv_base : base.Inv := by constructor <;> decide

theorem witness_invariant : (baseWith 0xBF00).Inv ∧ (field (step (baseWith 0xBF00)) (·.pc)).isSome = true :=
  ⟨by constructor <;> decide, by decide⟩

theorem witness_platform : (field (step { base with pending := [16#6, 2#6] }) (·.pending)) = some [16#6] := by decide

theorem witness_handlerMode : base.mode = .thread ∧ field (step (baseWith 0xDF05)) (·.mode) = some .handler := by decide

theorem witness_handlerMode_psp : field (step (((baseWith 0xDF05).withControl { spSel := true, nPriv := false }).withPsp 0x20002000#32)) (fun t => (t.mode, t.lr)) = some (.handler, 0xFFFFFFFD#32) := by decide

/-- The same on a platform on which both stack pointers are in use, as R66 and R530 describe. -/
def twoStacks : State := { base with cfg := { architectureConfig with singleStack := false } }

/-- MSR CONTROL with bit 1 set selects the process stack there, and MRS PSP reads it (R66). -/
theorem test_twoStacks : field (exec (.msr 4#4 20#8 msrShouldBe) (twoStacks.setX 4#4 2#32)) (fun t => (t.control.spSel, t.sp))
      = some (true, 0#32)
    ∧ field (exec (.mrs 0#4 9#8 mrsShouldBe) { twoStacks with psp := 0x20002000#32 }) (·.x 0#4) = some 0x20002000#32 := by
  decide

/-- Unprivileged Thread mode about to execute MSR CONTROL, r0, where both stack pointers are in use. -/
def unprivileged : State :=
  { ((pre 0x100#32 [(0#4, 3#32)] 0#4 []).withFetchWord 32 0xF3808814).withControl { spSel := false, nPriv := true } with
    cfg := twoStacks.cfg }

theorem witness_unprivileged : unprivileged.mode = .thread ∧ unprivileged.control.nPriv = true
    ∧ field (step unprivileged) (·.mode) = some .thread := by decide

theorem witness_unprivileged_psp : { unprivileged with control := { spSel := true, nPriv := true } }.mode = .thread
    ∧ field (step { unprivileged with control := { spSel := true, nPriv := true } }) (·.mode) = some .thread := by decide

theorem witness_flagWriters : (field (exec (.bx 1#4 0#3) base) (·.pc)).isSome = true ∧ base.mode = .thread
    ∧ (field (exec (.ldrImmT1 0#3 0#3 0#5) (inHandlerOf 11#6)) (·.pc)).isSome = true
    ∧ (field (exec (.mul 0#3 1#3) base) (·.pc)).isSome = true
    ∧ (field (exec (.movImm 0#3 0#8) base) (·.pc)).isSome = true
    ∧ (field (exec (.lsrReg 0#3 3#3) base) (·.pc)).isSome = true ∧ (base.x (lowReg 3#3)).toNat % 256 = 0
    ∧ (field (exec (.asrImm 0#3 1#3 0#5) base) (·.pc)).isSome = true
    ∧ (field (exec (.msr 0#4 5#8 msrShouldBe) base) (·.pc)).isSome = true ∧ 4 ≤ (5#8).toNat := by decide

/-- The words at R0 are program text. -/
def withText : State := { base with cfg := { architectureConfig with text := [{ base := 0x20000000, size := 8 }] } }

/-- At reset the restriction of D21 holds. -/
theorem test_restricted : exec (.mrs 0#4 9#8 mrsShouldBe) base = .refused (.outsideSingleStack 9#8)
    ∧ exec (.msr 1#4 20#8 msrShouldBe) base = .refused (.outsideSingleStack 20#8)
    ∧ field (exec (.msr 12#4 20#8 msrShouldBe) base) (·.pc) = some 0x104#32 := ⟨by rfl, by rfl, by decide⟩

theorem witness_restricted : base.cfg.singleStack = true ∧ (base.x 1#4).extractLsb' 0 2 ≠ 0#2
    ∧ (base.x 12#4).extractLsb' 0 2 = 0#2 ∧ (base.mode = .handler ∨ base.control.nPriv = false)
    ∧ twoStacks.cfg.singleStack = false ∧ (twoStacks.mode = .handler ∨ twoStacks.control.nPriv = false)
    ∧ unprivileged.cfg.singleStack = false
    ∧ { unprivileged with cfg := base.cfg }.cfg.singleStack = true
    ∧ ({ unprivileged with cfg := base.cfg }.x 0#4).extractLsb' 0 2 ≠ 0#2 := by decide

/-- STM and PUSH reach a word of program text after one that is not. -/
def textAhead : State := { withText with msp := 0x20000008#32, cfg := { withText.cfg with text := [{ base := 0x20000004, size := 4 }] } }

theorem witness_textAhead : (textAhead.x (lowReg 0#3)).toNat % 4 = 0 ∧ 1 < rankIn 3#8 8
    ∧ WritableWords textAhead (textAhead.x (lowReg 0#3)) 1
    ∧ textAhead.overlapsText (textAhead.x (lowReg 0#3) + 4#32 * BitVec.ofNat 32 1) 4 = true
    ∧ textAhead.sp - 4#32 * BitVec.ofNat 32 (rankIn 1#8 8 + (1#1).toNat) = 0x20000000#32
    ∧ WritableWords textAhead 0x20000000#32 1
    ∧ textAhead.overlapsText (0x20000000#32 + 4#32 * BitVec.ofNat 32 1) 4 = true := by
  unfold WritableWords Writable; decide

theorem test_textAhead : exec (.stm 0#3 3#8) textAhead = .refused (.storeToProgramText 0x20000004#32)
    ∧ exec (.push 1#1 1#8) textAhead = .refused (.storeToProgramText 0x20000004#32) := ⟨by rfl, by rfl⟩

theorem witness_wellFormedRefused : (Instr.strImmT1 1#3 0#3 1#5).wellFormed = true
    ∧ storeAccess withText (.strImmT1 1#3 0#3 1#5) = some (0x20000004#32, 4, 1#3)
    ∧ withText.overlapsText 0x20000004#32 4 = true ∧ (Instr.bx 2#4 0#3).wellFormed = true
    ∧ (inHandlerOf 11#6).isExceptionReturn ((inHandlerOf 11#6).x 2#4) = true
    ∧ returnTo ((inHandlerOf 11#6).x 2#4) = none := by decide

theorem witness_unpredictable : (Instr.blx 1#4 1#3).shouldBeOk = false
    ∧ (Instr.addRegT2 15#4 15#4).shouldBeOk = true ∧ (Instr.addRegT2 15#4 15#4).valuesOk = false
    ∧ (Instr.mrs 0#4 4#8 mrsShouldBe).shouldBeOk = true ∧ (Instr.mrs 0#4 4#8 mrsShouldBe).valuesOk = false := by decide

/-- In a handler, with an exception return value whose low four bits name no return at the word POP loads for the PC. -/
def badReturn : State :=
  { inHandlerOf 11#6 with msp := 0x20002000#32, mem := base.mem.writeBytes 0x20002004 [0xFF#8, 0xFF#8, 0xFF#8, 0xFF#8] }

theorem witness_badReturn : badReturn.mode = .handler ∧ (0xFFFFFFFF#32 : Word).extractLsb' 28 4 = 0b1111#4
    ∧ (0xFFFFFFFF#32 : Word).extractLsb' 0 4 = 0b1111#4 ∧ badReturn.x 2#4 = 0xFFFFFFFF#32
    ∧ ReadableWords badReturn badReturn.sp (rankIn 1#8 8 + 1)
    ∧ Stored badReturn (badReturn.sp + 4#32 * BitVec.ofNat 32 (rankIn 1#8 8)) 4 0xFFFFFFFF#32 := by
  unfold ReadableWords Readable Stored; decide

theorem test_badReturn : exec (.pop 1#1 1#8) badReturn = .refused (.unpredictableReturn 0xFFFFFFFF#32) := by rfl

theorem witness_compareHigh : (8 ≤ (8#4).toNat ∨ 8 ≤ (0#4).toNat) ∧ 8#4 ≠ 15#4 ∧ 0#4 ≠ 15#4
    ∧ (8 ≤ (7#4).toNat ∨ 8 ≤ (14#4).toNat) ∧ 7#4 ≠ 15#4 ∧ 14#4 ≠ 15#4 := by decide

theorem witness_compareHighRefused : ((7#4).toNat < 8 ∧ (7#4).toNat < 8) ∧ (15#4 : RegNum) = 15#4
    ∧ exec (.cmpRegT2 7#4 7#4) base = .refused .unpredictable
    ∧ exec (.cmpRegT2 15#4 8#4) base = .refused .unpredictable := ⟨by decide, rfl, rfl, rfl⟩

theorem witness_shiftLeftImmediate : (1#5 : BitVec 5) ≠ 0#5 ∧ (31#5 : BitVec 5) ≠ 0#5
    ∧ decode 0x07C8#16 0#16 = .ok (.lslImm 0#3 1#3 31#5) := by decide

theorem witness_addHigh : ¬ (15#4 = 15#4 ∧ 14#4 = 15#4) ∧ ¬ (0#4 = 15#4 ∧ 15#4 = 15#4) := by decide

theorem witness_loadWord : Readable base (base.x (lowReg 0#3) + 4#32 * (31#5).setWidth 32) 4
    ∧ Readable base (base.sp + 4#32 * (255#8).setWidth 32) 4
    ∧ Readable base (((base.pc + 4#32) &&& 0xFFFFFFFC#32) + 4#32 * (0#8).setWidth 32) 4
    ∧ Readable base (base.x (lowReg 0#3) + base.x (lowReg 3#3)) 4 := by unfold Readable; decide

theorem witness_narrowLoad : Readable base (base.x (lowReg 0#3) + (31#5).setWidth 32) 1
    ∧ Readable base (base.x (lowReg 0#3) + 2#32 * (31#5).setWidth 32) 2
    ∧ Readable base (base.x (lowReg 0#3) + base.x (lowReg 1#3)) 1
    ∧ Readable base (base.x (lowReg 0#3) + base.x (lowReg 3#3)) 2 := by unfold Readable; decide

theorem witness_store : storeAccess base (.strbImm 1#3 0#3 31#5) = some (0x2000001F#32, 1, 1#3)
    ∧ Writable base 0x2000001F#32 1 ∧ storeAccess base (.strImmT2 1#3 255#8) = some (0x200013FC#32, 4, 1#3)
    ∧ Writable base 0x200013FC#32 4 ∧ storeAccess base (.strhReg 1#3 0#3 3#3) = some (0x20000000#32, 2, 1#3)
    ∧ Writable base 0x20000000#32 2 := by unfold Writable; decide

theorem witness_misaligned : CanHardFault base ∧ loadAccess base (.ldrReg 0#3 0#3 1#3) = some (0x20000001#32, 4)
    ∧ (0x20000001#32).toNat % 4 ≠ 0 ∧ storeAccess base (.strhReg 0#3 0#3 1#3) = some (0x20000001#32, 2, 0#3)
    ∧ (0x20000001#32).toNat % 2 ≠ 0 := ⟨canHardFault_base, by decide⟩

/-- R0 holds the first address of the system control space. -/
def atScs : State := base.setX 0#4 0xE000E000#32

theorem witness_unadmitted : CanHardFault atScs ∧ loadAccess atScs (.ldrImmT1 1#3 0#3 0#5) = some (0xE000E000#32, 4)
    ∧ atScs.admits 0xE000E000#32 4 .read = false ∧ storeAccess atScs (.strbImm 1#3 0#3 31#5) = some (0xE000E01F#32, 1, 1#3)
    ∧ atScs.overlapsText 0xE000E01F#32 1 = false ∧ atScs.admits 0xE000E01F#32 1 .write = false
    ∧ storeAccess withText (.strImmT1 1#3 0#3 1#5) = some (0x20000004#32, 4, 1#3)
    ∧ withText.overlapsText 0x20000004#32 4 = true := by
  unfold CanHardFault CanTake CanEnter WritableWords Writable VectorReadable
  decide

theorem witness_loadMultiple : ReadableWords base (base.x (lowReg 0#3)) (rankIn 255#8 8)
    ∧ ReadableWords base (base.x (lowReg 0#3)) (rankIn 1#8 8) ∧ ¬ InList 2#8 (lowReg 0#3) ∧ InList 1#8 (lowReg 0#3) := by
  unfold ReadableWords Readable InList; decide

/-- The stack pointer at the data, in a handler. -/
def popState : State := { base with msp := 0x20000000#32 }

theorem stored_popState : Stored popState 0x20000000#32 4 0x80F0A1B2#32 := by unfold Stored; decide

theorem witness_pop : ReadableWords popState popState.sp (rankIn 255#8 8 + (1#1).toNat)
    ∧ ReadableWords popState popState.sp (rankIn 1#8 8 + (0#1).toNat) ∧ popState.mode ≠ .handler := by
  unfold ReadableWords Readable; decide

theorem witness_push : WritableWords base (base.sp - 4#32 * BitVec.ofNat 32 (rankIn 255#8 8 + (1#1).toNat)) 9
    ∧ rankIn 255#8 8 + (1#1).toNat = 9 ∧ WritableWords base (base.sp - 4#32 * BitVec.ofNat 32 1) 1
    ∧ rankIn 0#8 8 + (1#1).toNat = 1 := by
  unfold WritableWords Writable; decide

theorem witness_storeMultiple : WritableWords base (base.x (lowReg 0#3)) (rankIn 255#8 8)
    ∧ rankIn 255#8 (lowReg 0#3).toNat = 0 ∧ InList 255#8 7#4 := by
  unfold WritableWords Writable InList; decide

theorem witness_misalignedMultiple : CanHardFault base ∧ (base.x (lowReg 1#3)).toNat % 4 ≠ 0 ∧ (1#8 : BitVec 8) ≠ 0#8 :=
  ⟨canHardFault_base, by decide⟩

/-- R0 two words below the system control space. -/
def partWay : State := base.setX 0#4 0xE000DFF8#32

theorem witness_partWay : CanHardFault partWay ∧ 2 < rankIn 7#8 8 ∧ (partWay.x (lowReg 0#3)).toNat % 4 = 0
    ∧ ReadableWords partWay (partWay.x (lowReg 0#3)) 2 ∧ WritableWords partWay (partWay.x (lowReg 0#3)) 2
    ∧ partWay.admits (partWay.x (lowReg 0#3) + 4#32 * BitVec.ofNat 32 2) 4 .read = false
    ∧ partWay.overlapsText (partWay.x (lowReg 0#3) + 4#32 * BitVec.ofNat 32 2) 4 = false
    ∧ partWay.admits (partWay.x (lowReg 0#3) + 4#32 * BitVec.ofNat 32 2) 4 .write = false := by
  unfold CanHardFault CanTake CanEnter ReadableWords WritableWords Readable Writable VectorReadable
  decide

/-- A stack of two words between memory that is there and the system control space. -/
def shortStack : State := base.withMsp 0xE000DFF8#32

theorem witness_partWayPop : CanHardFault shortStack ∧ 2 < rankIn 3#8 8 + (1#1).toNat ∧ shortStack.sp.toNat % 4 = 0
    ∧ ReadableWords shortStack shortStack.sp 2
    ∧ shortStack.admits (shortStack.sp + 4#32 * BitVec.ofNat 32 2) 4 .read = false := by
  unfold CanHardFault CanTake CanEnter ReadableWords WritableWords Readable Writable VectorReadable
  decide

/-- A stack pointer one word into the system control space, so that its frame lies below it and a pushed word does not. -/
def smallStack : State := base.withMsp 0xE000E004#32

theorem witness_partWayPush : CanHardFault smallStack
    ∧ smallStack.sp - 4#32 * BitVec.ofNat 32 (rankIn 1#8 8 + (1#1).toNat) = 0xE000DFFC#32
    ∧ 1 < rankIn 1#8 8 + (1#1).toNat ∧ WritableWords smallStack 0xE000DFFC#32 1
    ∧ smallStack.overlapsText (0xE000DFFC#32 + 4#32 * BitVec.ofNat 32 1) 4 = false
    ∧ smallStack.admits (0xE000DFFC#32 + 4#32 * BitVec.ofNat 32 1) 4 .write = false := by
  unfold CanHardFault CanTake CanEnter WritableWords Writable VectorReadable
  decide

/-- Where raising ends the run, PUSH that faults part-way ends it at its own address with the fault recorded, and the stack
pointer that is not in use is as before (R111, R342, R510). -/
theorem test_partWayPush : field (exec (.push 1#1 1#8) { smallStack with cfg := terminal.cfg, psp := 4#32 })
      (fun t => (t.run, t.pc, t.psp, t.lastFault))
    = some (.raised 3#6 0x100#32, 0x100#32, 4#32, some (.bus 0xE000E000#32 4 .write)) := by decide

theorem witness_branch : base.pc.getLsbD 0 = false ∧ CondTrue base.apsr .eq ∧ ¬ CondTrue base.apsr .hi
    ∧ ¬ CondTrue base.apsr .mi := by unfold CondTrue; decide

theorem witness_branchCode : (Cond.eq, 0#4) ∈ [(Cond.eq, 0#4), (.le, 13#4)] ∧ (Cond.le, 13#4) ∈ [(Cond.eq, 0#4), (.le, 13#4)]
    ∧ decode 0xD0FE#16 0#16 = .ok (.bT1 .eq 0xFE#8) ∧ decode 0xDD00#16 0#16 = .ok (.bT1 .le 0#8) := by decide

theorem witness_interworking : 13#4 ≠ 15#4 ∧ base.mode ≠ .handler
    ∧ ¬ ((inHandlerOf 11#6).mode = .handler ∧ ((inHandlerOf 11#6).x 0#4).extractLsb' 28 4 = 0b1111#4) := by decide

theorem witness_primask : (base.withPrimask true).primask = true
    ∧ { base with primask := true, pending := [16#6, 2#6] }.preempting = some 2#6
    ∧ field (exec (.svc 0#8) (base.withPrimask true)) (·.ipsr) = some 3#6
    ∧ field (exec (.svc 0#8) { inHandlerOf 11#6 with primask := true, msp := 0xE000E020#32 }) (·.ipsr)
        = some 11#6 := by decide

theorem witness_primaskWriters : field (step (baseWith 0xB672)) (·.primask) = some true ∧ base.primask = false
    ∧ field (step (((baseWith 0xBF00).withFetchWord 32 0xF3818810))) (·.primask) = some true := by decide

theorem witness_cpsShouldBe : (3#4 : BitVec 4) ≠ 0b0010#4 ∧ (0#4 : BitVec 4) ≠ 0b0010#4 := by decide

theorem witness_waits : { base with run := .waitingForEvent, pending := [16#6] }.preempting ≠ none
    ∧ { base with run := .waitingForEvent }.preempting = none ∧ base.event = false
    ∧ { base with primask := true, run := .waitingForInterrupt, pending := [16#6] }.preempting = none
    ∧ { base with primask := false, run := .waitingForInterrupt, pending := [16#6] }.preempting ≠ none := by decide

theorem witness_special : (0#4 ≠ 13#4 ∧ 14#4 ≠ 15#4) ∧ allocatedSysm 0#8 = true ∧ allocatedSysm 3#8 = true
    ∧ allocatedSysm 5#8 = true ∧ allocatedSysm 20#8 = true ∧ base.control.nPriv = false
    ∧ (inHandlerOf 11#6).mode = .handler ∧ unprivileged.mode = .thread ∧ unprivileged.control.nPriv = true := by decide

theorem witness_svc : base.mode = .thread ∧ base.primask = false ∧ CanTake base 11#6 :=
  ⟨by decide, by decide, canTake_base _ (by decide)⟩

/-- In the handler of interrupt 16, whose level is 2 where SVCall's is 1; interrupt 17 is of SVCall's level. -/
def inLevels (e : ExcNum) : State :=
  { inHandlerOf e with cfg := { architectureConfig with levels := [(16#6, 2#2), (11#6, 1#2), (17#6, 1#2)] } }

theorem witness_svcLevels : (inLevels 16#6).priority 11#6 < (inLevels 16#6).priority (inLevels 16#6).ipsr
    ∧ (inLevels 17#6).priority (inLevels 17#6).ipsr ≤ (inLevels 17#6).priority 11#6
    ∧ CanTake (inLevels 16#6) 11#6 ∧ CanHardFault (inLevels 17#6) ∧ (inLevels 16#6).primask = false
    ∧ (inHandlerOf 2#6).cfg.trapEntry = .architecture := by
  unfold CanHardFault CanTake CanEnter WritableWords Writable VectorReadable
  decide

/-- SVC in a handler of lower priority is taken; in one of equal priority it escalates; in HardFault's it locks up. -/
theorem test_svcLevels : field (exec (.svc 0#8) (inLevels 16#6)) (·.ipsr) = some 11#6
    ∧ field (exec (.svc 0#8) (inLevels 17#6)) (·.ipsr) = some 3#6
    ∧ field (exec (.svc 0#8) (inHandlerOf 3#6)) (·.run) = some .lockup := by decide

theorem witness_escalate : CanHardFault (base.withPrimask true) ∧ CanHardFault (inHandlerOf 11#6)
    ∧ (inHandlerOf 11#6).mode = .handler ∧ (inHandlerOf 11#6).ipsr = 11#6 := by
  unfold CanHardFault CanTake CanEnter WritableWords Writable VectorReadable
  decide

theorem witness_breakpoint : CanHardFault base ∧ base.cfg.debugHalt = false
    ∧ { base with cfg := { architectureConfig with debugHalt := true } }.cfg.debugHalt = true :=
  ⟨canHardFault_base, by decide⟩

/-- In the SVCall handler with an exception return value in R4, its frame at the data. -/
def returning (value : Word) : State :=
  { (inHandlerOf 11#6).setX 4#4 value with msp := 0x20000000#32, psp := 0x20000100#32 }

theorem witness_return : ((returning 0xFFFFFFF1#32).x 4#4).extractLsb' 28 4 = 0b1111#4
    ∧ ((returning 0xFFFFFFF1#32).x 4#4).extractLsb' 0 4 = 0b0001#4 ∧ (returning 0xFFFFFFF1#32).control.spSel = false
    ∧ ((returning 0xFFFFFFF9#32).x 4#4).extractLsb' 0 4 = 0b1001#4
    ∧ ((returning 0xFFFFFFFD#32).x 4#4).extractLsb' 0 4 = 0b1101#4
    ∧ ReadableWords (returning 0xFFFFFFF9#32) (returning 0xFFFFFFF9#32).msp 8
    ∧ ReadableWords (returning 0xFFFFFFFD#32) (returning 0xFFFFFFFD#32).psp 8 := by
  unfold ReadableWords Readable; decide

/-- In the SVCall handler about to pop R4 and the PC, with the bytes of an exception return value above R4's word. -/
def popReturning (low : Byte) : State :=
  { inHandlerOf 11#6 with
    msp := 0x20002000#32, psp := 0x20000100#32, mem := base.mem.writeBytes 0x20002004 [low, 0xFF#8, 0xFF#8, 0xFF#8] }

theorem witness_popReturn : (popReturning 0xFD#8).mode = .handler ∧ (popReturning 0xFD#8).control.spSel = false
    ∧ rankIn 16#8 8 + 1 = 2 ∧ ReadableWords (popReturning 0xFD#8) 0x20002000#32 2
    ∧ Stored (popReturning 0xF1#8) (0x20002000#32 + 4#32 * BitVec.ofNat 32 (rankIn 16#8 8)) 4 0xFFFFFFF1#32
    ∧ Stored (popReturning 0xF9#8) (0x20002000#32 + 4#32 * BitVec.ofNat 32 (rankIn 16#8 8)) 4 0xFFFFFFF9#32
    ∧ Stored (popReturning 0xFD#8) (0x20002000#32 + 4#32 * BitVec.ofNat 32 (rankIn 16#8 8)) 4 0xFFFFFFFD#32
    ∧ ReadableWords (popReturning 0xF9#8) 0x20002008#32 8
    ∧ ReadableWords (popReturning 0xFD#8) (popReturning 0xFD#8).psp 8 := by
  unfold ReadableWords Readable Stored; decide

/-- POP {r4, pc} returns with the frame above its own words, or on the process stack (R341, R520). -/
theorem test_popReturn : field (exec (.pop 1#1 16#8) (popReturning 0xF9#8)) (fun t => (t.mode, t.msp, t.control.spSel))
      = some (.thread, 0x20002028#32, false)
    ∧ field (exec (.pop 1#1 16#8) (popReturning 0xFD#8)) (fun t => (t.mode, t.msp, t.psp))
      = some (.thread, 0x20002008#32, 0x20000120#32) := by decide

theorem witness_roundTrip : base.Inv ∧ CanTake base 11#6 ∧ (∀ k < 8, base.cfg.regions.any (fun r =>
    decide (r.base ≤ (frameBase base + 4#32 * BitVec.ofNat 32 k).toNat)
      && decide ((frameBase base + 4#32 * BitVec.ofNat 32 k).toNat + 4 ≤ r.base + r.size) && r.canRead) = true)
    ∧ (field (exec (.svc 0#8) base) (·.pc)).isSome = true :=
  ⟨inv_base, canTake_base _ (by decide), by decide, by decide⟩

theorem witness_preempts : { base with pending := [17#6, 16#6] }.preempting = some 16#6
    ∧ { base with pending := [17#6, 16#6] }.run = .running ∧ CanTake { base with pending := [17#6, 16#6] } 16#6 := by
  unfold CanTake CanEnter WritableWords Writable VectorReadable
  decide

theorem witness_lockup : (inHandlerOf 3#6).mode = .handler ∧ (inHandlerOf 3#6).ipsr = 3#6
    ∧ (2#6 : ExcNum) ∉ { inHandlerOf 3#6 with run := .lockup }.pending
    ∧ CanTake { inHandlerOf 3#6 with run := .running, pending := [2#6] } 2#6 := by
  unfold CanTake CanEnter WritableWords Writable VectorReadable
  decide

/-- A stack whose next frame would lie in the system control space. -/
def noStack : State := { base with msp := 0xE000E040#32 }

theorem witness_lockupFrame : CannotHardFault noStack ∧ CannotHardFault (inHandlerOf 3#6)
    ∧ loadAccess noStack (.ldrReg 0#3 0#3 1#3) = some (0x20000001#32, 4)
    ∧ storeAccess noStack (.strhReg 0#3 0#3 1#3) = some (0x20000001#32, 2, 0#3)
    ∧ { noStack with t := false }.fetch = .hardFault (.state 0x100#32) ∧ noStack.cfg.debugHalt = false
    ∧ (noStack.withFetchWord 16 0xB100).fetch = .ok (0xB100#16, 0#16)
    ∧ CannotHardFault (noStack.withFetchWord 16 0xB100) ∧ CannotHardFault { noStack with t := false }
    ∧ CannotHardFault (noStack.withPrimask true) := by
  unfold CannotHardFault; decide

/-- An undefined pattern and a breakpoint lock up where HardFault has no stack. -/
theorem test_lockup : field (step (noStack.withFetchWord 16 0xB100)) (·.run) = some .lockup
    ∧ field (exec (.bkpt 0#8) noStack) (·.run) = some .lockup := by decide

end Sys2Proof.Tests
end

/-! Decoding and the bits of a shift: the shift instructions (O26, O27, O28). -/

namespace Sys2Proof

/-! ## Decoding the formats of the shift instructions -/

/-- A halfword that starts no 32-bit instruction is decoded alone (R140). -/
theorem decode_of_narrow {hw : Half} (h : isWide hw = false) (hw2 : Half) : decode hw hw2 = decode16 hw := by
  simp [decode, h]

/-- The fields of a data-processing halfword (R145). -/
theorem slices_dataProcessing (op : BitVec 4) (rd rm : LowReg) :
    slice (encodeDataProcessing op rd rm) 10 1 = 0#1 ∧ slice (encodeDataProcessing op rd rm) 6 4 = op
      ∧ slice (encodeDataProcessing op rd rm) 3 3 = rm ∧ slice (encodeDataProcessing op rd rm) 0 3 = rd := by
  refine ⟨?_, ?_, ?_, ?_⟩
  · simp (disch := decide) only [encodeDataProcessing, slice_half, slice_append_high, Nat.reduceSub]; decide
  all_goals
    simp (disch := decide) only [encodeDataProcessing, slice_half, slice_append_high, slice_append_low, slice_all,
      Nat.reduceSub]

/-- A data-processing halfword is decoded by its operation (R142, R145). -/
theorem decode_dataProcessing (op : BitVec 4) (rd rm : LowReg) (hw2 : Half) :
    decode (encodeDataProcessing op rd rm) hw2 = .ok (decodeDataProcessing (encodeDataProcessing op rd rm)) := by
  have htop := Laws.EncodingLength.top_dataProcessing op rd rm
  obtain ⟨h10, -, -, -⟩ := slices_dataProcessing op rd rm
  rw [decode_of_narrow (by rw [isWide, htop]; decide), decode16, htop]
  simp [h10]

/-- The fields of a halfword with a five-bit immediate (R142). -/
theorem slices_imm5 (op : BitVec 5) (rt rn : LowReg) (imm5 : BitVec 5) :
    slice (encodeImm5 op rt rn imm5) 6 5 = imm5 ∧ slice (encodeImm5 op rt rn imm5) 3 3 = rn
      ∧ slice (encodeImm5 op rt rn imm5) 0 3 = rt := by
  refine ⟨?_, ?_, ?_⟩ <;>
    simp (disch := decide) only [encodeImm5, slice_half, slice_append_high, slice_append_low, slice_all, Nat.reduceSub]

/-- LSLS, LSRS and ASRS by a register, read back (R222, R311, R313). -/
theorem decode_shiftReg (rd rm : LowReg) (hw2 : Half) :
    decode (encodeDataProcessing 0b0010#4 rd rm) hw2 = .ok (.lslReg rd rm)
      ∧ decode (encodeDataProcessing 0b0011#4 rd rm) hw2 = .ok (.lsrReg rd rm)
      ∧ decode (encodeDataProcessing 0b0100#4 rd rm) hw2 = .ok (.asrReg rd rm) := by
  have read (op : BitVec 4) := slices_dataProcessing op rd rm
  refine ⟨?_, ?_, ?_⟩ <;>
    · rw [decode_dataProcessing, decodeDataProcessing, (read _).2.1, (read _).2.2.1, (read _).2.2.2]
      rfl

/-- LSLS by an immediate other than 0, LSRS and ASRS by an immediate, read back (R221, R310, R312). -/
theorem decode_shiftImm (rd rm : LowReg) (imm5 : BitVec 5) (hw2 : Half) :
    (imm5 ≠ 0#5 → decode (encodeImm5 0b00000#5 rd rm imm5) hw2 = .ok (.lslImm rd rm imm5))
      ∧ decode (encodeImm5 0b00001#5 rd rm imm5) hw2 = .ok (.lsrImm rd rm imm5)
      ∧ decode (encodeImm5 0b00010#5 rd rm imm5) hw2 = .ok (.asrImm rd rm imm5) := by
  have narrow (op : BitVec 5) (h : (op == 0b11101#5 || op == 0b11110#5 || op == 0b11111#5) = false) :
      decode (encodeImm5 op rd rm imm5) hw2 = decode16 (encodeImm5 op rd rm imm5) :=
    decode_of_narrow (by rw [isWide, Laws.EncodingLength.top_imm5]; exact h) hw2
  refine ⟨fun h0 => ?_, ?_, ?_⟩
  · obtain ⟨h6, h3, h⟩ := slices_imm5 0b00000#5 rd rm imm5
    rw [narrow _ (by decide), decode16, Laws.EncodingLength.top_imm5, h6, h3, h]
    simp [h0]
  · obtain ⟨h6, h3, h⟩ := slices_imm5 0b00001#5 rd rm imm5
    rw [narrow _ (by decide), decode16, Laws.EncodingLength.top_imm5, h6, h3, h]
    rfl
  · obtain ⟨h6, h3, h⟩ := slices_imm5 0b00010#5 rd rm imm5
    rw [narrow _ (by decide), decode16, Laws.EncodingLength.top_imm5, h6, h3, h]
    rfl

end Sys2Proof

namespace Sys2Proof.Machine

/-! ## The bits of a shift (R21) -/

/-- The amount of a shift by a register is its value modulo 256. -/
theorem regShift_eq (v : Word) : regShift v = v.toNat % 256 := BitVec.toNat_setWidth 8 v

/-- An immediate right shift moves at least one place. -/
theorem immShiftRight_pos (imm5 : BitVec 5) : immShiftRight imm5 ≠ 0 := by revert imm5; decide

theorem immShiftRight_le (imm5 : BitVec 5) : immShiftRight imm5 ≤ 32 := by revert imm5; decide

theorem shiftC_zero (v : Word) (type : SRType) (c : Bool) : shiftC v type 0 c = (v, c) := rfl

theorem shiftC_lsl (v : Word) {n : Nat} (h : n ≠ 0) (c : Bool) : shiftC v .lsl n c = lslC v n := if_neg h

theorem shiftC_lsr (v : Word) {n : Nat} (h : n ≠ 0) (c : Bool) : shiftC v .lsr n c = lsrC v n := if_neg h

theorem shiftC_asr (v : Word) {n : Nat} (h : n ≠ 0) (c : Bool) : shiftC v .asr n c = asrC v n := if_neg h

/-- LSL brings zeros in from below. -/
theorem shiftC_lsl_getLsbD (v : Word) (n : Nat) (c : Bool) (i : Nat) (hi : i < 32) :
    (shiftC v .lsl n c).1.getLsbD i = (decide (n ≤ i) && v.getLsbD (i - n)) := by
  rcases Nat.eq_zero_or_pos n with rfl | h
  · simp [shiftC_zero]
  · simp only [shiftC_lsl v (Nat.ne_of_gt h) c, lslC]
    split_ifs with h32
    · have : ¬ n ≤ i := by omega
      simp [this]
    · by_cases hni : n ≤ i
      · simp [hi, hni, Nat.not_lt.mpr hni, -BitVec.getLsbD_eq_getElem]
      · simp [hni, Nat.lt_of_not_le hni]

/-- The carry of LSL is the last bit shifted out at the top. -/
theorem shiftC_lsl_carry (v : Word) (n : Nat) (c : Bool) :
    (shiftC v .lsl n c).2 = if n = 0 then c else decide (n ≤ 32) && v.getLsbD (32 - n) := by
  split_ifs with h
  · rw [h, shiftC_zero]
  · simp only [shiftC_lsl v h c, lslC]
    by_cases h32 : n ≤ 32
    · simp [h32, Nat.not_lt.mpr h32]
    · simp [h32, Nat.lt_of_not_le h32]

/-- LSR brings zeros in from above. -/
theorem shiftC_lsr_getLsbD (v : Word) (n : Nat) (c : Bool) (i : Nat) :
    (shiftC v .lsr n c).1.getLsbD i = v.getLsbD (i + n) := by
  rcases Nat.eq_zero_or_pos n with rfl | h
  · simp [shiftC_zero]
  · simp only [shiftC_lsr v (Nat.ne_of_gt h) c, lsrC]
    split_ifs with h32
    · rw [BitVec.getLsbD_of_ge v (i + n) (by omega), BitVec.getLsbD_zero]
    · rw [BitVec.getLsbD_ushiftRight, Nat.add_comm]

/-- The carry of LSR is the last bit shifted out at the bottom. -/
theorem shiftC_lsr_carry (v : Word) (n : Nat) (c : Bool) :
    (shiftC v .lsr n c).2 = if n = 0 then c else v.getLsbD (n - 1) := by
  split_ifs with h
  · rw [h, shiftC_zero]
  · simp only [shiftC_lsr v h c, lsrC]
    split_ifs with h32
    · rw [BitVec.getLsbD_of_ge v (n - 1) (by omega)]
    · rfl

/-- ASR brings copies of bit 31 in from above. -/
theorem shiftC_asr_getLsbD (v : Word) (n : Nat) (c : Bool) (i : Nat) (hi : i < 32) :
    (shiftC v .asr n c).1.getLsbD i = v.getLsbD (min 31 (i + n)) := by
  rcases Nat.eq_zero_or_pos n with rfl | h
  · rw [shiftC_zero, Nat.add_zero, Nat.min_eq_right (by omega)]
  · simp only [shiftC_asr v (Nat.ne_of_gt h) c, asrC]
    split_ifs with h32 hs
    · rw [Nat.min_eq_left (by omega), hs]
      exact (by decide : ∀ j < 32, (0xFFFFFFFF#32).getLsbD j = true) i hi
    · rw [Nat.min_eq_left (by omega), BitVec.getLsbD_zero, Bool.eq_false_iff.mpr hs]
    · rw [BitVec.getLsbD_sshiftRight, BitVec.msb_eq_getLsbD_last]
      by_cases hin : i + n < 32
      · rw [Nat.min_eq_right (by omega), Nat.add_comm i n]
        simp [Nat.not_le.mpr hi, Nat.add_comm n i ▸ hin]
      · rw [Nat.min_eq_left (by omega)]
        simp [Nat.not_le.mpr hi, Nat.add_comm n i ▸ hin]

/-- The carry of ASR is the last bit shifted out at the bottom, bit 31 from 32 up. -/
theorem shiftC_asr_carry (v : Word) (n : Nat) (c : Bool) :
    (shiftC v .asr n c).2 = if n = 0 then c else v.getLsbD (min 31 (n - 1)) := by
  split_ifs with h
  · rw [h, shiftC_zero]
  · simp only [shiftC_asr v h c, asrC]
    split_ifs with h32
    · rw [Nat.min_eq_left (by omega)]
    · rw [Nat.min_eq_right (by omega)]

/-! ## Shifts retire -/

/-- A shift of `v` into a low register, its bits and its carry given. -/
theorem exists_retireShift {s : State} {d : LowReg} {type : SRType} {v : Word} {n : Nat} {bit : Nat → Bool} {c : Bool}
    (hbit : ∀ i < 32, (shiftC v type n s.apsr.c).1.getLsbD i = bit i) (hc : (shiftC v type n s.apsr.c).2 = c) :
    ∃ t, s.retireShift (lowReg d) type v n = .next t ∧ (∀ i < 32, (t.x (lowReg d)).getLsbD i = bit i)
      ∧ ShiftRetired s t (lowReg d) c := by
  refine ⟨_, rfl, ?_, ?_, ?_, ?_, ?_, retired_setX_withApsr _ _ _ _ _⟩
  · simpa using hbit
  · simp [Apsr.nzc]
  · simp [Apsr.nzc, beq_eq_decide]
  · simpa [Apsr.nzc] using hc
  · simp [Apsr.nzc]

/-- Settles O26, from the bits and the carry of LSL and the decoding of its two forms. -/
theorem shiftLeftBits : Obligations.ShiftLeftBits := by
  intro s rd rm imm5 hw2
  have hle : imm5.toNat ≤ 32 := by omega
  refine ⟨exists_retireShift (shiftC_lsl_getLsbD _ _ _) ?_, ?_, (decode_shiftImm rd rm imm5 hw2).1,
    (decode_shiftReg rd rm hw2).1⟩
  · rw [shiftC_lsl_carry, decide_eq_true hle, Bool.true_and]
  · rw [← regShift_eq]
    exact exists_retireShift (shiftC_lsl_getLsbD _ _ _) (shiftC_lsl_carry _ _ _)

/-- Settles O27, from the bits and the carry of LSR and the decoding of its two forms. -/
theorem shiftRightBits : Obligations.ShiftRightBits := by
  intro s rd rm imm5 hw2
  refine ⟨exists_retireShift (n := immShiftRight imm5) (fun i _ => shiftC_lsr_getLsbD _ _ _ i) ?_, ?_,
    (decode_shiftImm rd rm imm5 hw2).2.1, (decode_shiftReg rd rm hw2).2.1⟩
  · rw [shiftC_lsr_carry, if_neg (immShiftRight_pos imm5)]
    rfl
  · rw [← regShift_eq]
    exact exists_retireShift (fun i _ => shiftC_lsr_getLsbD _ _ _ i) (shiftC_lsr_carry _ _ _)

/-- Settles O28, from the bits and the carry of ASR and the decoding of its two forms. -/
theorem arithmeticShiftBits : Obligations.ArithmeticShiftBits := by
  intro s rd rm imm5 hw2
  have hle := immShiftRight_le imm5
  refine ⟨exists_retireShift (n := immShiftRight imm5) (shiftC_asr_getLsbD _ _ _) ?_, ?_,
    (decode_shiftImm rd rm imm5 hw2).2.2, (decode_shiftReg rd rm hw2).2.2⟩
  · rw [shiftC_asr_carry, if_neg (immShiftRight_pos imm5), Nat.min_eq_right (by omega)]
    rfl
  · rw [← regShift_eq]
    exact exists_retireShift (shiftC_asr_getLsbD _ _ _) (shiftC_asr_carry _ _ _)

end Sys2Proof.Machine

/-! What an instruction can answer, said once for all of them, and what it and a step leave of the platform (O13). -/

namespace Sys2Proof.Machine

/-! ## What every instruction leaves alone -/

/-- The part of the state that only exceptions change: the mode, IPSR, the pending set, the platform and the record of the
last fault. -/
structure KeepsContext (s t : State) : Prop where
  mode : t.mode = s.mode
  ipsr : t.ipsr = s.ipsr
  pending : t.pending = s.pending
  cfg : t.cfg = s.cfg
  lastFault : t.lastFault = s.lastFault

theorem KeepsContext.refl (s : State) : KeepsContext s s := ⟨rfl, rfl, rfl, rfl, rfl⟩

theorem KeepsContext.trans {s u t : State} (h : KeepsContext s u) (k : KeepsContext u t) : KeepsContext s t :=
  ⟨k.mode.trans h.mode, k.ipsr.trans h.ipsr, k.pending.trans h.pending, k.cfg.trans h.cfg,
    k.lastFault.trans h.lastFault⟩

theorem KeepsContext.withApsr {s t : State} (h : KeepsContext s t) (f : Apsr) : KeepsContext s (t.withApsr f) :=
  h.trans ⟨rfl, rfl, rfl, rfl, rfl⟩

theorem KeepsContext.withModified {s t : State} (h : KeepsContext s t) (m : Modified) :
    KeepsContext s (t.withModified m) :=
  h.trans ⟨rfl, rfl, rfl, rfl, rfl⟩

theorem KeepsContext.advance {s t : State} (h : KeepsContext s t) (n : Word) : KeepsContext s (t.advance n) :=
  h.trans ⟨rfl, rfl, rfl, rfl, rfl⟩

theorem KeepsContext.setX {s t : State} (h : KeepsContext s t) (i : RegNum) (v : Word) : KeepsContext s (t.setX i v) :=
  h.trans ⟨by simp, by simp, by simp, by simp, by simp⟩

theorem keepsContext_writeOrBranch (s : State) (d : RegNum) (v : Word) : KeepsContext s (s.writeOrBranch d v) := by
  unfold State.writeOrBranch
  split
  · exact ⟨rfl, rfl, rfl, rfl, rfl⟩
  · exact ((KeepsContext.refl s).setX d v).advance _

theorem keepsContext_writeSpecial (s : State) (r : SpecReg) (v : Word) : KeepsContext s (s.writeSpecial r v) := by
  cases r with
  | apsr | iapsr | eapsr | xpsr => exact (KeepsContext.refl s).withApsr _
  | ipsr | epsr | iepsr => exact .refl s
  | msp | psp | primask | control =>
    dsimp only [State.writeSpecial]
    split <;> exact ⟨rfl, rfl, rfl, rfl, rfl⟩

theorem keepsContext_memWrite {s t : State} {a v : Word} {z : Size} (h : s.memWrite a z v = .ok t) :
    KeepsContext s t := by
  obtain ⟨-, ht, -⟩ := State.memWrite_ok h
  rw [ht]
  exact ⟨rfl, rfl, rfl, rfl, rfl⟩

theorem keepsContext_storeWords {s t : State} {a : Word} {vs : List Word} (h : s.storeWords a vs = .ok t) :
    KeepsContext s t := by
  obtain ⟨-, ht, -⟩ := State.storeWords_ok h
  rw [ht]
  exact ⟨rfl, rfl, rfl, rfl, rfl⟩

theorem keepsContext_loadRegs {s t : State} {a : Word} {is : List RegNum} (h : s.loadRegs a is = .ok t) :
    KeepsContext s t := by
  obtain ⟨-, -, -, ⟨⟨hipsr, hmode, -, -, -, hpending, -, hcfg, hfault⟩, -⟩, -, -⟩ := State.loadRegs_ok h
  exact ⟨hmode, hipsr, hpending, hcfg, hfault⟩

theorem keepsContext_undefined (s : State) (a : Word) (n : Nat) (lost : List RegNum) :
    KeepsContext s ((s.undefineWords a n).undefineRegs lost) := by
  obtain ⟨⟨hu, -⟩, -⟩ := State.undefined_keeps s a n lost
  rw [hu]
  exact ⟨rfl, rfl, rfl, rfl, rfl⟩

/-! ## The answers of an instruction -/

/-- Everything a meaning can answer: a refusal; a state with the mode, the pending set and the platform as they were; a
HardFault raised, SVCall taken, or a return from an exception in Handler mode, each from such a state. -/
inductive ExecAnswer (s : State) : Result → Prop where
  | refused (r : Refusal) : ExecAnswer s (.refused r)
  | retired {t : State} (h : KeepsContext s t) : ExecAnswer s (.next t)
  | hardFault {u : State} (h : KeepsContext s u) (ret : Word) (c : HardFaultCause) :
      ExecAnswer s (u.raiseHardFault ret c)
  | svCall (ret : Word) : ExecAnswer s (s.takeException excSvCall ret)
  | returned {u : State} (h : KeepsContext s u) (hm : s.mode = .handler) (a : Word) :
      ExecAnswer s (u.exceptionReturn a)

/-! The shared ends of the meanings. -/

theorem answer_retireSum (s : State) (d : RegNum) (r : Sum) : ExecAnswer s (s.retireSum d r) :=
  .retired ((((KeepsContext.refl s).setX _ _).withApsr _).advance _)

theorem answer_retireCompare (s : State) (r : Sum) : ExecAnswer s (s.retireCompare r) :=
  .retired (((KeepsContext.refl s).withApsr _).advance _)

theorem answer_retireValue (s : State) (d : RegNum) (v : Word) : ExecAnswer s (s.retireValue d v) :=
  .retired (((KeepsContext.refl s).setX _ _).advance _)

theorem answer_retireNZ (s : State) (d : RegNum) (v : Word) : ExecAnswer s (s.retireNZ d v) :=
  .retired ((((KeepsContext.refl s).setX _ _).withApsr _).advance _)

theorem answer_retireShift (s : State) (d : RegNum) (type : SRType) (v : Word) (n : Nat) :
    ExecAnswer s (s.retireShift d type v n) :=
  .retired ((((KeepsContext.refl s).setX _ _).withApsr _).advance _)

theorem answer_afterBarrier {s t : State} (h : KeepsContext s t) (sb : BitVec 9) :
    ExecAnswer s (t.afterBarrier sb) := by
  unfold State.afterBarrier
  split
  · exact .refused _
  · exact .retired (h.advance _)

/-- An instruction that ends with its accesses, when they keep the context. -/
theorem answer_complete {s : State} {r : Access State} (h : ∀ t, r = .ok t → KeepsContext s t) :
    ExecAnswer s (s.complete r) := by
  cases r with
  | ok t => exact .retired (h t rfl)
  | hardFault c => exact .hardFault (.refl s) s.pc c
  | refused q => exact .refused q

theorem answer_loadInto (s : State) (t : LowReg) (a : Word) (z : Size) (extend : Word → Word) :
    ExecAnswer s (s.loadInto t a z extend) := by
  refine answer_complete fun u hu => ?_
  obtain ⟨v, -, hv⟩ := Access.bind_eq_ok.mp hu
  cases hv
  exact ((KeepsContext.refl s).setX _ _).advance _

theorem answer_storeFrom (s : State) (a : Word) (z : Size) (v : Word) : ExecAnswer s (s.storeFrom a z v) := by
  refine answer_complete fun u hu => ?_
  obtain ⟨w, hw, hu⟩ := Access.bind_eq_ok.mp hu
  cases hu
  exact (keepsContext_memWrite hw).advance _

/-- A multiple transfer answers what its end answers, when its accesses succeed. -/
theorem answer_completeTransfer {α : Type} {s : State} {r : Access α} {a : Word} {n : Nat} {lost : List RegNum}
    {done : α → Result} (h : ∀ v, r = .ok v → ExecAnswer s (done v)) :
    ExecAnswer s (s.completeTransfer r a n lost done) := by
  cases r with
  | ok v => exact h v rfl
  | hardFault c => exact .hardFault (keepsContext_undefined s a n lost) s.pc c
  | refused q => exact .refused q

/-- A branch by `BXWritePC` is an exception return only in Handler mode (R520). -/
theorem answer_bxWritePC {s u : State} (h : KeepsContext s u) (a : Word) : ExecAnswer s (u.bxWritePC a) := by
  unfold State.bxWritePC
  split
  next hr =>
    have hm : u.mode = .handler := by
      rw [State.isExceptionReturn, Bool.and_eq_true] at hr
      exact of_decide_eq_true hr.1
    exact .returned h (h.mode.symm.trans hm) a
  next => exact .retired (h.trans ⟨rfl, rfl, rfl, rfl, rfl⟩)

/-! The meanings that end in a way of their own. -/

theorem answer_ldm (rn : LowReg) (l : BitVec 8) (s : State) : ExecAnswer s (execLdm rn l s) := by
  unfold execLdm
  split
  · exact .refused _
  · refine answer_completeTransfer fun u hu => .retired ?_
    have hloads := keepsContext_loadRegs hu
    split
    · exact hloads.advance _
    · exact (hloads.setX _ _).advance _

theorem keepsContext_popLoads {s u : State} {p : BitVec 1} {l : BitVec 8} {target : Option Word}
    (h : s.popLoads p l = .ok (u, target)) : KeepsContext s u := by
  obtain ⟨w, hw, h⟩ := Access.bind_eq_ok.mp h
  have hk := keepsContext_loadRegs hw
  split at h
  · obtain ⟨v, -, hv⟩ := Access.bind_eq_ok.mp h
    cases hv
    exact hk
  · cases h
    exact hk

theorem answer_pop (p : BitVec 1) (l : BitVec 8) (s : State) : ExecAnswer s (execPop p l s) := by
  unfold execPop
  split
  · exact .refused _
  · refine answer_completeTransfer fun ⟨u, target⟩ hu => ?_
    have hset := (keepsContext_popLoads hu).setX 13#4 (s.x 13#4 + wordsSize (popCount p l))
    cases target with
    | some a => exact answer_bxWritePC hset a
    | none => exact .retired (hset.advance _)

theorem answer_push (m : BitVec 1) (l : BitVec 8) (s : State) : ExecAnswer s (execPush m l s) := by
  unfold execPush
  split
  · exact .refused _
  · refine answer_completeTransfer fun u hu => .retired ?_
    exact ((keepsContext_storeWords hu).setX _ _).advance _

theorem answer_stm (rn : LowReg) (l : BitVec 8) (s : State) : ExecAnswer s (execStm rn l s) := by
  unfold execStm
  split
  · exact .refused _
  · refine answer_completeTransfer fun u hu => .retired ?_
    have hdrew : KeepsContext u (if stmBaseUnknown rn l then u.drewFree else u) := by
      split <;> exact ⟨rfl, rfl, rfl, rfl, rfl⟩
    exact (((keepsContext_storeWords hu).trans hdrew).setX _ _).advance _

theorem answer_blx (rm : RegNum) (sb : BitVec 3) (s : State) : ExecAnswer s (execBlx rm sb s) := by
  unfold execBlx
  split_ifs
  · exact .refused _
  · exact .refused _
  · exact .retired ⟨rfl, rfl, rfl, rfl, rfl⟩

theorem answer_bx (rm : RegNum) (sb : BitVec 3) (s : State) : ExecAnswer s (execBx rm sb s) := by
  unfold execBx
  split_ifs
  · exact .refused _
  · exact .refused _
  · exact answer_bxWritePC (.refl s) _

theorem answer_bT1 (cond : Cond) (imm8 : BitVec 8) (s : State) : ExecAnswer s (execBT1 cond imm8 s) := by
  refine .retired ?_
  split <;> exact ⟨rfl, rfl, rfl, rfl, rfl⟩

theorem answer_addRegT2 (rdn rm : RegNum) (s : State) : ExecAnswer s (execAddRegT2 rdn rm s) := by
  unfold execAddRegT2
  split
  · exact .refused _
  · exact .retired (keepsContext_writeOrBranch _ _ _)

theorem answer_cmpRegT2 (rn rm : RegNum) (s : State) : ExecAnswer s (execCmpRegT2 rn rm s) := by
  unfold execCmpRegT2
  split
  · exact .refused _
  · exact answer_retireCompare _ _

theorem answer_bkpt (imm8 : BitVec 8) (s : State) : ExecAnswer s (execBkpt imm8 s) := by
  unfold execBkpt
  split
  · exact .retired ⟨rfl, rfl, rfl, rfl, rfl⟩
  · exact .hardFault (.refl s) _ _

theorem answer_cps (im : BitVec 1) (sb : BitVec 4) (s : State) : ExecAnswer s (execCps im sb s) := by
  unfold execCps
  split
  · exact .refused _
  · refine .retired ?_
    split <;> exact ⟨rfl, rfl, rfl, rfl, rfl⟩

theorem answer_mrs (rd : RegNum) (sysm : BitVec 8) (sb : BitVec 6) (s : State) :
    ExecAnswer s (execMrs rd sysm sb s) := by
  unfold execMrs
  split
  · exact .refused _
  split
  · exact .refused _
  split
  · exact .refused _
  split
  · exact .refused _
  · exact .retired (((KeepsContext.refl s).setX _ _).advance _)

theorem answer_msr (rn : RegNum) (sysm : BitVec 8) (sb : BitVec 6) (s : State) :
    ExecAnswer s (execMsr rn sysm sb s) := by
  unfold execMsr
  split
  · exact .refused _
  split
  · exact .refused _
  split
  · exact .refused _
  split
  · exact .refused _
  · exact .retired ((keepsContext_writeSpecial s _ _).advance _)

theorem answer_svc (imm8 : BitVec 8) (s : State) : ExecAnswer s (execSvc imm8 s) := by
  unfold execSvc
  split
  · exact .svCall _
  · exact .hardFault (.refl s) _ _

theorem answer_wfe (s : State) : ExecAnswer s (execWfe s) := by
  refine .retired ?_
  split <;> exact ⟨rfl, rfl, rfl, rfl, rfl⟩

theorem answer_wfi (s : State) : ExecAnswer s (execWfi s) := by
  refine .retired ?_
  split <;> exact ⟨rfl, rfl, rfl, rfl, rfl⟩

/-- Every instruction answers in one of the ways of `ExecAnswer`. -/
theorem exec_answer (i : Instr) (s : State) : ExecAnswer s (exec i s) := by
  cases i with
  | adc | addImmT1 | addImmT2 | addRegT1 | rsb | sbc | subImmT1 | subImmT2 | subReg => exact answer_retireSum _ _ _
  | cmn | cmpImm | cmpRegT1 => exact answer_retireCompare _ _
  | addSpImmT1 | addSpImmT2 | addSpRegT2 | adr | subSpImm | rev | rev16 | revsh | sxtb | sxth | uxtb | uxth =>
    exact answer_retireValue _ _ _
  | andReg | bic | eor | orr | mvn | movImm | movRegT2 | mul => exact answer_retireNZ _ _ _
  | asrImm | asrReg | lslImm | lslReg | lsrImm | lsrReg | ror => exact answer_retireShift _ _ _ _ _
  | addSpRegT1 | movRegT1 => exact .retired (keepsContext_writeOrBranch _ _ _)
  | ldrImmT1 | ldrImmT2 | ldrLit | ldrReg | ldrbImm | ldrbReg | ldrhImm | ldrhReg | ldrsb | ldrsh =>
    exact answer_loadInto _ _ _ _ _
  | strImmT1 | strImmT2 | strReg | strbImm | strbReg | strhImm | strhReg => exact answer_storeFrom _ _ _ _
  | bT2 | bl | nop | sev | yield | tst => exact .retired ⟨rfl, rfl, rfl, rfl, rfl⟩
  | dmb => exact answer_afterBarrier (.refl s) _
  | dsb | isb => exact answer_afterBarrier ((KeepsContext.refl s).withModified _) _
  | udfT1 | udfT2 => exact .hardFault (.refl s) _ _
  | addRegT2 rdn rm => exact answer_addRegT2 rdn rm s
  | bT1 cond imm8 => exact answer_bT1 cond imm8 s
  | bkpt imm8 => exact answer_bkpt imm8 s
  | blx rm sb => exact answer_blx rm sb s
  | bx rm sb => exact answer_bx rm sb s
  | cmpRegT2 rn rm => exact answer_cmpRegT2 rn rm s
  | cps im sb => exact answer_cps im sb s
  | ldm rn l => exact answer_ldm rn l s
  | mrs rd sysm sb => exact answer_mrs rd sysm sb s
  | msr rn sysm sb => exact answer_msr rn sysm sb s
  | pop p l => exact answer_pop p l s
  | push m l => exact answer_push m l s
  | stm rn l => exact answer_stm rn l s
  | svc imm8 => exact answer_svc imm8 s
  | wfe => exact answer_wfe s
  | wfi => exact answer_wfi s

/-! ## The platform and the pending set -/

/-- The platform is unchanged and nothing was made pending. -/
structure KeepsPlatform (s t : State) : Prop where
  cfg : t.cfg = s.cfg
  pending : ∀ e ∈ t.pending, e ∈ s.pending

theorem KeepsContext.keepsPlatform {s t : State} (h : KeepsContext s t) : KeepsPlatform s t :=
  ⟨h.cfg, fun _ he => h.pending ▸ he⟩

theorem KeepsPlatform.trans {s u t : State} (h : KeepsPlatform s u) (k : KeepsPlatform u t) : KeepsPlatform s t :=
  ⟨k.cfg.trans h.cfg, fun e he => h.pending e (k.pending e he)⟩

/-- Entry removes its exception from the pending set and adds none (R511). -/
theorem Entered.keepsPlatform {s t : State} {e : ExcNum} {ret : Word} (h : Entered s t e ret) : KeepsPlatform s t := by
  obtain ⟨-, -, -, -, -, -, -, -, -, -, -, hpending, -, hcfg, -⟩ := h
  exact ⟨hcfg, fun f hf => List.mem_of_mem_filter (hpending ▸ hf)⟩

theorem keepsPlatform_raiseHardFault {s t : State} {ret : Word} {c : HardFaultCause}
    (h : s.raiseHardFault ret c = .next t) : KeepsPlatform s t := by
  rcases State.raiseHardFault_next h with ⟨_, _, _, rfl⟩ | ⟨_, rfl⟩ | ⟨⟨hentered, -⟩, -⟩
  · exact ⟨rfl, fun _ => id⟩
  · exact ⟨rfl, fun _ => id⟩
  · exact hentered.keepsPlatform

theorem keepsPlatform_takeException {s t : State} {e : ExcNum} {ret : Word}
    (h : s.takeException e ret = .next t) : KeepsPlatform s t := by
  rcases State.takeException_next h with ⟨hentered, -⟩ | ⟨_, _, _, rfl⟩ | ⟨_, rfl⟩ | ⟨_, ⟨hentered, -⟩, -⟩
  · exact hentered.keepsPlatform
  · exact ⟨rfl, fun _ => id⟩
  · exact ⟨rfl, fun _ => id⟩
  · exact hentered.keepsPlatform

theorem keepsPlatform_exceptionReturn {s t : State} {a : Word} (h : s.exceptionReturn a = .next t) :
    KeepsPlatform s t := by
  rcases State.exceptionReturn_next h with ⟨w, f, -, -, rfl⟩ | ⟨_, _, _, rfl⟩ | ⟨_, rfl⟩ | ⟨_, ⟨hentered, -⟩, -⟩
  · cases w <;> exact ⟨rfl, fun _ => id⟩
  · exact ⟨rfl, fun _ => id⟩
  · exact ⟨rfl, fun _ => id⟩
  · exact hentered.keepsPlatform

/-- No instruction changes the platform or makes an exception pending. -/
theorem keepsPlatform_exec {i : Instr} {s t : State} (h : exec i s = .next t) : KeepsPlatform s t := by
  have ha := exec_answer i s
  rw [h] at ha
  generalize hr : (Host.Outcome.next t : Result) = r at ha
  cases ha with
  | refused q => cases hr
  | retired hk => cases hr; exact hk.keepsPlatform
  | hardFault hk ret c => exact hk.keepsPlatform.trans (keepsPlatform_raiseHardFault hr.symm)
  | svCall ret => exact keepsPlatform_takeException hr.symm
  | returned hk _ a => exact hk.keepsPlatform.trans (keepsPlatform_exceptionReturn hr.symm)

theorem keepsPlatform_runInstruction {s t : State} (h : s.runInstruction = .next t) : KeepsPlatform s t := by
  unfold State.runInstruction at h
  split at h
  · exact keepsPlatform_raiseHardFault h
  · cases h
  · split at h
    next => exact keepsPlatform_exec h
    next e _ =>
      cases e with
      | undefined | truncated => exact keepsPlatform_raiseHardFault h
      | unallocatedHint hint => cases h

/-- A wait ends with only the event register and the run state changed (R535). -/
theorem keepsPlatform_awaitEvent {s t : State} (h : s.awaitEvent = .next t) : KeepsPlatform s t := by
  unfold State.awaitEvent at h
  split_ifs at h <;> cases h <;> exact ⟨rfl, fun _ => id⟩

theorem keepsPlatform_awaitInterrupt {s t : State} (h : s.awaitInterrupt = .next t) : KeepsPlatform s t := by
  unfold State.awaitInterrupt at h
  split_ifs at h
  cases h
  exact ⟨rfl, fun _ => id⟩

theorem keepsPlatform_lockedUp {s t : State} (h : s.lockedUp = .next t) : KeepsPlatform s t := by
  unfold State.lockedUp at h
  split_ifs at h
  have hrun : KeepsPlatform s (s.withRun .running) := ⟨rfl, fun _ => id⟩
  exact hrun.trans (keepsPlatform_takeException h)

theorem keepsPlatform_step {s t : State} (h : step s = .next t) : KeepsPlatform s t := by
  unfold step at h
  split at h
  · split at h
    · exact keepsPlatform_takeException h
    · exact keepsPlatform_runInstruction h
  · exact keepsPlatform_awaitEvent h
  · exact keepsPlatform_awaitInterrupt h
  · cases h
  · exact keepsPlatform_lockedUp h
  · cases h

/-- Settles O13, from what each kind of answer of an instruction and of a step leaves (R5, R69, R506). -/
theorem stepKeepsPlatform : Obligations.StepKeepsPlatform := fun _ _ h =>
  ⟨(keepsPlatform_step h).cfg, (keepsPlatform_step h).pending⟩

end Sys2Proof.Machine

/-! What is UNPREDICTABLE is refused (O18). -/

namespace Sys2Proof.Machine

/-! ## Should-be bits -/

/-- A should-be bit with the other value is refused before anything else is looked at (R163). -/
theorem exec_shouldBeBits {i : Instr} (h : i.shouldBeOk = false) (s : State) : exec i s = .refused .shouldBeBits := by
  cases i with
  | blx | bx | cps | dmb | dsb | isb | mrs | msr => exact if_pos (beq_eq_false_iff_ne.mp h)
  | _ => cases h

/-! ## Field values -/

/-- `SYSm` selects no special register exactly when R66 does not allocate it. -/
theorem specRegOf_eq_none_iff (sysm : BitVec 8) : specRegOf sysm = none ↔ allocatedSysm sysm = false := by
  revert sysm; decide

/-- The field values MRS and MSR refuse: a register that R164 excludes, or else a `SYSm` that R66 leaves reserved. -/
theorem excluded_or_reserved {r : RegNum} {sysm : BitVec 8}
    (h : (r != 13#4 && r != 15#4 && allocatedSysm sysm) = false) :
    (r = 13#4 ∨ r = 15#4) ∨ ¬(r = 13#4 ∨ r = 15#4) ∧ specRegOf sysm = none := by
  by_cases hr : r = 13#4 ∨ r = 15#4
  · exact .inl hr
  · refine .inr ⟨hr, (specRegOf_eq_none_iff sysm).mpr ?_⟩
    simpa [not_or.mp hr] using h

theorem exec_mrs_badValues {rd : RegNum} {sysm : BitVec 8} (h : (Instr.mrs rd sysm mrsShouldBe).valuesOk = false)
    (s : State) : exec (.mrs rd sysm mrsShouldBe) s = .refused .unpredictable
      ∨ exec (.mrs rd sysm mrsShouldBe) s = .refused (.reservedSysm sysm) := by
  rcases excluded_or_reserved h with hr | ⟨hr, hnone⟩
  · exact .inl (by simp [exec, execMrs, hr])
  · exact .inr (by simp [exec, execMrs, hr, hnone])

theorem exec_msr_badValues {rn : RegNum} {sysm : BitVec 8} (h : (Instr.msr rn sysm msrShouldBe).valuesOk = false)
    (s : State) : exec (.msr rn sysm msrShouldBe) s = .refused .unpredictable
      ∨ exec (.msr rn sysm msrShouldBe) s = .refused (.reservedSysm sysm) := by
  rcases excluded_or_reserved h with hr | ⟨hr, hnone⟩
  · exact .inl (by simp [exec, execMsr, hr])
  · exact .inr (by simp [exec, execMsr, hr, hnone])

/-- With its should-be bits right, an instruction whose field values are UNPREDICTABLE is refused (R164, R320, R330). -/
theorem exec_badValues {i : Instr} (hsb : i.shouldBeOk = true) (h : i.valuesOk = false) (s : State) :
    exec i s = .refused .unpredictable ∨ ∃ sysm, exec i s = .refused (.reservedSysm sysm) := by
  cases i with
  | addRegT2 rdn rm => exact .inl (if_pos (by simpa [Instr.valuesOk] using h))
  | blx rm sb | bx rm sb =>
    have hsb0 : sb = 0#3 := beq_iff_eq.mp hsb
    have hrm : rm = 15#4 := bne_eq_false_iff_eq.mp h
    exact .inl ((if_neg (not_not.mpr hsb0)).trans (if_pos hrm))
  | cmpRegT2 rn rm =>
    refine .inl (if_pos ?_)
    by_cases hlow : rn.toNat < 8 ∧ rm.toNat < 8
    · exact .inl hlow
    · refine .inr ?_
      by_contra hpc
      obtain ⟨hn, hm⟩ := not_or.mp hpc
      exact hlow (by simpa [Instr.valuesOk, BitVec.ult, hn, hm] using h)
  | ldm rn l | stm rn l => exact .inl (if_pos (bne_eq_false_iff_eq.mp h))
  | pop p l | push p l => exact .inl (if_pos (by simpa [Instr.valuesOk] using h))
  | mrs rd sysm sb =>
    obtain rfl : sb = mrsShouldBe := beq_iff_eq.mp hsb
    exact (exec_mrs_badValues h s).imp_right fun hr => ⟨sysm, hr⟩
  | msr rn sysm sb =>
    obtain rfl : sb = msrShouldBe := beq_iff_eq.mp hsb
    exact (exec_msr_badValues h s).imp_right fun hr => ⟨sysm, hr⟩
  | _ => cases h

/-! ## Exception return values -/

theorem returnTo_eq_none {v : Word} (h1 : v.extractLsb' 0 4 ≠ 0b0001#4) (h9 : v.extractLsb' 0 4 ≠ 0b1001#4)
    (h13 : v.extractLsb' 0 4 ≠ 0b1101#4) : returnTo v = none := by
  unfold returnTo
  split
  · exact absurd ‹_› h1
  · exact absurd ‹_› h9
  · exact absurd ‹_› h13
  · rfl

/-- In Handler mode a branch to an exception return value whose low four bits select nothing is refused (R520). -/
theorem bxWritePC_unpredictableReturn {s : State} {v : Word} (hm : s.mode = .handler)
    (hv : v.extractLsb' 28 4 = 0b1111#4) (hnone : returnTo v = none) :
    s.bxWritePC v = .refused (.unpredictableReturn v) := by
  have hret : s.isExceptionReturn v = true := by simp [State.isExceptionReturn, hm, hv]
  rw [State.bxWritePC, if_pos hret, State.exceptionReturn, hnone]

/-- A readable word reads as what its bytes say. -/
theorem memRead_of_stored {s : State} {a v : Word} (hr : Readable s a 4) (hv : Stored s a 4 v) :
    s.memRead a .word = .ok v := by
  obtain ⟨w, hw⟩ := State.memRead_of_readable (z := .word) hr
  obtain ⟨-, hstored, -⟩ := State.memRead_ok hw
  rw [hw, stored_unique hstored hv]

/-- A POP with the PC whose words are readable loads its registers and the word above them. -/
theorem popLoads_pc {s : State} {l : BitVec 8} {v : Word} (hr : ReadableWords s s.sp (rankIn l 8 + 1))
    (hv : Stored s (s.sp + 4#32 * BitVec.ofNat 32 (rankIn l 8)) 4 v) :
    ∃ u, s.loadRegs s.sp (listRegs l) = .ok u ∧ s.popLoads 1#1 l = .ok (u, some v) := by
  have hlist : ReadableWords s s.sp (listRegs l).length := by
    rw [listRegs_length]
    exact fun k hk => hr k (Nat.lt_succ_of_lt hk)
  obtain ⟨u, hu⟩ := State.loadRegs_of_readable hlist
  have htarget := memRead_of_stored (hr _ (Nat.lt_succ_self _)) hv
  rw [← listRegs_length, ← wordsSize_eq] at htarget
  exact ⟨u, hu, by simp [State.popLoads, hu, htarget]⟩

/-- A POP with the PC whose words are readable ends with a branch to the word loaded for the PC (R341). -/
theorem exec_pop_pc {s : State} {l : BitVec 8} {v : Word} (hr : ReadableWords s s.sp (rankIn l 8 + 1))
    (hv : Stored s (s.sp + 4#32 * BitVec.ofNat 32 (rankIn l 8)) 4 v) :
    ∃ u, s.loadRegs s.sp (listRegs l) = .ok u
      ∧ exec (.pop 1#1 l) s = (u.setX 13#4 (s.sp + wordsSize (popCount 1#1 l))).bxWritePC v := by
  obtain ⟨u, hu, hloads⟩ := popLoads_pc hr hv
  exact ⟨u, hu, by simp [exec, execPop, State.completeTransfer, hloads, State.popRetire]⟩

theorem exec_bx_unpredictableReturn {s : State} {rm : RegNum} (hm : s.mode = .handler) (hrm : rm ≠ 15#4)
    (hv : (s.x rm).extractLsb' 28 4 = 0b1111#4) (hnone : returnTo (s.x rm) = none) :
    exec (.bx rm 0#3) s = .refused (.unpredictableReturn (s.x rm)) := by
  rw [← bxWritePC_unpredictableReturn hm hv hnone]
  simp [exec, execBx, hrm]

theorem exec_pop_unpredictableReturn {s : State} {l : BitVec 8} {v : Word} (hm : s.mode = .handler)
    (hv : v.extractLsb' 28 4 = 0b1111#4) (hnone : returnTo v = none)
    (hr : ReadableWords s s.sp (rankIn l 8 + 1))
    (hstored : Stored s (s.sp + 4#32 * BitVec.ofNat 32 (rankIn l 8)) 4 v) :
    exec (.pop 1#1 l) s = .refused (.unpredictableReturn v) := by
  obtain ⟨u, hu, hexec⟩ := exec_pop_pc hr hstored
  obtain ⟨-, -, -, ⟨⟨-, hmode, -⟩, -⟩, -⟩ := State.loadRegs_ok hu
  rw [hexec]
  exact bxWritePC_unpredictableReturn (by rw [State.setX_mode, hmode, hm]) hv hnone

/-- Settles O18: should-be bits first, then field values, then the return values of BX and POP. -/
theorem unpredictableIsRefused : Obligations.UnpredictableIsRefused := by
  intro i s
  refine ⟨fun h => exec_shouldBeBits h s, fun hsb h => exec_badValues hsb h s, fun v hm hv h1 h9 h13 => ?_⟩
  have hnone := returnTo_eq_none h1 h9 h13
  refine ⟨fun rm hrm hx => ?_, fun l hr hstored => exec_pop_unpredictableReturn hm hv hnone hr hstored⟩
  subst hx
  exact exec_bx_unpredictableReturn hm hrm hv hnone

end Sys2Proof.Machine

/-! What an instruction can change, said once for all of them, and what a step can do: the invariant and the writers of
PRIMASK (O11, O12, O56). -/

namespace Sys2Proof.Machine

/-! ## The changes an instruction makes -/

/-- The instructions that can write PRIMASK (R67, R258, R330). -/
def writesPrimask : Instr → Bool
  | .cps _ _ | .msr _ _ _ => true
  | _ => false

/-- `t` comes from `s` by writes that instruction `i` makes. Memory is replaced only by memory that keeps the canonical
form, the pc moves by an even number or to an aligned target, and the flags, PRIMASK and the special registers are
written only by the instructions that write them. -/
inductive Edited (i : Instr) (s : State) : State → Prop where
  | refl : Edited i s s
  | setX {t : State} (h : Edited i s t) (d : RegNum) (v : Word) : Edited i s (t.setX d v)
  | withApsr {t : State} (h : Edited i s t) (hi : writesFlags i = true) (f : Apsr) : Edited i s (t.withApsr f)
  | withPrimask {t : State} (h : Edited i s t) (hi : writesPrimask i = true) (b : Bool) : Edited i s (t.withPrimask b)
  | writeSpecial {t : State} (h : Edited i s t) (hi : writesFlags i = true ∧ writesPrimask i = true) (r : SpecReg)
      (v : Word) : Edited i s (t.writeSpecial r v)
  | advance {t : State} (h : Edited i s t) (n : Word) (hn : n.getLsbD 0 = false) : Edited i s (t.advance n)
  | branchTo {t : State} (h : Edited i s t) (a : Word) : Edited i s (t.branchTo a)
  | interworkTo {t : State} (h : Edited i s t) (a : Word) : Edited i s (t.interworkTo a)
  | withEvent {t : State} (h : Edited i s t) (b : Bool) : Edited i s (t.withEvent b)
  | withRun {t : State} (h : Edited i s t) (r : RunState) : Edited i s (t.withRun r)
  | withModified {t : State} (h : Edited i s t) (m : Modified) : Edited i s (t.withModified m)
  | withMem {t : State} (h : Edited i s t) (m : Memory) (hm : t.mem.wf → m.wf) : Edited i s (t.withMem m)
  | drewFree {t : State} (h : Edited i s t) : Edited i s t.drewFree

namespace Edited

variable {i : Instr} {s t u : State}

theorem keepsContext (h : Edited i s t) : KeepsContext s t := by
  induction h with
  | refl => exact .refl s
  | setX _ d v ih => exact ih.setX d v
  | withApsr _ _ f ih => exact ih.withApsr f
  | writeSpecial _ _ r v ih => exact ih.trans (keepsContext_writeSpecial _ r v)
  | advance _ n _ ih => exact ih.advance n
  | withModified _ m ih => exact ih.withModified m
  | withPrimask _ _ _ ih | branchTo _ _ ih | interworkTo _ _ ih | withEvent _ _ ih | withRun _ _ ih | withMem _ _ _ ih
  | drewFree _ ih => exact ih.trans ⟨rfl, rfl, rfl, rfl, rfl⟩

theorem writeOrBranch (h : Edited i s t) (d : RegNum) (v : Word) : Edited i s (t.writeOrBranch d v) := by
  unfold State.writeOrBranch
  split
  · exact h.branchTo v
  · exact (h.setX d v).advance 2#32 rfl

theorem memWrite (h : Edited i s t) {a v : Word} {z : Size} (hw : t.memWrite a z v = .ok u) : Edited i s u := by
  obtain ⟨-, hu, -, -, -, hwf⟩ := State.memWrite_ok hw
  rw [hu]
  exact (h.withMem _ hwf).withModified _

theorem storeWords (h : Edited i s t) {a : Word} {vs : List Word} (hw : t.storeWords a vs = .ok u) : Edited i s u := by
  obtain ⟨-, hu, -, -, -, hwf⟩ := State.storeWords_ok hw
  rw [hu]
  exact (h.withMem _ hwf).withModified _

theorem loadRegs (h : Edited i s t) {a : Word} {is : List RegNum} (hl : t.loadRegs a is = .ok u) : Edited i s u := by
  induction is generalizing t a with
  | nil => cases hl; exact h
  | cons d is ih =>
    obtain ⟨v, -, hl⟩ := Access.bind_eq_ok.mp hl
    exact ih (h.setX d v) hl

theorem undefineRegs (h : Edited i s t) (is : List RegNum) : Edited i s (t.undefineRegs is) := by
  induction is generalizing t with
  | nil => exact h
  | cons d is ih => exact ih (h.setX d _).drewFree

theorem undefineWords (h : Edited i s t) (a : Word) (n : Nat) : Edited i s (t.undefineWords a n) := by
  induction n generalizing t a with
  | zero => exact h
  | succ n ih => exact ih ((h.withMem _ fun w => wf_placeBytes w _ _).withModified _).drewFree (a + 4#32)

end Edited

/-! ## The answers of an instruction, with its changes -/

/-- What instruction `i` can answer, with the writes it makes, where `ExecAnswer` says only what it
keeps: a refusal, a state it has edited, or an exception raised, taken or returned from in such a state. -/
inductive Leads (i : Instr) (s : State) : Result → Prop where
  | refused (r : Refusal) : Leads i s (.refused r)
  | retired {t : State} (h : Edited i s t) : Leads i s (.next t)
  | hardFault {u : State} (h : Edited i s u) (ret : Word) (c : HardFaultCause) : Leads i s (u.raiseHardFault ret c)
  | svCall (ret : Word) : Leads i s (s.takeException excSvCall ret)
  | returned {u : State} (h : Edited i s u) (hi : mayReturn i = true) (hm : u.mode = .handler) (a : Word) :
      Leads i s (u.exceptionReturn a)

section
variable {i : Instr} {s : State}

theorem leads_retireSum (hi : writesFlags i = true) (d : RegNum) (r : Sum) : Leads i s (s.retireSum d r) :=
  .retired (((Edited.refl.setX _ _).withApsr hi _).advance _ rfl)

theorem leads_retireCompare (hi : writesFlags i = true) (r : Sum) : Leads i s (s.retireCompare r) :=
  .retired ((Edited.refl.withApsr hi _).advance _ rfl)

theorem leads_retireValue (d : RegNum) (v : Word) : Leads i s (s.retireValue d v) :=
  .retired ((Edited.refl.setX _ _).advance _ rfl)

theorem leads_retireNZ (hi : writesFlags i = true) (d : RegNum) (v : Word) : Leads i s (s.retireNZ d v) :=
  .retired (((Edited.refl.setX _ _).withApsr hi _).advance _ rfl)

theorem leads_retireShift (hi : writesFlags i = true) (d : RegNum) (type : SRType) (v : Word) (n : Nat) :
    Leads i s (s.retireShift d type v n) :=
  .retired (((Edited.refl.setX _ _).withApsr hi _).advance _ rfl)

/-- A meaning that refuses under a condition. -/
theorem leads_refuse {p : Prop} [Decidable p] {q : Refusal} {r : Result} (h : ¬ p → Leads i s r) :
    Leads i s (if p then .refused q else r) := by
  split
  · exact .refused q
  · exact h ‹_›

theorem leads_afterBarrier {t : State} (h : Edited i s t) (sb : BitVec 9) : Leads i s (t.afterBarrier sb) :=
  leads_refuse fun _ => .retired (h.advance _ rfl)

theorem leads_complete {r : Access State} (h : ∀ t, r = .ok t → Edited i s t) : Leads i s (s.complete r) := by
  cases r with
  | ok t => exact .retired (h t rfl)
  | hardFault c => exact .hardFault .refl s.pc c
  | refused q => exact .refused q

theorem leads_loadInto (t : LowReg) (a : Word) (z : Size) (extend : Word → Word) :
    Leads i s (s.loadInto t a z extend) := by
  refine leads_complete fun u hu => ?_
  obtain ⟨v, -, hv⟩ := Access.bind_eq_ok.mp hu
  cases hv
  exact (Edited.refl.setX _ _).advance _ rfl

theorem leads_storeFrom (a : Word) (z : Size) (v : Word) : Leads i s (s.storeFrom a z v) := by
  refine leads_complete fun u hu => ?_
  obtain ⟨w, hw, hu⟩ := Access.bind_eq_ok.mp hu
  cases hu
  exact (Edited.refl.memWrite hw).advance _ rfl

theorem leads_completeTransfer {α : Type} {r : Access α} {a : Word} {n : Nat} {lost : List RegNum} {done : α → Result}
    (h : ∀ v, r = .ok v → Leads i s (done v)) : Leads i s (s.completeTransfer r a n lost done) := by
  cases r with
  | ok v => exact h v rfl
  | hardFault c => exact .hardFault ((Edited.refl.undefineWords a n).undefineRegs lost) s.pc c
  | refused q => exact .refused q

theorem isExceptionReturn_iff (u : State) (a : Word) :
    u.isExceptionReturn a = true ↔ u.mode = .handler ∧ a.extractLsb' 28 4 = 0b1111#4 := by
  simp [State.isExceptionReturn]

theorem leads_bxWritePC {u : State} (h : Edited i s u) (hi : mayReturn i = true) (a : Word) :
    Leads i s (u.bxWritePC a) := by
  unfold State.bxWritePC
  split
  next hr => exact .returned h hi ((isExceptionReturn_iff u a).mp hr).1 a
  next => exact .retired (h.interworkTo a)

end

/-! The meanings that end in a way of their own. -/

section
variable (s : State)

theorem leads_ldm (rn : LowReg) (l : BitVec 8) : Leads (.ldm rn l) s (execLdm rn l s) := by
  refine leads_refuse fun _ => leads_completeTransfer fun u hu => .retired ?_
  have hloads : Edited (.ldm rn l) s u := Edited.refl.loadRegs hu
  split
  · exact hloads.advance _ rfl
  · exact (hloads.setX _ _).advance _ rfl

/-- What a POP has loaded for the PC, it has loaded because the PC is in its list. -/
theorem popLoads_ok {s u : State} {p : BitVec 1} {l : BitVec 8} {target : Option Word}
    (h : s.popLoads p l = .ok (u, target)) :
    s.loadRegs s.sp (listRegs l) = .ok u ∧ (target.isSome = true → p = 1#1) := by
  obtain ⟨w, hw, h⟩ := Access.bind_eq_ok.mp h
  split at h
  next hp =>
    obtain ⟨v, -, hv⟩ := Access.bind_eq_ok.mp h
    cases hv
    exact ⟨hw, fun _ => hp⟩
  next =>
    cases h
    exact ⟨hw, fun hsome => by cases hsome⟩

theorem leads_pop (p : BitVec 1) (l : BitVec 8) : Leads (.pop p l) s (execPop p l s) := by
  refine leads_refuse fun _ => leads_completeTransfer fun ⟨u, target⟩ hu => ?_
  obtain ⟨hloads, hp⟩ := popLoads_ok hu
  have hset := (Edited.refl (i := .pop p l).loadRegs hloads).setX 13#4 (s.x 13#4 + wordsSize (popCount p l))
  cases target with
  | some a => exact leads_bxWritePC hset (by simp [mayReturn, hp rfl]) a
  | none => exact .retired (hset.advance _ rfl)

theorem leads_push (m : BitVec 1) (l : BitVec 8) : Leads (.push m l) s (execPush m l s) :=
  leads_refuse fun _ => leads_completeTransfer fun _ hu =>
    .retired (((Edited.refl.storeWords hu).setX _ _).advance _ rfl)

theorem leads_stm (rn : LowReg) (l : BitVec 8) : Leads (.stm rn l) s (execStm rn l s) := by
  refine leads_refuse fun _ => leads_completeTransfer fun u hu => .retired ?_
  have hstores : Edited (.stm rn l) s u := Edited.refl.storeWords hu
  have hdrew : Edited (.stm rn l) s (if stmBaseUnknown rn l then u.drewFree else u) := by
    split
    · exact hstores.drewFree
    · exact hstores
  exact (hdrew.setX _ _).advance _ rfl

theorem leads_bT1 (cond : Cond) (imm8 : BitVec 8) : Leads (.bT1 cond imm8) s (execBT1 cond imm8 s) := by
  refine .retired ?_
  split
  · exact Edited.refl.branchTo _
  · exact Edited.refl.advance _ rfl

theorem leads_bkpt (imm8 : BitVec 8) : Leads (.bkpt imm8) s (execBkpt imm8 s) := by
  unfold execBkpt
  split
  · exact .retired (Edited.refl.withRun _)
  · exact .hardFault .refl _ _

theorem leads_cps (im : BitVec 1) (sb : BitVec 4) : Leads (.cps im sb) s (execCps im sb s) := by
  refine leads_refuse fun _ => .retired (Edited.advance ?_ _ rfl)
  split
  · exact Edited.refl.withPrimask rfl _
  · exact .refl

theorem leads_mrs (rd : RegNum) (sysm : BitVec 8) (sb : BitVec 6) :
    Leads (.mrs rd sysm sb) s (execMrs rd sysm sb s) := by
  refine leads_refuse fun _ => leads_refuse fun _ => ?_
  split
  · exact .refused _
  · exact leads_refuse fun _ => .retired ((Edited.refl.setX _ _).advance _ rfl)

theorem leads_msr (rn : RegNum) (sysm : BitVec 8) (sb : BitVec 6) :
    Leads (.msr rn sysm sb) s (execMsr rn sysm sb s) := by
  refine leads_refuse fun _ => leads_refuse fun _ => ?_
  split
  · exact .refused _
  · exact leads_refuse fun _ => .retired ((Edited.refl.writeSpecial ⟨rfl, rfl⟩ _ _).advance _ rfl)

theorem leads_svc (imm8 : BitVec 8) : Leads (.svc imm8) s (execSvc imm8 s) := by
  unfold execSvc
  split
  · exact .svCall _
  · exact .hardFault .refl _ _

theorem leads_wfe : Leads .wfe s (execWfe s) := by
  refine .retired ?_
  split
  · exact (Edited.refl.withEvent _).advance _ rfl
  · exact (Edited.refl.withRun _).drewFree.advance _ rfl

theorem leads_wfi : Leads .wfi s (execWfi s) := by
  refine .retired ?_
  split
  · exact Edited.refl.advance _ rfl
  · exact (Edited.refl.withRun _).drewFree.advance _ rfl

/-- Every instruction answers in one of the ways of `Leads`. -/
theorem exec_leads (i : Instr) : Leads i s (exec i s) := by
  cases i with
  | adc | addImmT1 | addImmT2 | addRegT1 | rsb | sbc | subImmT1 | subImmT2 | subReg => exact leads_retireSum rfl _ _
  | cmn | cmpImm | cmpRegT1 => exact leads_retireCompare rfl _
  | cmpRegT2 => exact leads_refuse fun _ => leads_retireCompare rfl _
  | addSpImmT1 | addSpImmT2 | addSpRegT2 | adr | subSpImm | rev | rev16 | revsh | sxtb | sxth | uxtb | uxth =>
    exact leads_retireValue _ _
  | andReg | bic | eor | orr | mvn | movImm | movRegT2 | mul => exact leads_retireNZ rfl _ _
  | tst => exact .retired ((Edited.refl.withApsr rfl _).advance _ rfl)
  | asrImm | asrReg | lslImm | lslReg | lsrImm | lsrReg | ror => exact leads_retireShift rfl _ _ _ _
  | addSpRegT1 | movRegT1 => exact .retired (Edited.refl.writeOrBranch _ _)
  | addRegT2 => exact leads_refuse fun _ => .retired (Edited.refl.writeOrBranch _ _)
  | ldrImmT1 | ldrImmT2 | ldrLit | ldrReg | ldrbImm | ldrbReg | ldrhImm | ldrhReg | ldrsb | ldrsh =>
    exact leads_loadInto _ _ _ _
  | strImmT1 | strImmT2 | strReg | strbImm | strbReg | strhImm | strhReg => exact leads_storeFrom _ _ _
  | bT1 cond imm8 => exact leads_bT1 s cond imm8
  | bT2 => exact .retired (Edited.refl.branchTo _)
  | bl => exact .retired ((Edited.refl.setX 14#4 _).branchTo _)
  | blx => exact leads_refuse fun _ => leads_refuse fun _ => .retired ((Edited.refl.setX 14#4 _).interworkTo _)
  | bx => exact leads_refuse fun _ => leads_refuse fun _ => leads_bxWritePC .refl rfl _
  | nop | yield => exact .retired (Edited.refl.advance _ rfl)
  | sev => exact .retired ((Edited.refl.withEvent _).advance _ rfl)
  | dmb => exact leads_afterBarrier .refl _
  | dsb | isb => exact leads_afterBarrier (Edited.refl.withModified _) _
  | udfT1 | udfT2 => exact .hardFault .refl _ _
  | bkpt imm8 => exact leads_bkpt s imm8
  | cps im sb => exact leads_cps s im sb
  | ldm rn l => exact leads_ldm s rn l
  | mrs rd sysm sb => exact leads_mrs s rd sysm sb
  | msr rn sysm sb => exact leads_msr s rn sysm sb
  | pop p l => exact leads_pop s p l
  | push m l => exact leads_push s m l
  | stm rn l => exact leads_stm s rn l
  | svc imm8 => exact leads_svc s imm8
  | wfe => exact leads_wfe s
  | wfi => exact leads_wfi s

end

/-- The next state of an instruction: edited, or reached by an exception from an edited state. -/
theorem Leads.next {i : Instr} {s t : State} {r : Result} (hl : Leads i s r) (hr : r = .next t) :
    Edited i s t ∨ (∃ u ret c, Edited i s u ∧ u.raiseHardFault ret c = .next t)
      ∨ (∃ ret, s.takeException excSvCall ret = .next t)
      ∨ ∃ u a, Edited i s u ∧ mayReturn i = true ∧ u.mode = .handler ∧ u.exceptionReturn a = .next t := by
  cases hl with
  | refused q => cases hr
  | retired he => cases hr; exact .inl he
  | hardFault he ret c => exact .inr (.inl ⟨_, ret, c, he, hr⟩)
  | svCall ret => exact .inr (.inr (.inl ⟨ret, hr⟩))
  | returned he hi hm a => exact .inr (.inr (.inr ⟨_, a, he, hi, hm, hr⟩))

/-! ## What a step can do -/

/-- What a step that answers a next state has done (R109, R507, R508, R522, R535). -/
inductive StepCase (s t : State) : Prop where
  | tookException (r : RunState) (e : ExcNum) (h : (s.withRun r).takeException e s.pc = .next t) : StepCase s t
  | raised (c : HardFaultCause) (h : s.raiseHardFault s.pc c = .next t) : StepCase s t
  | executed (hw1 hw2 : Half) (i : Instr) (hrun : s.run = .running) (hnone : s.preempting = none)
      (hfetch : s.fetch = .ok (hw1, hw2)) (hdecode : decode hw1 hw2 = .ok i) (h : exec i s = .next t) : StepCase s t
  | woke (event : Bool) (h : t = (s.withEvent event).withRun .running) : StepCase s t

/-- With nothing pending that preempts, a running machine runs its instruction. -/
theorem step_of_running {s : State} (hrun : s.run = .running) (hnone : s.preempting = none) :
    step s = s.runInstruction := by
  simp [step, hrun, hnone]

theorem stepCase_runInstruction {s t : State} (hrun : s.run = .running) (hnone : s.preempting = none)
    (h : s.runInstruction = .next t) : StepCase s t := by
  unfold State.runInstruction at h
  split at h
  · exact .raised _ h
  · cases h
  next hw1 hw2 hfetch =>
    split at h
    next i hdecode => exact .executed hw1 hw2 i hrun hnone hfetch hdecode h
    next e _ =>
      cases e with
      | undefined | truncated => exact .raised _ h
      | unallocatedHint hint => cases h

theorem stepCase_of_step {s t : State} (h : step s = .next t) : StepCase s t := by
  unfold step at h
  split at h
  next hrun =>
    split at h
    next e he => exact .tookException s.run e h
    next hnone => exact stepCase_runInstruction hrun hnone h
  · unfold State.awaitEvent at h
    split_ifs at h <;> cases h
    · exact .woke false rfl
    · exact .woke s.event rfl
  · unfold State.awaitInterrupt at h
    split_ifs at h
    cases h
    exact .woke s.event rfl
  · cases h
  · unfold State.lockedUp at h
    split_ifs at h
    exact .tookException .running excNmi h
  · cases h

/-! ## The invariant -/

/-- The invariant speaks of the pc, the stack pointers, memory, the mode, CONTROL and the platform alone. -/
theorem State.Inv.congr {s t : State} (h : s.Inv) (hpc : t.pc = s.pc) (hmsp : t.msp = s.msp) (hpsp : t.psp = s.psp)
    (hmem : t.mem = s.mem) (hmode : t.mode = s.mode) (hcontrol : t.control = s.control) (hcfg : t.cfg = s.cfg) :
    t.Inv :=
  ⟨hpc ▸ h.pcEven, hmsp ▸ h.mspAligned, hpsp ▸ h.pspAligned, hmem ▸ h.memWf,
    fun hm => hcontrol ▸ h.handlerMain (hmode ▸ hm), fun hn => hcfg ▸ h.nPrivExtension (hcontrol ▸ hn)⟩

namespace State.Inv

variable {s t : State}

theorem withPc (h : s.Inv) {a : Word} (ha : a.getLsbD 0 = false) : (s.withPc a).Inv := { h with pcEven := ha }

theorem withMsp (h : s.Inv) {a : Word} (ha : a &&& 3#32 = 0#32) : (s.withMsp a).Inv := { h with mspAligned := ha }

theorem withPsp (h : s.Inv) {a : Word} (ha : a &&& 3#32 = 0#32) : (s.withPsp a).Inv := { h with pspAligned := ha }

theorem withMem (h : s.Inv) {m : Memory} (hm : m.wf) : (s.withMem m).Inv := { h with memWf := hm }

theorem setSp (h : s.Inv) (v : Word) : (s.setSp v).Inv := by
  unfold State.setSp
  split
  · exact h.withPsp (align4_and v)
  · exact h.withMsp (align4_and v)

theorem setX (h : s.Inv) (d : RegNum) (v : Word) : (s.setX d v).Inv := by
  rcases regNum_cases d with hd | rfl | rfl | rfl
  · rw [State.setX_general _ hd]
    exact h.congr rfl rfl rfl rfl rfl rfl rfl
  · exact h.setSp v
  · exact h.congr rfl rfl rfl rfl rfl rfl rfl
  · exact h

/-- A write of CONTROL sets SPSEL in Thread mode alone, and nPRIV with the unprivileged extension alone (R66). -/
theorem withControl_controlWrite (h : s.Inv) (v : Word) : (s.withControl (s.controlWrite v)).Inv := by
  refine { h with handlerMain := fun hm => ?_, nPrivExtension := fun hn => ?_ }
  · have hm : s.mode = .handler := hm
    simpa [State.controlWrite, hm] using h.handlerMain hm
  · by_cases hu : s.cfg.hasUnpriv = true
    · exact hu
    · exact h.nPrivExtension (by simpa [State.controlWrite, hu] using hn)

theorem ite {p : Prop} [Decidable p] (h : s.Inv) (ht : t.Inv) : (if p then t else s).Inv := by
  split
  · exact ht
  · exact h

theorem writeSpecial (h : s.Inv) (r : SpecReg) (v : Word) : (s.writeSpecial r v).Inv := by
  cases r with
  | apsr | iapsr | eapsr | xpsr | ipsr | epsr | iepsr => exact h.congr rfl rfl rfl rfl rfl rfl rfl
  | msp => exact h.ite (h.withMsp (align4_and v))
  | psp => exact h.ite (h.withPsp (align4_and v))
  | primask => exact h.ite (h.congr rfl rfl rfl rfl rfl rfl rfl)
  | control => exact h.ite (h.withControl_controlWrite v)

theorem advance (h : s.Inv) {n : Word} (hn : n.getLsbD 0 = false) : (s.advance n).Inv := h.withPc (even_add h.pcEven hn)

theorem branchTo (h : s.Inv) (a : Word) : (s.branchTo a).Inv := h.withPc (align2_even a)

theorem interworkTo (h : s.Inv) (a : Word) : (s.interworkTo a).Inv :=
  (h.branchTo a).congr rfl rfl rfl rfl rfl rfl rfl

/-- Whatever an instruction changes, it keeps the invariant. -/
theorem edited {i : Instr} (h : s.Inv) (he : Edited i s t) : t.Inv := by
  induction he with
  | refl => exact h
  | setX _ d v ih => exact ih.setX d v
  | writeSpecial _ _ r v ih => exact ih.writeSpecial r v
  | advance _ n hn ih => exact ih.advance hn
  | branchTo _ a ih => exact ih.branchTo a
  | interworkTo _ a ih => exact ih.interworkTo a
  | withMem _ m hm ih => exact ih.withMem (hm ih.memWf)
  | withApsr _ _ _ ih | withPrimask _ _ _ ih | withEvent _ _ ih | withRun _ _ ih | withModified _ _ ih
  | drewFree _ ih => exact ih.congr rfl rfl rfl rfl rfl rfl rfl

/-- The frame of an exception is word aligned (R511). -/
theorem frameBase_aligned (h : s.Inv) : frameBase s &&& 3#32 = 0#32 := by
  have hsp : (if s.usesPsp then s.psp else s.msp).toNat % 4 = 0 := by
    rw [aligned_iff_and]
    split
    · exact h.pspAligned
    · exact h.mspAligned
  have hsub : ((if s.usesPsp then s.psp else s.msp) - 0x20#32).toNat % 4 = 0 := by
    rw [BitVec.toNat_sub, BitVec.toNat_ofNat]
    omega
  obtain ⟨h0, h1⟩ := (aligned_iff_bits _).mp hsub
  rw [← aligned_iff_and, aligned_iff_bits, frameBase, BitVec.getLsbD_and, BitVec.getLsbD_and, h0, h1]
  exact ⟨rfl, rfl⟩

/-- Entry leaves an even pc, aligned stack pointers and the main stack in use (R511). -/
theorem entered {e : ExcNum} {ret : Word} (h : s.Inv) (he : Entered s t e ret) (hwf : s.mem.wf → t.mem.wf) : t.Inv := by
  obtain ⟨-, -, hsp, -, -, -, -, -, hcontrol, -, -, -, -, hcfg, -, -, vector, -, hpc, -⟩ := he
  have hstack : t.msp &&& 3#32 = 0#32 ∧ t.psp &&& 3#32 = 0#32 := by
    split at hsp
    · obtain ⟨hp, hm⟩ := hsp
      exact ⟨hm ▸ h.mspAligned, hp ▸ h.frameBase_aligned⟩
    · obtain ⟨hm, hp⟩ := hsp
      exact ⟨hm ▸ h.frameBase_aligned, hp ▸ h.pspAligned⟩
  refine ⟨?_, hstack.1, hstack.2, hwf h.memWf, fun _ => by rw [hcontrol], fun hn => ?_⟩
  · rw [hpc]
    exact align2_even vector
  · rw [hcontrol] at hn
    rw [hcfg]
    exact h.nPrivExtension hn

theorem raiseHardFault {ret : Word} {c : HardFaultCause} (h : s.Inv) (hr : s.raiseHardFault ret c = .next t) :
    t.Inv := by
  rcases State.raiseHardFault_next hr with ⟨_, _, _, rfl⟩ | ⟨_, rfl⟩ | ⟨⟨hentered, -⟩, hwf⟩
  · exact h.congr rfl rfl rfl rfl rfl rfl rfl
  · exact h.congr rfl rfl rfl rfl rfl rfl rfl
  · exact h.entered hentered hwf

theorem takeException {e : ExcNum} {ret : Word} (h : s.Inv) (hr : s.takeException e ret = .next t) : t.Inv := by
  rcases State.takeException_next hr with ⟨hentered, -, hwf⟩ | ⟨_, _, _, rfl⟩ | ⟨_, rfl⟩ | ⟨_, ⟨hentered, -⟩, hwf⟩
  · exact h.entered hentered hwf
  · exact h.congr rfl rfl rfl rfl rfl rfl rfl
  · exact h.congr rfl rfl rfl rfl rfl rfl rfl
  · exact h.entered hentered hwf

/-- A return from Handler mode leaves an even pc, an aligned stack pointer, and CONTROL showing the stack returned to
(R520). -/
theorem leaveHandler (h : s.Inv) (hm : s.mode = .handler) (f : Frame) (w : ReturnTo) (p : Word) :
    ((s.restore f).leaveHandler w (poppedSp p f.xpsr)).Inv := by
  cases w with
  | handlerMain =>
    exact ⟨align2_even _, align4_and _, h.pspAligned, h.memWf, fun _ => h.handlerMain hm, h.nPrivExtension⟩
  | threadMain => exact ⟨align2_even _, align4_and _, h.pspAligned, h.memWf, nofun, h.nPrivExtension⟩
  | threadProcess => exact ⟨align2_even _, h.mspAligned, align4_and _, h.memWf, nofun, h.nPrivExtension⟩

theorem exceptionReturn {a : Word} (h : s.Inv) (hm : s.mode = .handler) (hr : s.exceptionReturn a = .next t) :
    t.Inv := by
  rcases State.exceptionReturn_next hr with ⟨w, f, -, -, rfl⟩ | ⟨_, _, _, rfl⟩ | ⟨_, rfl⟩ | ⟨_, ⟨hentered, -⟩, hwf⟩
  · exact h.leaveHandler hm f w _
  · exact h.congr rfl rfl rfl rfl rfl rfl rfl
  · exact h.congr rfl rfl rfl rfl rfl rfl rfl
  · exact h.entered hentered hwf

theorem exec {i : Instr} (h : s.Inv) (hx : exec i s = .next t) : t.Inv := by
  rcases (exec_leads s i).next hx with he | ⟨u, ret, c, he, hr⟩ | ⟨ret, hr⟩ | ⟨u, a, he, -, hm, hr⟩
  · exact h.edited he
  · exact (h.edited he).raiseHardFault hr
  · exact h.takeException hr
  · exact (h.edited he).exceptionReturn hm hr

theorem withRun (h : s.Inv) (r : RunState) : (s.withRun r).Inv := h.congr rfl rfl rfl rfl rfl rfl rfl

end State.Inv

/-- Settles O12: the invariant is kept by every write of an instruction, by entry and by return, and a step does nothing
else. -/
theorem stepKeepsInvariant : Obligations.StepKeepsInvariant := by
  intro s t h hstep
  cases stepCase_of_step hstep with
  | tookException r e hr => exact (h.withRun r).takeException hr
  | raised c hr => exact h.raiseHardFault hr
  | executed hw1 hw2 i _ _ _ _ hx => exact h.exec hx
  | woke event ht =>
    rw [ht]
    exact h.congr rfl rfl rfl rfl rfl rfl rfl

/-- Settles O11, field by field. -/
theorem invariantAtReset : Obligations.InvariantAtReset :=
  ⟨rfl, rfl, rfl, reset_mem_wf, fun _ => rfl, fun h => h⟩

/-! ## PRIMASK -/

theorem Edited.primask {i : Instr} {s t : State} (h : Edited i s t) (hi : writesPrimask i = false) :
    t.primask = s.primask := by
  induction h with
  | refl => rfl
  | setX _ d v ih => exact (State.setX_primask _ d v).trans ih
  | withPrimask _ hw _ _ => exact absurd hw (Bool.eq_false_iff.mp hi)
  | writeSpecial _ hw _ _ _ => exact absurd hw.2 (Bool.eq_false_iff.mp hi)
  | withApsr _ _ _ ih | advance _ _ _ ih | branchTo _ _ ih | interworkTo _ _ ih | withEvent _ _ ih | withRun _ _ ih
  | withModified _ _ ih | withMem _ _ _ ih | drewFree _ ih => exact ih

/-- The flags and PRIMASK are unchanged. -/
structure KeepsStatus (s t : State) : Prop where
  apsr : t.apsr = s.apsr
  primask : t.primask = s.primask

theorem Entered.keepsStatus {s t : State} {e : ExcNum} {ret : Word} (h : Entered s t e ret) : KeepsStatus s t := by
  obtain ⟨-, -, -, -, hapsr, -, -, -, -, -, hprimask, -⟩ := h
  exact ⟨hapsr, hprimask⟩

theorem keepsStatus_raiseHardFault {s t : State} {ret : Word} {c : HardFaultCause}
    (h : s.raiseHardFault ret c = .next t) : KeepsStatus s t := by
  rcases State.raiseHardFault_next h with ⟨_, _, _, rfl⟩ | ⟨_, rfl⟩ | ⟨⟨hentered, -⟩, -⟩
  · exact ⟨rfl, rfl⟩
  · exact ⟨rfl, rfl⟩
  · exact hentered.keepsStatus

theorem keepsStatus_takeException {s t : State} {e : ExcNum} {ret : Word} (h : s.takeException e ret = .next t) :
    KeepsStatus s t := by
  rcases State.takeException_next h with ⟨hentered, -⟩ | ⟨_, _, _, rfl⟩ | ⟨_, rfl⟩ | ⟨_, ⟨hentered, -⟩, -⟩
  · exact hentered.keepsStatus
  · exact ⟨rfl, rfl⟩
  · exact ⟨rfl, rfl⟩
  · exact hentered.keepsStatus

/-- A return restores the flags and leaves PRIMASK (R521). -/
theorem primask_exceptionReturn {s t : State} {a : Word} (h : s.exceptionReturn a = .next t) :
    t.primask = s.primask := by
  rcases State.exceptionReturn_next h with ⟨w, f, -, -, rfl⟩ | ⟨_, _, _, rfl⟩ | ⟨_, rfl⟩ | ⟨_, ⟨hentered, -⟩, -⟩
  · cases w <;> rfl
  · rfl
  · rfl
  · exact hentered.keepsStatus.primask

theorem primask_exec {i : Instr} {s t : State} (h : exec i s = .next t) (hi : writesPrimask i = false) :
    t.primask = s.primask := by
  rcases (exec_leads s i).next h with he | ⟨u, ret, c, he, hr⟩ | ⟨ret, hr⟩ | ⟨u, a, he, -, -, hr⟩
  · exact he.primask hi
  · exact (keepsStatus_raiseHardFault hr).primask.trans (he.primask hi)
  · exact (keepsStatus_takeException hr).primask
  · exact (primask_exceptionReturn hr).trans (he.primask hi)

theorem writesPrimask_iff (i : Instr) :
    writesPrimask i = true ↔ (∃ im sb, i = .cps im sb) ∨ ∃ rn sysm sb, i = .msr rn sysm sb := by
  cases i <;> simp [writesPrimask]

/-- Settles O56: of what a step can do, only the execution of an instruction that writes PRIMASK changes it. -/
theorem primaskWriters : Obligations.PrimaskWriters := by
  intro s t hstep hne
  cases stepCase_of_step hstep with
  | tookException r e hr => exact absurd (keepsStatus_takeException hr).primask hne
  | raised c hr => exact absurd (keepsStatus_raiseHardFault hr).primask hne
  | woke event ht => exact absurd (congrArg State.primask ht) hne
  | executed hw1 hw2 i hrun hnone hfetch hdecode hx =>
    have hi : writesPrimask i = true := by
      by_contra hi
      exact hne (primask_exec hx (Bool.eq_false_iff.mpr hi))
    exact ⟨hrun, hnone, hw1, hw2, i, hfetch, hdecode, hx, (writesPrimask_iff i).mp hi⟩

end Sys2Proof.Machine

/-! A step and its fetch (O5, O7), the reset (O9, O10), what PRIMASK masks (O45), and the event
instructions (O48). -/

namespace Sys2Proof.Machine

/-! ## The fetch (R103, R109) -/

/-- A first halfword that the platform admits and that is synchronised. -/
structure FirstHalfFetched (s : State) : Prop where
  thumb : s.t = true
  admitted : s.admits s.pc 2 .fetch = true
  synchronised : s.synchronised s.pc = true

/-- A second halfword that lies below the top, that the platform admits and that is synchronised. -/
structure SecondHalfFetched (s : State) : Prop where
  below : s.pc.toNat + 4 ≤ 2 ^ 32
  admitted : s.admits (s.pc + 2#32) 2 .fetch = true
  synchronised : s.synchronised (s.pc + 2#32) = true

theorem synchronised_iff (s : State) (a : Word) :
    s.synchronised a = true ↔ ¬ Unsynchronised s a.toNat ∧ ¬ Unsynchronised s (a.toNat + 1) := by
  simp [State.synchronised, Modified.has, Unsynchronised]

theorem not_synchronised {s : State} {a : Word} (h : Unsynchronised s a.toNat ∨ Unsynchronised s (a.toNat + 1)) :
    s.synchronised a = false := by
  rw [← Bool.not_eq_true, synchronised_iff, ← not_or, not_not]
  exact h

/-- A fetch past a good first halfword depends on the second alone. -/
theorem FirstHalfFetched.fetch {s : State} (h : FirstHalfFetched s) :
    s.fetch = if isWide (s.fetchHalf s.pc) = false then .ok (s.fetchHalf s.pc, 0#16)
      else if s.pc.toNat + 4 > 2 ^ 32 then .refused (.straddlesTop s.pc)
      else if s.admits (s.pc + 2#32) 2 .fetch = false then .hardFault (.fetch (s.pc + 2#32))
      else if s.synchronised (s.pc + 2#32) = false then .refused (.unsynchronisedFetch (s.pc + 2#32))
      else .ok (s.fetchHalf s.pc, s.fetchHalf (s.pc + 2#32)) := by
  simp only [State.fetch, h.thumb, h.admitted, h.synchronised, Bool.not_true, Bool.false_eq_true, if_false,
    Bool.not_eq_true']

theorem FirstHalfFetched.fetch_narrow {s : State} (h : FirstHalfFetched s) (hn : isWide (s.fetchHalf s.pc) = false) :
    s.fetch = .ok (s.fetchHalf s.pc, 0#16) := by
  rw [h.fetch, if_pos hn]

theorem FirstHalfFetched.fetch_wide {s : State} (h : FirstHalfFetched s) (hw : isWide (s.fetchHalf s.pc) = true)
    (h2 : SecondHalfFetched s) : s.fetch = .ok (s.fetchHalf s.pc, s.fetchHalf (s.pc + 2#32)) := by
  rw [h.fetch, if_neg (by simp [hw]), if_neg (by have := h2.below; omega), if_neg (by simp [h2.admitted]),
    if_neg (by simp [h2.synchronised])]

/-! ## Steps by their fetch -/

section
variable {s : State} (hrun : s.run = .running) (hnone : s.preempting = none)
include hrun hnone

theorem step_of_fetch_ok {hw1 hw2 : Half} {i : Instr} (hf : s.fetch = .ok (hw1, hw2)) (hd : decode hw1 hw2 = .ok i) :
    step s = exec i s := by
  rw [step_of_running hrun hnone, State.runInstruction, hf]
  simp only [hd]

theorem step_of_fetch_hardFault {c : HardFaultCause} (hf : s.fetch = .hardFault c) :
    RaisesHardFault s (step s) s.pc c := by
  rw [step_of_running hrun hnone, State.runInstruction, hf]
  exact s.raiseHardFault_raises s.pc c

theorem step_of_fetch_refused {r : Refusal} (hf : s.fetch = .refused r) : step s = .refused r := by
  rw [step_of_running hrun hnone, State.runInstruction, hf]

end

/-- Settles O5: the fetch answers the halfwords at the pc, one or two of them. -/
theorem stepRunsDecodedInstruction : Obligations.StepRunsDecodedInstruction := by
  intro s i hrun hnone ht hadmits hsync hsecond hdecode
  have h1 : FirstHalfFetched s := ⟨ht, hadmits, hsync⟩
  by_cases hw : isWide (s.fetchHalf s.pc) = true
  · obtain ⟨hbelow, hadmits2, hsync2⟩ := hsecond hw
    rw [if_pos hw] at hdecode
    exact step_of_fetch_ok hrun hnone (h1.fetch_wide hw ⟨hbelow, hadmits2, hsync2⟩) hdecode
  · rw [if_neg hw] at hdecode
    exact step_of_fetch_ok hrun hnone (h1.fetch_narrow (Bool.eq_false_iff.mpr hw)) hdecode

/-- Settles O7: the checks of a fetch in their order, each with what a step then answers. -/
theorem fetchFaults : Obligations.FetchFaults := by
  intro s hrun hnone
  refine ⟨fun ht => ?_, fun ht hadmits => ?_, fun ht hadmits hun => ?_, fun ht hadmits hs0 hs1 hw => ?_⟩
  · exact step_of_fetch_hardFault hrun hnone (by simp [State.fetch, ht])
  · exact step_of_fetch_hardFault hrun hnone (by simp [State.fetch, ht, hadmits])
  · exact step_of_fetch_refused hrun hnone (by simp [State.fetch, ht, hadmits, not_synchronised hun])
  · have hfetch := (FirstHalfFetched.mk ht hadmits ((synchronised_iff s s.pc).mpr ⟨hs0, hs1⟩)).fetch
    rw [if_neg (by simp [hw])] at hfetch
    refine ⟨fun htop => ?_, fun hbelow hadmits2 => ?_, fun hbelow hadmits2 hun => ?_⟩
    · exact step_of_fetch_refused hrun hnone (hfetch.trans (if_pos htop))
    · rw [if_neg (Nat.not_lt.mpr hbelow), if_pos hadmits2] at hfetch
      exact step_of_fetch_hardFault hrun hnone hfetch
    · rw [if_neg (Nat.not_lt.mpr hbelow), if_neg (by simp [hadmits2]), if_pos (not_synchronised hun)] at hfetch
      exact step_of_fetch_refused hrun hnone hfetch

/-! ## Reset (R80, R600) -/

/-- Settles O9: the values of the reset state, R0 to R12 as the entries of its vector. -/
theorem resetState : Obligations.ResetState := by
  refine ⟨rfl, rfl, rfl, rfl, rfl, rfl, rfl, rfl, rfl, rfl, fun _ => rfl, rfl, fun i hi => ?_⟩
  rw [State.x_general _ hi]
  exact Vector.getElem_replicate hi

/-- Settles O10: the two words of the vector table are read, and the launched state is the reset state with SP, pc and T
from them. -/
theorem architectureReset : Obligations.ArchitectureReset := by
  intro cfg mem hr0 hr1
  obtain ⟨sp, hsp⟩ := State.memRead_of_readable (z := .word) hr0
  obtain ⟨start, hstart⟩ := State.memRead_of_readable (z := .word) hr1
  obtain ⟨-, hsp', -⟩ := State.memRead_ok hsp
  obtain ⟨-, hstart', -⟩ := State.memRead_ok hstart
  exact ⟨((resetOn cfg mem).withMsp (align4 sp)).interworkTo start, sp, start,
    Access.bind_eq_ok.mpr ⟨sp, hsp, Access.bind_eq_ok.mpr ⟨start, hstart, rfl⟩⟩, hsp', hstart', rfl, rfl, rfl, rfl, rfl,
    rfl, rfl, rfl, rfl, rfl, rfl⟩

/-! ## Priorities (R505, R507) -/

/-- A negative priority is fixed: Reset's, NMI's or HardFault's. -/
theorem State.priority_neg {s : State} {e : ExcNum} (h : s.priority e < 0) : e = 1#6 ∨ e = 2#6 ∨ e = 3#6 := by
  by_contra hne
  obtain ⟨h1, h2, h3⟩ := not_or.mp hne |>.imp_right not_or.mp
  rw [State.priority, excNmi, excHardFault, if_neg h1, if_neg h2, if_neg h3] at h
  omega

theorem State.execPriority_primask {s : State} (h : s.primask = true) : s.execPriority ≤ 0 := by
  rw [State.execPriority, if_pos h]
  exact min_le_left 0 _

theorem State.firstOf_asynchronous {s : State} {es : List ExcNum} {e : ExcNum} (h : s.firstOf es = some e) :
    isAsynchronous e = true := by
  induction es with
  | nil => cases h
  | cons f es ih =>
    unfold State.firstOf at h
    split at h
    · split_ifs at h with hf
      cases h
      exact hf
    next g hg =>
      split_ifs at h with hf
      · cases h
        exact (Bool.and_eq_true_iff.mp hf).1
      · cases h
        exact ih hg

theorem State.pendingAbove_some {s : State} {p : Int} {e : ExcNum} (h : s.pendingAbove p = some e) :
    s.firstOf s.pending = some e ∧ s.priority e < p := by
  unfold State.pendingAbove at h
  split at h
  next f hf =>
    split_ifs at h with hp
    cases h
    exact ⟨hf, hp⟩
  next => cases h

/-- With PRIMASK set only NMI preempts (R67). -/
theorem preempting_primask {s : State} (h : s.primask = true) {e : ExcNum} (he : s.preempting = some e) : e = 2#6 := by
  obtain ⟨hfirst, hprio⟩ := State.pendingAbove_some he
  have hasync := State.firstOf_asynchronous hfirst
  rcases State.priority_neg (lt_of_lt_of_le hprio (State.execPriority_primask h)) with rfl | rfl | rfl
  · cases hasync
  · rfl
  · cases hasync

/-- SVC escalates where SVCall is not of higher priority (R502). -/
theorem exec_svc_escalates {s : State} (h : ¬ s.priority excSvCall < s.execPriority) (imm8 : BitVec 8) :
    exec (.svc imm8) s = s.raiseHardFault (s.pc + 2#32) (.svcEscalated s.pc) := if_neg h

/-- With PRIMASK set SVCall is not of higher priority than what executes (R67, R502). -/
theorem svCall_masked {s : State} (h : s.primask = true) : ¬ s.priority excSvCall < s.execPriority := by
  intro hlt
  have hneg := State.priority_neg (lt_of_lt_of_le hlt (State.execPriority_primask h))
  revert hneg
  decide

/-- Raising HardFault leaves IPSR, or enters HardFault (R510, R511, R522). -/
theorem ipsr_raiseHardFault {s t : State} {ret : Word} {c : HardFaultCause} (h : s.raiseHardFault ret c = .next t) :
    t.ipsr = s.ipsr ∨ t.ipsr = 3#6 := by
  rcases State.raiseHardFault_next h with ⟨_, _, _, rfl⟩ | ⟨_, rfl⟩ | ⟨⟨hentered, -⟩, -⟩
  · exact .inl rfl
  · exact .inl rfl
  · obtain ⟨-, -, -, -, -, -, -, hipsr, -⟩ := hentered
    exact .inr hipsr

/-- Settles O45: PRIMASK raises the execution priority to 0, below which are the fixed priorities alone. -/
theorem primaskMasksConfigurable : Obligations.PrimaskMasksConfigurable := by
  intro s hp
  refine ⟨fun e he => preempting_primask hp he, fun imm8 t ht h11 => ?_⟩
  rw [exec_svc_escalates (svCall_masked hp)] at ht
  rcases ipsr_raiseHardFault ht with h | h
  · exact h.symm.trans h11
  · exact absurd (h.symm.trans h11) (by decide)

/-! ## The event instructions (R349, R423, R424) -/

/-- The pc advanced and the event register, the run state and the count of free values written: what is kept. -/
theorem eventRetired_of_fields (s : State) (event : Bool) (r : RunState) (n : Nat) :
    EventRetired s ((((s.withEvent event).withRun r).withFreeIdx n).advance 2#32) event :=
  ⟨rfl, rfl, rfl, keepsRegs_of_fields _ rfl rfl rfl rfl rfl rfl, rfl, rfl, rfl, rfl, rfl, rfl, rfl, rfl, rfl,
    fun _ => rfl⟩

/-- What a hint's free choice leaves of the run state. -/
theorem hint_run (suspends : Bool) (r w : RunState) :
    (if suspends then w else r) = r ∨ (if suspends then w else r) = w := by
  cases suspends
  · exact .inl rfl
  · exact .inr rfl

theorem exec_wfe_event {s : State} (h : s.event = true) : exec .wfe s = .next ((s.withEvent false).advance 2#32) :=
  congrArg _ (if_pos h)

theorem exec_wfe_noEvent {s : State} (h : s.event = false) : exec .wfe s = .next
    (((s.withRun (if Config.hintSuspends s.freeIdx then .waitingForEvent else s.run)).drewFree).advance 2#32) :=
  congrArg _ (if_neg (Bool.eq_false_iff.mp h))

theorem exec_wfi_wakes {s : State} (h : s.wakesInterrupt = true) : exec .wfi s = .next (s.advance 2#32) :=
  congrArg _ (if_pos h)

theorem exec_wfi_noWake {s : State} (h : ¬ s.wakesInterrupt = true) : exec .wfi s = .next
    (((s.withRun (if Config.hintSuspends s.freeIdx then .waitingForInterrupt else s.run)).drewFree).advance 2#32) :=
  congrArg _ (if_neg h)

/-- Settles O48: SEV, then WFE with an event and without one, then WFI with a wake-up and without one. -/
theorem eventInstructions : Obligations.EventInstructions := by
  intro s
  refine ⟨⟨_, rfl, eventRetired_of_fields s true s.run s.freeIdx, rfl⟩, ?_, ?_⟩
  · cases h : s.event with
    | true => exact ⟨_, exec_wfe_event h, eventRetired_of_fields s false s.run s.freeIdx, fun _ => rfl, .inl rfl⟩
    | false =>
      exact ⟨_, exec_wfe_noEvent h, h ▸ eventRetired_of_fields s s.event _ (s.freeIdx + 1), nofun, hint_run _ _ _⟩
  · by_cases h : s.wakesInterrupt = true
    · exact ⟨_, exec_wfi_wakes h, eventRetired_of_fields s s.event s.run s.freeIdx, fun _ => rfl, .inl rfl⟩
    · exact ⟨_, exec_wfi_noWake h, eventRetired_of_fields s s.event _ (s.freeIdx + 1), fun hw => absurd hw h,
        hint_run _ _ _⟩

end Sys2Proof.Machine

/-! What the branches and the address and high-register forms write (O22, O23, O42, O43), and POP (O37). -/

namespace Sys2Proof

/-! ## Decoding the address forms -/

/-- The fields of a halfword with a register and an eight-bit immediate (R142). -/
theorem slices_imm8 (op : BitVec 5) (r : LowReg) (imm8 : BitVec 8) :
    slice (encodeImm8 op r imm8) 8 3 = r ∧ slice (encodeImm8 op r imm8) 0 8 = imm8 := by
  constructor <;>
    simp (disch := decide) only [encodeImm8, slice_half, slice_append_high, slice_append_low, slice_all, Nat.reduceSub]

/-- ADD (SP plus immediate) T1 and ADR, read back (R205, R209). -/
theorem decode_addressImm8 (rd : LowReg) (imm8 : BitVec 8) (hw2 : Half) :
    decode (encodeImm8 0b10101#5 rd imm8) hw2 = .ok (.addSpImmT1 rd imm8)
      ∧ decode (encodeImm8 0b10100#5 rd imm8) hw2 = .ok (.adr rd imm8) := by
  have top := fun op => Laws.EncodingLength.top_imm8 op rd imm8
  have fields := fun op => slices_imm8 op rd imm8
  constructor <;>
    · rw [decode_of_narrow (by rw [isWide, top]; decide), decode16, top, (fields _).1, (fields _).2]
      rfl

/-- The fields of the two halfwords that move SP by an immediate (R206, R393). -/
theorem slices_spImm (sub : BitVec 1) (imm7 : BitVec 7) :
    slice (half (0b10110000#8 ++ sub ++ imm7)) 11 5 = 0b10110#5
      ∧ slice (half (0b10110000#8 ++ sub ++ imm7)) 8 4 = 0b0000#4
      ∧ slice (half (0b10110000#8 ++ sub ++ imm7)) 7 1 = sub
      ∧ slice (half (0b10110000#8 ++ sub ++ imm7)) 0 7 = imm7 := by
  refine ⟨?_, ?_, ?_, ?_⟩
  · simp (disch := decide) only [slice_half, slice_append_high, Nat.reduceSub]; rfl
  · simp (disch := decide) only [slice_half, slice_append_high, Nat.reduceSub]; rfl
  all_goals
    simp (disch := decide) only [slice_half, slice_append_high, slice_append_low, slice_all, Nat.reduceSub]

/-- ADD (SP plus immediate) T2 and SUB (SP minus immediate), read back (R206, R393). -/
theorem decode_spImm (sub : BitVec 1) (imm7 : BitVec 7) (hw2 : Half) :
    decode (half (0b10110000#8 ++ sub ++ imm7)) hw2 = .ok (if sub = 0#1 then .addSpImmT2 imm7 else .subSpImm imm7) := by
  obtain ⟨htop, hop, hsub, himm⟩ := slices_spImm sub imm7
  rw [decode_of_narrow (by rw [isWide, htop]; decide), decode16, htop, decodeMiscellaneous, hop, hsub, himm]
  rfl

end Sys2Proof

namespace Sys2Proof.Machine

/-! ## Writes of any register (R53, R58) -/

/-- The end of an instruction that may name SP or the PC as its destination. -/
theorem highWritten_writeOrBranch (s : State) (d : RegNum) (v : Word) : HighWritten s (s.writeOrBranch d v) d v := by
  unfold State.writeOrBranch
  split
  next hd =>
    subst hd
    obtain ⟨hpc, hapsr, hregs, hsystem, ht, hfree, hmem⟩ := branched_branchTo s v
    exact ⟨hapsr, hpc, hregs, hsystem, ht, hfree, hmem⟩
  next hd =>
    refine ⟨by simp, ?_⟩
    rw [if_neg hd]
    refine ⟨?_, retired_setX s d v 2#32⟩
    rw [State.x_advance _ _ hd]
    exact State.x_setX_self s hd v

/-- A value written to a low register retires. -/
theorem valueRetired_retireValue (s : State) (d : LowReg) (v : Word) :
    ∃ t, s.retireValue (lowReg d) v = .next t ∧ ValueRetired s t (lowReg d) v :=
  ⟨_, rfl, by simp, by simp, retired_setX _ _ _ _⟩

/-- A value written to SP retires with its bits 1 and 0 cleared. -/
theorem highWritten_retireValue_sp (s : State) (v : Word) :
    ∃ t, s.retireValue 13#4 v = .next t ∧ HighWritten s t 13#4 v :=
  ⟨_, rfl, highWritten_writeOrBranch s 13#4 v⟩

/-- Settles O22: each form ends with a write of the register that may be SP or the PC. -/
theorem highRegisterResults : Obligations.HighRegisterResults := by
  intro s rd rm
  exact ⟨fun hpc => ⟨_, if_neg hpc, highWritten_writeOrBranch _ _ _⟩, ⟨_, rfl, highWritten_writeOrBranch _ _ _⟩,
    highWritten_retireValue_sp _ _, ⟨_, rfl, highWritten_writeOrBranch _ _ _⟩, rfl⟩

/-! ## Scaled immediates -/

/-- A scaled immediate is four times the immediate (R150). -/
theorem imm32x4_eq {w : Nat} (imm : BitVec w) (hw : w ≤ 30) : imm32x4 imm = 4#32 * imm.setWidth 32 := by
  have hlt : imm.toNat < 2 ^ 30 := lt_of_lt_of_le imm.isLt (Nat.pow_le_pow_right (by decide) hw)
  apply BitVec.eq_of_toNat_eq
  simp only [imm32x4, BitVec.toNat_setWidth, BitVec.toNat_append, BitVec.toNat_mul, BitVec.toNat_ofNat]
  rw [← Nat.shiftLeft_add_eq_or_of_lt (by decide), Nat.shiftLeft_eq]
  omega

/-- A difference as `AddWithCarry` forms it. -/
theorem subWithCarry_result (x y : Word) : (subWithCarry x y).result = x - y := by
  simpa [subWithCarry] using addWithCarry_not_result x y false

/-- Settles O23: the four results with their frames, and the four encodings read back. -/
theorem addressArithmetic : Obligations.AddressArithmetic := by
  intro s rd imm8 imm7 hw2
  obtain ⟨hadd, hadr⟩ := decode_addressImm8 rd imm8 hw2
  rw [← imm32x4_eq imm8 (by decide), ← imm32x4_eq imm7 (by decide), ← subWithCarry_result]
  exact ⟨valueRetired_retireValue _ _ _, valueRetired_retireValue _ _ _, highWritten_retireValue_sp _ _,
    highWritten_retireValue_sp _ _, hadd, hadr, decode_spImm 0#1 imm7 hw2, decode_spImm 1#1 imm7 hw2⟩

/-! ## Branches -/

/-- Concatenated fields as a number. -/
theorem toNat_append_eq {v w : Nat} (x : BitVec v) (y : BitVec w) : (x ++ y).toNat = x.toNat * 2 ^ w + y.toNat := by
  rw [BitVec.toNat_append, ← Nat.shiftLeft_add_eq_or_of_lt y.isLt, Nat.shiftLeft_eq]

/-- `I1` and `I2` of BL: a J bit equal to S stands for 1 (R227). -/
theorem blBit_toNat (j sbit : BitVec 1) : (~~~(j ^^^ sbit)).toNat = if j = sbit then 1 else 0 := by
  revert j sbit; decide

/-- The offset of BL as a signed number (R227). -/
theorem blOffset_eq (sbit : BitVec 1) (imm10 : BitVec 10) (j1 j2 : BitVec 1) (imm11 : BitVec 11) :
    blOffset sbit imm10 j1 j2 imm11 = BitVec.ofInt 32 (2 * (-(2 ^ 23 : Int) * sbit.toNat
      + 2 ^ 22 * (if j1 = sbit then 1 else 0) + 2 ^ 21 * (if j2 = sbit then 1 else 0)
      + 2 ^ 11 * imm10.toNat + imm11.toNat)) := by
  unfold blOffset BitVec.signExtend
  congr 1
  have hs := sbit.isLt
  have h10 := imm10.isLt
  have h11 := imm11.isLt
  rw [BitVec.toInt_eq_toNat_cond]
  simp only [toNat_append_eq, blBit_toNat]
  split_ifs <;> simp_all <;> omega

/-- A branch offset is even. -/
theorem blOffset_even (sbit : BitVec 1) (imm10 : BitVec 10) (j1 j2 : BitVec 1) (imm11 : BitVec 11) :
    (blOffset sbit imm10 j1 j2 imm11).getLsbD 0 = false := by
  rw [blOffset, BitVec.getLsbD_signExtend, BitVec.getLsbD_append]
  rfl

/-- LR written, then a change of the pc and `T`: every other register is kept. -/
theorem keepsRegs_withLr_withT_withPc (s : State) (lr pc : Word) (b : Bool) :
    KeepsRegs [14#4] s (((s.withLr lr).withT b).withPc pc) :=
  keepsRegs_trans (keepsRegs_setX s 14#4 lr) (keepsRegs_of_fields _ rfl rfl rfl rfl rfl rfl) rfl

/-- Settles O42: the target is even because the pc and the offset are. -/
theorem branchLinkTargets : Obligations.BranchLinkTargets := by
  intro s sbit j1 j2 imm10 imm11 hpc
  have heven : (s.pcVal + blOffset sbit imm10 j1 j2 imm11).getLsbD 0 = false :=
    even_add (even_add hpc rfl) (blOffset_even _ _ _ _ _)
  refine ⟨_, rfl, rfl, ?_, rfl, keepsRegs_withLr_withT_withPc s _ _ s.t,
    ⟨⟨rfl, rfl, rfl, rfl, rfl, rfl, rfl, rfl, rfl⟩, rfl⟩, rfl, rfl, fun _ => rfl⟩
  rw [← blOffset_eq]
  exact align2_of_even heven

/-- A branch that is no exception return copies bit 0 of its target to `T` (R58). -/
theorem bxWritePC_of_not_return {s : State} {a : Word} (h : ¬ (s.mode = .handler ∧ a.extractLsb' 28 4 = 0b1111#4)) :
    s.bxWritePC a = .next (s.interworkTo a) := by
  rw [State.bxWritePC, if_neg (by rwa [isExceptionReturn_iff])]

/-- Settles O43: both branches copy bit 0 of the target, and BLX writes LR before. -/
theorem interworkingBranches : Obligations.InterworkingBranches := by
  intro s rm hrm
  have hblx : exec (.blx rm 0#3) s = .next ((s.withLr (withBit0 (s.pc + 2#32))).interworkTo (s.x rm)) := by
    simp [exec, execBlx, hrm]
  have hbx : exec (.bx rm 0#3) s = s.bxWritePC (s.x rm) := by simp [exec, execBx, hrm]
  refine ⟨⟨_, hblx, rfl, rfl, rfl, rfl, keepsRegs_withLr_withT_withPc _ _ _ _,
    ⟨⟨rfl, rfl, rfl, rfl, rfl, rfl, rfl, rfl, rfl⟩, rfl⟩, rfl, fun _ => rfl⟩, fun hnot => ?_⟩
  exact ⟨_, hbx.trans (bxWritePC_of_not_return hnot), rfl, rfl, rfl, keepsRegs_of_fields _ rfl rfl rfl rfl rfl rfl,
    ⟨⟨rfl, rfl, rfl, rfl, rfl, rfl, rfl, rfl, rfl⟩, rfl⟩, rfl, fun _ => rfl⟩

/-! ## POP (R341) -/

/-- POP of a list that is not empty pops at least one word. -/
theorem popped_pos {p : BitVec 1} {l : BitVec 8} (h : ¬ (p = 0#1 ∧ l = 0#8)) : 0 < rankIn l 8 + p.toNat := by
  revert p l; decide

theorem popCount_eq (p : BitVec 1) (l : BitVec 8) : popCount p l = rankIn l 8 + p.toNat := by
  rw [popCount, listRegs_length]

theorem sp_not_mem_listRegs (l : BitVec 8) : 13#4 ∉ listRegs l := fun h => absurd (listRegs_lt h) (by decide)

/-- The stack pointer after a POP, from an aligned stack pointer: past the words, its low bits already clear. -/
theorem align4_pop {sp : Word} (h : sp.toNat % 4 = 0) (n : Nat) :
    align4 (sp + wordsSize n) = sp + 4#32 * BitVec.ofNat 32 n := by
  rw [wordsSize_eq]
  refine align4_of_aligned ?_
  rw [slot_toNat]
  omega

/-- What every POP that completes leaves: its registers loaded, SP past its words, and all else but the pc and `T` as
before. -/
structure Popped (s t : State) (p : BitVec 1) (l : BitVec 8) : Prop where
  loaded : ∀ i, InList l i → Stored s (slotOf s.sp l i) 4 (t.x i)
  sp : t.sp = s.sp + 4#32 * BitVec.ofNat 32 (rankIn l 8 + p.toNat)
  otherStack : if s.usesPsp then t.msp = s.msp else t.psp = s.psp
  other : ∀ i, ¬ InList l i → i ≠ 13#4 → i ≠ 15#4 → t.x i = s.x i
  apsr : t.apsr = s.apsr
  system : KeepsSystem s t
  freeIdx : t.freeIdx = s.freeIdx
  mem : KeepsMemory s t

/-- Each register a POP loads holds the word at its place. -/
theorem loadRegs_slot {s u : State} {l : BitVec 8} (hu : s.loadRegs s.sp (listRegs l) = .ok u) {i : RegNum}
    (hi : InList l i) : Stored s (slotOf s.sp l i) 4 (u.x i) := by
  obtain ⟨hlt, hget⟩ := List.getElem?_eq_some_iff.mp (listRegs_getElem l hi)
  have hword := State.loadRegs_loaded hu (listRegs_nodup l) (fun j hj => lt_trans (listRegs_lt hj) (by decide)) hlt
  rwa [hget] at hword

/-- Reading any register but the PC does not depend on the pc or `T`. -/
theorem x_withT_withPc (s : State) (b : Bool) (a : Word) {i : RegNum} (hi : i ≠ 15#4) :
    ((s.withT b).withPc a).x i = s.x i :=
  State.x_congr_ne (s := s) (t := (s.withT b).withPc a) rfl rfl rfl hi

/-- SP, the pc and `T` written, and nothing else. -/
theorem popped_setSp {s u : State} {p : BitVec 1} {l : BitVec 8} (hsp : s.sp.toNat % 4 = 0)
    (hu : s.loadRegs s.sp (listRegs l) = .ok u) (b : Bool) (a : Word) :
    Popped s (((u.setX 13#4 (s.sp + wordsSize (popCount p l))).withT b).withPc a) p l := by
  obtain ⟨-, hapsr, -, hsystem, hfree, hmem⟩ := State.loadRegs_ok hu
  obtain ⟨⟨-, hmode, -, hcontrol, -⟩, -⟩ := id hsystem
  obtain ⟨hmsp, hpsp⟩ := State.loadRegs_stack hu (sp_not_mem_listRegs l)
  have huses : u.usesPsp = s.usesPsp := State.usesPsp_congr hmode hcontrol
  have hx {i : RegNum} (h13 : i ≠ 13#4) (h15 : i ≠ 15#4) :
      (((u.setX 13#4 (s.sp + wordsSize (popCount p l))).withT b).withPc a).x i = u.x i := by
    rw [x_withT_withPc _ _ _ h15, State.x_setX_other _ h13]
  refine
    { loaded := fun i hi => ?_
      sp := ?_
      otherStack := ?_
      other := fun i hi h13 h15 => ?_
      apsr := by simp [hapsr]
      system := by simpa [KeepsSystem, KeepsSpecial, KeepsSync] using hsystem
      freeIdx := by simp [hfree]
      mem := fun _ => by simp [hmem] }
  · have hlow := hi.1
    rw [hx (by rintro rfl; exact absurd hlow (by decide)) (by rintro rfl; exact absurd hlow (by decide))]
    exact loadRegs_slot hu hi
  · rw [← popCount_eq, ← align4_pop hsp]
    exact State.setSp_sp u _
  · rw [State.withPc_msp, State.withPc_psp, State.withT_msp, State.withT_psp, State.setX_at_sp, State.setSp_msp,
      State.setSp_psp, huses]
    cases s.usesPsp
    · exact hpsp
    · exact hmsp
  · rw [hx h13 h15]
    exact State.loadRegs_other hu fun hm => hi ((mem_listRegs l i).mp hm)

/-- A POP without the PC whose words are readable goes on to the next instruction. -/
theorem exec_pop_noPc {s : State} {l : BitVec 8} (hl : l ≠ 0#8) (hr : ReadableWords s s.sp (rankIn l 8)) :
    ∃ u, s.loadRegs s.sp (listRegs l) = .ok u
      ∧ exec (.pop 0#1 l) s = .next ((u.setX 13#4 (s.sp + wordsSize (popCount 0#1 l))).advance 2#32) := by
  obtain ⟨u, hu⟩ := State.loadRegs_of_readable ((listRegs_length l).symm ▸ hr)
  exact ⟨u, hu, by simp [exec, execPop, hl, State.completeTransfer, State.popLoads, hu, State.popRetire]⟩

theorem advance_eq (s : State) (n : Word) : s.advance n = (s.withT s.t).withPc (s.pc + n) := rfl

/-- The PC is in the list of a POP or it is not. -/
theorem bit_cases (p : BitVec 1) : p = 0#1 ∨ p = 1#1 := by revert p; decide

/-- Settles O37: without the PC in the list, and with it. -/
theorem popCompletes : Obligations.PopCompletes := by
  intro s p l hne hr hnot
  have hsp : s.sp.toNat % 4 = 0 := by simpa using (hr 0 (popped_pos hne)).1
  rcases bit_cases p with rfl | rfl
  · obtain ⟨u, hu, hx⟩ := exec_pop_noPc (fun hl => hne ⟨rfl, hl⟩) hr
    obtain ⟨hpc, -, ht, -⟩ := State.loadRegs_ok hu
    rw [advance_eq, State.setX_t, State.setX_pc, ht, hpc] at hx
    have h := popped_setSp (p := 0#1) hsp hu s.t (s.pc + 2#32)
    exact ⟨_, hx, h.loaded, h.sp, h.otherStack, h.other, fun _ => ⟨rfl, rfl⟩, nofun, h.apsr, h.system, h.freeIdx, h.mem⟩
  · obtain ⟨v, hv⟩ := State.memRead_of_readable (z := .word) (hr (rankIn l 8) (Nat.lt_succ_self _))
    obtain ⟨-, hstored, -⟩ := State.memRead_ok hv
    obtain ⟨u, hu, hx⟩ := exec_pop_pc hr hstored
    obtain ⟨-, -, -, ⟨⟨-, hmode, -⟩, -⟩, -⟩ := State.loadRegs_ok hu
    rw [bxWritePC_of_not_return (by rw [State.setX_mode, hmode]; exact hnot v rfl hstored)] at hx
    have h := popped_setSp (p := 1#1) hsp hu (v.getLsbD 0) (align2 v)
    exact ⟨_, hx, h.loaded, h.sp, h.otherStack, h.other, nofun, fun _ => ⟨v, hstored, rfl, rfl⟩, h.apsr, h.system,
      h.freeIdx, h.mem⟩

end Sys2Proof.Machine

/-! Special registers (O50, O51), and which instructions write which flags (O16). -/

namespace Sys2Proof.Machine

/-! ## `SYSm` (R66) -/

/-- The `SYSm` value that selects a special register. -/
def sysmOf : SpecReg → BitVec 8
  | .apsr => 0#8
  | .iapsr => 1#8
  | .eapsr => 2#8
  | .xpsr => 3#8
  | .ipsr => 5#8
  | .epsr => 6#8
  | .iepsr => 7#8
  | .msp => 8#8
  | .psp => 9#8
  | .primask => 16#8
  | .control => 20#8

theorem specRegOf_sysmOf (r : SpecReg) : specRegOf (sysmOf r) = some r := by cases r <;> rfl

theorem eq_sysmOf {sysm : BitVec 8} {r : SpecReg} (h : specRegOf sysm = some r) : sysm = sysmOf r := by
  unfold specRegOf at h
  split at h <;> cases h <;> rfl

theorem exists_sysmOf {sysm : BitVec 8} (h : allocatedSysm sysm = true) : ∃ r, sysm = sysmOf r := by
  cases hr : specRegOf sysm with
  | some r => exact ⟨r, eq_sysmOf hr⟩
  | none => exact absurd h (Bool.eq_false_iff.mp ((specRegOf_eq_none_iff sysm).mp hr))

theorem privileged_iff (s : State) : s.privileged = true ↔ s.mode = .handler ∨ s.control.nPriv = false := by
  simp [State.privileged]

/-- What the restriction of D21 refuses. -/
theorem outsideSingleStack_iff (s : State) (sysm : BitVec 8) (v : Word) :
    s.outsideSingleStack sysm v = true ↔
      s.cfg.singleStack = true ∧ (sysm = 9#8 ∨ (sysm = 20#8 ∧ v.extractLsb' 0 2 ≠ 0#2)) := by
  simp [State.outsideSingleStack]

/-! ## MRS (R320) -/

theorem exec_mrs {s : State} {rd : RegNum} (h13 : rd ≠ 13#4) (h15 : rd ≠ 15#4) (r : SpecReg) :
    exec (.mrs rd (sysmOf r) mrsShouldBe) s =
      if s.outsideSingleStack (sysmOf r) 0#32 then .refused (.outsideSingleStack (sysmOf r))
      else .next ((s.setX rd (s.readSpecial r)).advance 4#32) := by
  simp [exec, execMrs, h13, h15, specRegOf_sysmOf]

/-- A read is outside one stack pointer for PSP alone. -/
theorem outsideSingleStack_read (s : State) (sysm : BitVec 8) :
    s.outsideSingleStack sysm 0#32 = true ↔ s.cfg.singleStack = true ∧ sysm = 9#8 := by
  rw [outsideSingleStack_iff]
  simp

/-- The bits of a word with the flags on top and an exception number below (R64, R66). -/
theorem flagsWord_getLsbD (f : Apsr) (e : ExcNum) {k : Nat} (hk : k < 32) :
    (f.toWord ||| e.setWidth 32).getLsbD k = (f.toWord.getLsbD k || e.getLsbD k) := by
  simp [BitVec.getLsbD_setWidth, hk, -BitVec.getLsbD_eq_getElem]

theorem excNum_high (e : ExcNum) {k : Nat} (hk : 6 ≤ k) : e.getLsbD k = false := BitVec.getLsbD_of_ge _ _ hk

/-- The flags of such a word. -/
theorem flagsWord_flags (f : Apsr) (e : ExcNum) :
    (f.toWord ||| e.setWidth 32).getLsbD 31 = f.n ∧ (f.toWord ||| e.setWidth 32).getLsbD 30 = f.z
      ∧ (f.toWord ||| e.setWidth 32).getLsbD 29 = f.c ∧ (f.toWord ||| e.setWidth 32).getLsbD 28 = f.v := by
  refine ⟨?_, ?_, ?_, ?_⟩ <;>
    · rw [flagsWord_getLsbD f e (by decide), Apsr.toWord_getLsbD, excNum_high e (by decide)]
      simp

/-- Below the flags such a word is the exception number. -/
theorem flagsWord_low (f : Apsr) (e : ExcNum) :
    (f.toWord ||| e.setWidth 32) &&& 0x0FFFFFFF#32 = e.setWidth 32 := by
  refine BitVec.eq_of_getLsbD_eq fun k hk => ?_
  rw [and_mask_getLsbD _ _ (fun k => decide (k < 28)) (by decide), flagsWord_getLsbD f e hk, Apsr.toWord_getLsbD,
    BitVec.getLsbD_setWidth]
  by_cases h28 : k < 28
  · have hne : k ≠ 31 ∧ k ≠ 30 ∧ k ≠ 29 ∧ k ≠ 28 := by omega
    simp [h28, hk, hne]
  · simp [h28, excNum_high e (show 6 ≤ k by omega)]

theorem flagsWord_low_zero (f : Apsr) : f.toWord &&& 0x0FFFFFFF#32 = 0#32 := by simpa using flagsWord_low f 0#6

/-- What the four registers that hold the flags read as. -/
theorem readSpecial_flags (s : State) {r : SpecReg} (h : (sysmOf r).toNat ≤ 3) :
    ∃ e : ExcNum, s.readSpecial r = s.apsr.toWord ||| e.setWidth 32 := by
  cases r with
  | apsr | eapsr => exact ⟨0#6, BitVec.or_zero.symm⟩
  | iapsr | xpsr => exact ⟨s.ipsr, rfl⟩
  | _ => exact absurd h (by decide)

theorem control_toWord_eq (c : Control) :
    c.toWord = (if c.spSel then 2#32 else 0#32) + (if c.nPriv then 1#32 else 0#32) := by
  obtain ⟨spSel, nPriv⟩ := c
  cases spSel <;> cases nPriv <;> rfl

theorem primask_word_eq (b : Bool) : (BitVec.ofBool b).setWidth 32 = if b then 1#32 else 0#32 := by
  cases b <;> rfl

/-- Settles O50: MRS moves the value of the register that `SYSm` selects, and each register reads as R66 says. -/
theorem mrsReads : Obligations.MrsReads := by
  intro s rd sysm h13 h15 hal
  obtain ⟨r, hr⟩ := exists_sysmOf hal
  have hexec := exec_mrs (s := s) h13 h15 r
  rw [← hr] at hexec
  refine ⟨fun hs h9 => hexec.trans (if_pos ((outsideSingleStack_read s sysm).mpr ⟨hs, h9⟩)), fun hn =>
    ⟨_, hexec.trans (if_neg fun h => hn ((outsideSingleStack_read s sysm).mp h)), by simp, retired_setX s rd _ _, ?_⟩⟩
  have hx : ((s.setX rd (s.readSpecial r)).advance 4#32).x rd = s.readSpecial r := by
    rw [State.x_advance _ _ h15, State.x_setX_self _ h15, if_neg h13]
  have reads {q : SpecReg} (h : sysm = sysmOf q) : s.readSpecial r = s.readSpecial q := by
    have hq : some r = some q := by rw [← specRegOf_sysmOf, ← specRegOf_sysmOf, ← hr, h]
    rw [Option.some.inj hq]
  rw [hx]
  refine ⟨fun hle => ?_, ?_, ?_, ?_, fun h => reads (q := .epsr) h, fun hp => ?_, fun hm hn => ?_⟩
  · obtain ⟨e, he⟩ := readSpecial_flags s (hr ▸ hle)
    rw [he]
    exact flagsWord_flags s.apsr e
  · rintro (h | h)
    · exact (congrArg (· &&& _) (reads (q := .apsr) h)).trans (flagsWord_low_zero s.apsr)
    · exact (congrArg (· &&& _) (reads (q := .eapsr) h)).trans (flagsWord_low_zero s.apsr)
  · rintro (h | h)
    · exact (congrArg (· &&& _) (reads (q := .iapsr) h)).trans (flagsWord_low s.apsr s.ipsr)
    · exact (congrArg (· &&& _) (reads (q := .xpsr) h)).trans (flagsWord_low s.apsr s.ipsr)
  · rintro (h | h)
    · exact reads (q := .ipsr) h
    · exact reads (q := .iepsr) h
  · have hp := (privileged_iff s).mpr hp
    exact ⟨fun h => (reads (q := .msp) h).trans (if_pos hp), fun h => (reads (q := .psp) h).trans (if_pos hp),
      fun h => ((reads (q := .primask) h).trans (if_pos hp)).trans (primask_word_eq _),
      fun h => ((reads (q := .control) h).trans (if_pos hp)).trans (control_toWord_eq _)⟩
  · have hp : ¬ s.privileged = true := by simp [State.privileged, hm, hn]
    rintro (h | h | h | h)
    · exact (reads (q := .msp) h).trans (if_neg hp)
    · exact (reads (q := .psp) h).trans (if_neg hp)
    · exact (reads (q := .primask) h).trans (if_neg hp)
    · exact (reads (q := .control) h).trans (if_neg hp)

/-! ## MSR (R330) -/

theorem exec_msr {s : State} {rn : RegNum} (h13 : rn ≠ 13#4) (h15 : rn ≠ 15#4) (r : SpecReg) :
    exec (.msr rn (sysmOf r) msrShouldBe) s =
      if s.outsideSingleStack (sysmOf r) (s.x rn) then .refused (.outsideSingleStack (sysmOf r))
      else .next ((s.writeSpecial r (s.x rn)).advance 4#32) := by
  simp [exec, execMsr, h13, h15, specRegOf_sysmOf]

/-- A write of a special register leaves the registers but the stack pointers, and memory. -/
theorem writeSpecial_keeps (s : State) (r : SpecReg) (v : Word) :
    s.writeSpecial r v = { s with
      apsr := (s.writeSpecial r v).apsr, msp := (s.writeSpecial r v).msp, psp := (s.writeSpecial r v).psp,
      primask := (s.writeSpecial r v).primask, control := (s.writeSpecial r v).control } := by
  cases r with
  | apsr | iapsr | eapsr | xpsr | ipsr | epsr | iepsr => rfl
  | msp | psp | primask | control =>
    dsimp only [State.writeSpecial]
    split <;> rfl

/-- Only `SYSm` 0 to 3 write the flags (R64, R330). -/
theorem writeSpecial_apsr (s : State) (r : SpecReg) (v : Word) :
    (s.writeSpecial r v).apsr = if (sysmOf r).toNat ≤ 3 then apsrOfWord v else s.apsr := by
  cases r with
  | apsr | iapsr | eapsr | xpsr | ipsr | epsr | iepsr => rfl
  | msp | psp | primask | control =>
    dsimp only [State.writeSpecial]
    split <;> rfl

section
variable {s : State} (hp : s.privileged = true) (r : SpecReg) (v : Word)
include hp

theorem writeSpecial_msp : (s.writeSpecial r v).msp = if sysmOf r = 8#8 then align4 v else s.msp := by
  cases r <;> simp [State.writeSpecial, sysmOf, hp]

theorem writeSpecial_psp : (s.writeSpecial r v).psp = if sysmOf r = 9#8 then align4 v else s.psp := by
  cases r <;> simp [State.writeSpecial, sysmOf, hp]

theorem writeSpecial_primask :
    (s.writeSpecial r v).primask = if sysmOf r = 16#8 then v.getLsbD 0 else s.primask := by
  cases r <;> simp [State.writeSpecial, sysmOf, hp]

theorem writeSpecial_control :
    (s.writeSpecial r v).control = if sysmOf r = 20#8 then s.controlWrite v else s.control := by
  cases r <;> simp [State.writeSpecial, sysmOf, hp]

end

/-- Settles O51: MSR writes the register that `SYSm` selects, and a write leaves every other field. -/
theorem msrWrites : Obligations.MsrWrites := by
  intro s rn sysm h13 h15 hal hpriv
  obtain ⟨r, rfl⟩ := exists_sysmOf hal
  have hp := (privileged_iff s).mpr hpriv
  have hexec := exec_msr (s := s) h13 h15 r
  have hout := outsideSingleStack_iff s (sysmOf r) (s.x rn)
  refine ⟨fun hs h => hexec.trans (if_pos (hout.mpr ⟨hs, h⟩)), fun hn =>
    ⟨_, hexec.trans (if_neg fun h => hn (hout.mp h)), writeSpecial_apsr s r _, writeSpecial_msp hp r _,
      writeSpecial_psp hp r _, writeSpecial_primask hp r _, ?_, ?_, ?_⟩⟩
  · rw [State.advance_control, writeSpecial_control hp]
    by_cases h : sysmOf r = 20#8 <;> simp [h, State.controlWrite]
  · rw [State.advance_control, writeSpecial_control hp]
    by_cases h : sysmOf r = 20#8 <;> simp [h, State.controlWrite]
  · rw [writeSpecial_keeps]
    exact ⟨rfl, rfl, rfl, rfl, rfl, rfl, rfl, rfl, rfl, rfl, rfl, rfl, rfl, fun _ => rfl⟩

/-! ## Flags (R62) -/

theorem Edited.apsr {i : Instr} {s t : State} (h : Edited i s t) (hi : writesFlags i = false) : t.apsr = s.apsr := by
  induction h with
  | refl => rfl
  | setX _ d v ih => exact (State.setX_apsr _ d v).trans ih
  | withApsr _ hw _ _ => exact absurd hw (Bool.eq_false_iff.mp hi)
  | writeSpecial _ hw _ _ _ => exact absurd hw.1 (Bool.eq_false_iff.mp hi)
  | withPrimask _ _ _ ih | advance _ _ _ ih | branchTo _ _ ih | interworkTo _ _ ih | withEvent _ _ ih | withRun _ _ ih
  | withModified _ _ ih | withMem _ _ _ ih | drewFree _ ih => exact ih

/-- An instruction that writes no flag leaves them, unless it returns from an exception. -/
theorem apsr_exec {i : Instr} {s t : State} (h : exec i s = .next t) (hret : mayReturn i = true → s.mode = .thread)
    (hi : writesFlags i = false) : t.apsr = s.apsr := by
  rcases (exec_leads s i).next h with he | ⟨u, ret, c, he, hr⟩ | ⟨ret, hr⟩ | ⟨u, a, he, hmay, hm, -⟩
  · exact he.apsr hi
  · exact (keepsStatus_raiseHardFault hr).apsr.trans (he.apsr hi)
  · exact (keepsStatus_takeException hr).apsr
  · rw [he.keepsContext.mode, hret hmay] at hm
    cases hm

/-- N, Z and C from a shift: V is as before, and C too for a shift by 0. -/
theorem retireShift_flags {s t : State} {d : RegNum} {type : SRType} {v : Word} {n : Nat}
    (h : s.retireShift d type v n = .next t) : t.apsr.v = s.apsr.v ∧ (n = 0 → t.apsr.c = s.apsr.c) := by
  cases h
  exact ⟨rfl, fun hn => by subst hn; rfl⟩

/-- What MSR answers when it answers a state. -/
theorem exec_msr_next {s t : State} {rn : RegNum} {sysm : BitVec 8} {sb : BitVec 6}
    (h : exec (.msr rn sysm sb) s = .next t) :
    ∃ r, sysm = sysmOf r ∧ t = (s.writeSpecial r (s.x rn)).advance 4#32 := by
  change execMsr rn sysm sb s = _ at h
  unfold execMsr at h
  split at h
  · cases h
  split at h
  · cases h
  split at h
  · cases h
  next r hr =>
    split at h
    · cases h
    · cases h
      exact ⟨r, eq_sysmOf hr, rfl⟩

/-- Settles O16: what writes no flag, then the instructions of each row of the table of R62. -/
theorem flagWriters : Obligations.FlagWriters := by
  intro i s t hx hret
  refine ⟨apsr_exec hx hret, fun h => ?_, fun rd rm h => ?_, fun rd rm imm5 h => ?_, ?_⟩
  · have hnz : ∃ v, t.apsr = s.apsr.nz v := by
      rcases h with ⟨rd, rm, rfl | rfl | rfl | rfl | rfl | rfl | rfl | rfl⟩ | ⟨rd, imm8, rfl⟩ <;>
        · cases hx
          exact ⟨_, rfl⟩
    obtain ⟨v, hv⟩ := hnz
    rw [hv]
    exact ⟨rfl, rfl⟩
  · rw [← regShift_eq]
    rcases h with rfl | rfl | rfl | rfl <;> exact retireShift_flags hx
  · rcases h with rfl | rfl | rfl <;> exact (retireShift_flags hx).1
  · rintro rn sysm sb rfl h4
    obtain ⟨r, rfl, rfl⟩ := exec_msr_next hx
    exact (writeSpecial_apsr s r _).trans (if_neg (by omega))

end Sys2Proof.Machine

/-! The fetch and the barriers (O6, O47), and what a single load or store does, completed, misaligned or not admitted
(O31 to O35). -/

namespace Sys2Proof.Machine

/-! ## The fetch (R103) -/

/-- Settles O6: a fetched halfword is its bytes side by side, and a fetch answers the halfwords at the pc. -/
theorem fetchIsLittleEndian : Obligations.FetchIsLittleEndian := by
  refine fun s => ⟨fun a => ?_, fun hw1 hw2 h => ?_⟩
  · rw [State.fetchHalf, halfOfBytes, toNat_append_eq]
    omega
  · obtain ⟨-, -, -, h1, h2⟩ := State.fetch_ok h
    refine ⟨h1, fun hw => ?_⟩
    rw [if_pos hw] at h2
    obtain ⟨-, -, -, h2⟩ := h2
    exact h2

/-! ## Barriers (R120, R125) -/

theorem afterBarrier_shouldBe (t : State) : t.afterBarrier barrierShouldBe = .next (t.advance 4#32) :=
  if_neg (not_not.mpr rfl)

/-- The pc advanced past a barrier and the record of modified bytes replaced: what is kept. -/
theorem barrierRetired_withModified (s : State) (m : Modified) :
    BarrierRetired s ((s.withModified m).advance 4#32) :=
  ⟨rfl, rfl, keepsRegs_of_fields _ rfl rfl rfl rfl rfl rfl, rfl, rfl, rfl, rfl, rfl, rfl, rfl, rfl, rfl, rfl, rfl, rfl⟩

/-- A DSB completes every store that is not yet visible (R122). -/
theorem Modified.mem_drain (m : Modified) (b : Nat) : b ∈ m.drain.drained ↔ b ∈ m.stored ∨ b ∈ m.drained := by
  by_cases h : b ∈ m.stored <;> simp [Modified.drain, h]

/-- Settles O47: DMB leaves the record of modified bytes, DSB drains it, ISB flushes it. -/
theorem barriersOnlyAdvance : Obligations.BarriersOnlyAdvance := fun s _ =>
  ⟨⟨_, afterBarrier_shouldBe s, barrierRetired_withModified s s.modified, rfl⟩,
    ⟨_, afterBarrier_shouldBe _, barrierRetired_withModified s _, rfl, Modified.mem_drain s.modified⟩,
    ⟨_, afterBarrier_shouldBe _, barrierRetired_withModified s _, rfl, rfl⟩⟩

/-! ## Accesses that fail (R104, R108, R125) -/

section
variable {s : State} {a v : Word} {z : Size}

theorem State.memRead_misaligned (h : a.toNat % z.bytes ≠ 0) : s.memRead a z = .hardFault (.align a z.bytes) :=
  if_pos h

theorem State.memRead_unadmitted (h : a.toNat % z.bytes = 0) (hadmits : s.admits a z.bytes .read = false) :
    s.memRead a z = .hardFault (.bus a z.bytes .read) := by
  rw [State.memRead, if_neg (not_not.mpr h), if_neg (Bool.eq_false_iff.mp hadmits)]

theorem State.memWrite_misaligned (h : a.toNat % z.bytes ≠ 0) :
    s.memWrite a z v = .hardFault (.align a z.bytes) :=
  if_pos h

/-- Program text is asked about before the platform is. -/
theorem State.memWrite_text (h : a.toNat % z.bytes = 0) (htext : s.overlapsText a z.bytes = true) :
    s.memWrite a z v = .refused (.storeToProgramText a) := by
  rw [State.memWrite, if_neg (not_not.mpr h), if_pos htext]

theorem State.memWrite_unadmitted (h : a.toNat % z.bytes = 0) (htext : s.overlapsText a z.bytes = false)
    (hadmits : s.admits a z.bytes .write = false) : s.memWrite a z v = .hardFault (.bus a z.bytes .write) := by
  rw [State.memWrite, if_neg (not_not.mpr h), if_neg (Bool.eq_false_iff.mp htext),
    if_neg (Bool.eq_false_iff.mp hadmits)]

end

/-! ## Addresses (R150) -/

/-- A halfword-scaled immediate is twice the immediate (R150). -/
theorem imm32x2_eq (imm5 : BitVec 5) : imm32x2 imm5 = 2#32 * imm5.setWidth 32 := by revert imm5; decide

section
variable (s : State) (rn : LowReg) (imm5 : BitVec 5) (imm8 : BitVec 8)

theorem addrImm_word : s.addrImm rn (imm32x4 imm5) = s.x (lowReg rn) + 4#32 * imm5.setWidth 32 :=
  congrArg _ (imm32x4_eq imm5 (by decide))

theorem addrImm_half : s.addrImm rn (imm32x2 imm5) = s.x (lowReg rn) + 2#32 * imm5.setWidth 32 :=
  congrArg _ (imm32x2_eq imm5)

theorem addrSp_eq : s.addrSp imm8 = s.sp + 4#32 * imm8.setWidth 32 := congrArg _ (imm32x4_eq imm8 (by decide))

theorem addrLit_eq : s.addrLit imm8 = ((s.pc + 4#32) &&& 0xFFFFFFFC#32) + 4#32 * imm8.setWidth 32 :=
  congrArg _ (imm32x4_eq imm8 (by decide))

end

/-- The instructions with a load access are the loads, at that address and of that width. -/
theorem exec_of_loadAccess {s : State} {i : Instr} {a : Word} {n : Nat} (h : loadAccess s i = some (a, n)) :
    ∃ rt z extend, z.bytes = n ∧ exec i s = s.loadInto rt a z extend := by
  cases i with
  | ldrImmT1 rt rn imm5 => cases h; exact ⟨rt, .word, id, rfl, by rw [← addrImm_word]; rfl⟩
  | ldrImmT2 rt imm8 => cases h; exact ⟨rt, .word, id, rfl, by rw [← addrSp_eq]; rfl⟩
  | ldrLit rt imm8 => cases h; exact ⟨rt, .word, id, rfl, by rw [← addrLit_eq]; rfl⟩
  | ldrReg rt rn rm => cases h; exact ⟨rt, .word, id, rfl, rfl⟩
  | ldrbImm rt rn imm5 => cases h; exact ⟨rt, .byte, zext8, rfl, rfl⟩
  | ldrbReg rt rn rm => cases h; exact ⟨rt, .byte, zext8, rfl, rfl⟩
  | ldrhImm rt rn imm5 => cases h; exact ⟨rt, .half, zext16, rfl, by rw [← addrImm_half]; rfl⟩
  | ldrhReg rt rn rm => cases h; exact ⟨rt, .half, zext16, rfl, rfl⟩
  | ldrsb rt rn rm => cases h; exact ⟨rt, .byte, sext8, rfl, rfl⟩
  | ldrsh rt rn rm => cases h; exact ⟨rt, .half, sext16, rfl, rfl⟩
  | _ => cases h

/-- The instructions with a store access are the stores, at that address and of that width. -/
theorem exec_of_storeAccess {s : State} {i : Instr} {a : Word} {n : Nat} {rt : LowReg}
    (h : storeAccess s i = some (a, n, rt)) :
    ∃ z, z.bytes = n ∧ exec i s = s.storeFrom a z (s.x (lowReg rt)) := by
  cases i with
  | strImmT1 rt rn imm5 => cases h; exact ⟨.word, rfl, by rw [← addrImm_word]; rfl⟩
  | strImmT2 rt imm8 => cases h; exact ⟨.word, rfl, by rw [← addrSp_eq]; rfl⟩
  | strReg rt rn rm => cases h; exact ⟨.word, rfl, rfl⟩
  | strbImm rt rn imm5 => cases h; exact ⟨.byte, rfl, rfl⟩
  | strbReg rt rn rm => cases h; exact ⟨.byte, rfl, rfl⟩
  | strhImm rt rn imm5 => cases h; exact ⟨.half, rfl, by rw [← addrImm_half]; rfl⟩
  | strhReg rt rn rm => cases h; exact ⟨.half, rfl, rfl⟩
  | _ => cases h

/-! ## Loads that complete (R106) -/

/-- What the bytes say of a value does not concern the bits above them. -/
theorem stored_of_lowBits {s : State} {a v w : Word} {n : Nat} (h : Stored s a n v)
    (hlow : ∀ i < 8 * n, w.getLsbD i = v.getLsbD i) : Stored s a n w := by
  intro k hk
  rw [h k hk]
  refine BitVec.eq_of_getLsbD_eq fun j hj => ?_
  rw [BitVec.getLsbD_extractLsb', BitVec.getLsbD_extractLsb', hlow _ (by omega)]

/-- A load at a readable address retires the value there, extended. -/
theorem loadInto_of_readable {s : State} {a : Word} {z : Size} {extend : Word → Word} (rt : LowReg)
    (hr : Readable s a z.bytes) (hlow : ∀ v, ∀ i < 8 * z.bytes, (extend v).getLsbD i = v.getLsbD i) :
    ∃ t v, s.loadInto rt a z extend = .next t ∧ Stored s a z.bytes (extend v)
      ∧ ValueRetired s t (lowReg rt) (extend v) := by
  obtain ⟨v, hv⟩ := State.memRead_of_readable hr
  obtain ⟨-, hstored, -⟩ := State.memRead_ok hv
  refine ⟨(s.setX (lowReg rt) (extend v)).advance 2#32, v, ?_, stored_of_lowBits hstored (hlow v), by simp, by simp,
    retired_setX _ _ _ _⟩
  rw [State.loadInto, hv]
  rfl

/-- A word load at a readable address; `b` is the address as its instruction forms it. -/
theorem loadInto_word {s : State} {a b : Word} (rt : LowReg) (hb : b = a) (hr : Readable s a 4) :
    ∃ t v, s.loadInto rt b .word id = .next t ∧ Stored s a 4 v ∧ ValueRetired s t (lowReg rt) v := by
  subst hb
  obtain ⟨t, v, h⟩ := loadInto_of_readable (z := .word) (extend := id) rt hr fun _ _ _ => rfl
  exact ⟨t, v, h⟩

/-- Settles O31: the four address forms of a word load. -/
theorem loadWordCompletes : Obligations.LoadWordCompletes := fun s rt rn _ imm5 imm8 =>
  ⟨fun _ ha => loadInto_word rt (ha ▸ addrImm_word s rn imm5), fun _ ha => loadInto_word rt (ha ▸ addrSp_eq s imm8),
    fun _ ha => loadInto_word rt (ha ▸ addrLit_eq s imm8), fun _ ha => loadInto_word rt ha.symm⟩

/-- `extend` keeps the low `w` bits and fills those above with what `P` says. -/
structure Extends (extend : Word → Word) (w : Nat) (P : Word → Prop) : Prop where
  low : ∀ v, ∀ i < w, (extend v).getLsbD i = v.getLsbD i
  high : ∀ v, P (extend v)

theorem extends_setWidth {w : Nat} (hw : w ≤ 32) :
    Extends (fun v => (v.setWidth w).setWidth 32) w fun v => ∀ i, w ≤ i → v.getLsbD i = false := by
  refine ⟨fun v i hi => ?_, fun v i hi => ?_⟩
  · simp [BitVec.getLsbD_setWidth, hi, show i < 32 by omega, -BitVec.getLsbD_eq_getElem]
  · simp [BitVec.getLsbD_setWidth, Nat.not_lt.mpr hi]

theorem extends_signExtend {w : Nat} (h0 : 0 < w) (hw : w ≤ 32) :
    Extends (fun v => (v.setWidth w).signExtend 32) w
      fun v => ∀ i, w ≤ i → i < 32 → v.getLsbD i = v.getLsbD (w - 1) := by
  have hlow (v : Word) (i : Nat) (hi : i < w) : ((v.setWidth w).signExtend 32).getLsbD i = v.getLsbD i := by
    simp [BitVec.getLsbD_signExtend, BitVec.getLsbD_setWidth, hi, show i < 32 by omega, -BitVec.getLsbD_eq_getElem]
  refine ⟨hlow, fun v i hi h32 => ?_⟩
  rw [hlow v (w - 1) (by omega), BitVec.getLsbD_signExtend, if_neg (Nat.not_lt.mpr hi), BitVec.msb_eq_getLsbD_last,
    BitVec.getLsbD_setWidth]
  simp [h32, h0, -BitVec.getLsbD_eq_getElem]

/-- A narrow load at a readable address; `b` is the address as its instruction forms it. -/
theorem loadInto_narrow {s : State} {a b : Word} {z : Size} {extend : Word → Word} {P : Word → Prop} (rt : LowReg)
    (he : Extends extend (8 * z.bytes) P) (hb : b = a) (hr : Readable s a z.bytes) :
    ∃ t v, s.loadInto rt b z extend = .next t ∧ Stored s a z.bytes v ∧ ValueRetired s t (lowReg rt) v ∧ P v := by
  subst hb
  obtain ⟨t, v, hx, hstored, hretired⟩ := loadInto_of_readable rt hr he.low
  exact ⟨t, _, hx, hstored, hretired, he.high v⟩

/-- Settles O32: zero and sign extension of a byte and of a halfword. -/
theorem narrowLoadExtends : Obligations.NarrowLoadExtends := by
  intro s rt rn rm imm5
  have zero8 : Extends zext8 8 _ := extends_setWidth (by decide)
  have zero16 : Extends zext16 16 _ := extends_setWidth (by decide)
  have sign8 : Extends sext8 8 _ := extends_signExtend (by decide) (by decide)
  have sign16 : Extends sext16 16 _ := extends_signExtend (by decide) (by decide)
  exact ⟨fun _ ha => loadInto_narrow (z := .byte) rt zero8 ha.symm,
    fun _ ha => loadInto_narrow (z := .half) rt zero16 (ha ▸ addrImm_half s rn imm5),
    fun _ ha => ⟨loadInto_narrow (z := .byte) rt zero8 ha.symm, loadInto_narrow (z := .half) rt zero16 ha.symm,
      loadInto_narrow (z := .byte) rt sign8 ha.symm, loadInto_narrow (z := .half) rt sign16 ha.symm⟩⟩

/-! ## Stores that complete (R107) -/

/-- A store at a writable address retires. -/
theorem storeFrom_of_writable {s : State} {a : Word} {z : Size} (hw : Writable s a z.bytes) (v : Word) :
    ∃ t, s.storeFrom a z v = .next t ∧ StoreRetired s t a z.bytes v := by
  obtain ⟨u, hu⟩ := State.memWrite_of_writable hw v
  obtain ⟨-, hfields, hstored, hkeeps, hmodifies, -⟩ := State.memWrite_ok hu
  obtain ⟨m, d, rfl⟩ : ∃ m d, u = (s.withMem m).withModified d := ⟨_, _, hfields⟩
  refine ⟨((s.withMem m).withModified d).advance 2#32, ?_, hstored, hkeeps, hmodifies, rfl, rfl,
    keepsRegs_of_fields _ rfl rfl rfl rfl rfl rfl, ⟨rfl, rfl, rfl, rfl, rfl, rfl, rfl, rfl, rfl⟩, rfl, rfl⟩
  rw [State.storeFrom, hu]
  rfl

/-- Settles O33: every single store is a store at the address of its access. -/
theorem storeCompletes : Obligations.StoreCompletes := by
  intro s i a n rt h hw
  obtain ⟨z, rfl, hx⟩ := exec_of_storeAccess h
  rw [hx]
  exact storeFrom_of_writable hw _

/-! ## Single accesses that fail (R104, R108, R125) -/

section
variable {s : State} {i : Instr} {a : Word} {n : Nat} {rt : LowReg}

theorem exec_load_misaligned (h : loadAccess s i = some (a, n)) (ha : a.toNat % n ≠ 0) :
    exec i s = s.raiseHardFault s.pc (.align a n) := by
  obtain ⟨t, z, extend, rfl, hx⟩ := exec_of_loadAccess h
  rw [hx, State.loadInto, State.memRead_misaligned ha]
  rfl

theorem exec_load_unadmitted (h : loadAccess s i = some (a, n)) (ha : a.toNat % n = 0)
    (hadmits : s.admits a n .read = false) : exec i s = s.raiseHardFault s.pc (.bus a n .read) := by
  obtain ⟨t, z, extend, rfl, hx⟩ := exec_of_loadAccess h
  rw [hx, State.loadInto, State.memRead_unadmitted ha hadmits]
  rfl

theorem exec_store_misaligned (h : storeAccess s i = some (a, n, rt)) (ha : a.toNat % n ≠ 0) :
    exec i s = s.raiseHardFault s.pc (.align a n) := by
  obtain ⟨z, rfl, hx⟩ := exec_of_storeAccess h
  rw [hx, State.storeFrom, State.memWrite_misaligned ha]
  rfl

theorem exec_store_unadmitted (h : storeAccess s i = some (a, n, rt)) (ha : a.toNat % n = 0)
    (htext : s.overlapsText a n = false) (hadmits : s.admits a n .write = false) :
    exec i s = s.raiseHardFault s.pc (.bus a n .write) := by
  obtain ⟨z, rfl, hx⟩ := exec_of_storeAccess h
  rw [hx, State.storeFrom, State.memWrite_unadmitted ha htext hadmits]
  rfl

theorem exec_store_text (h : storeAccess s i = some (a, n, rt)) (ha : a.toNat % n = 0)
    (htext : s.overlapsText a n = true) : exec i s = .refused (.storeToProgramText a) := by
  obtain ⟨z, rfl, hx⟩ := exec_of_storeAccess h
  rw [hx, State.storeFrom, State.memWrite_text ha htext]
  rfl

end

/-- Settles O34: the address is asked about first, and every address is a multiple of 1. -/
theorem misalignedAccessFaults : Obligations.MisalignedAccessFaults := by
  intro s i a n h ha
  refine ⟨fun h1 => ha (h1 ▸ Nat.mod_one _), ?_⟩
  have hx : exec i s = s.raiseHardFault s.pc (.align a n) := by
    rcases h with h | ⟨rt, h⟩
    · exact exec_load_misaligned h ha
    · exact exec_store_misaligned h ha
  rw [hx]
  exact s.raiseHardFault_raises _ _

end Sys2Proof.Machine

/-! Multiple transfers: what they do when they complete (O36, O38, O39), and where they fail (O35, O40). -/

namespace Sys2Proof.Machine

/-! ## Runs that fail at one of their words -/

/-- The part of the state that the platform's answers depend on. -/
structure KeepsAccess (s t : State) : Prop where
  mode : t.mode = s.mode
  control : t.control = s.control
  cfg : t.cfg = s.cfg

theorem KeepsAccess.trans {s u t : State} (h : KeepsAccess s u) (k : KeepsAccess u t) : KeepsAccess s t :=
  ⟨k.mode.trans h.mode, k.control.trans h.control, k.cfg.trans h.cfg⟩

theorem KeepsAccess.admits {s t : State} (h : KeepsAccess s t) (a : Word) (n : Nat) (k : AccessKind) :
    t.admits a n k = s.admits a n k := State.admits_congr h.mode h.control h.cfg a n k

theorem KeepsAccess.overlapsText {s t : State} (h : KeepsAccess s t) (a : Word) (n : Nat) :
    t.overlapsText a n = s.overlapsText a n := State.overlapsText_congr h.cfg a n

/-- The words of a run from an aligned address are aligned. -/
theorem slot_aligned {a : Word} (ha : a.toNat % 4 = 0) (k : Nat) :
    (a + 4#32 * BitVec.ofNat 32 k).toNat % 4 = 0 := by
  rw [slot_toNat]
  omega

/-- A run of stores whose first `k` words are writable comes to its next word. -/
theorem State.storeWords_reaches {s : State} {a : Word} {vs : List Word} {k : Nat} (hk : k < vs.length)
    (hw : WritableWords s a k) : ∃ u f, KeepsAccess s u
      ∧ s.storeWords a vs = (u.memWrite (a + 4#32 * BitVec.ofNat 32 k) .word vs[k]).bind f := by
  induction vs generalizing s a k with
  | nil => exact absurd hk (Nat.not_lt_zero k)
  | cons v vs ih =>
    cases k with
    | zero => exact ⟨s, fun u => u.storeWords (a + 4#32) vs, ⟨rfl, rfl, rfl⟩, by rw [slot_zero]; rfl⟩
    | succ k =>
      obtain ⟨hfirst, hrest⟩ := writableWords_succ.mp hw
      obtain ⟨u, hu⟩ := State.memWrite_of_writable (z := .word) hfirst v
      obtain ⟨-, hfields, -⟩ := State.memWrite_ok hu
      have hkeeps : KeepsAccess s u := by rw [hfields]; exact ⟨rfl, rfl, rfl⟩
      have hrest' := (writableWords_congr hkeeps.mode hkeeps.control hkeeps.cfg _ _).mpr hrest
      obtain ⟨w, f, hnext, hx⟩ := ih (Nat.lt_of_succ_lt_succ hk) hrest'
      exact ⟨w, f, hkeeps.trans hnext, by rw [State.storeWords, hu, slot_succ]; exact hx⟩

/-- A run of loads whose first `k` words are readable comes to its next word. -/
theorem State.loadRegs_reaches {s : State} {a : Word} {is : List RegNum} {k : Nat} (hk : k < is.length)
    (hr : ReadableWords s a k) : ∃ u f, KeepsAccess s u
      ∧ s.loadRegs a is = (u.memRead (a + 4#32 * BitVec.ofNat 32 k) .word).bind f := by
  induction is generalizing s a k with
  | nil => exact absurd hk (Nat.not_lt_zero k)
  | cons i is ih =>
    cases k with
    | zero => exact ⟨s, fun v => (s.setX i v).loadRegs (a + 4#32) is, ⟨rfl, rfl, rfl⟩, by rw [slot_zero]; rfl⟩
    | succ k =>
      obtain ⟨hfirst, hrest⟩ := readableWords_succ.mp hr
      obtain ⟨v, hv⟩ := State.memRead_of_readable (z := .word) hfirst
      have hkeeps : KeepsAccess s (s.setX i v) := ⟨by simp, by simp, by simp⟩
      have hrest' := (readableWords_congr hkeeps.mode hkeeps.control hkeeps.cfg _ _).mpr hrest
      obtain ⟨w, f, hnext, hx⟩ := ih (Nat.lt_of_succ_lt_succ hk) hrest'
      exact ⟨w, f, hkeeps.trans hnext, by rw [State.loadRegs, hv, slot_succ]; exact hx⟩

section
variable {s : State} {a : Word} {vs : List Word} {is : List RegNum} {k : Nat}

theorem State.storeWords_text (hk : k < vs.length) (ha : a.toNat % 4 = 0) (hw : WritableWords s a k)
    (htext : s.overlapsText (a + 4#32 * BitVec.ofNat 32 k) 4 = true) :
    s.storeWords a vs = .refused (.storeToProgramText (a + 4#32 * BitVec.ofNat 32 k)) := by
  obtain ⟨u, f, hkeeps, hx⟩ := State.storeWords_reaches hk hw
  rw [hx, State.memWrite_text (z := .word) (slot_aligned ha k) ((hkeeps.overlapsText _ _).trans htext)]
  rfl

theorem State.storeWords_unadmitted (hk : k < vs.length) (ha : a.toNat % 4 = 0) (hw : WritableWords s a k)
    (htext : s.overlapsText (a + 4#32 * BitVec.ofNat 32 k) 4 = false)
    (hadmits : s.admits (a + 4#32 * BitVec.ofNat 32 k) 4 .write = false) :
    s.storeWords a vs = .hardFault (.bus (a + 4#32 * BitVec.ofNat 32 k) 4 .write) := by
  obtain ⟨u, f, hkeeps, hx⟩ := State.storeWords_reaches hk hw
  rw [hx, State.memWrite_unadmitted (z := .word) (slot_aligned ha k) ((hkeeps.overlapsText _ _).trans htext)
    ((hkeeps.admits _ _ _).trans hadmits)]
  rfl

theorem State.storeWords_misaligned (hk : 0 < vs.length) (ha : a.toNat % 4 ≠ 0) :
    s.storeWords a vs = .hardFault (.align a 4) := by
  obtain ⟨u, f, -, hx⟩ := State.storeWords_reaches (s := s) (a := a) hk nofun
  rw [hx, slot_zero, State.memWrite_misaligned (z := .word) ha]
  rfl

theorem State.loadRegs_unadmitted (hk : k < is.length) (ha : a.toNat % 4 = 0) (hr : ReadableWords s a k)
    (hadmits : s.admits (a + 4#32 * BitVec.ofNat 32 k) 4 .read = false) :
    s.loadRegs a is = .hardFault (.bus (a + 4#32 * BitVec.ofNat 32 k) 4 .read) := by
  obtain ⟨u, f, hkeeps, hx⟩ := State.loadRegs_reaches hk hr
  rw [hx, State.memRead_unadmitted (z := .word) (slot_aligned ha k) ((hkeeps.admits _ _ _).trans hadmits)]
  rfl

theorem State.loadRegs_misaligned (hk : 0 < is.length) (ha : a.toNat % 4 ≠ 0) :
    s.loadRegs a is = .hardFault (.align a 4) := by
  obtain ⟨u, f, -, hx⟩ := State.loadRegs_reaches (s := s) (a := a) hk nofun
  rw [hx, slot_zero, State.memRead_misaligned (z := .word) ha]
  rfl

/-- The word for the PC is asked about after the registers' words. -/
theorem State.popLoads_unadmitted {p : BitVec 1} {l : BitVec 8} (hk : k < rankIn l 8 + p.toNat)
    (ha : s.sp.toNat % 4 = 0) (hr : ReadableWords s s.sp k)
    (hadmits : s.admits (s.sp + 4#32 * BitVec.ofNat 32 k) 4 .read = false) :
    s.popLoads p l = .hardFault (.bus (s.sp + 4#32 * BitVec.ofNat 32 k) 4 .read) := by
  rw [State.popLoads, State.x_at_sp, wordsSize_eq]
  by_cases hlist : k < rankIn l 8
  · rw [State.loadRegs_unadmitted (by rwa [listRegs_length]) ha hr hadmits]
    rfl
  · obtain rfl : p = 1#1 := (bit_cases p).resolve_left (by rintro rfl; exact hlist hk)
    obtain rfl : k = (listRegs l).length := by
      rw [listRegs_length]
      exact Nat.le_antisymm (Nat.le_of_lt_succ hk) (Nat.not_lt.mp hlist)
    obtain ⟨u, hu⟩ := State.loadRegs_of_readable hr
    rw [hu, Access.ok_bind, if_pos rfl, State.memRead_unadmitted (z := .word) (slot_aligned ha _) hadmits]
    rfl

end

/-! ## Register lists -/

/-- A list with a register in it is not empty. -/
theorem list_ne_zero {l : BitVec 8} (h : 0 < rankIn l 8) : l ≠ 0#8 := by
  rintro rfl
  exact absurd h (by decide)

theorem rankIn_pos {l : BitVec 8} (h : l ≠ 0#8) : 0 < rankIn l 8 := by revert l; decide

/-- A transfer of at least one word names a register. -/
theorem transfer_ne_empty {p : BitVec 1} {l : BitVec 8} (h : 0 < rankIn l 8 + p.toNat) : ¬ (p = 0#1 ∧ l = 0#8) := by
  rintro ⟨rfl, rfl⟩
  exact absurd h (by decide)

theorem inList_lowReg (l : BitVec 8) (r : LowReg) : InList l (lowReg r) ↔ l.getLsbD r.toNat = true := by
  rw [InList, lowReg_toNat]
  exact and_iff_right (by omega)

theorem mem_pushRegs (m : BitVec 1) (l : BitVec 8) (i : RegNum) :
    i ∈ pushRegs m l ↔ InList l i ∨ (m = 1#1 ∧ i = 14#4) := by
  rw [pushRegs, List.mem_append, mem_listRegs]
  by_cases h : m = 1#1 <;> simp [h]

theorem pushRegs_getElem {m : BitVec 1} {l : BitVec 8} {i : RegNum} (h : InList l i) :
    (pushRegs m l)[rankIn l i.toNat]? = some i := by
  rw [pushRegs, List.getElem?_append_left (rankIn_lt h), listRegs_getElem l h]

/-- LR has the highest place. -/
theorem pushRegs_getElem_lr (l : BitVec 8) : (pushRegs 1#1 l)[rankIn l 8]? = some 14#4 := by
  rw [pushRegs, ← listRegs_length]
  exact List.getElem?_concat_length

theorem pushAddr_eq (s : State) (m : BitVec 1) (l : BitVec 8) :
    s.pushAddr m l = s.sp - 4#32 * BitVec.ofNat 32 (rankIn l 8 + m.toNat) := by
  rw [State.pushAddr, wordsSize_eq, pushRegs_length]
  rfl

theorem stmWords_length (s : State) (rn : LowReg) (l : BitVec 8) : (s.stmWords rn l).length = rankIn l 8 := by
  rw [State.stmWords, List.length_map, listRegs_length]

/-- STM stores the base itself when it is the lowest register of the list. -/
theorem stmWords_getElem {s : State} {rn : LowReg} {l : BitVec 8} {i : RegNum} (h : InList l i)
    (hbase : i = lowReg rn → rankIn l i.toNat = 0) : (s.stmWords rn l)[rankIn l i.toNat]? = some (s.x i) := by
  have hplace := listRegs_getElem l h
  rw [State.stmWords, List.getElem?_map, hplace, Option.map_some, if_neg]
  rintro ⟨hi, hunknown⟩
  rw [hbase hi, ← List.head?_eq_getElem?, hi] at hplace
  simp [stmBaseUnknown, hplace] at hunknown

/-! ## Transfers that fault part-way (R111) -/

/-- A transfer whose accesses fault raises HardFault with `lost` and its words undefined. -/
theorem partRaises_completeTransfer {α : Type} {s : State} {r : Access α} {c : HardFaultCause} {a : Word} {m n : Nat}
    {regs : List RegNum} {lost : RegNum → Prop} {done : α → Result} (hr : r = .hardFault c) (hn : m = n)
    (hlost : ∀ i, i ∈ regs ↔ lost i) : PartRaises s (s.completeTransfer r a m regs done) c lost a n := by
  obtain rfl : (· ∈ regs) = lost := funext fun i => propext (hlost i)
  subst hn
  exact State.completeTransfer_partRaises hr a m regs done

section
variable {s : State} {rn : LowReg} {l : BitVec 8} {p m : BitVec 1} {c : HardFaultCause}

theorem mem_listRegs_append (l : BitVec 8) (r i : RegNum) : i ∈ listRegs l ++ [r] ↔ InList l i ∨ i = r := by
  rw [List.mem_append, mem_listRegs, List.mem_singleton]

theorem partRaises_ldm (hl : l ≠ 0#8) (hf : s.loadRegs (s.x (lowReg rn)) (listRegs l) = .hardFault c) :
    PartRaises s (exec (.ldm rn l) s) c (fun i => InList l i ∨ i = lowReg rn) (s.x (lowReg rn)) (rankIn l 8) := by
  rw [show exec (.ldm rn l) s = _ from if_neg hl]
  exact partRaises_completeTransfer hf (listRegs_length l) (mem_listRegs_append l _)

theorem partRaises_stm (hl : l ≠ 0#8) (hf : s.storeWords (s.x (lowReg rn)) (s.stmWords rn l) = .hardFault c) :
    PartRaises s (exec (.stm rn l) s) c (fun i => InList l i ∨ i = lowReg rn) (s.x (lowReg rn)) (rankIn l 8) := by
  rw [show exec (.stm rn l) s = _ from if_neg hl]
  exact partRaises_completeTransfer hf (listRegs_length l) (mem_listRegs_append l _)

theorem partRaises_pop (hl : ¬ (p = 0#1 ∧ l = 0#8)) (hf : s.popLoads p l = .hardFault c) :
    PartRaises s (exec (.pop p l) s) c (fun i => InList l i ∨ i = 13#4) s.sp (rankIn l 8 + p.toNat) := by
  rw [show exec (.pop p l) s = _ from if_neg hl]
  exact partRaises_completeTransfer hf (popCount_eq p l) (mem_listRegs_append l _)

theorem partRaises_push (hl : ¬ (m = 0#1 ∧ l = 0#8))
    (hf : s.storeWords (s.pushAddr m l) ((pushRegs m l).map s.x) = .hardFault c) :
    PartRaises s (exec (.push m l) s) c (fun i => InList l i ∨ (m = 1#1 ∧ i = 14#4) ∨ i = 13#4) (s.pushAddr m l)
      (rankIn l 8 + m.toNat) := by
  rw [show exec (.push m l) s = _ from if_neg hl]
  refine partRaises_completeTransfer hf (pushRegs_length m l) fun i => ?_
  rw [List.mem_append, mem_pushRegs, List.mem_singleton, or_assoc]

end

/-- Settles O40: the first word of LDM and STM for a misaligned base, then word `k` of each of the four. -/
theorem misalignedMultipleFaults : Obligations.MisalignedMultipleFaults := by
  intro s rn l
  refine ⟨fun hl ha => ⟨?_, ?_⟩, fun k hk ha => ⟨fun hr hadmits => ?_, fun hw htext hadmits => ?_⟩,
    fun p k hk ha hr hadmits => ?_, fun m a heq k hk ha hw htext hadmits => ?_⟩
  · exact partRaises_ldm hl (State.loadRegs_misaligned (listRegs_length l ▸ rankIn_pos hl) ha)
  · exact partRaises_stm hl (State.storeWords_misaligned (stmWords_length s rn l ▸ rankIn_pos hl) ha)
  · exact partRaises_ldm (list_ne_zero (Nat.zero_lt_of_lt hk))
      (State.loadRegs_unadmitted (listRegs_length l ▸ hk) ha hr hadmits)
  · exact partRaises_stm (list_ne_zero (Nat.zero_lt_of_lt hk))
      (State.storeWords_unadmitted (stmWords_length s rn l ▸ hk) ha hw htext hadmits)
  · exact partRaises_pop (transfer_ne_empty (Nat.zero_lt_of_lt hk)) (State.popLoads_unadmitted hk ha hr hadmits)
  · rw [← pushAddr_eq] at heq
    subst heq
    exact partRaises_push (transfer_ne_empty (Nat.zero_lt_of_lt hk))
      (State.storeWords_unadmitted (by rwa [List.length_map, pushRegs_length]) ha hw htext hadmits)

/-! ## Stores to program text (R125) -/

theorem exec_stm_refused {s : State} {rn : LowReg} {l : BitVec 8} {r : Refusal} (hl : l ≠ 0#8)
    (hf : s.storeWords (s.x (lowReg rn)) (s.stmWords rn l) = .refused r) : exec (.stm rn l) s = .refused r := by
  rw [show exec (.stm rn l) s = _ from if_neg hl, hf]
  rfl

theorem exec_push_refused {s : State} {m : BitVec 1} {l : BitVec 8} {r : Refusal} (hl : ¬ (m = 0#1 ∧ l = 0#8))
    (hf : s.storeWords (s.pushAddr m l) ((pushRegs m l).map s.x) = .refused r) :
    exec (.push m l) s = .refused r := by
  rw [show exec (.push m l) s = _ from if_neg hl, hf]
  rfl

/-- Settles O35: single accesses, then STM and PUSH at the first of their words on program text. -/
theorem unadmittedAccessFaults : Obligations.UnadmittedAccessFaults := by
  intro s i a n ha
  refine ⟨fun h hadmits => ?_, fun rt h htext hadmits => ?_, fun rt h htext => exec_store_text h ha htext,
    fun rn l k hk hbase hw htext => ?_, fun m l b hb k hk hbase hw htext => ?_⟩
  · rw [exec_load_unadmitted h ha hadmits]
    exact s.raiseHardFault_raises _ _
  · rw [exec_store_unadmitted h ha htext hadmits]
    exact s.raiseHardFault_raises _ _
  · exact exec_stm_refused (list_ne_zero (Nat.zero_lt_of_lt hk))
      (State.storeWords_text (stmWords_length s rn l ▸ hk) hbase hw htext)
  · rw [← pushAddr_eq] at hb
    subst hb
    exact exec_push_refused (transfer_ne_empty (Nat.zero_lt_of_lt hk))
      (State.storeWords_text (by rwa [List.length_map, pushRegs_length]) hbase hw htext)

/-! ## LDM that completes (R280) -/

/-- The end of LDM writes R0 to R7 alone: the base, and only when it is not listed. -/
theorem ldmWriteBack_eq (u : State) (rn : LowReg) (l : BitVec 8) (base : Word) :
    ∃ r, u.ldmWriteBack rn l base = .next ((u.withRegs r).advance 2#32)
      ∧ (∀ i, InList l i ∨ i ≠ lowReg rn → (u.withRegs r).x i = u.x i)
      ∧ (¬ InList l (lowReg rn) → (u.withRegs r).x (lowReg rn) = base + 4#32 * BitVec.ofNat 32 (rankIn l 8)) := by
  by_cases hin : InList l (lowReg rn)
  · refine ⟨u.regs, ?_, fun _ _ => rfl, fun hn => absurd hin hn⟩
    rw [State.ldmWriteBack, if_pos ((inList_lowReg l rn).mp hin)]
    rfl
  · obtain ⟨r, hset⟩ : ∃ r, u.setX (lowReg rn) (base + wordsSize (listRegs l).length) = u.withRegs r :=
      ⟨_, State.setX_general u (lt_trans (lowReg_lt rn) (by decide : 8 < 13)) _⟩
    refine ⟨r, ?_, fun i hi => ?_, fun _ => ?_⟩
    · rw [State.ldmWriteBack, if_neg (mt (inList_lowReg l rn).mpr hin), hset]
    · rw [← hset]
      exact State.x_setX_other u (by rintro rfl; exact hi.elim hin (· rfl)) _
    · rw [← hset, State.x_setX_low, wordsSize_eq, listRegs_length]

/-- Each register of a list that is loaded holds the word at its place. -/
theorem loadRegs_slotOf {s u : State} {a : Word} {l : BitVec 8} (hu : s.loadRegs a (listRegs l) = .ok u) {i : RegNum}
    (hi : InList l i) : Stored s (slotOf a l i) 4 (u.x i) := by
  obtain ⟨hlt, hget⟩ := List.getElem?_eq_some_iff.mp (listRegs_getElem l hi)
  have hword := State.loadRegs_loaded hu (listRegs_nodup l) (fun j hj => lt_trans (listRegs_lt hj) (by decide)) hlt
  rwa [hget] at hword

theorem inList_ne_pc {l : BitVec 8} {i : RegNum} (h : InList l i) : i ≠ 15#4 := by
  rintro rfl
  exact absurd h.1 (by decide)

/-- Settles O36: the loads, then the write-back. -/
theorem loadMultipleCompletes : Obligations.LoadMultipleCompletes := by
  intro s rn l hl hr
  obtain ⟨u, hu⟩ := State.loadRegs_of_readable ((listRegs_length l).symm ▸ hr)
  obtain ⟨hpc, hapsr, ht, hsystem, hfree, hmem⟩ := State.loadRegs_ok hu
  obtain ⟨hmsp, hpsp⟩ := State.loadRegs_stack hu (sp_not_mem_listRegs l)
  obtain ⟨r, hback, hother, hbase⟩ := ldmWriteBack_eq u rn l (s.x (lowReg rn))
  refine ⟨(u.withRegs r).advance 2#32, ?_, fun i hi => ?_, fun hn => ?_, fun i hi hne h15 => ?_, hmsp, hpsp,
    congrArg (· + 2#32) hpc, hapsr, ht, hsystem, hfree, fun b => congrArg (·.read b) hmem⟩
  · rw [show exec (.ldm rn l) s = _ from if_neg hl, hu, ← hback]
    rfl
  · rw [State.x_advance _ _ (inList_ne_pc hi), hother i (.inl hi)]
    exact loadRegs_slotOf hu hi
  · rw [State.x_advance _ _ (lowReg_ne_pc rn), hbase hn]
  · rw [State.x_advance _ _ h15, hother i (.inr hne)]
    exact State.loadRegs_other hu fun hm => hi ((mem_listRegs l i).mp hm)

/-! ## PUSH and STM that complete (R342, R370) -/

/-- What storing the words `vs` from `a` up and then writing register `d` leaves. -/
structure StoredRun (s t : State) (d : RegNum) (a : Word) (vs : List Word) : Prop where
  stored : ∀ {k : Nat} {v : Word}, vs[k]? = some v → Stored t (a + 4#32 * BitVec.ofNat 32 k) 4 v
  mem : KeepsMemoryButWords s t a vs.length
  modified : Modifies s t (InWords a vs.length)
  regs : KeepsRegs [d] s t
  pc : t.pc = s.pc + 2#32
  apsr : t.apsr = s.apsr
  thumb : t.t = s.t
  special : KeepsSpecial s t

theorem storedRun_setX {s u : State} {a : Word} {vs : List Word} (hlen : vs.length < 2 ^ 30)
    (h : s.storeWords a vs = .ok u) (f : Nat) (d : RegNum) (v : Word) :
    StoredRun s (((u.withFreeIdx f).setX d v).advance 2#32) d a vs := by
  obtain ⟨-, hfields, hstored, hkeeps, hmodifies, -⟩ := State.storeWords_ok h
  obtain ⟨m, n, rfl⟩ : ∃ m n, u = (s.withMem m).withModified n := ⟨_, _, hfields⟩
  obtain ⟨-, hregs, -⟩ := retired_setX (((s.withMem m).withModified n).withFreeIdx f) d v 2#32
  refine
    { stored := fun hk => ?_
      mem := fun b hb => by simpa using hkeeps b hb
      modified := ⟨fun b => by simpa using hmodifies.1 b, by simpa using hmodifies.2⟩
      regs := keepsRegs_trans (keepsRegs_of_fields [d] rfl rfl rfl rfl rfl rfl) hregs rfl
      pc := by simp
      apsr := by simp
      thumb := by simp
      special := by simp [KeepsSpecial] }
  obtain ⟨hlt, rfl⟩ := List.getElem?_eq_some_iff.mp hk
  rw [stored_eq (s := (s.withMem m).withModified n) (by simp) (by simp)]
  exact hstored hlen _ hlt

/-- Settles O38: the words stored, then SP written with the lowest address, which is aligned. -/
theorem pushCompletes : Obligations.PushCompletes := by
  intro s m l hne hw
  have hlen : ((pushRegs m l).map s.x).length = rankIn l 8 + m.toNat := by rw [List.length_map, pushRegs_length]
  have hsmall : ((pushRegs m l).map s.x).length < 2 ^ 30 := by
    have := rankIn_le l 8
    have := m.isLt
    omega
  rw [← pushAddr_eq] at hw ⊢
  have haligned : (s.pushAddr m l).toNat % 4 = 0 := by simpa using (hw 0 (popped_pos hne)).1
  obtain ⟨u, hu⟩ := State.storeWords_of_writable (hlen.symm ▸ hw)
  obtain ⟨-, hfields, -⟩ := State.storeWords_ok hu
  have hfree : u.freeIdx = s.freeIdx := by rw [hfields]; rfl
  have hrun := storedRun_setX hsmall hu u.freeIdx 13#4 (s.pushAddr m l)
  have hsp : (((u.withFreeIdx u.freeIdx).setX 13#4 (s.pushAddr m l)).advance 2#32).sp = s.pushAddr m l :=
    (State.setSp_sp u _).trans (align4_of_aligned haligned)
  obtain ⟨hregs, -, hother⟩ := hrun.regs
  refine ⟨_, ?_, hsp, fun i hi => ?_, ?_, hlen ▸ hrun.mem, hlen ▸ hrun.modified,
    fun i h13 h15 => hregs i (by simpa using h13) h15, hother, hrun.pc, hrun.apsr, hrun.thumb, hrun.special, ?_⟩
  · rw [show exec (.push m l) s = _ from if_neg hne, hu]
    rfl
  · rw [hsp]
    exact hrun.stored (by rw [List.getElem?_map, pushRegs_getElem hi]; rfl)
  · rintro rfl
    rw [hsp]
    exact hrun.stored (by rw [List.getElem?_map, pushRegs_getElem_lr]; rfl)
  · simp [hfree]

/-- Settles O39: the words stored, then the base written back. -/
theorem storeMultipleCompletes : Obligations.StoreMultipleCompletes := by
  intro s rn l hl hw
  have hlen := stmWords_length s rn l
  have hsmall : (s.stmWords rn l).length < 2 ^ 30 := by
    have := rankIn_le l 8
    omega
  obtain ⟨u, hu⟩ := State.storeWords_of_writable (hlen.symm ▸ hw)
  obtain ⟨f, hf⟩ : ∃ f, (if stmBaseUnknown rn l then u.drewFree else u) = u.withFreeIdx f := by
    split
    · exact ⟨_, rfl⟩
    · exact ⟨u.freeIdx, rfl⟩
  have hrun := storedRun_setX hsmall hu f (lowReg rn) (s.x (lowReg rn) + 4#32 * BitVec.ofNat 32 (rankIn l 8))
  refine ⟨_, ?_, fun i hi hbase => hrun.stored (stmWords_getElem hi hbase), hlen ▸ hrun.mem, hlen ▸ hrun.modified, ?_,
    hrun.regs, hrun.pc, hrun.apsr, hrun.thumb, hrun.special⟩
  · rw [← wordsSize_eq, ← listRegs_length, ← hf, show exec (.stm rn l) s = _ from if_neg hl, hu]
    rfl
  · rw [State.x_advance _ _ (lowReg_ne_pc rn), State.x_setX_low]

end Sys2Proof.Machine

/-! A HardFault that cannot be taken (O60), and what refuses a well-formed instruction (O17). -/

namespace Sys2Proof.Machine

/-! ## Lockup (R522) -/

theorem lockedUp_lockUp (s : State) (c : HardFaultCause) : LockedUp s (s.lockUp c) := rfl

/-- In the handler of NMI or HardFault the execution priority is -2 or -1, whatever PRIMASK is (R505, R507). -/
theorem State.execPriority_le {s : State} (hm : s.mode = .handler) (he : s.ipsr = 2#6 ∨ s.ipsr = 3#6) :
    s.execPriority ≤ -1 := by
  have hbase : s.basePriority ≤ -1 := by
    rw [State.basePriority, if_pos hm]
    rcases he with he | he <;> rw [he]
    · exact (by decide : (-2 : Int) ≤ -1)
    · exact le_refl (-1 : Int)
  unfold State.execPriority
  split
  · exact (min_le_right 0 _).trans hbase
  · exact hbase

/-- A run whose first word is neither admitted nor on program text faults at that word. -/
theorem State.storeWords_first_unadmitted {s : State} {a : Word} {vs : List Word} (hk : 0 < vs.length)
    (htext : s.overlapsText a 4 = false) (hadmits : s.admits a 4 .write = false) :
    ∃ c, s.storeWords a vs = .hardFault c := by
  by_cases ha : a.toNat % 4 = 0
  · rw [← slot_zero a] at htext hadmits
    exact ⟨_, State.storeWords_unadmitted hk ha nofun htext hadmits⟩
  · exact ⟨_, State.storeWords_misaligned hk ha⟩

/-- Where HardFault cannot be taken, raising it locks up (R511, R522). -/
theorem raiseHardFault_locksUp {s : State} (h : CannotHardFault s) (ret : Word) (c : HardFaultCause) :
    ∃ t, s.raiseHardFault ret c = .next t ∧ LockedUp s t := by
  obtain ⟨harch, h⟩ := h
  rw [State.raiseHardFault, if_neg (by simp [harch])]
  by_cases hp : s.execPriority ≤ -1
  · exact ⟨_, if_pos hp, lockedUp_lockUp s c⟩
  · rw [if_neg hp]
    obtain ⟨htext, hadmits⟩ := h.resolve_left fun ⟨hm, he⟩ => hp (State.execPriority_le hm he)
    obtain ⟨d, hd⟩ := State.storeWords_first_unadmitted (s := s.withLastFault (some c))
      (vs := (s.withLastFault (some c)).frameWords ret) (Nat.succ_pos 7) htext hadmits
    have henter : (s.withLastFault (some c)).enter excHardFault ret = .hardFault d :=
      Access.bind_eq_hardFault.mpr (.inl hd)
    exact ⟨s.lockUp d, by rw [State.enterHardFault, henter], lockedUp_lockUp s d⟩

theorem exec_bkpt_raises {s : State} (h : s.cfg.debugHalt = false) (imm8 : BitVec 8) :
    exec (.bkpt imm8) s = s.raiseHardFault s.pc (.breakpoint s.pc imm8) := if_neg (Bool.eq_false_iff.mp h)

/-- SVCall is not of higher priority than what executes, with PRIMASK set or in a handler whose priority is equal to or
higher than SVCall's (R502). -/
theorem svCall_escalates {s : State}
    (h : s.primask = true ∨ (s.mode = .handler ∧ s.priority s.ipsr ≤ s.priority 11#6)) :
    ¬ s.priority excSvCall < s.execPriority := by
  rcases h with hp | ⟨hm, hle⟩
  · exact svCall_masked hp
  · refine not_lt.mpr (le_trans ?_ hle)
    have hbase : s.basePriority = s.priority s.ipsr := if_pos hm
    rw [State.execPriority, hbase]
    split
    · exact min_le_right 0 _
    · exact le_refl _

theorem exec_load_raises {s : State} {i : Instr} {a : Word} {n : Nat} (h : loadAccess s i = some (a, n))
    (hfails : a.toNat % n ≠ 0 ∨ s.admits a n .read = false) : ∃ c, exec i s = s.raiseHardFault s.pc c := by
  by_cases ha : a.toNat % n = 0
  · exact ⟨_, exec_load_unadmitted h ha (hfails.resolve_left (not_not.mpr ha))⟩
  · exact ⟨_, exec_load_misaligned h ha⟩

theorem exec_store_raises {s : State} {i : Instr} {a : Word} {n : Nat} {rt : LowReg}
    (h : storeAccess s i = some (a, n, rt))
    (hfails : a.toNat % n ≠ 0 ∨ (s.overlapsText a n = false ∧ s.admits a n .write = false)) :
    ∃ c, exec i s = s.raiseHardFault s.pc c := by
  by_cases ha : a.toNat % n = 0
  · obtain ⟨htext, hadmits⟩ := hfails.resolve_left (not_not.mpr ha)
    exact ⟨_, exec_store_unadmitted h ha htext hadmits⟩
  · exact ⟨_, exec_store_misaligned h ha⟩

theorem step_of_undefined {s : State} (hrun : s.run = .running) (hnone : s.preempting = none) {hw1 hw2 : Half}
    (hf : s.fetch = .ok (hw1, hw2)) (hd : decode hw1 hw2 = .error .undefined) :
    step s = s.raiseHardFault s.pc (.undefined s.pc) := by
  rw [step_of_running hrun hnone, State.runInstruction, hf]
  simp only [hd]
  rfl

/-- Only NMI leaves Lockup, and not Lockup in its own handler. -/
theorem lockedUp_releases_iff (s : State) :
    (s.pending.contains excNmi && !(s.mode = .handler && s.ipsr == excNmi)) = true
      ↔ 2#6 ∈ s.pending ∧ ¬ (s.mode = .handler ∧ s.ipsr = 2#6) := by
  rw [Bool.and_eq_true, Bool.not_eq_true', ← Bool.not_eq_true]
  simp [excNmi]

/-- Settles O60: each way of raising HardFault comes to `raiseHardFault`, and a step in Lockup to NMI. -/
theorem faultInHardFaultLocksUp : Obligations.FaultInHardFaultLocksUp := by
  intro s
  refine ⟨fun h => ?_, fun hrun hno => ?_, fun hrun hnmi hnot htake => ?_⟩
  · have raises {r : Result} (hr : ∃ ret c, r = s.raiseHardFault ret c) : ∃ t, r = .next t ∧ LockedUp s t := by
      obtain ⟨ret, c, rfl⟩ := hr
      exact raiseHardFault_locksUp h ret c
    refine ⟨raiseHardFault_locksUp h, fun _ => raises ⟨_, _, rfl⟩, fun _ _ => raises ⟨_, _, rfl⟩,
      fun imm8 hdebug => raises ⟨_, _, exec_bkpt_raises hdebug imm8⟩,
      fun imm8 hsvc => raises ⟨_, _, exec_svc_escalates (svCall_escalates hsvc) imm8⟩,
      fun i a n ha hfails => raises ⟨_, exec_load_raises ha hfails⟩,
      fun i a n rt ha hfails => raises ⟨_, exec_store_raises ha hfails⟩, fun hrun hnone c hf => raises ⟨s.pc, c, ?_⟩,
      fun hrun hnone hw1 hw2 hf hd => raises ⟨_, _, step_of_undefined hrun hnone hf hd⟩⟩
    rw [step_of_running hrun hnone, State.runInstruction, hf]
  · have hstep : step s = s.lockedUp := by rw [step, hrun]
    rw [hstep, State.lockedUp, if_neg]
    rw [lockedUp_releases_iff]
    exact fun ⟨hin, hnot⟩ => hno.elim (· hin) hnot
  · have hstep : step s = s.lockedUp := by rw [step, hrun]
    rw [hstep, State.lockedUp, if_pos ((lockedUp_releases_iff s).mpr ⟨hnmi, hnot⟩)]
    obtain ⟨t, ht, hentered, -⟩ := State.takeException_taken htake s.pc
    exact ⟨t, ht, hentered⟩

/-! ## No instruction answers a fault -/

theorem State.complete_not_fault {s : State} {r : Access State} {f : Fault} : s.complete r ≠ .fault f := by
  cases r with
  | ok t => exact nofun
  | hardFault c => exact State.raiseHardFault_not_fault
  | refused q => exact nofun

theorem State.exceptionReturn_not_fault {s : State} {a : Word} {f : Fault} : s.exceptionReturn a ≠ .fault f := by
  unfold State.exceptionReturn
  split
  · exact nofun
  · exact State.complete_not_fault

theorem ExecAnswer.not_fault {s : State} {r : Result} (h : ExecAnswer s r) (f : Fault) : r ≠ .fault f := by
  cases h with
  | refused q => exact nofun
  | retired hk => exact nofun
  | hardFault hk ret c => exact State.raiseHardFault_not_fault
  | svCall ret => exact State.takeException_not_fault
  | returned hk hm a => exact State.exceptionReturn_not_fault

/-! ## What refuses a well-formed instruction -/

/-- The refusal `q` is for one of the causes that a well-formed instruction can meet: program text, an exception return
value, or the restriction of D21. -/
def AllowedRefusal (i : Instr) (s : State) (q : Refusal) : Prop :=
  (∃ a, q = .storeToProgramText a)
    ∨ (∃ a, q = .unpredictableReturn a ∧ mayReturn i = true ∧ s.mode = .handler)
    ∨ (∃ sysm, q = .outsideSingleStack sysm ∧ s.cfg.singleStack = true)

/-- The answer `r` is no refusal but for those causes. -/
def RefusesOnly (i : Instr) (s : State) (r : Result) : Prop := ∀ q, r = .refused q → AllowedRefusal i s q

/-- The accesses `r` are refused for program text alone. -/
def RefusesText {α : Type} (r : Access α) : Prop := ∀ q, r = .refused q → ∃ a, q = .storeToProgramText a

theorem refusesText_memWrite (s : State) (a : Word) (z : Size) (v : Word) : RefusesText (s.memWrite a z v) := by
  intro q h
  obtain ⟨-, -, hq⟩ := State.memWrite_refused h
  exact ⟨a, hq⟩

theorem refusesText_popLoads (s : State) (p : BitVec 1) (l : BitVec 8) : RefusesText (s.popLoads p l) := by
  intro q h
  rcases Access.bind_eq_refused.mp h with h | ⟨u, -, h⟩
  · exact absurd h State.loadRegs_not_refused
  · split at h
    · rcases Access.bind_eq_refused.mp h with h | ⟨v, -, h⟩
      · exact absurd h State.memRead_not_refused
      · cases h
    · cases h

section
variable {i : Instr} {s u : State}

theorem refusesOnly_next (t : State) : RefusesOnly i s (.next t) := nofun

theorem refusesOnly_raiseHardFault (ret : Word) (c : HardFaultCause) : RefusesOnly i s (u.raiseHardFault ret c) :=
  fun _ h => .inl (State.raiseHardFault_refused h)

theorem refusesOnly_takeException (e : ExcNum) (ret : Word) : RefusesOnly i s (u.takeException e ret) :=
  fun _ h => .inl (State.takeException_refused h)

/-- A meaning that refuses under a condition that does not hold. -/
theorem refusesOnly_ite {p : Prop} [Decidable p] {q : Refusal} {r : Result} (hp : ¬ p) (h : RefusesOnly i s r) :
    RefusesOnly i s (if p then .refused q else r) := by
  rwa [if_neg hp]

theorem refusesOnly_complete {r : Access State} (h : RefusesText r) : RefusesOnly i s (u.complete r) := by
  cases r with
  | ok t => exact refusesOnly_next t
  | hardFault c => exact refusesOnly_raiseHardFault _ c
  | refused q => exact fun _ hq => by cases hq; exact .inl (h q rfl)

theorem refusesOnly_completeTransfer {α : Type} {r : Access α} {a : Word} {n : Nat} {lost : List RegNum}
    {done : α → Result} (h : RefusesText r) (hdone : ∀ v, r = .ok v → RefusesOnly i s (done v)) :
    RefusesOnly i s (s.completeTransfer r a n lost done) := by
  cases r with
  | ok v => exact hdone v rfl
  | hardFault c => exact refusesOnly_raiseHardFault _ c
  | refused q => exact fun _ hq => by cases hq; exact .inl (h q rfl)

theorem refusesOnly_loadInto (rt : LowReg) (a : Word) (z : Size) (extend : Word → Word) :
    RefusesOnly i s (s.loadInto rt a z extend) := by
  refine refusesOnly_complete fun q h => ?_
  rcases Access.bind_eq_refused.mp h with h | ⟨v, -, h⟩
  · exact absurd h State.memRead_not_refused
  · cases h

theorem refusesOnly_storeFrom (a : Word) (z : Size) (v : Word) : RefusesOnly i s (s.storeFrom a z v) := by
  refine refusesOnly_complete fun q h => ?_
  rcases Access.bind_eq_refused.mp h with h | ⟨u, -, h⟩
  · exact refusesText_memWrite s a z v q h
  · cases h

theorem refusesOnly_afterBarrier {sb : BitVec 9} (h : (sb == barrierShouldBe) = true) (t : State) :
    RefusesOnly i s (t.afterBarrier sb) :=
  refusesOnly_ite (not_not.mpr (beq_iff_eq.mp h)) (refusesOnly_next _)

/-- A return is refused for its value, or for program text under the frame of a fault while the frame is read (R520). -/
theorem refusesOnly_exceptionReturn (hi : mayReturn i = true) (hm : s.mode = .handler) (a : Word) :
    RefusesOnly i s (u.exceptionReturn a) := by
  unfold State.exceptionReturn
  split
  · exact fun q h => by cases h; exact .inr (.inl ⟨a, rfl, hi, hm⟩)
  · refine refusesOnly_complete fun q h => ?_
    rcases Access.bind_eq_refused.mp h with h | ⟨f, -, h⟩
    · exact absurd h State.readFrame_not_refused
    · cases h

theorem refusesOnly_bxWritePC (hi : mayReturn i = true) (hm : u.mode = s.mode) (a : Word) :
    RefusesOnly i s (u.bxWritePC a) := by
  unfold State.bxWritePC
  split
  next hr => exact refusesOnly_exceptionReturn hi (hm ▸ ((isExceptionReturn_iff u a).mp hr).1) a
  next => exact refusesOnly_next _

/-- The restriction of D21 refuses only where the platform has it. -/
theorem refusesOnly_singleStack (sysm : BitVec 8) (v : Word) (t : State) :
    RefusesOnly i s (if s.outsideSingleStack sysm v then .refused (.outsideSingleStack sysm) else .next t) := by
  intro q h
  split at h
  next hout =>
    cases h
    exact .inr (.inr ⟨sysm, rfl, ((outsideSingleStack_iff s sysm v).mp hout).1⟩)
  next => cases h

end

/-! The meanings that can be refused, with the field values that the spec gives a meaning. -/

section
variable (s : State)

theorem refusesOnly_ldm {rn : LowReg} {l : BitVec 8} (hl : l ≠ 0#8) : RefusesOnly (.ldm rn l) s (execLdm rn l s) :=
  refusesOnly_ite hl <| refusesOnly_completeTransfer (fun _ h => absurd h State.loadRegs_not_refused)
    fun _ _ => refusesOnly_next _

theorem refusesOnly_stm {rn : LowReg} {l : BitVec 8} (hl : l ≠ 0#8) : RefusesOnly (.stm rn l) s (execStm rn l s) :=
  refusesOnly_ite hl <| refusesOnly_completeTransfer (fun _ h => State.storeWords_refused h)
    fun _ _ => refusesOnly_next _

theorem refusesOnly_push {m : BitVec 1} {l : BitVec 8} (hl : ¬ (m = 0#1 ∧ l = 0#8)) :
    RefusesOnly (.push m l) s (execPush m l s) :=
  refusesOnly_ite hl <| refusesOnly_completeTransfer (fun _ h => State.storeWords_refused h)
    fun _ _ => refusesOnly_next _

theorem refusesOnly_pop {p : BitVec 1} {l : BitVec 8} (hl : ¬ (p = 0#1 ∧ l = 0#8)) :
    RefusesOnly (.pop p l) s (execPop p l s) := by
  refine refusesOnly_ite hl <| refusesOnly_completeTransfer (refusesText_popLoads s p l) fun ⟨u, target⟩ hu => ?_
  cases target with
  | none => exact refusesOnly_next _
  | some a =>
    obtain ⟨-, hp⟩ := popLoads_ok hu
    exact refusesOnly_bxWritePC (by simp [mayReturn, hp rfl])
      ((State.setX_mode _ _ _).trans (keepsContext_popLoads hu).mode) a

theorem refusesOnly_bkpt (imm8 : BitVec 8) : RefusesOnly (.bkpt imm8) s (execBkpt imm8 s) := by
  unfold execBkpt
  split
  · exact refusesOnly_next _
  · exact refusesOnly_raiseHardFault _ _

theorem refusesOnly_svc (imm8 : BitVec 8) : RefusesOnly (.svc imm8) s (execSvc imm8 s) := by
  unfold execSvc
  split
  · exact refusesOnly_takeException _ _
  · exact refusesOnly_raiseHardFault _ _

/-- The registers and the `SYSm` that MRS and MSR take. -/
theorem specialOperands {r : RegNum} {sysm : BitVec 8} (h : (r != 13#4 && r != 15#4 && allocatedSysm sysm) = true) :
    r ≠ 13#4 ∧ r ≠ 15#4 ∧ ∃ q, sysm = sysmOf q := by
  rw [Bool.and_eq_true, Bool.and_eq_true, bne_iff_ne, bne_iff_ne] at h
  obtain ⟨⟨h13, h15⟩, hal⟩ := h
  exact ⟨h13, h15, exists_sysmOf hal⟩

/-- Two fields that do not both have the value that makes them UNPREDICTABLE together. -/
theorem not_and_of_not_beq {v w : Nat} {a b : BitVec v} {c d : BitVec w} (h : (!(a == b && c == d)) = true) :
    ¬ (a = b ∧ c = d) := by
  rintro ⟨rfl, rfl⟩
  simp at h

/-- What refuses an instruction whose should-be bits and field values the spec gives a meaning. -/
theorem exec_refusesOnly {i : Instr} (hsb : i.shouldBeOk = true) (hv : i.valuesOk = true) :
    RefusesOnly i s (exec i s) := by
  cases i with
  | ldrImmT1 | ldrImmT2 | ldrLit | ldrReg | ldrbImm | ldrbReg | ldrhImm | ldrhReg | ldrsb | ldrsh =>
    exact refusesOnly_loadInto _ _ _ _
  | strImmT1 | strImmT2 | strReg | strbImm | strbReg | strhImm | strhReg => exact refusesOnly_storeFrom _ _ _
  | dmb | dsb | isb => exact refusesOnly_afterBarrier hsb _
  | udfT1 | udfT2 => exact refusesOnly_raiseHardFault _ _
  | bkpt imm8 => exact refusesOnly_bkpt s imm8
  | svc imm8 => exact refusesOnly_svc s imm8
  | addRegT2 rdn rm => exact refusesOnly_ite (not_and_of_not_beq hv) (refusesOnly_next _)
  | cmpRegT2 rn rm =>
    refine refusesOnly_ite ?_ (refusesOnly_next _)
    rintro (⟨hn, hm⟩ | rfl | rfl)
    · simp [Instr.valuesOk, BitVec.ult, hn, hm] at hv
    · simp [Instr.valuesOk] at hv
    · simp [Instr.valuesOk] at hv
  | blx rm sb =>
    exact refusesOnly_ite (not_not.mpr (beq_iff_eq.mp hsb)) (refusesOnly_ite (bne_iff_ne.mp hv) (refusesOnly_next _))
  | bx rm sb =>
    exact refusesOnly_ite (not_not.mpr (beq_iff_eq.mp hsb))
      (refusesOnly_ite (bne_iff_ne.mp hv) (refusesOnly_bxWritePC rfl rfl _))
  | cps im sb => exact refusesOnly_ite (not_not.mpr (beq_iff_eq.mp hsb)) (refusesOnly_next _)
  | ldm rn l => exact refusesOnly_ldm s (bne_iff_ne.mp hv)
  | stm rn l => exact refusesOnly_stm s (bne_iff_ne.mp hv)
  | pop p l => exact refusesOnly_pop s (not_and_of_not_beq hv)
  | push m l => exact refusesOnly_push s (not_and_of_not_beq hv)
  | mrs rd sysm sb =>
    obtain rfl : sb = mrsShouldBe := beq_iff_eq.mp hsb
    obtain ⟨h13, h15, r, rfl⟩ := specialOperands hv
    rw [exec_mrs h13 h15 r]
    exact refusesOnly_singleStack _ _ _
  | msr rn sysm sb =>
    obtain rfl : sb = msrShouldBe := beq_iff_eq.mp hsb
    obtain ⟨h13, h15, r, rfl⟩ := specialOperands hv
    rw [exec_msr h13 h15 r]
    exact refusesOnly_singleStack _ _ _
  | _ => exact refusesOnly_next _

end

/-- Settles O17: no kind of answer is a fault, and the refusals are those of the accesses, of returns and of D21. -/
theorem wellFormedRuns : Obligations.WellFormedRuns := by
  refine fun i s => ⟨(exec_answer i s).not_fault, fun hwf => ?_⟩
  rw [Instr.wellFormed, Instr.predictable, Bool.and_eq_true, Bool.and_eq_true] at hwf
  obtain ⟨-, hsb, hv⟩ := hwf
  exact exec_refusesOnly s hsb hv

end Sys2Proof.Machine

/-! Decoding and encoding are inverse (O1, O2), the patterns no row has (O4), and nine words of the tables (O3). -/

namespace Sys2Proof

/-! ## Slices joined and cut -/

/-- Two slices that lie side by side are one slice. -/
theorem slice_join {w hi m lo n : Nat} {v : BitVec w} {x : BitVec m} {y : BitVec n} (hx : slice v hi m = x)
    (hy : slice v lo n = y) (h : hi = lo + n := by rfl) : slice v lo (m + n) = x ++ y := by
  subst hx hy h
  exact (BitVec.extractLsb'_append_extractLsb'_eq_extractLsb' (by omega)).symm

/-- A slice inside a slice with a known value. -/
theorem slice_within {w lo len : Nat} {v : BitVec w} {x : BitVec len} (h : slice v lo len = x) (lo' len' : Nat)
    (hle : lo' + len' ≤ len := by decide) : slice v (lo + lo') len' = slice x lo' len' := by
  subst h
  refine BitVec.eq_of_getLsbD_eq fun i hi => ?_
  have hlt : lo' + i < len := by omega
  simp [hi, hlt, Nat.add_assoc]

/-- A halfword whose sixteen bits are `x` is the halfword made of `x`. -/
theorem half_eq_of_slice {w : Nat} {hw : Half} {x : BitVec w} (hx : slice hw 0 w = x) (h : w = 16 := by rfl) :
    half x = hw := by
  subst h hx
  simp [half]

/-! ## The formats, written back from their fields (R142, R143) -/

/-- The format `op imm5 Rn Rt`. -/
theorem encodeImm5_slices {hw : Half} {op : BitVec 5} (hop : slice hw 11 5 = op) :
    encodeImm5 op (slice hw 0 3) (slice hw 3 3) (slice hw 6 5) = hw :=
  half_eq_of_slice (slice_join (slice_join (slice_join hop rfl) rfl) rfl)

/-- The format `op R imm8`. -/
theorem encodeImm8_slices {hw : Half} {op : BitVec 5} (hop : slice hw 11 5 = op) :
    encodeImm8 op (slice hw 8 3) (slice hw 0 8) = hw :=
  half_eq_of_slice (slice_join (slice_join hop rfl) rfl)

/-- The format `op Rm Rd`. -/
theorem encodeTwoLow_slices {hw : Half} {op : BitVec 10} (hop : slice hw 6 10 = op) :
    encodeTwoLow op (slice hw 0 3) (slice hw 3 3) = hw :=
  half_eq_of_slice (slice_join (slice_join hop rfl) rfl)

/-- The format of the three-operand additions and subtractions. -/
theorem half_addSub3_slices {hw : Half} {op : BitVec 7} (hop : slice hw 9 7 = op) :
    half (op ++ slice hw 6 3 ++ slice hw 3 3 ++ slice hw 0 3) = hw :=
  half_eq_of_slice (slice_join (slice_join (slice_join hop rfl) rfl) rfl)

/-- The format of the data-processing instructions. -/
theorem encodeDataProcessing_slices {hw : Half} {op : BitVec 4} (hfix : slice hw 10 6 = 0b010000#6)
    (hop : slice hw 6 4 = op) : encodeDataProcessing op (slice hw 0 3) (slice hw 3 3) = hw :=
  half_eq_of_slice (slice_join (slice_join (slice_join hfix hop) rfl) rfl)

/-- The format of the register-offset loads and stores. -/
theorem encodeRegisterOffset_slices {hw : Half} {op : BitVec 3} (hfix : slice hw 12 4 = 0b0101#4)
    (hop : slice hw 9 3 = op) : encodeRegisterOffset op (slice hw 0 3) (slice hw 3 3) (slice hw 6 3) = hw :=
  half_eq_of_slice (slice_join (slice_join (slice_join (slice_join hfix hop) rfl) rfl) rfl)

/-- The top bit and the low three bits of a high register (R142 format HI). -/
theorem slices_high (b : BitVec 1) (r : LowReg) : slice (b ++ r) 3 1 = b ∧ slice (b ++ r) 0 3 = r := by
  revert b r; decide

/-- The format of the high-register instructions. -/
theorem encodeHighRegister_slices {hw : Half} {op : BitVec 2} {high rm : RegNum} (hfix : slice hw 10 6 = 0b010001#6)
    (hop : slice hw 8 2 = op) (hhigh : slice hw 7 1 ++ slice hw 0 3 = high) (hrm : slice hw 3 4 = rm) :
    encodeHighRegister op high rm = hw := by
  subst hhigh
  rw [encodeHighRegister, (slices_high _ _).1, (slices_high _ _).2]
  exact half_eq_of_slice (slice_join (slice_join (slice_join (slice_join hfix hop) rfl) hrm) rfl)

/-- The format with a fixed part and one field. -/
theorem half_field {m n : Nat} {hw : Half} {op : BitVec m} (hop : slice hw n m = op) (h : m + n = 16 := by rfl) :
    half (op ++ slice hw 0 n) = hw :=
  half_eq_of_slice (slice_join hop rfl (Nat.zero_add n).symm) h

/-- The format with a fixed part and two fields. -/
theorem half_twoFields {m : Nat} (k n : Nat) {hw : Half} {op : BitVec m} (hop : slice hw (n + k) m = op)
    (h : m + k + n = 16 := by rfl) : half (op ++ slice hw n k ++ slice hw 0 n) = hw :=
  half_eq_of_slice (slice_join (slice_join hop rfl) rfl (Nat.zero_add n).symm) h

/-! ## The encoder writes back what the decoder reads (R141, R160) -/

/-- `i` is an encoding of its own row, and `hws` are its halfwords. -/
def EncodedAs (hws : List Half) (i : Instr) : Prop := i.inOwnRow = true ∧ encode i = hws

/-- An instruction of one halfword. -/
theorem EncodedAs.narrow {hw hw' : Half} {i : Instr} (h : hw' = hw) (hi : encode i = [hw'] := by rfl)
    (hown : i.inOwnRow = true := by rfl) : EncodedAs [hw] i := ⟨hown, h ▸ hi⟩

theorem encodedAs_addSub3 {hw : Half} (htop : slice hw 11 5 = 0b00011#5) : EncodedAs [hw] (decodeAddSub3 hw) := by
  have hfix {op : BitVec 2} (hop : slice hw 9 2 = op) := half_addSub3_slices (slice_join htop hop)
  unfold decodeAddSub3
  split
  case h_1 hop | h_2 hop | h_3 hop => exact .narrow (hfix hop)
  case h_4 =>
    have hop : slice hw 9 2 = 0b11#2 := by simp only [imp_false] at *; bv_omega
    exact .narrow (hfix hop)

theorem encodedAs_dataProcessing {hw : Half} (hfix : slice hw 10 6 = 0b010000#6) :
    EncodedAs [hw] (decodeDataProcessing hw) := by
  unfold decodeDataProcessing
  split
  case h_16 =>
    have hop : slice hw 6 4 = 0b1111#4 := by simp only [imp_false] at *; bv_omega
    exact .narrow (encodeDataProcessing_slices hfix hop)
  all_goals exact .narrow (encodeDataProcessing_slices hfix ‹_›)

theorem encodedAs_registerOffset {hw : Half} (hfix : slice hw 12 4 = 0b0101#4) :
    EncodedAs [hw] (decodeRegisterOffset hw) := by
  unfold decodeRegisterOffset
  split
  case h_8 =>
    have hop : slice hw 9 3 = 0b111#3 := by simp only [imp_false] at *; bv_omega
    exact .narrow (encodeRegisterOffset_slices hfix hop)
  all_goals exact .narrow (encodeRegisterOffset_slices hfix ‹_›)

theorem encodedAs_highRegister {hw : Half} (hfix : slice hw 10 6 = 0b010001#6) :
    EncodedAs [hw] (decodeHighRegister hw) := by
  unfold decodeHighRegister
  dsimp only
  split
  case h_1 hop =>
    split
    next hrm => exact .narrow (encodeHighRegister_slices hfix hop rfl hrm)
    next hrm =>
      split
      next hhigh => exact .narrow (encodeHighRegister_slices hfix hop hhigh rfl) rfl (by simp [Instr.inOwnRow, hrm])
      next hhigh =>
        exact .narrow (encodeHighRegister_slices hfix hop rfl rfl) rfl (by simp [Instr.inOwnRow, hrm, hhigh])
  case h_2 hop | h_3 hop => exact .narrow (encodeHighRegister_slices hfix hop rfl rfl)
  case h_4 =>
    have hop : slice hw 8 2 = 0b11#2 := by simp only [imp_false] at *; bv_omega
    have hword {b : BitVec 1} (hb : slice hw 7 1 = b) :=
      half_twoFields 4 3 (slice_join (slice_join hfix hop) hb)
    rcases BitVec.eq_zero_or_eq_one (slice hw 7 1) with hb | hb
    · rw [if_neg (by rw [hb]; decide)]
      exact .narrow (hword hb)
    · rw [if_pos hb]
      exact .narrow (hword hb)

theorem encodedAs_hint {hw : Half} {i : Instr} (hfix : slice hw 8 8 = 0b10111111#8) (h : decodeHint hw = .ok i) :
    EncodedAs [hw] i := by
  unfold decodeHint at h
  split at h
  next h0 =>
    have hword {hint : BitVec 4} (hhint : slice hw 4 4 = hint) :=
      half_eq_of_slice (slice_join (slice_join hfix hhint) h0)
    split at h
    case h_6 => cases h
    case h_1 hhint | h_2 hhint | h_3 hhint | h_4 hhint | h_5 hhint => cases h; exact .narrow (hword hhint)
  next => cases h

theorem encodedAs_miscellaneous {hw : Half} {i : Instr} (hfix : slice hw 12 4 = 0b1011#4)
    (h : decodeMiscellaneous hw = .ok i) : EncodedAs [hw] i := by
  have hop {b : BitVec 4} (hb : slice hw 8 4 = b) : slice hw 8 8 = 0b1011#4 ++ b := slice_join hfix hb
  unfold decodeMiscellaneous at h
  split at h
  case h_1 hb =>
    cases h
    rcases BitVec.eq_zero_or_eq_one (slice hw 7 1) with hbit | hbit
    · rw [if_pos hbit]
      exact .narrow (half_field (slice_join (hop hb) hbit))
    · rw [if_neg (by rw [hbit]; decide)]
      exact .narrow (half_field (slice_join (hop hb) hbit))
  case h_2 hb =>
    split at h
    case h_4 =>
      have hext : slice hw 6 2 = 0b11#2 := by simp only [imp_false] at *; bv_omega
      cases h
      exact .narrow (encodeTwoLow_slices (slice_join (hop hb) hext))
    case h_1 hext | h_2 hext | h_3 hext =>
      cases h
      exact .narrow (encodeTwoLow_slices (slice_join (hop hb) hext))
  case h_6 hb =>
    split at h
    case h_4 => cases h
    case h_1 hrev | h_2 hrev | h_3 hrev =>
      cases h
      exact .narrow (encodeTwoLow_slices (slice_join (hop hb) hrev))
  case h_5 hb =>
    split at h
    next hcps =>
      cases h
      exact .narrow (half_twoFields 1 4 (slice_join (hop hb) hcps))
    next => cases h
  case h_3 hb | h_4 hb | h_7 hb | h_8 hb =>
    cases h
    exact .narrow (half_twoFields 1 8 (slice_within (hop hb) 1 7))
  case h_9 hb =>
    cases h
    exact .narrow (half_field (hop hb))
  case h_10 hb => exact encodedAs_hint (hop hb) h
  case h_11 => cases h

/-- Only the bits of a condition are read as that condition (R32). -/
theorem condOfBits_some {b : BitVec 4} {c : Cond} (h : condOfBits b = some c) : b = condBits c := by
  unfold condOfBits at h
  split at h <;> cases h <;> rfl

/-- The two values of `cond` that stand for no condition (R223). -/
theorem condOfBits_none {b : BitVec 4} (h : condOfBits b = none) : b = 0b1110#4 ∨ b = 0b1111#4 := by
  revert b; decide

theorem encodedAs_conditional {hw : Half} (hfix : slice hw 12 4 = 0b1101#4) :
    EncodedAs [hw] (decodeConditional hw) := by
  have hop {b : BitVec 4} (hb : slice hw 8 4 = b) := half_field (slice_join hfix hb)
  unfold decodeConditional
  split
  next c hc => exact .narrow (hop (condOfBits_some hc))
  next hc =>
    rcases condOfBits_none hc with hb | hb <;>
      · rw [slice_within hb 0 1]
        exact .narrow (hop hb)

/-- A halfword the decoder reads alone is the encoding of what it reads. -/
theorem encodedAs_decode16 {hw : Half} {i : Instr} (h : decode16 hw = .ok i) : EncodedAs [hw] i := by
  unfold decode16 at h
  split at h
  case h_1 htop =>
    cases h
    split
    next h0 => exact .narrow (h0 ▸ encodeImm5_slices htop)
    next h0 => exact .narrow (encodeImm5_slices htop) rfl (by simpa [Instr.inOwnRow] using h0)
  case h_2 htop | h_3 htop | h_13 htop | h_14 htop | h_15 htop | h_16 htop | h_17 htop | h_18 htop =>
    cases h
    exact .narrow (encodeImm5_slices htop)
  case h_4 htop => cases h; exact encodedAs_addSub3 htop
  case h_5 htop | h_6 htop | h_7 htop | h_8 htop | h_10 htop | h_19 htop | h_20 htop | h_21 htop | h_22 htop | h_25 htop
      | h_26 htop =>
    cases h
    exact .narrow (encodeImm8_slices htop)
  case h_9 htop =>
    cases h
    split
    next h10 => exact encodedAs_dataProcessing (slice_join htop h10)
    next h10 => exact encodedAs_highRegister (slice_join htop ((BitVec.eq_zero_or_eq_one _).resolve_left h10))
  case h_11 htop | h_12 htop => cases h; exact encodedAs_registerOffset (slice_within htop 1 4)
  case h_23 htop | h_24 htop => exact encodedAs_miscellaneous (slice_within htop 1 4) h
  case h_27 htop | h_28 htop => cases h; exact encodedAs_conditional (slice_within htop 1 4)
  case h_29 htop => cases h; exact .narrow (half_field htop)
  case h_30 => cases h

/-- An instruction of two halfwords. -/
theorem EncodedAs.wide {hw1 hw1' hw2 hw2' : Half} {i : Instr} (h1 : hw1' = hw1) (h2 : hw2' = hw2)
    (hi : encode i = [hw1', hw2'] := by rfl) (hown : i.inOwnRow = true := by rfl) : EncodedAs [hw1, hw2] i :=
  ⟨hown, h1 ▸ h2 ▸ hi⟩

/-- The three fields of a value. -/
theorem slices_append3 {l m n : Nat} (a : BitVec l) (b : BitVec m) (c : BitVec n) :
    slice (a ++ b ++ c) (m + n) l = a ∧ slice (a ++ b ++ c) n m = b ∧ slice (a ++ b ++ c) 0 n = c := by
  have hlow : slice (a ++ b ++ c) 0 n = c := (slice_append_low _ _ 0 n (by omega)).trans (slice_all c)
  have hmid : slice (a ++ b ++ c) n m = b := by
    rw [slice_append_high _ _ _ _ le_rfl, Nat.sub_self, slice_append_low _ _ 0 m (by omega), slice_all]
  refine ⟨?_, hmid, hlow⟩
  rw [slice_append_high _ _ _ _ (by omega), slice_append_high _ _ _ _ (by omega)]
  simp

/-- The second halfword of the system instructions: `10 b 0 c d` (R143). -/
theorem half_system_slices {hw : Half} (h14 : slice hw 14 2 = 0b10#2) (h12 : slice hw 12 1 = 0#1) :
    half (0b10#2 ++ slice hw 13 1 ++ 0#1 ++ slice hw 8 4 ++ slice hw 0 8) = hw :=
  half_twoFields 4 8 (slice_join (slice_join h14 rfl) h12)

/-- The two halfwords of a barrier. -/
theorem encodeBarrier_slices {hw1 hw2 : Half} {op : BitVec 4} (h4 : slice hw1 4 12 = 0b111100111011#12)
    (h14 : slice hw2 14 2 = 0b10#2) (h12 : slice hw2 12 1 = 0#1) (hop : slice hw2 4 4 = op) :
    encodeBarrier op (slice hw2 0 4) (barrierBits hw1 hw2) = [hw1, hw2] := by
  obtain ⟨hfirst, hbit, hlast⟩ := slices_append3 (slice hw1 0 4) (slice hw2 13 1) (slice hw2 8 4)
  have hhigh := slice_join (slice_join h14 (rfl : slice hw2 13 1 = _)) h12
  have hword2 := half_eq_of_slice (slice_join (slice_join (slice_join hhigh (rfl : slice hw2 8 4 = _)) hop)
    (rfl : slice hw2 0 4 = _))
  rw [encodeBarrier, barrierBits, hfirst, hbit, hlast, half_field h4, hword2]

theorem encodedAs_systemWide {hw1 hw2 : Half} {i : Instr} (h14 : slice hw2 14 2 = 0b10#2) (h12 : slice hw2 12 1 = 0#1)
    (h : decodeSystemWide hw1 hw2 = .ok i) : EncodedAs [hw1, hw2] i := by
  unfold decodeSystemWide at h
  split_ifs at h with hbar hmrs hmsr hudf h13
  · split at h
    case h_1 hop | h_2 hop | h_3 hop => cases h; exact ⟨rfl, encodeBarrier_slices hbar h14 h12 hop⟩
    case h_4 => cases h
  · cases h
    refine ⟨rfl, ?_⟩
    obtain ⟨hr, hfirst, hbit⟩ := slices_append3 (slice hw1 4 1) (slice hw1 0 4) (slice hw2 13 1)
    rw [encode, hr, hfirst, hbit, half_twoFields 1 4 hmrs, half_system_slices h14 h12]
  · cases h
    refine ⟨rfl, ?_⟩
    obtain ⟨hr, hbit, hlast⟩ := slices_append3 (slice hw1 4 1) (slice hw2 13 1) (slice hw2 8 4)
    rw [encode, hr, hbit, hlast, half_twoFields 1 4 hmsr, half_system_slices h14 h12]
  · cases h
    exact .wide (half_field hudf) (half_field (slice_join (slice_join h14 h13) h12))

/-- A pair of halfwords the decoder reads together is the encoding of what it reads. -/
theorem encodedAs_decode32 {hw1 hw2 : Half} {i : Instr} (h : decode32 hw1 hw2 = .ok i) : EncodedAs [hw1, hw2] i := by
  unfold decode32 at h
  split_ifs at h with htop hbl h12 hsys h12
  · cases h
    have hhigh := slice_join (slice_join hbl (rfl : slice hw2 13 1 = _)) h12
    exact .wide (half_twoFields 1 10 htop) (half_twoFields 1 11 hhigh)
  · exact encodedAs_systemWide hsys h12 h

/-- Settles O2, by the decoder's branches: each reads back a format all of whose fields it keeps. -/
theorem encodeWritesBackDecode : Obligations.EncodeWritesBackDecode := by
  intro hw1 hw2 i h
  unfold decode at h
  split_ifs at h ⊢
  · exact encodedAs_decode32 h
  · exact encodedAs_decode16 h

/-! ## Which decoder reads a halfword (R142, R147) -/

/-- A halfword whose top four bits are below those of the 32-bit instructions is decoded alone, by one of two values of
its top five bits. -/
theorem decode_of_block {hw : Half} {block : BitVec 4} (h : slice hw 12 4 = block) (hnarrow : block.ult 0b1110#4 = true)
    (hw2 : Half) :
    decode hw hw2 = decode16 hw ∧ (slice hw 11 5 = block ++ 0#1 ∨ slice hw 11 5 = block ++ 1#1) := by
  have htop : slice hw 11 5 = block ++ slice hw 11 1 := slice_join h (rfl : slice hw 11 1 = _)
  have hcases : slice hw 11 5 = block ++ 0#1 ∨ slice hw 11 5 = block ++ 1#1 :=
    (BitVec.eq_zero_or_eq_one (slice hw 11 1)).imp (fun hb => by rw [htop, hb]) (fun hb => by rw [htop, hb])
  have hshort : ∀ (b : BitVec 4) (x : BitVec 1), b.ult 0b1110#4 = true →
      (b ++ x == 0b11101#5 || b ++ x == 0b11110#5 || b ++ x == 0b11111#5) = false := by decide
  exact ⟨decode_of_narrow (by rw [isWide, htop]; exact hshort _ _ hnarrow) hw2, hcases⟩

/-- The miscellaneous block `1011....`. -/
theorem decode_of_miscellaneous {hw : Half} (h : slice hw 12 4 = 0b1011#4) (hw2 : Half) :
    decode hw hw2 = decodeMiscellaneous hw := by
  obtain ⟨hnarrow, htop | htop⟩ := decode_of_block h (by decide) hw2 <;> rw [hnarrow, decode16, htop] <;> rfl

/-- The conditional branches `1101....`. -/
theorem decode_of_conditional {hw : Half} (h : slice hw 12 4 = 0b1101#4) (hw2 : Half) :
    decode hw hw2 = .ok (decodeConditional hw) := by
  obtain ⟨hnarrow, htop | htop⟩ := decode_of_block h (by decide) hw2 <;> rw [hnarrow, decode16, htop] <;> rfl

/-- The register-offset loads and stores `0101....`. -/
theorem decode_of_registerOffset {hw : Half} (h : slice hw 12 4 = 0b0101#4) (hw2 : Half) :
    decode hw hw2 = .ok (decodeRegisterOffset hw) := by
  obtain ⟨hnarrow, htop | htop⟩ := decode_of_block h (by decide) hw2 <;> rw [hnarrow, decode16, htop] <;> rfl

/-- The high-register instructions `010001..`. -/
theorem decode_of_highRegister {hw : Half} (h : slice hw 10 6 = 0b010001#6) (hw2 : Half) :
    decode hw hw2 = .ok (decodeHighRegister hw) := by
  have htop : slice hw 11 5 = 0b01000#5 := slice_within h 1 5
  have hbit : slice hw 10 1 = 1#1 := slice_within h 0 1
  rw [decode_of_narrow (by rw [isWide, htop]; rfl), decode16, htop, hbit]
  rfl

/-- The system instructions, whose second halfword is `10.0............` (R143). -/
theorem decode_of_systemWide {hw1 hw2 : Half} (htop : slice hw1 11 5 = 0b11110#5) (h14 : slice hw2 14 2 = 0b10#2)
    (h12 : slice hw2 12 1 = 0#1) : decode hw1 hw2 = decodeSystemWide hw1 hw2 := by
  have hwide : isWide hw1 = true := by rw [isWide, htop]; rfl
  rw [decode, if_pos hwide, decode32, if_pos htop, h14, h12]
  rfl

/-! ## The fields of the halfwords the encoder writes -/

/-- A fixed part and one field. -/
theorem slices_field {m n : Nat} (op : BitVec m) (x : BitVec n) (h : m + n = 16 := by rfl) :
    slice (half (op ++ x)) n m = op ∧ slice (half (op ++ x)) 0 n = x := by
  constructor
  · rw [slice_half _ _ _ (by omega), slice_append_high _ _ _ _ le_rfl, Nat.sub_self, slice_all]
  · rw [slice_half _ _ _ (by omega), slice_append_low _ _ _ _ (by omega), slice_all]

/-- A fixed part and two fields. -/
theorem slices_twoFields {l m n : Nat} (op : BitVec l) (x : BitVec m) (y : BitVec n) (h : l + m + n = 16 := by rfl) :
    slice (half (op ++ x ++ y)) (m + n) l = op ∧ slice (half (op ++ x ++ y)) n m = x
      ∧ slice (half (op ++ x ++ y)) 0 n = y := by
  have hcut (lo len : Nat) (hl : lo + len ≤ 16) := slice_half (op ++ x ++ y) lo len hl
  rw [hcut _ _ (by omega), hcut _ _ (by omega), hcut _ _ (by omega)]
  exact slices_append3 op x y

/-- A fixed part and three fields. -/
theorem slices_addSub3 (op : BitVec 7) (c b a : BitVec 3) :
    slice (half (op ++ c ++ b ++ a)) 9 7 = op ∧ slice (half (op ++ c ++ b ++ a)) 6 3 = c
      ∧ slice (half (op ++ c ++ b ++ a)) 3 3 = b ∧ slice (half (op ++ c ++ b ++ a)) 0 3 = a := by
  refine ⟨?_, ?_, ?_, ?_⟩ <;>
    simp (disch := decide) only [slice_half, slice_append_high, slice_append_low, slice_all, Nat.reduceSub]

theorem slices_registerOffset (op : BitVec 3) (rt rn rm : LowReg) :
    slice (encodeRegisterOffset op rt rn rm) 12 4 = 0b0101#4 ∧ slice (encodeRegisterOffset op rt rn rm) 9 3 = op
      ∧ slice (encodeRegisterOffset op rt rn rm) 6 3 = rm ∧ slice (encodeRegisterOffset op rt rn rm) 3 3 = rn
      ∧ slice (encodeRegisterOffset op rt rn rm) 0 3 = rt := by
  refine ⟨?_, ?_, ?_, ?_, ?_⟩ <;>
    simp (disch := decide) only [encodeRegisterOffset, slice_half, slice_append_high, slice_append_low, slice_all,
      Nat.reduceSub]

theorem slices_highRegister (op : BitVec 2) (high rm : RegNum) :
    slice (encodeHighRegister op high rm) 10 6 = 0b010001#6 ∧ slice (encodeHighRegister op high rm) 8 2 = op
      ∧ slice (encodeHighRegister op high rm) 7 1 ++ slice (encodeHighRegister op high rm) 0 3 = high
      ∧ slice (encodeHighRegister op high rm) 3 4 = rm := by
  refine ⟨?_, ?_, Eq.trans ?_ (slice_high_join high), ?_⟩ <;>
    simp (disch := decide) only [encodeHighRegister, slice_half, slice_append_high, slice_append_low, slice_all,
      Nat.reduceSub]

/-- The second halfword of MRS and MSR. -/
theorem slices_system {b : BitVec 1} {c : BitVec 4} {d : BitVec 8} {hw : Half}
    (h : half (0b10#2 ++ b ++ 0#1 ++ c ++ d) = hw) :
    slice hw 14 2 = 0b10#2 ∧ slice hw 13 1 = b ∧ slice hw 12 1 = 0#1 ∧ slice hw 8 4 = c ∧ slice hw 0 8 = d := by
  subst h
  refine ⟨?_, ?_, ?_, ?_, ?_⟩ <;>
    simp (disch := decide) only [slice_half, slice_append_high, slice_append_low, slice_all, Nat.reduceSub]

/-- The second halfword of a barrier. -/
theorem slices_barrier {b : BitVec 1} {c op option : BitVec 4} {hw : Half}
    (h : half (0b10#2 ++ b ++ 0#1 ++ c ++ op ++ option) = hw) :
    slice hw 14 2 = 0b10#2 ∧ slice hw 13 1 = b ∧ slice hw 12 1 = 0#1 ∧ slice hw 8 4 = c ∧ slice hw 4 4 = op
      ∧ slice hw 0 4 = option := by
  subst h
  refine ⟨?_, ?_, ?_, ?_, ?_, ?_⟩ <;>
    simp (disch := decide) only [slice_half, slice_append_high, slice_append_low, slice_all, Nat.reduceSub]

/-- A value cut in three and joined again. -/
theorem slices_join3 {l m n : Nat} (v : BitVec (l + m + n)) :
    slice v (m + n) l ++ slice v n m ++ slice v 0 n = v :=
  (slice_join (slice_join rfl rfl (Nat.add_comm m n)) rfl (Nat.zero_add n).symm).symm.trans (slice_all v)

/-- DMB, DSB and ISB are decoded by the field `op` (R143 format BAR). -/
theorem decode_barrier (op option : BitVec 4) (sb : BitVec 9) :
    ∃ hw1 hw2, encodeBarrier op option sb = [hw1, hw2] ∧ decode hw1 hw2 = decodeSystemWide hw1 hw2
      ∧ slice hw1 4 12 = 0b111100111011#12 ∧ slice hw2 4 4 = op ∧ slice hw2 0 4 = option
      ∧ barrierBits hw1 hw2 = sb := by
  refine ⟨_, _, rfl, ?_⟩
  obtain ⟨hfix, hfirst⟩ := slices_field 0b111100111011#12 (slice sb 5 4)
  obtain ⟨h14, hbit, h12, hlast, hop, hoption⟩ := slices_barrier (b := slice sb 4 1) (c := slice sb 0 4) (op := op)
    (option := option) rfl
  refine ⟨decode_of_systemWide (slice_within hfix 7 5) h14 h12, hfix, hop, hoption, ?_⟩
  rw [barrierBits, hfirst, hbit, hlast]
  exact slices_join3 (l := 4) (m := 1) (n := 4) sb

/-- The first halfword of MRS and MSR is no barrier's. -/
theorem not_barrier {hw : Half} {op : BitVec 11} (hop : slice hw 5 11 = op) (hne : op ≠ 0b11110011101#11) :
    slice hw 4 12 ≠ 0b111100111011#12 := fun hbar => hne (hop.symm.trans (slice_within hbar 1 11))

/-! ## The decoder reads back every instruction of its own row -/

/-- The halfwords of `i` decode to `i`, whatever follows the halfword of a 16-bit instruction. -/
def ReadsBack (i : Instr) : Prop :=
  (∃ hw, encode i = [hw] ∧ ∀ hw2, decode hw hw2 = .ok i)
    ∨ ∃ hw1 hw2, encode i = [hw1, hw2] ∧ decode hw1 hw2 = .ok i

theorem ReadsBack.narrow {i : Instr} {hw : Half} (hd : ∀ hw2, decode hw hw2 = .ok i)
    (hi : encode i = [hw] := by rfl) : ReadsBack i := .inl ⟨hw, hi, hd⟩

theorem readsBack_mrs (rd : RegNum) (sysm : BitVec 8) (sb : BitVec 6) : ReadsBack (.mrs rd sysm sb) := by
  refine .inr ⟨_, _, rfl, ?_⟩
  obtain ⟨hop, hr, hfirst⟩ := slices_twoFields 0b11110011111#11 (slice sb 5 1) (slice sb 1 4)
  obtain ⟨h14, hbit, h12, hrd, hsysm⟩ := slices_system (b := slice sb 0 1) (c := rd) (d := sysm) rfl
  have hsb : slice sb 5 1 ++ slice sb 1 4 ++ slice sb 0 1 = sb := slices_join3 (l := 1) (m := 4) (n := 1) sb
  rw [decode_of_systemWide (slice_within hop 6 5) h14 h12, decodeSystemWide, if_neg (not_barrier hop (by decide)),
    if_pos hop, hrd, hsysm, hr, hfirst, hbit, hsb]

theorem readsBack_msr (rn : RegNum) (sysm : BitVec 8) (sb : BitVec 6) : ReadsBack (.msr rn sysm sb) := by
  refine .inr ⟨_, _, rfl, ?_⟩
  obtain ⟨hop, hr, hrn⟩ := slices_twoFields 0b11110011100#11 (slice sb 5 1) rn
  obtain ⟨h14, hbit, h12, hlast, hsysm⟩ := slices_system (b := slice sb 4 1) (c := slice sb 0 4) (d := sysm) rfl
  have hsb : slice sb 5 1 ++ slice sb 4 1 ++ slice sb 0 4 = sb := slices_join3 (l := 1) (m := 1) (n := 4) sb
  rw [decode_of_systemWide (slice_within hop 6 5) h14 h12, decodeSystemWide, if_neg (not_barrier hop (by decide)),
    if_neg (by rw [hop]; decide), if_pos hop, hrn, hsysm, hr, hbit, hlast, hsb]

theorem readsBack_udfT2 (imm4 : BitVec 4) (imm12 : BitVec 12) : ReadsBack (.udfT2 imm4 imm12) := by
  refine .inr ⟨_, _, rfl, ?_⟩
  obtain ⟨hop1, himm4⟩ := slices_field 0b111101111111#12 imm4
  obtain ⟨hop2, himm12⟩ := slices_field 0b1010#4 imm12
  rw [decode_of_systemWide (slice_within hop1 7 5) (slice_within hop2 2 2) (slice_within hop2 0 1), decodeSystemWide,
    hop1, slice_within hop1 1 11, slice_within hop2 1 1, himm4, himm12]
  rfl

theorem readsBack_bl (sbit : BitVec 1) (imm10 : BitVec 10) (j1 j2 : BitVec 1) (imm11 : BitVec 11) :
    ReadsBack (.bl sbit imm10 j1 j2 imm11) := by
  refine .inr ⟨_, _, rfl, ?_⟩
  obtain ⟨htop, hs, himm10⟩ := slices_twoFields 0b11110#5 sbit imm10
  obtain ⟨hop, hj2, himm11⟩ := slices_twoFields (0b11#2 ++ j1 ++ 1#1) j2 imm11
  obtain ⟨h14, hj1, h12⟩ := slices_append3 0b11#2 j1 1#1
  rw [decode, if_pos (by rw [isWide, htop]; rfl), decode32, htop, slice_within hop 2 2, slice_within hop 1 1,
    slice_within hop 0 1, hs, himm10, hj2, himm11, h14, hj1, h12]
  rfl

/-- Every instruction of its own row is read back, each format from its fields. -/
theorem readsBack_of_inOwnRow {i : Instr} (h : i.inOwnRow = true) : ReadsBack i := by
  cases i with
  | andReg rd rm | eor rd rm | lslReg rd rm | lsrReg rd rm | asrReg rd rm | adc rd rm | sbc rd rm | ror rd rm
  | tst rd rm | rsb rd rm | cmpRegT1 rd rm | cmn rd rm | orr rd rm | mul rd rm | bic rd rm | mvn rd rm =>
    refine .inl ⟨_, rfl, fun hw2 => ?_⟩
    obtain ⟨-, hop, hrm, hrd⟩ := slices_dataProcessing _ rd rm
    rw [decode_dataProcessing, decodeDataProcessing, hop, hrm, hrd]
    rfl
  | strReg rt rn rm | strhReg rt rn rm | strbReg rt rn rm | ldrsb rt rn rm | ldrReg rt rn rm | ldrhReg rt rn rm
  | ldrbReg rt rn rm | ldrsh rt rn rm =>
    refine .inl ⟨_, rfl, fun hw2 => ?_⟩
    obtain ⟨hfix, hop, hrm, hrn, hrt⟩ := slices_registerOffset _ rt rn rm
    rw [decode_of_registerOffset hfix, decodeRegisterOffset, hop, hrm, hrn, hrt]
    rfl
  | lslImm rd rm imm5 => exact .narrow fun hw2 => (decode_shiftImm rd rm imm5 hw2).1 (by simpa [Instr.inOwnRow] using h)
  | lsrImm rd rm imm5 => exact .narrow fun hw2 => (decode_shiftImm rd rm imm5 hw2).2.1
  | asrImm rd rm imm5 => exact .narrow fun hw2 => (decode_shiftImm rd rm imm5 hw2).2.2
  | movRegT2 rd rn =>
    refine .inl ⟨_, rfl, fun hw2 => ?_⟩
    obtain ⟨himm, hrn, hrt⟩ := slices_imm5 _ rd rn 0#5
    rw [decode_of_narrow (by rw [isWide, Laws.EncodingLength.top_imm5]; rfl), decode16,
      Laws.EncodingLength.top_imm5, himm, hrn, hrt]
    rfl
  | strImmT1 rt rn imm5 | ldrImmT1 rt rn imm5 | strbImm rt rn imm5 | ldrbImm rt rn imm5 | strhImm rt rn imm5
  | ldrhImm rt rn imm5 =>
    refine .inl ⟨_, rfl, fun hw2 => ?_⟩
    obtain ⟨himm, hrn, hrt⟩ := slices_imm5 _ rt rn imm5
    rw [decode_of_narrow (by rw [isWide, Laws.EncodingLength.top_imm5]; rfl), decode16,
      Laws.EncodingLength.top_imm5, himm, hrn, hrt]
    rfl
  | addSpImmT1 rd imm8 => exact .narrow fun hw2 => (decode_addressImm8 rd imm8 hw2).1
  | adr rd imm8 => exact .narrow fun hw2 => (decode_addressImm8 rd imm8 hw2).2
  | movImm r imm8 | cmpImm r imm8 | addImmT2 r imm8 | subImmT2 r imm8 | ldrLit r imm8 | strImmT2 r imm8
  | ldrImmT2 r imm8 | stm r imm8 | ldm r imm8 =>
    refine .inl ⟨_, rfl, fun hw2 => ?_⟩
    obtain ⟨hr, himm⟩ := slices_imm8 _ r imm8
    rw [decode_of_narrow (by rw [isWide, Laws.EncodingLength.top_imm8]; rfl), decode16,
      Laws.EncodingLength.top_imm8, hr, himm]
    rfl
  | addRegT1 rd rn x | subReg rd rn x | addImmT1 rd rn x | subImmT1 rd rn x =>
    refine .inl ⟨_, rfl, fun hw2 => ?_⟩
    obtain ⟨hop, hx, hrn, hrd⟩ := slices_addSub3 _ x rn rd
    have htop := slice_within hop 2 5
    have h9 := slice_within hop 0 2
    rw [decode_of_narrow (by rw [isWide, htop]; rfl), decode16, htop, decodeAddSub3, h9, hx, hrn, hrd]
    rfl
  | addRegT2 high rm =>
    obtain ⟨hhigh, hrm⟩ := Bool.and_eq_true_iff.mp h
    refine .inl ⟨_, rfl, fun hw2 => ?_⟩
    obtain ⟨hfix, hop, hh, hm⟩ := slices_highRegister _ high rm
    rw [decode_of_highRegister hfix, decodeHighRegister, hop, hh, hm]
    simp [bne_iff_ne.mp hhigh, bne_iff_ne.mp hrm]
  | addSpRegT2 rm =>
    refine .inl ⟨_, rfl, fun hw2 => ?_⟩
    obtain ⟨hfix, hop, hh, hm⟩ := slices_highRegister _ 13#4 rm
    rw [decode_of_highRegister hfix, decodeHighRegister, hop, hh, hm]
    simp [bne_iff_ne.mp h]
  | addSpRegT1 high =>
    refine .inl ⟨_, rfl, fun hw2 => ?_⟩
    obtain ⟨hfix, hop, hh, hm⟩ := slices_highRegister _ high 13#4
    rw [decode_of_highRegister hfix, decodeHighRegister, hop, hh, hm]
    rfl
  | cmpRegT2 high rm | movRegT1 high rm =>
    refine .inl ⟨_, rfl, fun hw2 => ?_⟩
    obtain ⟨hfix, hop, hh, hm⟩ := slices_highRegister _ high rm
    rw [decode_of_highRegister hfix, decodeHighRegister, hop, hh, hm]
    rfl
  | blx rm sb | bx rm sb =>
    refine .inl ⟨_, rfl, fun hw2 => ?_⟩
    obtain ⟨hop, hm, hsb⟩ := slices_twoFields _ rm sb
    rw [decode_of_highRegister (slice_within hop 3 6), decodeHighRegister, slice_within hop 1 2, slice_within hop 0 1,
      hm, hsb]
    rfl
  | bT2 imm11 =>
    refine .inl ⟨_, rfl, fun hw2 => ?_⟩
    obtain ⟨htop, himm⟩ := slices_field 0b11100#5 imm11
    rw [decode_of_narrow (by rw [isWide, htop]; rfl), decode16, htop, himm]
    rfl
  | bkpt imm8 =>
    refine .inl ⟨_, rfl, fun hw2 => ?_⟩
    obtain ⟨hop, himm⟩ := slices_field _ imm8
    rw [decode_of_miscellaneous (slice_within hop 4 4), decodeMiscellaneous, slice_within hop 0 4, himm]
    rfl
  | udfT1 imm8 | svc imm8 =>
    refine .inl ⟨_, rfl, fun hw2 => ?_⟩
    obtain ⟨hop, himm⟩ := slices_field _ imm8
    rw [decode_of_conditional (slice_within hop 4 4), decodeConditional, slice_within hop 0 4, slice_within hop 0 1,
      himm]
    rfl
  | bT1 c imm8 =>
    refine .inl ⟨_, rfl, fun hw2 => ?_⟩
    obtain ⟨hop, hc, himm⟩ := slices_twoFields 0b1101#4 (condBits c) imm8
    rw [decode_of_conditional hop, decodeConditional, hc, condOfBits_condBits, himm]
  | addSpImmT2 imm7 => exact .narrow (decode_spImm 0#1 imm7)
  | subSpImm imm7 => exact .narrow (decode_spImm 1#1 imm7)
  | sxth rd rm | sxtb rd rm | uxth rd rm | uxtb rd rm | rev rd rm | rev16 rd rm | revsh rd rm =>
    refine .inl ⟨_, rfl, fun hw2 => ?_⟩
    obtain ⟨hop, hm, hd⟩ := slices_twoFields _ rm rd
    rw [encodeTwoLow, decode_of_miscellaneous (slice_within hop 6 4), decodeMiscellaneous, slice_within hop 2 4,
      slice_within hop 0 2, hm, hd]
    rfl
  | push b l | pop b l =>
    refine .inl ⟨_, rfl, fun hw2 => ?_⟩
    obtain ⟨hop, hb, hl⟩ := slices_twoFields _ b l
    have h8 := slice_join (slice_within hop 0 3) hb
    rw [decode_of_miscellaneous (slice_within hop 3 4), decodeMiscellaneous, h8, hb, hl]
    rcases BitVec.eq_zero_or_eq_one b with rfl | rfl <;> rfl
  | cps im sb =>
    refine .inl ⟨_, rfl, fun hw2 => ?_⟩
    obtain ⟨hop, him, hsb⟩ := slices_twoFields _ im sb
    rw [decode_of_miscellaneous (slice_within hop 7 4), decodeMiscellaneous, slice_within hop 3 4,
      slice_within hop 0 3, him, hsb]
    rfl
  | nop | yield | wfe | wfi | sev => exact .narrow fun hw2 => rfl
  | dmb option sb | dsb option sb | isb option sb =>
    obtain ⟨hw1, hw2, hi, hd, hfix, hop, hoption, hsb⟩ := decode_barrier _ option sb
    refine .inr ⟨hw1, hw2, hi, ?_⟩
    rw [hd, decodeSystemWide, if_pos hfix, hop, hoption, hsb]
    rfl
  | mrs rd sysm sb => exact readsBack_mrs rd sysm sb
  | msr rn sysm sb => exact readsBack_msr rn sysm sb
  | udfT2 imm4 imm12 => exact readsBack_udfT2 imm4 imm12
  | bl sbit imm10 j1 j2 imm11 => exact readsBack_bl sbit imm10 j1 j2 imm11

/-- The halfword of a 16-bit instruction of its own row decodes to the instruction. -/
theorem decode_of_encode {i : Instr} {hw : Half} (hown : i.inOwnRow = true) (hi : encode i = [hw]) (hw2 : Half) :
    decode hw hw2 = .ok i := by
  obtain ⟨hw', hi', hd⟩ | ⟨hw1, hw2', hi', -⟩ := readsBack_of_inOwnRow hown
  · obtain rfl : hw' = hw := List.singleton_inj.mp (hi'.symm.trans hi)
    exact hd hw2
  · simp [hi'] at hi

/-- The halfwords of a 32-bit instruction of its own row decode to the instruction. -/
theorem decode_of_encode_wide {i : Instr} {hw1 hw2 : Half} (hown : i.inOwnRow = true) (hi : encode i = [hw1, hw2]) :
    decode hw1 hw2 = .ok i := by
  obtain ⟨hw, hi', -⟩ | ⟨hw1', hw2', hi', hd⟩ := readsBack_of_inOwnRow hown
  · simp [hi'] at hi
  · obtain ⟨rfl, rfl⟩ : hw1' = hw1 ∧ hw2' = hw2 := by simpa [hi'] using hi
    exact hd

/-- The bytes of a pair of halfwords that decodes, in front of any bytes (R103, R140). -/
theorem decodeBytes_of_decode {hw1 hw2 : Half} {i : Instr} (h : decode hw1 hw2 = .ok i) (rest : List Byte) :
    decodeBytes ((if isWide hw1 then [hw1, hw2] else [hw1]).flatMap bytesOfHalf ++ rest) = .ok (i, rest) := by
  unfold decode at h
  split_ifs at h ⊢ with hwide <;>
    simp [decodeBytes, bytesOfHalf, halfOfBytes_slice, hwide, h, Except.map]

/-- Settles O1: every instruction of its own row is decoded from some halfwords, and those are its encoding (O2). -/
theorem decodeReadsBackEncode : Obligations.DecodeReadsBackEncode := by
  intro i rest hown
  obtain ⟨hw1, hw2, hd⟩ : ∃ hw1 hw2, decode hw1 hw2 = .ok i := by
    obtain ⟨hw, -, hd⟩ | ⟨hw1, hw2, -, hd⟩ := readsBack_of_inOwnRow hown
    · exact ⟨hw, 0#16, hd _⟩
    · exact ⟨hw1, hw2, hd⟩
  obtain ⟨-, hencode⟩ := encodeWritesBackDecode hw1 hw2 i hd
  rw [encodeBytes, hencode]
  exact decodeBytes_of_decode hd rest

/-! ## Patterns no row has (R165) -/

/-- A hint is decoded by `instr[7:4]`, and is UNDEFINED when `instr[3:0]` is not zero. -/
theorem decode_hint (h l : BitVec 4) (hw2 : Half) :
    (l ≠ 0#4 → decode (half (0b10111111#8 ++ h ++ l)) hw2 = .error .undefined)
      ∧ (l = 0#4 → 5 ≤ h.toNat → decode (half (0b10111111#8 ++ h ++ l)) hw2 = .error (.unallocatedHint h)) := by
  obtain ⟨hop, hh, hl⟩ := slices_twoFields 0b10111111#8 h l
  have hhint : decode (half (0b10111111#8 ++ h ++ l)) hw2 = decodeHint (half (0b10111111#8 ++ h ++ l)) := by
    rw [decode_of_miscellaneous (slice_within hop 4 4), decodeMiscellaneous, slice_within hop 0 4]
    rfl
  rw [hhint, decodeHint, hl, hh]
  refine ⟨fun h0 => if_neg h0, fun h0 h5 => ?_⟩
  rw [if_pos h0]
  split
  case h_6 => rfl
  all_goals exact absurd h5 (by decide)

/-- Settles O4: each pattern reaches the branch of the miscellaneous block that rejects it. -/
theorem unallocatedPatternsRejected : Obligations.UnallocatedPatternsRejected := by
  refine ⟨fun h h5 hw2 => (decode_hint h 0#4 hw2).2 rfl h5, fun h l hw2 => (decode_hint h l hw2).1, ?_, ?_, ?_⟩
  · intro b x hw2 hb
    obtain ⟨hop, hb', -⟩ := slices_twoFields 0b1011#4 b x
    rw [decode_of_miscellaneous hop, decodeMiscellaneous, hb']
    simp only [List.mem_cons, List.not_mem_nil, or_false] at hb
    rcases hb with rfl | rfl | rfl | rfl | rfl | rfl <;> rfl
  · intro x hw2
    obtain ⟨hop, -⟩ := slices_field 0b1011101010#10 x
    rw [decode_of_miscellaneous (slice_within hop 6 4), decodeMiscellaneous, slice_within hop 2 4, slice_within hop 0 2]
    rfl
  · intro b x hw2 hb
    obtain ⟨hop, hb', -⟩ := slices_twoFields 0b10110110#8 b x
    rw [decode_of_miscellaneous (slice_within hop 4 4), decodeMiscellaneous, slice_within hop 0 4, hb']
    exact if_neg hb

/-- Settles O3: each word is the encoding of its instruction, which the decoder reads back. -/
theorem writtenWordsDecode : Obligations.WrittenWordsDecode :=
  ⟨decode_of_encode rfl rfl _, decode_of_encode rfl rfl _, decode_of_encode rfl rfl _, decode_of_encode rfl rfl _,
    decode_of_encode rfl rfl _, decode_of_encode rfl rfl _, decode_of_encode rfl rfl _, decode_of_encode_wide rfl rfl,
    decode_of_encode_wide rfl rfl⟩

end Sys2Proof

/-! The sums that set flags: ADCS and ADDS (O19). -/

namespace Sys2Proof.Machine

/-- The end of an instruction that writes a sum to a low register with its four flags (R61, R62). -/
theorem exists_retireSum (s : State) (d : LowReg) (x y : Word) (c : Bool) :
    ∃ t, s.retireSum (lowReg d) (addWithCarry x y c) = .next t ∧ SumRetired s t (lowReg d) x y c :=
  ⟨_, rfl, sumRetired_retireSum s d x y c⟩

/-- Settles O19: each of the four retires a sum, and each halfword is the encoding that the decoder reads back. -/
theorem addsSetsFlags : Obligations.AddsSetsFlags := by
  intro s rd rn rm imm3 imm8 hw2
  refine ⟨?adc, ?addImmT1, ?addImmT2, ?addRegT1, ?decodeAdc, ?decodeImmT1, ?decodeImmT2, ?decodeRegT1⟩
  case adc => exact exists_retireSum s rd (s.x (lowReg rd)) (s.x (lowReg rm)) s.apsr.c
  case addImmT1 => exact exists_retireSum s rd (s.x (lowReg rn)) (imm32 imm3) false
  case addImmT2 => exact exists_retireSum s rd (s.x (lowReg rd)) (imm32 imm8) false
  case addRegT1 => exact exists_retireSum s rd (s.x (lowReg rn)) (s.x (lowReg rm)) false
  all_goals exact decode_of_encode rfl rfl hw2

end Sys2Proof.Machine

/-! The logical instructions and low moves (O25), B (O41) and BKPT (O55). -/

namespace Sys2Proof.Machine

/-! ## Results with N and Z (R62) -/

/-- The flags of a result leave C and V. -/
theorem resultFlags_nz (f : Apsr) (r : Word) : ResultFlags r f (f.nz r) := ⟨rfl, beq_eq_decide _ _, rfl, rfl⟩

/-- The end of an instruction that writes a result to a low register with N and Z from it. -/
theorem exists_retireNZ (s : State) (d : LowReg) (r : Word) :
    ∃ t, s.retireNZ (lowReg d) r = .next t ∧ ResultRetired s t (lowReg d) r :=
  ⟨_, rfl, by simp, resultFlags_nz s.apsr r, retired_setX_withApsr _ _ _ _ _⟩

/-- Settles O25: seven of the eight retire their result, TST only its flags, and each halfword is the encoding that the
decoder reads back. -/
theorem logicResults : Obligations.LogicResults := by
  intro s rd rm imm8 hw2
  refine ⟨?and, ?bic, ?eor, ?orr, ?mvn, ?movReg, ?movImm, ?tst, ?_, ?_, ?_, ?_, ?_, ?_, ?_, ?_⟩
  case and => exact exists_retireNZ s rd (s.x (lowReg rd) &&& s.x (lowReg rm))
  case bic => exact exists_retireNZ s rd (s.x (lowReg rd) &&& ~~~(s.x (lowReg rm)))
  case eor => exact exists_retireNZ s rd (s.x (lowReg rd) ^^^ s.x (lowReg rm))
  case orr => exact exists_retireNZ s rd (s.x (lowReg rd) ||| s.x (lowReg rm))
  case mvn => exact exists_retireNZ s rd (~~~(s.x (lowReg rm)))
  case movReg => exact exists_retireNZ s rd (s.x (lowReg rm))
  case movImm => exact exists_retireNZ s rd (imm32 imm8)
  case tst => exact ⟨_, rfl, resultFlags_nz _ _, retired_withApsr _ _ _⟩
  all_goals exact decode_of_encode rfl rfl hw2

/-! ## B (R223, R224) -/

/-- The conditions, as the flags they ask for (R32). -/
theorem condHolds_iff (f : Apsr) (c : Cond) : condHolds f c = true ↔ CondTrue f c := by
  cases c <;> simp [condHolds, CondTrue]

/-- A branch offset is twice the signed immediate (R150). -/
theorem branchOffset_eq {w : Nat} (imm : BitVec w) : branchOffset imm = BitVec.ofInt 32 (2 * imm.toInt) := by
  have htwice : (imm ++ 0#1).toInt = 2 * imm.toInt := by
    rw [BitVec.toInt_eq_toNat_cond, BitVec.toInt_eq_toNat_cond, toNat_append_eq, Nat.pow_succ]
    simp only [BitVec.toNat_ofNat]
    split_ifs <;> omega
  rw [branchOffset, BitVec.signExtend, htwice]

/-- A branch offset is even. -/
theorem branchOffset_even {w : Nat} (imm : BitVec w) : (branchOffset imm).getLsbD 0 = false := by
  rw [branchOffset, BitVec.getLsbD_signExtend, BitVec.getLsbD_append]
  simp

/-- From an even pc B needs no bit of its target cleared. -/
theorem branched_branchOffset {s : State} (hpc : s.pc.getLsbD 0 = false) {w : Nat} (imm : BitVec w) :
    Branched s (s.branchTo (s.pcVal + branchOffset imm)) (s.pc + 4#32 + BitVec.ofInt 32 (2 * imm.toInt)) := by
  have heven : (s.pcVal + branchOffset imm).getLsbD 0 = false := even_add (even_add hpc rfl) (branchOffset_even imm)
  have hbranched := branched_branchTo s (s.pcVal + branchOffset imm)
  rw [align2_of_even heven] at hbranched
  rwa [← branchOffset_eq]

/-- Falling through is a branch to the next instruction. -/
theorem branched_advance (s : State) (n : Word) : Branched s (s.advance n) (s.pc + n) := by
  obtain ⟨hpc, hregs, hsystem, ht, hfree, hmem⟩ := retired_advance s n
  exact ⟨hpc, rfl, hregs, hsystem, ht, hfree, hmem⟩

/-- Settles O41: the condition decides between the branch and the fall through, and the `cond` field is its bits. -/
theorem branchTargets : Obligations.BranchTargets := by
  intro s c imm8 imm11 hw2 hpc
  refine ⟨⟨_, rfl, fun hc => ?taken, fun hc => ?notTaken⟩, ⟨_, rfl, branched_branchOffset hpc imm11⟩, fun n hn => ?cond,
    decode_of_encode rfl rfl hw2, decode_of_encode rfl rfl hw2, decode_of_encode rfl rfl hw2⟩
  case taken =>
    rw [if_pos ((condHolds_iff _ _).mpr hc)]
    exact branched_branchOffset hpc imm8
  case notTaken =>
    rw [if_neg (mt (condHolds_iff _ _).mp hc)]
    exact branched_advance s 2#32
  case cond =>
    obtain rfl : n = condBits c := by cases c <;> simpa [condBits] using hn
    exact decode_of_encode rfl rfl hw2

/-! ## BKPT (R226, R503) -/

/-- Settles O55: without debug halts HardFault is raised, and with them only the run state changes. -/
theorem breakpointFaultsOrHalts : Obligations.BreakpointFaultsOrHalts := by
  intro s imm8
  refine ⟨fun h => ?_, fun h => ?_⟩
  · rw [exec_bkpt_raises h]
    exact s.raiseHardFault_raises _ _
  · exact ⟨_, if_pos h, rfl, rfl, rfl, keepsRegs_of_fields _ rfl rfl rfl rfl rfl rfl, rfl, rfl, rfl, rfl, rfl, rfl,
      fun _ => rfl, rfl⟩

end Sys2Proof.Machine

/-! Exception return by BX and POP (O57). -/

namespace Sys2Proof.Machine

/-! ## Where a return goes (R520) -/

/-- The low four bits of the return value that selects a mode and a stack. -/
def ReturnTo.bits : ReturnTo → BitVec 4
  | .handlerMain => 0b0001#4
  | .threadMain => 0b1001#4
  | .threadProcess => 0b1101#4

/-- The mode a return goes to. -/
def ReturnTo.mode : ReturnTo → Mode
  | .handlerMain => .handler
  | _ => .thread

/-- Whether a return goes to the process stack. -/
def ReturnTo.process : ReturnTo → Bool
  | .threadProcess => true
  | _ => false

theorem returnTo_of_bits {v : Word} {w : ReturnTo} (h : v.extractLsb' 0 4 = w.bits) : returnTo v = some w := by
  rw [returnTo, h]
  cases w <;> rfl

/-- In Handler mode the stack pointer in use is the main one (R530). -/
theorem sp_of_handler {s : State} (h : s.mode = .handler) : s.sp = s.msp := by simp [State.sp, State.usesPsp, h]

/-! ## What a return restores (R520, R521) -/

/-- R0 to R3 and R12 come from the frame. -/
theorem restore_x_frame (s : State) (f : Frame) :
    (s.restore f).x 0#4 = f.r0 ∧ (s.restore f).x 1#4 = f.r1 ∧ (s.restore f).x 2#4 = f.r2
      ∧ (s.restore f).x 3#4 = f.r3 ∧ (s.restore f).x 12#4 = f.r12 := by
  refine ⟨?_, ?_, ?_, ?_, ?_⟩ <;> simp [State.x_general, State.restore]

/-- R4 to R11 are no part of the frame. -/
theorem restore_x_high (s : State) (f : Frame) {i : RegNum} (h4 : 4 ≤ i.toNat) (h12 : i.toNat < 12) :
    (s.restore f).x i = s.x i := by
  rw [State.x_general _ (by omega), State.x_general _ (by omega)]
  simp (disch := omega) only [State.restore, Vector.getElem_set_ne]

/-- A return from a state on the main stack sets the mode, the stack and its stack pointer, and nothing else. -/
theorem leaveHandler_eq {s : State} (hmain : s.control.spSel = false) (w : ReturnTo) (sp : Word) :
    s.leaveHandler w sp = { s with
      mode := w.mode, control := { s.control with spSel := w.process }, msp := if w.process then s.msp else sp,
      psp := if w.process then sp else s.psp } := by
  cases w with
  | handlerMain =>
    have hcontrol : s.control = { s.control with spSel := false } := by rw [← hmain]
    exact congrArg (fun c => { s with mode := .handler, msp := sp, control := c }) hcontrol
  | threadMain | threadProcess => rfl

/-- The mode and the stack are no part of what R0 to R12 read as. -/
theorem leaveHandler_x (s : State) (w : ReturnTo) (sp : Word) {i : RegNum} (hi : i.toNat < 13) :
    (s.leaveHandler w sp).x i = s.x i := by
  rw [State.x_general _ hi, State.x_general _ hi]
  cases w <;> rfl

/-- The stack returned to has the stack pointer after the pop. -/
theorem leaveHandler_sp (s : State) (w : ReturnTo) (sp : Word) : (s.leaveHandler w sp).sp = sp := by cases w <;> rfl

/-- Above an aligned frame the stack pointer has no low bits to clear (R53). -/
theorem poppedSp_of_aligned {p : Word} (h : p.toNat % 4 = 0) (xpsr : Word) :
    poppedSp p xpsr = (p + 0x20#32) ||| (if xpsr.getLsbD 9 then 4#32 else 0#32) := by
  refine align4_of_aligned ?_
  have hp : (p + 0x20#32) &&& 3#32 = 0#32 := (aligned_iff_and _).mp (by rw [BitVec.toNat_add]; simp; omega)
  rw [aligned_iff_and, BitVec.and_or_distrib_right, hp]
  split <;> rfl

/-- A return that has read its frame has popped it. -/
theorem framePopped_leaveHandler {s : State} {p : Word} {f : Frame} (hmain : s.control.spSel = false)
    (hf : s.readFrame p = .ok f) (w : ReturnTo) :
    FramePopped s ((s.restore f).leaveHandler w (poppedSp p f.xpsr)) p := by
  obtain ⟨h0, h1, h2, h3, h12, hlr, hret, hxpsr, hp⟩ := State.readFrame_ok hf
  obtain ⟨x0, x1, x2, x3, x12⟩ := restore_x_frame s f
  have hx {i : RegNum} (hi : i.toNat < 13) := leaveHandler_x (s.restore f) w (poppedSp p f.xpsr) hi
  unfold FramePopped
  rw [hx (by decide), hx (by decide), hx (by decide), hx (by decide), hx (by decide), x0, x1, x2, x3, x12,
    leaveHandler_sp, poppedSp_of_aligned hp, leaveHandler_eq (s := s.restore f) hmain]
  exact ⟨h0, h1, h2, h3, h12, hlr, ⟨f.ret, hret, rfl⟩, f.xpsr, hxpsr, rfl, rfl, rfl, rfl, rfl, rfl, rfl⟩

/-- A return from a handler, which is on the main stack, whose frame can be read. -/
theorem exists_exceptionReturn {s : State} {v : Word} {w : ReturnTo} (hmain : s.control.spSel = false)
    (hw : v.extractLsb' 0 4 = w.bits) (hr : ReadableWords s (s.returnSp w) 8) :
    ∃ t, s.exceptionReturn v = .next t ∧ ReturnedTo s t w.mode w.process (s.returnSp w)
      ∧ (w.process = true → t.msp = s.msp) ∧ ∀ i : RegNum, 4 ≤ i.toNat → i.toNat < 12 → t.x i = s.x i := by
  obtain ⟨f, hf⟩ := State.readFrame_of_readable hr
  refine ⟨_, State.exceptionReturn_of_frame (returnTo_of_bits hw) hf, ⟨framePopped_leaveHandler hmain hf w, ?_⟩, ?_,
    fun i h4 h12 => ?_⟩
  · rw [leaveHandler_eq (s := s.restore f) hmain]
    exact ⟨rfl, rfl, fun h => if_neg (Bool.eq_false_iff.mp h), rfl, rfl, rfl, rfl, rfl, rfl, rfl, rfl, rfl⟩
  · rw [leaveHandler_eq (s := s.restore f) hmain]
    exact fun h => if_pos h
  · rw [leaveHandler_x _ _ _ (by omega), restore_x_high s f h4 h12]

/-! ## BX and POP in a handler (R229, R341) -/

/-- In Handler mode a branch to an exception return value is a return (R58, R520). -/
theorem bxWritePC_of_return {s : State} {v : Word} (hm : s.mode = .handler) (hv : v.extractLsb' 28 4 = 0b1111#4) :
    s.bxWritePC v = s.exceptionReturn v := if_pos ((isExceptionReturn_iff s v).mpr ⟨hm, hv⟩)

/-- A return from a state that differs from `s` in registers alone, PSP not among them, is one from `s`. -/
theorem returnedTo_of_keeps {s u t : State} {mode : Mode} {process : Bool} {p : Word} (hsystem : KeepsSystem s u)
    (hpsp : u.psp = s.psp) (hmem : u.mem = s.mem) (hfree : u.freeIdx = s.freeIdx) (h : ReturnedTo u t mode process p) :
    ReturnedTo s t mode process p := by
  obtain ⟨⟨-, -, hprimask, hcontrol, -, hpending, hrun, hcfg, hfault⟩, hsync⟩ := hsystem
  unfold ReturnedTo FramePopped KeepsSync at h ⊢
  unfold KeepsSync at hsync
  rwa [stored_eq hmem hcfg, hcontrol, hpsp, hprimask, hmem, hsync, hcfg, hpending, hrun, hfault, hfree] at h

/-- A return by BX (R229). -/
theorem exec_bx_returns {s : State} {rm : RegNum} {w : ReturnTo} (hm : s.mode = .handler)
    (hmain : s.control.spSel = false) (hrm : rm ≠ 15#4) (hv : (s.x rm).extractLsb' 28 4 = 0b1111#4)
    (hw : (s.x rm).extractLsb' 0 4 = w.bits) (hr : ReadableWords s (s.returnSp w) 8) :
    ∃ t, exec (.bx rm 0#3) s = .next t ∧ ReturnedTo s t w.mode w.process (s.returnSp w)
      ∧ (w.process = true → t.msp = s.msp) ∧ ∀ i : RegNum, 4 ≤ i.toNat → i.toNat < 12 → t.x i = s.x i := by
  have hbx : exec (.bx rm 0#3) s = s.bxWritePC (s.x rm) := by simp [exec, execBx, hrm]
  rw [hbx, bxWritePC_of_return hm hv]
  exact exists_exceptionReturn hmain hw hr

/-- A POP in a handler of an exception return value is a return from the state the POP leaves (R341). -/
theorem exec_pop_return {s : State} {l : BitVec 8} {v : Word} (hm : s.mode = .handler)
    (hv : v.extractLsb' 28 4 = 0b1111#4) (hr : ReadableWords s s.sp (rankIn l 8 + 1))
    (hstored : Stored s (s.sp + 4#32 * BitVec.ofNat 32 (rankIn l 8)) 4 v) :
    ∃ u, exec (.pop 1#1 l) s = u.exceptionReturn v ∧ Popped s u 1#1 l ∧ u.mem = s.mem := by
  obtain ⟨u, hu, hexec⟩ := exec_pop_pc hr hstored
  obtain ⟨-, -, -, ⟨⟨-, hmode, -⟩, -⟩, -, hmem⟩ := State.loadRegs_ok hu
  have haligned : s.sp.toNat % 4 = 0 := by simpa using (hr 0 (Nat.succ_pos _)).1
  have hhandler : (u.setX 13#4 (s.sp + wordsSize (popCount 1#1 l))).mode = .handler := by
    rw [State.setX_mode, hmode, hm]
  exact ⟨_, hexec.trans (bxWritePC_of_return hhandler hv), popped_setSp haligned hu (State.t _) (State.pc _),
    (State.setX_mem _ _ _).trans hmem⟩

/-- A return by POP: the registers are loaded and the main stack pointer moved past their words before the frame is read
(R341). -/
theorem exec_pop_returns {s : State} {l : BitVec 8} {v : Word} {w : ReturnTo} (hm : s.mode = .handler)
    (hmain : s.control.spSel = false) (hv : v.extractLsb' 28 4 = 0b1111#4) (hw : v.extractLsb' 0 4 = w.bits)
    {above : Word} (habove : above = s.msp + 4#32 * BitVec.ofNat 32 (rankIn l 8 + 1))
    (hr : ReadableWords s s.msp (rankIn l 8 + 1)) (hstored : Stored s (s.msp + 4#32 * BitVec.ofNat 32 (rankIn l 8)) 4 v)
    (hframe : ReadableWords s ((s.withMsp above).returnSp w) 8) :
    ∃ t, exec (.pop 1#1 l) s = .next t ∧ ReturnedTo s t w.mode w.process ((s.withMsp above).returnSp w)
      ∧ (w.process = true → t.msp = above) ∧ PoppedHigh s t l := by
  have hsp := sp_of_handler hm
  obtain ⟨u, hexec, hpopped, hmem⟩ := exec_pop_return hm hv (hsp ▸ hr) (hsp ▸ hstored)
  obtain ⟨⟨-, hmode, -, hcontrol, -, -, -, hcfg, -⟩, -⟩ := hpopped.system
  have hmsp : u.msp = above := by
    rw [habove, ← hsp, ← sp_of_handler (hmode.trans hm)]
    exact hpopped.sp
  have hpsp : u.psp = s.psp := by simpa [State.usesPsp, hm] using hpopped.otherStack
  have hreturnSp : u.returnSp w = (s.withMsp above).returnSp w := by
    cases w with
    | handlerMain | threadMain => exact hmsp
    | threadProcess => exact hpsp
  rw [← hreturnSp] at hframe ⊢
  obtain ⟨t, ht, hreturned, htmsp, hhigh⟩ := exists_exceptionReturn ((congrArg Control.spSel hcontrol).trans hmain) hw
    ((readableWords_congr hmode hcontrol hcfg _ _).mpr hframe)
  refine ⟨t, hexec.trans ht, returnedTo_of_keeps hpopped.system hpsp hmem hpopped.freeIdx hreturned,
    fun h => (htmsp h).trans hmsp, fun i h4 h12 => ?_⟩
  rw [hhigh i h4 h12]
  refine ⟨fun hi => hsp ▸ hpopped.loaded i hi, fun hi => hpopped.other i hi ?_ ?_⟩ <;>
    · rintro rfl
      exact absurd h12 (by decide)

/-- Settles O57: BX and POP return alike, to each of the three places. -/
theorem returnRestoresFrame : Obligations.ReturnRestoresFrame := by
  intro s v hm hmain hv
  refine ⟨fun rm hrm hx => ?bx, fun l above habove hr hstored => ?pop⟩
  case bx =>
    subst hx
    have returns (w : ReturnTo) := exec_bx_returns (w := w) hm hmain hrm hv
    refine ⟨fun hw hframe => ?_, fun hw hframe => ?_, fun hw hframe => ?_⟩
    · exact (returns .handlerMain hw hframe).imp fun _ ⟨ht, hreturned, _, hhigh⟩ => ⟨ht, hreturned, hhigh⟩
    · exact (returns .threadMain hw hframe).imp fun _ ⟨ht, hreturned, _, hhigh⟩ => ⟨ht, hreturned, hhigh⟩
    · exact (returns .threadProcess hw hframe).imp fun _ ⟨ht, hreturned, hmsp, hhigh⟩ =>
        ⟨ht, hreturned, hmsp rfl, hhigh⟩
  case pop =>
    have returns (w : ReturnTo) (hw : v.extractLsb' 0 4 = w.bits) := exec_pop_returns hm hmain hv hw habove hr hstored
    refine ⟨fun hw hframe => ?_, fun hw hframe => ?_, fun hw hframe => ?_⟩
    · exact (returns .handlerMain hw hframe).imp fun _ ⟨ht, hreturned, _, hhigh⟩ => ⟨ht, hreturned, hhigh⟩
    · exact (returns .threadMain hw hframe).imp fun _ ⟨ht, hreturned, _, hhigh⟩ => ⟨ht, hreturned, hhigh⟩
    · exact (returns .threadProcess hw hframe).imp fun _ ⟨ht, hreturned, hmsp, hhigh⟩ =>
        ⟨ht, hreturned, hmsp rfl, hhigh⟩

end Sys2Proof.Machine

/-! The comparisons (O21) and CPS (O44). -/

namespace Sys2Proof.Machine

/-! ## Comparisons (R250 to R253) -/

/-- The end of a comparison by a sum: its flags, and no register written. -/
theorem exists_retireCompare_sum (s : State) (x y : Word) (c : Bool) :
    ∃ t, s.retireCompare (addWithCarry x y c) = .next t ∧ SumFlags x y c t.apsr ∧ Retired 2#32 [] s t :=
  ⟨_, rfl, sumFlags_nzcv x y c, retired_withApsr _ _ _⟩

/-- The end of a comparison by a difference: its flags, and no register written. -/
theorem exists_retireCompare_difference (s : State) (x y : Word) :
    ∃ t, s.retireCompare (subWithCarry x y) = .next t ∧ DifferenceFlags x y false t.apsr ∧ Retired 2#32 [] s t :=
  ⟨_, rfl, differenceFlags_nzcv x y false, retired_withApsr _ _ _⟩

/-- CMP T2 on the registers it is defined on compares them (R253). -/
theorem exec_cmpRegT2 {hn hm : RegNum} (hhigh : 8 ≤ hn.toNat ∨ 8 ≤ hm.toNat) (hn15 : hn ≠ 15#4) (hm15 : hm ≠ 15#4)
    (s : State) : exec (.cmpRegT2 hn hm) s = s.retireCompare (subWithCarry (s.x hn) (s.x hm)) := by
  refine if_neg ?_
  rintro (⟨hnlow, hmlow⟩ | hpc | hpc)
  · omega
  · exact hn15 hpc
  · exact hm15 hpc

/-- Settles O21: CMN ends with the flags of a sum, the three CMP with those of a difference, and each halfword is the
encoding that the decoder reads back. -/
theorem compareSetsFlagsOnly : Obligations.CompareSetsFlagsOnly := by
  intro s rn rm imm8 hw2
  refine ⟨?cmn, ?cmpImm, ?cmpRegT1, fun hn hm hhigh hn15 hm15 => ?cmpRegT2, fun hn hm hbad => if_pos hbad,
    fun hn hm => ?_, ?_, ?_, ?_⟩
  case cmn => exact exists_retireCompare_sum s (s.x (lowReg rn)) (s.x (lowReg rm)) false
  case cmpImm => exact exists_retireCompare_difference s (s.x (lowReg rn)) (imm32 imm8)
  case cmpRegT1 => exact exists_retireCompare_difference s (s.x (lowReg rn)) (s.x (lowReg rm))
  case cmpRegT2 =>
    rw [exec_cmpRegT2 hhigh hn15 hm15]
    exact exists_retireCompare_difference s (s.x hn) (s.x hm)
  all_goals exact decode_of_encode rfl rfl hw2

/-! ## CPS (R258, R530) -/

/-- CPS with its should-be bits right retires with PRIMASK as its only write, which privilege decides. -/
theorem exec_cps (im : BitVec 1) (s : State) :
    exec (.cps im cpsShouldBe) s =
      .next ((s.withPrimask (if s.privileged then im == 1#1 else s.primask)).advance 2#32) := by
  change execCps im cpsShouldBe s = _
  rw [execCps, if_neg (not_not.mpr rfl)]
  cases s.privileged <;> rfl

/-- Settles O44: the two words are encodings, other should-be bits are refused first, and what is left writes PRIMASK
alone. -/
theorem cpsWritesPrimask : Obligations.CpsWritesPrimask := by
  refine ⟨decode_of_encode rfl rfl _, decode_of_encode rfl rfl _,
    fun s im sb hsb => exec_shouldBeBits (i := .cps im sb) (beq_eq_false_iff_ne.mpr hsb) s,
    fun s im => ⟨_, exec_cps im s, ?primask, rfl, rfl, keepsRegs_of_fields _ rfl rfl rfl rfl rfl rfl, rfl, rfl, rfl, rfl,
      rfl, rfl, rfl, rfl, rfl, rfl, rfl, fun _ => rfl⟩⟩
  case primask =>
    rw [State.advance_primask, State.withPrimask_primask, beq_eq_decide]
    exact if_congr (privileged_iff s) rfl rfl

end Sys2Proof.Machine

/-! MULS (O24), MSR without privilege (O52), and NOP and YIELD (O46). -/

namespace Sys2Proof.Machine

/-! ## MULS (R332) -/

/-- MULS retires the product of two words, whose low 32 bits are those of the product of their numbers (R332). -/
theorem exec_mul (rdm rn : LowReg) (s : State) :
    exec (.mul rdm rn) s = s.retireNZ (lowReg rdm) (s.x (lowReg rn) * s.x (lowReg rdm)) := by
  rw [BitVec.mul_def]
  rfl

/-- Settles O24: the product retires as a result with N and Z, and the halfword is the encoding that the decoder reads
back. -/
theorem multiplyKeepsCarry : Obligations.MultiplyKeepsCarry := by
  intro s rdm rn hw2
  rw [exec_mul]
  exact ⟨exists_retireNZ s rdm (s.x (lowReg rn) * s.x (lowReg rdm)), decode_of_encode rfl rfl hw2⟩

/-! ## MSR without privilege (R330, R530) -/

/-- Without privilege a write of a special register is a write of the flags at most (R530). -/
theorem writeSpecial_unprivileged {s : State} (hp : ¬ s.privileged = true) (r : SpecReg) (v : Word) :
    s.writeSpecial r v = s.withApsr (if (sysmOf r).toNat ≤ 3 then apsrOfWord v else s.apsr) := by
  cases r with
  | apsr | iapsr | eapsr | xpsr | ipsr | epsr | iepsr => rfl
  | msp | psp | primask | control => exact if_neg hp

/-- Settles O52: the restriction of D21 refuses as it does with privilege, and what is left writes the flags at most. -/
theorem unprivilegedMsrIgnored : Obligations.UnprivilegedMsrIgnored := by
  intro s rn sysm h13 h15 hal hm hn
  obtain ⟨r, rfl⟩ := exists_sysmOf hal
  have hp : ¬ s.privileged = true := by simp [State.privileged, hm, hn]
  have hexec := exec_msr (s := s) h13 h15 r
  rw [writeSpecial_unprivileged hp] at hexec
  have hout := outsideSingleStack_iff s (sysmOf r) (s.x rn)
  refine ⟨fun hs h => ?refused, fun hnot => ?written⟩
  case refused => exact hexec.trans (if_pos (hout.mpr ⟨hs, h⟩))
  case written => exact ⟨_, hexec.trans (if_neg (mt hout.mp hnot)), retired_withApsr s _ 4#32, rfl⟩

/-! ## NOP and YIELD (R335, R425) -/

/-- Settles O46: the two words are encodings, and both instructions end by advancing the pc. -/
theorem nopAndYieldOnlyAdvance : Obligations.NopAndYieldOnlyAdvance := by
  refine ⟨decode_of_encode rfl rfl _, decode_of_encode rfl rfl _, fun s => ⟨?nop, ?yield⟩⟩
  case nop => exact ⟨s.advance 2#32, rfl, rfl, retired_advance s 2#32⟩
  case yield => exact ⟨s.advance 2#32, rfl, rfl, retired_advance s 2#32⟩

end Sys2Proof.Machine

/-! The differences that set flags: SBCS, RSBS and SUBS (O20). RORS (O29). The extensions and byte reversals (O30). -/

namespace Sys2Proof.Machine

/-! ## Differences that set flags (R347, R348, R390 to R392) -/

/-- The order of the two terms of an `AddWithCarry` does not matter (R20). -/
theorem addWithCarry_comm (x y : Word) (c : Bool) : addWithCarry x y c = addWithCarry y x c := by
  simp only [addWithCarry, Nat.add_comm x.toNat, Int.add_comm x.toInt]

/-- The end of an instruction that writes `x - y - b` to a low register with its four flags (R61, R62). -/
theorem exists_retireDifference (s : State) (d : LowReg) (x y : Word) (b : Bool) :
    ∃ t, s.retireSum (lowReg d) (addWithCarry x (~~~y) (!b)) = .next t ∧ DifferenceRetired s t (lowReg d) x y b :=
  ⟨_, rfl, by simp [addWithCarry_not_result], differenceFlags_nzcv x y b, retired_setX_withApsr _ _ _ _ _⟩

/-- RSBS retires the difference from 0, its terms in the other order (R347). -/
theorem exec_rsb (rd rn : LowReg) (s : State) :
    exec (.rsb rd rn) s = s.retireSum (lowReg rd) (addWithCarry 0#32 (~~~(s.x (lowReg rn))) true) := by
  rw [addWithCarry_comm]
  rfl

/-- SBCS retires a difference whose borrow is the carry inverted (R348). -/
theorem exec_sbc (rd rm : LowReg) (s : State) :
    exec (.sbc rd rm) s
      = s.retireSum (lowReg rd) (addWithCarry (s.x (lowReg rd)) (~~~(s.x (lowReg rm))) (!!s.apsr.c)) := by
  rw [Bool.not_not]
  rfl

/-- Settles O20: each of the five retires a difference, and each halfword is the encoding that the decoder reads
back. -/
theorem subtractSetsFlags : Obligations.SubtractSetsFlags := by
  intro s rd rn rm imm3 imm8 hw2
  rw [exec_sbc, exec_rsb]
  refine ⟨?sbc, ?rsb, ?subImmT1, ?subImmT2, ?subReg, ?_, ?_, ?_, ?_, ?_⟩
  case sbc => exact exists_retireDifference s rd (s.x (lowReg rd)) (s.x (lowReg rm)) (!s.apsr.c)
  case rsb => exact exists_retireDifference s rd 0#32 (s.x (lowReg rn)) false
  case subImmT1 => exact exists_retireDifference s rd (s.x (lowReg rn)) (imm32 imm3) false
  case subImmT2 => exact exists_retireDifference s rd (s.x (lowReg rd)) (imm32 imm8) false
  case subReg => exact exists_retireDifference s rd (s.x (lowReg rn)) (s.x (lowReg rm)) false
  all_goals exact decode_of_encode rfl rfl hw2

/-! ## RORS (R21, R346) -/

theorem shiftC_ror (v : Word) {n : Nat} (h : n ≠ 0) (c : Bool) : shiftC v .ror n c = rorC v n := if_neg h

/-- A rotation brings in from above the bits it moves out below. -/
theorem rorC_getLsbD (v : Word) (n i : Nat) (hi : i < 32) : (rorC v n).1.getLsbD i = v.getLsbD ((i + n) % 32) := by
  simp only [rorC, BitVec.getLsbD_or, BitVec.getLsbD_ushiftRight, BitVec.getLsbD_shiftLeft]
  by_cases hwrap : i + n % 32 < 32
  · have hmod : (i + n) % 32 = n % 32 + i := by omega
    have hlow : i < 32 - n % 32 := by omega
    simp [hmod, hlow]
  · have hmod : (i + n) % 32 = i - (32 - n % 32) := by omega
    have hhigh : ¬ i < 32 - n % 32 := by omega
    rw [hmod, BitVec.getLsbD_of_ge v (n % 32 + i) (by omega)]
    simp [hi, hhigh, -BitVec.getLsbD_eq_getElem]

/-- ROR moves bits modulo 32. -/
theorem shiftC_ror_getLsbD (v : Word) (n : Nat) (c : Bool) (i : Nat) (hi : i < 32) :
    (shiftC v .ror n c).1.getLsbD i = v.getLsbD ((i + n) % 32) := by
  rcases Nat.eq_zero_or_pos n with rfl | h
  · rw [shiftC_zero, Nat.add_zero, Nat.mod_eq_of_lt hi]
  · rw [shiftC_ror v (Nat.ne_of_gt h) c, rorC_getLsbD v n i hi]

/-- The carry of ROR is the last bit moved to the top. -/
theorem shiftC_ror_carry (v : Word) (n : Nat) (c : Bool) :
    (shiftC v .ror n c).2 = if n = 0 then c else v.getLsbD ((31 + n) % 32) := by
  split_ifs with h
  · rw [h, shiftC_zero]
  · rw [shiftC_ror v h c, ← rorC_getLsbD v n 31 (by decide)]
    rfl

/-- Settles O29, from the bits and the carry of ROR; the carry is bit 31 of what is written. -/
theorem rotateBits : Obligations.RotateBits := by
  intro s rd rm hw2
  rw [← regShift_eq]
  refine ⟨?ror, decode_of_encode rfl rfl hw2⟩
  case ror =>
    obtain ⟨t, ht, hbits, hretired⟩ := exists_retireShift (s := s) (d := rd) (n := regShift (s.x (lowReg rm)))
      (shiftC_ror_getLsbD (s.x (lowReg rd)) _ _) (shiftC_ror_carry _ _ _)
    rw [← hbits 31 (by decide)] at hretired
    exact ⟨t, ht, hbits, hretired⟩

/-! ## Extensions (R395, R396, R400, R401) -/

/-- A sign extension copies the top bit up. -/
theorem signExtend_getLsbD {w : Nat} (h0 : 0 < w) (x : BitVec w) (i : Nat) (hi : i < 32) :
    (x.signExtend 32).getLsbD i = x.getLsbD (min i (w - 1)) := by
  rw [BitVec.getLsbD_signExtend, decide_eq_true hi, Bool.true_and, BitVec.msb_eq_getLsbD_last]
  split_ifs with hlow
  · rw [Nat.min_eq_left (by omega)]
  · rw [Nat.min_eq_right (by omega)]

/-- A sign extension of the low `w` bits copies the last of them up. -/
theorem signExtend_setWidth_getLsbD {w : Nat} (h0 : 0 < w) (v : Word) (i : Nat) (hi : i < 32) :
    ((v.setWidth w).signExtend 32).getLsbD i = v.getLsbD (min i (w - 1)) := by
  rw [signExtend_getLsbD h0 _ i hi, BitVec.getLsbD_setWidth, decide_eq_true (by omega), Bool.true_and]

/-- A zero extension clears the bits above. -/
theorem setWidth_setWidth_getLsbD {w : Nat} (hw : w ≤ 32) (v : Word) (i : Nat) :
    ((v.setWidth w).setWidth 32).getLsbD i = (decide (i < w) && v.getLsbD i) := by
  have extends32 := extends_setWidth hw
  rcases Nat.lt_or_ge i w with hlow | hhigh
  · rw [decide_eq_true hlow, Bool.true_and]
    exact extends32.low v i hlow
  · rw [decide_eq_false (Nat.not_lt.mpr hhigh), Bool.false_and]
    exact extends32.high v i hhigh

/-! ## Byte reversals (R343 to R345) -/

/-- Four bytes of a word put side by side: byte `k` of the result is byte `p k` of the word. -/
theorem movedBytes_getLsbD (v : Word) (p : Nat → Nat) (i : Nat) (hi : i < 32) :
    (v.extractLsb' (8 * p 3) 8 ++ v.extractLsb' (8 * p 2) 8 ++ v.extractLsb' (8 * p 1) 8
      ++ v.extractLsb' (8 * p 0) 8).getLsbD i = v.getLsbD (8 * p (i / 8) + i % 8) := by
  have byte (k j : Nat) (hij : i = 8 * k + j) (hj : j < 8) :
      (decide (j < 8) && v.getLsbD (8 * p k + j)) = v.getLsbD (8 * p (i / 8) + i % 8) := by
    rw [show i / 8 = k by omega, show i % 8 = j by omega, decide_eq_true hj, Bool.true_and]
  simp only [BitVec.getLsbD_append, BitVec.getLsbD_extractLsb']
  split_ifs with h0 h1 h2
  · exact byte 0 i (by omega) h0
  · exact byte 1 (i - 8) (by omega) h1
  · exact byte 2 (i - 8 - 8) (by omega) h2
  · exact byte 3 (i - 8 - 8 - 8) (by omega) (by omega)

/-- REV reverses the order of the four bytes. -/
theorem rev32_getLsbD (v : Word) (i : Nat) (hi : i < 32) :
    (rev32 v).getLsbD i = v.getLsbD (8 * (3 - i / 8) + i % 8) := by
  simpa only [rev32, Nat.reduceMul, Nat.reduceSub] using movedBytes_getLsbD v (fun k => 3 - k) i hi

/-- REV16 exchanges the two bytes of each halfword. -/
theorem rev16Halves_getLsbD (v : Word) (i : Nat) (hi : i < 32) :
    (rev16Halves v).getLsbD i = v.getLsbD (if i / 8 % 2 = 0 then i + 8 else i - 8) := by
  have hfrom : (if i / 8 % 2 = 0 then i + 8 else i - 8) = 8 * (i / 8 + 1 - 2 * (i / 8 % 2)) + i % 8 := by
    split_ifs <;> omega
  simpa only [rev16Halves, hfrom, Nat.reduceMul, Nat.reduceSub, Nat.reduceMod, Nat.reduceAdd] using
    movedBytes_getLsbD v (fun k => k + 1 - 2 * (k % 2)) i hi

/-- REVSH exchanges the two low bytes and copies bit 7 of the word up. -/
theorem revSignedHalf_getLsbD (v : Word) (i : Nat) (hi : i < 32) :
    (revSignedHalf v).getLsbD i = v.getLsbD (if i < 8 then i + 8 else min (i - 8) 7) := by
  rw [revSignedHalf, signExtend_getLsbD (by decide) _ i hi, BitVec.getLsbD_append, BitVec.getLsbD_extractLsb',
    BitVec.getLsbD_extractLsb']
  by_cases hlow : i < 8
  · rw [Nat.min_eq_left (by omega), if_pos hlow, if_pos hlow, decide_eq_true hlow, Bool.true_and, Nat.add_comm]
  · have hfrom : 0 + (min i (8 + 8 - 1) - 8) = min (i - 8) 7 := by omega
    rw [if_neg (by omega), if_neg hlow, decide_eq_true (by omega), Bool.true_and, hfrom]

/-- The end of an instruction that writes `v` to a low register and no flag, the bits of `v` given. -/
theorem exists_retireValue_bits (s : State) (d : LowReg) {v : Word} {bit : Nat → Bool}
    (hbit : ∀ i < 32, v.getLsbD i = bit i) :
    ∃ t, s.retireValue (lowReg d) v = .next t ∧ ValueRetired s t (lowReg d) (t.x (lowReg d))
      ∧ ∀ i < 32, (t.x (lowReg d)).getLsbD i = bit i := by
  obtain ⟨t, ht, rfl, hapsr, hretired⟩ := valueRetired_retireValue s d v
  exact ⟨t, ht, ⟨rfl, hapsr, hretired⟩, hbit⟩

/-- Settles O30, from the bits of the seven values and the decoding of their encodings. -/
theorem extendAndReverseBits : Obligations.ExtendAndReverseBits := by
  intro s rd rm hw2
  refine ⟨?sxtb, ?sxth, ?uxtb, ?uxth, ?rev, ?rev16, ?revsh, ?_, ?_, ?_, ?_, ?_, ?_, ?_⟩
  case sxtb => exact exists_retireValue_bits s rd (signExtend_setWidth_getLsbD (w := 8) (by decide) _)
  case sxth => exact exists_retireValue_bits s rd (signExtend_setWidth_getLsbD (w := 16) (by decide) _)
  case uxtb => exact exists_retireValue_bits s rd fun i _ => setWidth_setWidth_getLsbD (w := 8) (by decide) _ i
  case uxth => exact exists_retireValue_bits s rd fun i _ => setWidth_setWidth_getLsbD (w := 16) (by decide) _ i
  case rev => exact exists_retireValue_bits s rd (rev32_getLsbD _)
  case rev16 => exact exists_retireValue_bits s rd (rev16Halves_getLsbD _)
  case revsh => exact exists_retireValue_bits s rd (revSignedHalf_getLsbD _)
  all_goals exact decode_of_encode rfl rfl hw2

end Sys2Proof.Machine

/-! UNDEFINED (O8), what ends a wait (O49), SVC that takes SVCall (O53), and SVC with the return from its handler (O58). -/

namespace Sys2Proof.Machine

/-! ## UNDEFINED (R398, R399, R504) -/

/-- Settles O8: both UDF and a step at an UNDEFINED pattern come to `raiseHardFault` with the address of what is there. -/
theorem undefinedTakesHardFault : Obligations.UndefinedTakesHardFault := by
  intro s
  have raises := s.raiseHardFault_raises s.pc (.undefined s.pc)
  refine ⟨fun _ => ?udfT1, fun _ _ => ?udfT2, fun hw1 hw2 hrun hnone hf hd => ?pattern⟩
  case udfT1 => exact raises
  case udfT2 => exact raises
  case pattern =>
    rw [step_of_undefined hrun hnone hf hd]
    exact raises

/-! ## Waits (R423, R424, R535) -/

/-- What ends a WFI is what would preempt with PRIMASK clear (R535). -/
theorem wakesInterrupt_eq (s : State) : s.wakesInterrupt = { s with primask := false }.preempting.isSome := by
  have hfirst (es : List ExcNum) : { s with primask := false }.firstOf es = s.firstOf es := by
    induction es with
    | nil => rfl
    | cons e es ih => simp only [State.firstOf, ih]; rfl
  simp only [State.wakesInterrupt, State.preempting, State.pendingAbove, hfirst]
  rfl

/-- Settles O49: the branches of the two waits in their order. -/
theorem waitsEnd : Obligations.WaitsEnd := by
  intro s
  refine ⟨fun hrun => ?event, fun hrun => ?interrupt⟩
  case event =>
    have hstep : step s = s.awaitEvent := by rw [step, hrun]
    rw [hstep, State.awaitEvent]
    refine ⟨fun he => ?_, fun he hnone => ?_, fun he hsome => ?_⟩
    · exact ⟨_, if_pos he, rfl, rfl, rfl⟩
    · rw [if_neg (Bool.eq_false_iff.mp he), hnone]
      rfl
    · rw [if_neg (Bool.eq_false_iff.mp he), if_pos (Option.isSome_iff_ne_none.mpr hsome)]
      exact ⟨_, rfl, rfl, rfl⟩
  case interrupt =>
    have hstep : step s = s.awaitInterrupt := by rw [step, hrun]
    rw [hstep, State.awaitInterrupt, wakesInterrupt_eq]
    refine ⟨fun hsome => ?_, fun hnone => ?_⟩
    · exact ⟨_, if_pos (Option.isSome_iff_ne_none.mpr hsome), rfl, rfl⟩
    · rw [hnone]
      rfl

/-! ## SVC (R394, R502) -/

/-- Every exception is of higher priority than Thread mode (R505, R507). -/
theorem State.priority_lt_thread (s : State) (e : ExcNum) : s.priority e < 256 := by
  have hlevel := (levelOf s.cfg.levels e).isLt
  unfold State.priority
  split_ifs <;> omega

/-- SVCall is of higher priority than what executes, with PRIMASK clear, in Thread mode or in a handler of lower
priority (R502). -/
theorem svCall_preempts {s : State} (hp : s.primask = false)
    (h : s.mode = .thread ∨ (s.mode = .handler ∧ s.priority 11#6 < s.priority s.ipsr)) :
    s.priority excSvCall < s.execPriority := by
  rw [State.execPriority, if_neg (Bool.eq_false_iff.mp hp), State.basePriority]
  rcases h with hm | ⟨hm, hlt⟩
  · rw [if_neg (by simp [hm])]
    exact s.priority_lt_thread excSvCall
  · rw [if_pos hm]
    exact hlt

/-- SVC takes SVCall where it is of higher priority than what executes (R502). -/
theorem exec_svc_takes {s : State} (h : s.priority excSvCall < s.execPriority) (imm8 : BitVec 8) :
    exec (.svc imm8) s = s.takeException 11#6 (s.pc + 2#32) := if_pos h

/-- Settles O53: SVC comes to `takeException`, whatever its immediate is. -/
theorem svcTakesSvcall : Obligations.SvcTakesSvcall := by
  intro s imm8 hp h
  rw [exec_svc_takes (svCall_preempts hp h)]
  refine ⟨fun htake => State.takeException_taken htake _, fun hterminal => ?_⟩
  exact ⟨_, State.takeException_terminal hterminal _ _, ⟨rfl, rfl⟩, rfl⟩

/-! ## The return to Thread mode (R511, R520) -/

/-- Where the return value that entry gives LR in Thread mode leads: back to the stack in use. -/
def State.threadReturn (s : State) : ReturnTo := if s.control.spSel then .threadProcess else .threadMain

theorem threadReturn_mode (s : State) : s.threadReturn.mode = .thread := by
  unfold State.threadReturn
  split <;> rfl

theorem threadReturn_process (s : State) : s.threadReturn.process = s.control.spSel := by
  unfold State.threadReturn
  cases s.control.spSel <;> rfl

/-- In Thread mode CONTROL.SPSEL selects the stack pointer (R530). -/
theorem usesPsp_of_thread {s : State} (h : s.mode = .thread) : s.usesPsp = s.control.spSel := by
  simp [State.usesPsp, h]

section
variable {s t : State} {e : ExcNum} {ret : Word} (hm : s.mode = .thread) (h : Entered s t e ret)
include hm h

/-- LR after entry from Thread mode is an exception return value to the stack that was in use (R511). -/
theorem Entered.lr_bits :
    (t.x 14#4).extractLsb' 28 4 = 0b1111#4 ∧ (t.x 14#4).extractLsb' 0 4 = s.threadReturn.bits := by
  obtain ⟨-, -, -, -, -, hlr, -⟩ := h
  rw [State.x_at_lr, hlr, if_neg (by simp [hm]), State.threadReturn]
  cases s.control.spSel <;> exact ⟨rfl, rfl⟩

/-- The stack pointer of that return is the frame that entry stored. -/
theorem Entered.returnSp : t.returnSp s.threadReturn = frameBase s := by
  obtain ⟨-, -, hsp, -⟩ := h
  rw [usesPsp_of_thread hm] at hsp
  unfold State.threadReturn
  cases hspSel : s.control.spSel <;> rw [hspSel] at hsp <;> exact hsp.1

end

/-- A handler can read the words it can write where their regions permit reads (R108, R530). -/
theorem readableWords_of_writable {s t : State} {a : Word} {n : Nat} (hw : WritableWords s a n)
    (hregions : ∀ k < n, s.cfg.regions.any (fun r => decide (r.base ≤ (a + 4#32 * BitVec.ofNat 32 k).toNat)
      && decide ((a + 4#32 * BitVec.ofNat 32 k).toNat + 4 ≤ r.base + r.size) && r.canRead) = true)
    (hm : t.mode = .handler) (hcfg : t.cfg = s.cfg) : ReadableWords t a n := fun k hk =>
  (readable_handler hm _ _).mpr ⟨(hw k hk).1, by rw [hcfg]; exact hregions k hk⟩

/-! ## A frame stored and popped (R511, R520) -/

/-- `u` has what the frame of an exception taken in `s` holds, with the pc at the return address. -/
structure Resumed (s u : State) (ret : Word) : Prop where
  low : ∀ i : RegNum, i.toNat < 4 → u.x i = s.x i
  r12 : u.x 12#4 = s.x 12#4
  lr : u.lr = s.lr
  pc : u.pc = align2 ret
  apsr : u.apsr = s.apsr
  t : u.t = s.t
  ipsr : u.ipsr = s.ipsr
  sp : u.sp = s.sp

/-- The stack pointer in use is word aligned (R53). -/
theorem State.Inv.sp_aligned {s : State} (h : s.Inv) : s.sp.toNat % 4 = 0 := by
  rw [aligned_iff_and, State.sp]
  split
  · exact h.pspAligned
  · exact h.mspAligned

/-- Popping a frame gives back what was stored, as the bytes of memory are those of one word. -/
theorem resumed_of_framePopped {s t u : State} {ret : Word} (hinv : s.Inv) (hframe : FrameStored s t ret)
    (hpopped : FramePopped t u (frameBase s)) : Resumed s u ret := by
  obtain ⟨s0, s1, s2, s3, s12, slr, sret, xpsr, sxpsr, sn, sz, sc, sv, st, salign, sipsr, -⟩ := hframe
  obtain ⟨p0, p1, p2, p3, p12, plr, ⟨ret', pret, ppc⟩, xpsr', pxpsr, pn, pz, pc, pv, pt, pipsr, psp⟩ := hpopped
  obtain rfl : ret' = ret := stored_unique pret sret
  obtain rfl : xpsr' = xpsr := stored_unique pxpsr sxpsr
  have hbase : (frameBase s).toNat % 4 = 0 := (aligned_iff_and _).mpr hinv.frameBase_aligned
  refine
    { low := fun i hi => ?low
      r12 := stored_unique p12 s12
      lr := stored_unique plr slr
      pc := ppc
      apsr := ?apsr
      t := pt.trans st
      ipsr := pipsr.trans sipsr
      sp := ?sp }
  case low =>
    have hcases : i = 0#4 ∨ i = 1#4 ∨ i = 2#4 ∨ i = 3#4 := by revert i; decide
    rcases hcases with rfl | rfl | rfl | rfl
    · exact stored_unique p0 s0
    · exact stored_unique p1 s1
    · exact stored_unique p2 s2
    · exact stored_unique p3 s3
  case apsr =>
    calc u.apsr = ⟨u.apsr.n, u.apsr.z, u.apsr.c, u.apsr.v⟩ := rfl
      _ = ⟨s.apsr.n, s.apsr.z, s.apsr.c, s.apsr.v⟩ := by rw [pn, pz, pc, pv, sn, sz, sc, sv]
  case sp =>
    rw [psp, ← poppedSp_of_aligned hbase]
    exact poppedSp_frame s.sp xpsr' hinv.sp_aligned salign

/-- R0 to R12 are what they read as. -/
theorem regs_eq_of_x {s u : State} (h : ∀ i : RegNum, i.toNat < 13 → u.x i = s.x i) : u.regs = s.regs := by
  refine Vector.ext fun k hk => ?_
  have hnum : (BitVec.ofNat 4 k).toNat = k := by rw [BitVec.toNat_ofNat]; omega
  have hx := h (BitVec.ofNat 4 k) (by omega)
  rw [State.x_general _ (by omega), State.x_general _ (by omega)] at hx
  simpa only [hnum] using hx

/-- R0 to R12 come back: the frame holds R0 to R3 and R12, and the return leaves R4 to R11. -/
theorem Resumed.regs {s u : State} {ret : Word} (h : Resumed s u ret)
    (hhigh : ∀ i : RegNum, 4 ≤ i.toNat → i.toNat < 12 → u.x i = s.x i) : u.regs = s.regs := by
  refine regs_eq_of_x fun i hi => ?_
  rcases (by omega : i.toNat < 4 ∨ (4 ≤ i.toNat ∧ i.toNat < 12) ∨ i.toNat = 12) with hlow | ⟨h4, h12⟩ | heq
  · exact h.low i hlow
  · exact hhigh i h4 h12
  · obtain rfl : i = 12#4 := BitVec.eq_of_toNat_eq heq
    exact h.r12

/-- Both stack pointers come back: the frame moved the one in use alone, in entry and in the return. -/
theorem stackPointers_roundTrip {s t u : State} {e : ExcNum} {ret : Word} (hm : s.mode = .thread)
    (hentered : Entered s t e ret) (hreturned : ReturnedTo t u .thread s.control.spSel (frameBase s))
    (hmsp : s.control.spSel = true → u.msp = t.msp) (hsp : u.sp = s.sp) : u.msp = s.msp ∧ u.psp = s.psp := by
  obtain ⟨-, -, hstack, -⟩ := hentered
  obtain ⟨-, humode, hucontrol, hpsp, -⟩ := hreturned
  have huses : u.usesPsp = s.control.spSel := by rw [usesPsp_of_thread humode, hucontrol]
  rw [State.sp, State.sp, huses, usesPsp_of_thread hm] at hsp
  rw [usesPsp_of_thread hm] at hstack
  cases hspSel : s.control.spSel with
  | true =>
    simp only [hspSel, if_true] at hsp hstack
    exact ⟨(hmsp hspSel).trans hstack.2, hsp⟩
  | false =>
    simp only [hspSel, Bool.false_eq_true, if_false] at hsp hstack
    exact ⟨hsp, (hpsp hspSel).trans hstack.2⟩

/-- Settles O58: SVC enters SVCall, `BX LR` returns to the stack that was in use, and the frame popped is the frame
stored. -/
theorem svcReturnRoundTrip : Obligations.SvcReturnRoundTrip := by
  intro s t imm8 hinv hm hp htake hregions hexec
  rw [exec_svc_takes (svCall_preempts hp (.inl hm))] at hexec
  obtain ⟨t', ht', hentered, -⟩ := State.takeException_taken htake (s.pc + 2#32)
  obtain rfl : t' = t := Host.Outcome.next.inj (ht'.symm.trans hexec)
  obtain ⟨hv, hw⟩ := hentered.lr_bits hm
  have hframe := hentered.returnSp hm
  obtain ⟨hstored, hkeeps, -, hregs, -, -, htmode, -, htcontrol, -, htprimask, -, htrun, htcfg, -⟩ := id hentered
  have hreadable : ReadableWords t' (t'.returnSp s.threadReturn) 8 :=
    hframe ▸ readableWords_of_writable htake.2.1 hregions htmode htcfg
  obtain ⟨u, hbx, hreturned, hmsp, hhigh⟩ :=
    exec_bx_returns htmode (by rw [htcontrol]) (by decide) hv hw hreadable
  rw [hframe, threadReturn_mode, threadReturn_process] at hreturned
  rw [threadReturn_process] at hmsp
  obtain ⟨hpopped, humode, hucontrol, -, huprimask, humem, -, hucfg, -, hurun, -⟩ := id hreturned
  have hresumed := resumed_of_framePopped hinv hstored hpopped
  obtain ⟨humsp, hupsp⟩ := stackPointers_roundTrip hm hentered hreturned hmsp hresumed.sp
  have hxhigh (i : RegNum) (h4 : 4 ≤ i.toNat) (h12 : i.toNat < 12) : u.x i = s.x i := by
    rw [hhigh i h4 h12, State.x_general _ (by omega), State.x_general _ (by omega), hregs]
  refine ⟨u, hbx, hresumed.regs hxhigh, hresumed.lr, humsp, hupsp, ?pc, hresumed.apsr, hresumed.t, hresumed.ipsr, humode,
    ?control, huprimask.trans htprimask, hurun.trans htrun, hucfg.trans htcfg, ?memory⟩
  case pc => rw [hresumed.pc, align2_of_even (even_add hinv.pcEven (by decide))]
  case control => rw [hucontrol, htcontrol]
  case memory => exact fun b hb => by rw [humem, hkeeps b hb]

end Sys2Proof.Machine

/-! Handler mode is entered by exceptions alone (O14), what unprivileged Thread code leaves (O15), SVC that escalates
(O54), and a pending exception that preempts (O59). -/

namespace Sys2Proof.Machine

/-! ## CONTROL (R66) -/

/-- MSR alone writes flags and PRIMASK both. -/
theorem eq_msr_of_writes {i : Instr} (h : writesFlags i = true ∧ writesPrimask i = true) :
    ∃ rn sysm sb, i = .msr rn sysm sb := by
  rcases (writesPrimask_iff i).mp h.2 with ⟨im, sb, rfl⟩ | hmsr
  · cases h.1
  · exact hmsr

/-- Any instruction but MSR leaves CONTROL (R66). -/
theorem Edited.control {i : Instr} {s t : State} (h : Edited i s t)
    (hi : ¬ (writesFlags i = true ∧ writesPrimask i = true)) : t.control = s.control := by
  induction h with
  | refl => rfl
  | setX _ d v ih => exact (State.setX_control _ d v).trans ih
  | writeSpecial _ hw _ _ _ => exact absurd hw hi
  | withApsr _ _ _ ih | withPrimask _ _ _ ih | advance _ _ _ ih | branchTo _ _ ih | interworkTo _ _ ih
  | withEvent _ _ ih | withRun _ _ ih | withModified _ _ ih | withMem _ _ _ ih | drewFree _ ih => exact ih

/-! ## What a step from Thread mode comes to -/

/-- `t` is `u`, the run perhaps ended: only the run state and the record of the last fault differ (R510, R522). -/
def Stopped (u t : State) : Prop := t = { u with run := t.run, lastFault := t.lastFault }

/-- What a step from Thread mode comes to: the edits of an instruction, after which the run may end (a wake-up counts as
edits of the instruction that waits); or entry to an exception from a state that still has the CONTROL of `s` (R511). -/
inductive ThreadStep (s t : State) : Prop where
  | stays {i : Instr} {u : State} (hu : Edited i s u) (ht : Stopped u t) : ThreadStep s t
  | enters {u : State} {e : ExcNum} {ret : Word} (hm : u.mode = s.mode) (hc : u.control = s.control) (he : e ≠ 0#6)
      (ht : Entered u t e ret) : ThreadStep s t

theorem ThreadStep.of_raiseHardFault {i : Instr} {s u t : State} {ret : Word} {c : HardFaultCause} (hu : Edited i s u)
    (hc : u.control = s.control) (h : u.raiseHardFault ret c = .next t) : ThreadStep s t := by
  rcases State.raiseHardFault_next h with ⟨_, _, _, rfl⟩ | ⟨_, rfl⟩ | ⟨⟨hentered, -⟩, -⟩
  · exact .stays hu rfl
  · exact .stays hu rfl
  · exact .enters hu.keepsContext.mode hc (by decide) hentered

theorem ThreadStep.of_takeException {i : Instr} {s u t : State} {e : ExcNum} {ret : Word} (hu : Edited i s u)
    (hc : u.control = s.control) (he : e ≠ 0#6) (h : u.takeException e ret = .next t) : ThreadStep s t := by
  rcases State.takeException_next h with ⟨hentered, -⟩ | ⟨_, _, _, rfl⟩ | ⟨_, rfl⟩ | ⟨_, ⟨hentered, -⟩, -⟩
  · exact .enters hu.keepsContext.mode hc he hentered
  · exact .stays hu rfl
  · exact .stays hu rfl
  · exact .enters hu.keepsContext.mode hc (by decide) hentered

/-- MSR stays, and any other instruction leaves CONTROL; in Thread mode no value returns from an exception (R520). -/
theorem ThreadStep.of_exec {i : Instr} {s t : State} (hm : s.mode = .thread) (h : exec i s = .next t) :
    ThreadStep s t := by
  by_cases hi : writesFlags i = true ∧ writesPrimask i = true
  · obtain ⟨rn, sysm, sb, rfl⟩ := eq_msr_of_writes hi
    obtain ⟨r, -, rfl⟩ := exec_msr_next h
    exact .stays ((Edited.refl.writeSpecial hi r _).advance _ rfl) rfl
  · rcases (exec_leads s i).next h with hu | ⟨u, ret, c, hu, hr⟩ | ⟨ret, hr⟩ | ⟨u, a, hu, -, hhandler, -⟩
    · exact .stays hu rfl
    · exact .of_raiseHardFault hu (hu.control hi) hr
    · exact .of_takeException (i := i) .refl rfl (by decide) hr
    · rw [hu.keepsContext.mode, hm] at hhandler
      cases hhandler

theorem ThreadStep.of_runInstruction {s t : State} (hm : s.mode = .thread) (h : s.runInstruction = .next t) :
    ThreadStep s t := by
  unfold State.runInstruction at h
  split at h
  next => exact .of_raiseHardFault (i := .nop) .refl rfl h
  next => cases h
  next =>
    split at h
    next => exact .of_exec hm h
    next e _ =>
      cases e with
      | undefined | truncated => exact .of_raiseHardFault (i := .nop) .refl rfl h
      | unallocatedHint => cases h

/-- What preempts is an asynchronous exception, whose number is not 0 (R505). -/
theorem preempting_ne_zero {s : State} {e : ExcNum} (h : s.preempting = some e) : e ≠ 0#6 := by
  obtain ⟨hfirst, -⟩ := State.pendingAbove_some h
  rintro rfl
  cases State.firstOf_asynchronous hfirst

theorem ThreadStep.of_step {s t : State} (hm : s.mode = .thread) (h : step s = .next t) : ThreadStep s t := by
  unfold step at h
  split at h
  next =>
    split at h
    next e he => exact .of_takeException (i := .nop) .refl rfl (preempting_ne_zero he) h
    next => exact .of_runInstruction hm h
  next =>
    unfold State.awaitEvent at h
    split_ifs at h <;> cases h
    · exact .stays (i := .wfe) (Edited.refl.withEvent false) rfl
    · exact .stays (i := .wfe) .refl rfl
  next =>
    unfold State.awaitInterrupt at h
    split_ifs at h
    cases h
    exact .stays (i := .wfi) .refl rfl
  next => cases h
  next =>
    unfold State.lockedUp at h
    split_ifs at h
    exact .of_takeException (i := .nop) (Edited.refl.withRun .running) rfl (by decide) h
  next => cases h

/-- Settles O14: of what a step from Thread mode comes to, only entry leaves Thread mode, and entry gives IPSR, LR, the
pc and T. -/
theorem handlerModeOnlyByEntry : Obligations.HandlerModeOnlyByEntry := by
  intro s t hm hstep hhandler
  cases ThreadStep.of_step hm hstep with
  | stays hu ht =>
    have hmode := (congrArg State.mode ht).trans (hu.keepsContext.mode.trans hm)
    exact absurd (hhandler.symm.trans hmode) nofun
  | enters hmu hc he hentered =>
    obtain ⟨-, -, -, -, -, hlr, -, hipsr, -, -, -, -, -, hcfg, -, -, hvector⟩ := hentered
    refine ⟨hipsr ▸ he, ?lr, ?vector⟩
    case lr => rw [hlr, if_neg (by simp [hmu, hm]), hc]
    case vector => rw [hcfg, hipsr]; exact hvector

/-! ## Unprivileged Thread code (R530) -/

/-- `s` is in Thread mode with CONTROL.nPRIV set (R530). -/
structure State.Unprivileged (s : State) : Prop where
  mode : s.mode = .thread
  nPriv : s.control.nPriv = true

/-- CONTROL and the stack pointer that CONTROL does not select in Thread mode are unchanged. -/
structure KeepsPrivilege (s t : State) : Prop where
  control : t.control = s.control
  otherStack : if s.control.spSel then t.msp = s.msp else t.psp = s.psp

theorem KeepsPrivilege.refl (s : State) : KeepsPrivilege s s := ⟨rfl, by split <;> rfl⟩

theorem KeepsPrivilege.trans {s u t : State} (h : KeepsPrivilege s u) (k : KeepsPrivilege u t) :
    KeepsPrivilege s t := by
  refine ⟨k.control.trans h.control, ?_⟩
  have hs := h.otherStack
  have hu := k.otherStack
  rw [h.control] at hu
  split_ifs at hs hu ⊢
  · exact hu.trans hs
  · exact hu.trans hs

/-- A write that leaves CONTROL and both stack pointers. -/
theorem KeepsPrivilege.of_fields {s t : State} (hc : t.control = s.control) (hm : t.msp = s.msp) (hp : t.psp = s.psp) :
    KeepsPrivilege s t := ⟨hc, by split <;> assumption⟩

/-- A write of a register in Thread mode reaches the stack pointer in use alone (R53, R530). -/
theorem keepsPrivilege_setX {s : State} (hm : s.mode = .thread) (d : RegNum) (v : Word) :
    KeepsPrivilege s (s.setX d v) := by
  refine ⟨State.setX_control s d v, ?_⟩
  have hother := (keepsRegs_setX s d v).2.2
  rwa [usesPsp_of_thread hm] at hother

theorem State.Unprivileged.not_privileged {s : State} (h : s.Unprivileged) : ¬ s.privileged = true := by
  simp [State.privileged, h.mode, h.nPriv]

theorem State.Unprivileged.of_keeps {s t : State} (h : s.Unprivileged) (hcontext : KeepsContext s t)
    (hk : KeepsPrivilege s t) : t.Unprivileged := ⟨hcontext.mode.trans h.mode, hk.control ▸ h.nPriv⟩

/-- What an instruction writes without privilege leaves CONTROL and the other stack pointer: MSR writes the flags at
most. -/
theorem Edited.keepsPrivilege {i : Instr} {s t : State} (h : Edited i s t) (hs : s.Unprivileged) :
    KeepsPrivilege s t := by
  induction h with
  | refl => exact .refl s
  | setX hu d v ih => exact ih.trans (keepsPrivilege_setX (hs.of_keeps hu.keepsContext ih).mode d v)
  | writeSpecial hu _ r v ih =>
    rw [writeSpecial_unprivileged (hs.of_keeps hu.keepsContext ih).not_privileged]
    exact ih.trans (.of_fields rfl rfl rfl)
  | withApsr _ _ _ ih | withPrimask _ _ _ ih | advance _ _ _ ih | branchTo _ _ ih | interworkTo _ _ ih
  | withEvent _ _ ih | withRun _ _ ih | withModified _ _ ih | withMem _ _ _ ih | drewFree _ ih =>
    exact ih.trans (.of_fields rfl rfl rfl)

/-- Without privilege neither CPS nor MSR writes PRIMASK (R258, R330). -/
theorem primask_exec_unprivileged {i : Instr} {s t : State} (hs : s.Unprivileged) (h : exec i s = .next t)
    (hi : (∃ im sb, i = .cps im sb) ∨ ∃ rn sysm sb, i = .msr rn sysm sb) : t.primask = s.primask := by
  rcases hi with ⟨im, sb, rfl⟩ | ⟨rn, sysm, sb, rfl⟩
  · by_cases hsb : sb = cpsShouldBe
    · subst hsb
      rw [exec_cps, if_neg hs.not_privileged] at h
      cases h
      rfl
    · rw [exec_shouldBeBits (i := .cps im sb) (beq_eq_false_iff_ne.mpr hsb)] at h
      cases h
  · obtain ⟨r, -, rfl⟩ := exec_msr_next h
    rw [writeSpecial_unprivileged hs.not_privileged]
    rfl

/-- A step without privilege leaves PRIMASK: the instructions that write it would need privilege. -/
theorem primask_step_unprivileged {s t : State} (hs : s.Unprivileged) (h : step s = .next t) :
    t.primask = s.primask := by
  by_contra hne
  obtain ⟨-, -, -, -, i, -, -, hexec, hwriter⟩ := primaskWriters s t h hne
  exact hne (primask_exec_unprivileged hs hexec hwriter)

/-- Settles O15: of what a step from Thread mode comes to, entry leaves Thread mode, and the rest is edits made without
privilege. -/
theorem unprivilegedStaysUnprivileged : Obligations.UnprivilegedStaysUnprivileged := by
  intro s t hm hn hstep hthread
  have hs : s.Unprivileged := ⟨hm, hn⟩
  cases ThreadStep.of_step hm hstep with
  | stays hu ht =>
    have hk := hu.keepsPrivilege hs
    refine ⟨?control, primask_step_unprivileged hs hstep, ?ipsr, ?otherStack⟩
    case control => exact (congrArg State.control ht).trans hk.control
    case ipsr => exact (congrArg State.ipsr ht).trans hu.keepsContext.ipsr
    case otherStack => rw [ht]; exact hk.otherStack
  | enters _ _ _ hentered =>
    obtain ⟨-, -, -, -, -, -, hhandler, -⟩ := hentered
    exact absurd (hhandler.symm.trans hthread) nofun

/-! ## SVC that escalates (R502) -/

/-- SVCall's priority is configurable, so it is none of the negative ones (R505). -/
theorem State.priority_svCall_nonneg (s : State) : 0 ≤ s.priority 11#6 := by
  by_contra hneg
  have hfixed := State.priority_neg (not_le.mp hneg)
  revert hfixed
  decide

/-- Settles O54: SVC comes to `raiseHardFault` where SVCall is not of higher priority than what executes, and that locks
up in the handlers of HardFault and NMI. -/
theorem svcEscalates : Obligations.SvcEscalates := by
  intro s imm8
  have raises (h : s.primask = true ∨ (s.mode = .handler ∧ s.priority s.ipsr ≤ s.priority 11#6)) :
      RaisesHardFault s (exec (.svc imm8) s) (s.pc + 2#32) (.svcEscalated s.pc) := by
    rw [exec_svc_escalates (svCall_escalates h)]
    exact s.raiseHardFault_raises _ _
  refine ⟨raises, fun hm h11 => raises (.inr ⟨hm, by rw [h11]⟩), fun hm he harch => ?lockup⟩
  case lockup =>
    have hescalates : ¬ s.priority excSvCall < s.execPriority :=
      not_lt.mpr ((State.execPriority_le hm he).trans (le_trans (by decide) s.priority_svCall_nonneg))
    rw [exec_svc_escalates hescalates]
    exact raiseHardFault_locksUp ⟨harch, .inl ⟨hm, he⟩⟩ _ _

/-! ## Priority among pending exceptions (R507) -/

/-- `f` does not go before `e`: `e` is of higher priority, or of the same and its number is not above (R507). -/
def State.NotAfter (s : State) (e f : ExcNum) : Prop :=
  s.priority e < s.priority f ∨ (s.priority e = s.priority f ∧ e.toNat ≤ f.toNat)

theorem State.NotAfter.refl (s : State) (e : ExcNum) : s.NotAfter e e := .inr ⟨rfl, le_refl _⟩

theorem State.NotAfter.trans {s : State} {e f g : ExcNum} (h : s.NotAfter e f) (k : s.NotAfter f g) :
    s.NotAfter e g := by
  unfold State.NotAfter at *
  omega

theorem State.precedes_iff (s : State) (e f : ExcNum) :
    s.precedes e f = true ↔ s.priority e < s.priority f ∨ (s.priority e = s.priority f ∧ e.toNat < f.toNat) := by
  simp [State.precedes]

theorem State.notAfter_of_precedes {s : State} {e f : ExcNum} (h : s.precedes e f = true) : s.NotAfter e f :=
  ((s.precedes_iff e f).mp h).imp_right fun ⟨heq, hlt⟩ => ⟨heq, hlt.le⟩

theorem State.notAfter_of_not_precedes {s : State} {e f : ExcNum} (h : ¬ s.precedes e f = true) : s.NotAfter f e := by
  rw [State.precedes_iff] at h
  unfold State.NotAfter
  omega

theorem State.firstOf_none {s : State} {es : List ExcNum} (h : s.firstOf es = none) :
    ∀ f ∈ es, isAsynchronous f = false := by
  induction es with
  | nil => exact nofun
  | cons e es ih =>
    unfold State.firstOf at h
    split at h
    next hnone =>
      split_ifs at h with he
      exact List.forall_mem_cons.mpr ⟨Bool.eq_false_iff.mpr he, ih hnone⟩
    next => split_ifs at h

/-- The first of a list is in it, and no asynchronous exception of the list goes before it (R507). -/
theorem State.firstOf_some {s : State} {es : List ExcNum} {e : ExcNum} (h : s.firstOf es = some e) :
    e ∈ es ∧ ∀ f ∈ es, isAsynchronous f = true → s.NotAfter e f := by
  induction es generalizing e with
  | nil => cases h
  | cons d es ih =>
    unfold State.firstOf at h
    split at h
    next hnone =>
      split_ifs at h
      cases h
      refine ⟨List.mem_cons_self, List.forall_mem_cons.mpr ⟨fun _ => .refl s d, fun f hf hasync => ?_⟩⟩
      exact absurd hasync (Bool.eq_false_iff.mp (State.firstOf_none hnone f hf))
    next g hg =>
      obtain ⟨hmem, hfirst⟩ := ih hg
      split_ifs at h with hd
      · cases h
        have hdg := State.notAfter_of_precedes (Bool.and_eq_true_iff.mp hd).2
        exact ⟨List.mem_cons_self, List.forall_mem_cons.mpr ⟨fun _ => .refl s d, fun f hf hasync =>
          hdg.trans (hfirst f hf hasync)⟩⟩
      · cases h
        refine ⟨List.mem_cons_of_mem d hmem, List.forall_mem_cons.mpr ⟨fun hasync => ?_, hfirst⟩⟩
        exact State.notAfter_of_not_precedes fun hprecedes => hd (Bool.and_eq_true_iff.mpr ⟨hasync, hprecedes⟩)

/-- Settles O59: what preempts is the first of the pending set, and a step comes to `takeException` of it. -/
theorem pendingPreempts : Obligations.PendingPreempts := by
  intro s e hrun hpreempting
  obtain ⟨hfirst, hprio⟩ := State.pendingAbove_some hpreempting
  obtain ⟨hmem, hnotAfter⟩ := State.firstOf_some hfirst
  have hstep : step s = s.takeException e s.pc := by simp [step, hrun, hpreempting]
  rw [hstep]
  refine ⟨hmem, hprio, hnotAfter, fun htake => ?taken, fun hterminal => ?terminal⟩
  case taken =>
    obtain ⟨t, ht, hentered, -⟩ := State.takeException_taken htake s.pc
    exact ⟨t, ht, hentered⟩
  case terminal => exact ⟨_, State.takeException_terminal hterminal e s.pc, ⟨rfl, rfl⟩, rfl⟩

end Sys2Proof.Machine
